-- ==== Sys2Proof/Word.lean ====
section
/-! DEFINITION. The word types of the block (00_scope.md R7, R9) and the data of a bit cursor
(10_state.md R31). No arithmetic of the spec is decided here. -/

namespace Sys2Proof

/-- `u8` of 00_scope.md R9. -/
abbrev Byte := BitVec 8

/-- `u16` of 00_scope.md R9. -/
abbrev Half := BitVec 16

/-- `u32` of 00_scope.md R9, the width of every cursor and length register (R7). -/
abbrev Word := BitVec 32

/-- A BitCursor between two calls (10_state.md R31, R32): the current byte and the number of its
bits not yet returned. The value 8 that 40_bitcursor.md R130 allows inside a call never stands
here. -/
structure BitCursor where
  cur : Byte
  rem : Fin 8
  deriving DecidableEq, Repr, Inhabited

end Sys2Proof
end

