-- ==== Sys2Proof/Config.lean ====
section
/-! DEFINITION. The implementation parameters of 00_scope.md R6, as plain data that a state
carries and no step changes, and the values the spec leaves open, as constants without a body. -/

namespace Sys2Proof

/-- An entry of an LCG table (00_scope.md R6). -/
structure LcgEntry where
  multiplier : Word
  increment : Word
  deriving DecidableEq, Repr, Inhabited

/-- An LCG table: a list of entries of length at least 1 (00_scope.md R6), so its first entry
stands apart. -/
structure LcgTable where
  first : LcgEntry
  rest : List LcgEntry
  deriving DecidableEq, Repr, Inhabited

/-- The entries in index order. -/
def LcgTable.entries (t : LcgTable) : List LcgEntry := t.first :: t.rest

/-- `CIPHER_HDR_ORDER` and `EXF_KEY_BYTE_ORDER` (00_scope.md R6). -/
inductive ByteOrder where
  | big
  | little
  deriving DecidableEq, Repr, Inhabited

/-- `LZ_SCAN_ORDER` (00_scope.md R6, 43_lz_encode.md R192). -/
inductive ScanOrder where
  | farFirst
  | nearFirst
  deriving DecidableEq, Repr, Inhabited

/-- `JPK_TYPE2_MODE` (00_scope.md R6, 30_encoding.md R103). -/
inductive Type2Mode where
  | asType4
  | refuse
  deriving DecidableEq, Repr, Inhabited

/-- `EXF_KEY_INDEX_BASE` (00_scope.md R6, 46_exf.md R261). -/
inductive KeyIndexBase where
  | zero
  | sixteen
  deriving DecidableEq, Repr, Inhabited

/-- `EXF_COUNT_MODE` (00_scope.md R6, 46_exf.md R262). -/
inductive CountMode where
  | minusHeader
  | full
  deriving DecidableEq, Repr, Inhabited

/-- One point of a given function `CRC32` (00_scope.md R6): on the bytes `bytes` its value is
`value`. Log 5. -/
structure CrcPoint where
  bytes : List Byte
  value : Word
  deriving DecidableEq, Repr, Inhabited

/-- The parameter `CRC32` (00_scope.md R6): its default variant, or a given total function as plain
data, its points over an uninterpreted rest. The default is PRESUMED by the spec itself
(93_implementation_defined.md I4). Log 5. -/
inductive CrcVariant where
  | isoHdlc
  | given (points : List CrcPoint)
  deriving DecidableEq, Repr, Inhabited

/-- One point of `EXF_SUBST` (00_scope.md R6) that a configuration states: on the ciphertext byte
`c`, the position `idx` and the key view `kv` its value is `value`. Log 4. -/
structure SubstPoint where
  c : Byte
  idx : BitVec 4
  kv : List Byte
  value : Byte
  deriving DecidableEq, Repr, Inhabited

/-- The implementation parameters (00_scope.md R6), fixed for the life of a block
(70_reset_and_hazards.md R360). A capacity is any integer of at least 16 (R6), so the field holds
the capacity less 16. `LZ_WINDOW` and `LZ_MAX_LEN` are natural numbers (log 33). -/
structure Config where
  ecdLcgTable : LcgTable
  exfLcgTable : LcgTable
  hdrOrder : ByteOrder
  lzWindow : Nat
  lzMaxLen : Nat
  scanOrder : ScanOrder
  inExtra : Nat
  outExtra : Nat
  type2Mode : Type2Mode
  substPoints : List SubstPoint
  keyIndexBase : KeyIndexBase
  countMode : CountMode
  keyByteOrder : ByteOrder
  crc : CrcVariant
  deriving DecidableEq, Repr

/-- `IN_CAP` (00_scope.md R6). -/
def Config.inCap (c : Config) : Nat := c.inExtra + 16

/-- `OUT_CAP` (00_scope.md R6). -/
def Config.outCap (c : Config) : Nat := c.outExtra + 16

/-- `ECD_LCG_TABLE`: OPEN, no source gives it (00_scope.md R6, 41_lcg.md R153). Log 1. -/
opaque Config.openEcdTable : LcgTable

/-- `EXF_LCG_TABLE`: OPEN (00_scope.md R6, 41_lcg.md R153). Log 1. -/
opaque Config.openExfTable : LcgTable

/-- `IN_CAP` less 16: OPEN (00_scope.md R6). Log 1. -/
opaque Config.openInExtra : Nat

/-- `OUT_CAP` less 16: OPEN (00_scope.md R6). Log 1. -/
opaque Config.openOutExtra : Nat

/-- `EXF_SUBST` wherever a configuration states no point of it: OPEN (00_scope.md R6,
46_exf.md R263, R264). Log 4. -/
opaque Config.openSubst : Byte → BitVec 4 → List Byte → Byte

/-- A given function `CRC32` wherever a configuration states no point of it (00_scope.md R6).
Log 5. -/
opaque Config.openCrc : List Byte → Word

/-- What FAULT_INFO holds when the value a fault records does not fit its 32 bits; the spec does
not say. A free value, log 17. -/
opaque Config.wideInfo : Nat → Word

/-- The offset field of a host-conflict descriptor when the byte offset does not fit its 29 bits
(60_exceptions.md R331); the spec does not say. A free value, log 18. -/
opaque Config.wideOffset : Word → BitVec 29

/-- What `out_pos` holds when it would advance to a number that does not fit its 32 bits
(00_scope.md R7); the spec does not say. A free value, log 3. -/
opaque Config.wideOutPos : Nat → Word

/-- The offset field of a match whose offset does not fit 13 bits; the spec gives such a match no
code. A free value, log 33. -/
opaque Config.wideMatchOffset : Nat → BitVec 13

/-- The extension byte of a match whose length does not fit it; the spec gives such a match no
code. A free value, log 33. -/
opaque Config.wideMatchLength : Nat → Byte

/-- The parameters of the block after reset: the value of 00_scope.md R6 where its table gives
one (log 2), an uninterpreted constant where it says OPEN (log 1). -/
def Config.initial : Config where
  ecdLcgTable := Config.openEcdTable
  exfLcgTable := Config.openExfTable
  hdrOrder := .big
  lzWindow := 0x1FFF
  lzMaxLen := 280
  scanOrder := .farFirst
  inExtra := Config.openInExtra
  outExtra := Config.openOutExtra
  type2Mode := .asType4
  substPoints := []
  keyIndexBase := .zero
  countMode := .minusHeader
  keyByteOrder := .little
  crc := .isoHdlc

end Sys2Proof
end

