-- ==== Sys2Proof/Machine/State.lean ====
section
/-! DEFINITION. The state of the block as plain data, the reasons a step can stop, and the state
after reset (10_state.md, 70_reset_and_hazards.md R360). -/

namespace Sys2Proof.Machine

/-- A byte buffer: address and byte pairs, addresses strictly rising. An address not listed holds
no value (10_state.md R41). -/
abbrev Memory := List Host.Cell

/-- The canonical form of a buffer. -/
abbrev Memory.wf (m : Memory) : Prop := m.Pairwise (fun p q => p.1 < q.1)

/-- The byte-addressed buffers (10_state.md R37, R40). -/
inductive Buffer where
  | inBuf
  | outBuf
  | metaBuf
  | keyBuf
  deriving DecidableEq, Repr

/-- The fault kinds of 60_exceptions.md R320. A raised fault is a NEXT state, not a stop. -/
inductive FaultKind where
  | malformedHeader
  | truncated
  | invalidFormat
  | unsupportedOperation
  | backrefUnderflow
  | outputOverrun
  | huffmanIndexRange
  | paramRange
  | illegalCommand
  | hostConflict
  | bufferCapacity
  deriving DecidableEq, Repr

/-- Why the machine stops with a fault. -/
inductive Fault where
  /-- Raised by a HOST move that names a byte of IN or META that does not exist: the move is
  allowed only for `a < IN_CAP` or `a < 16` (47_commands.md R294). Safe: the model stops where the
  spec gives the host no such move (log 14). -/
  | noSuchAddress (b : Buffer) (a : Nat)
  /-- Raised by a HOST move that writes a byte of OUT while the block is idle: OUT is written only by
  the engine's appends (20_memory.md R60, R66) and 47_commands.md R294 gives the host no such move.
  Safe: the model stops where the spec gives the move no effect (log 32). While BUSY = 1 the same move
  is a host conflict and no stop (60_exceptions.md R331). -/
  | outNotWritable (a : Nat)
  deriving DecidableEq, Repr

/-- Why the machine declines a step. -/
inductive Refusal where
  /-- An instruction without a meaning yet. Safe: nothing is claimed of it. -/
  | notModelled (mnemonic : String)
  /-- Raised by any read, by the engine or by the HOST, of a buffer byte that holds no value
  (10_state.md R41, 70_reset_and_hazards.md R365, 93_implementation_defined.md I15, I16). Safe:
  the spec has such a read refused (log 13). -/
  | unwrittenByte (b : Buffer) (a : Nat)
  /-- Raised by a Huffman walk that would read an entry of HT that was not loaded
  (93_implementation_defined.md I16). Safe; the range check of 44_huffman.md R223 comes first, so
  no run reaches it (log 13). -/
  | unwrittenEntry (k : Nat)
  deriving DecidableEq, Repr

/-- The Huffman layer (10_state.md R32). -/
structure HuffState where
  on : Bool
  len : Half
  cursor : BitCursor
  deriving DecidableEq, Repr

/-- The LZ encoder's writer (10_state.md R34). -/
structure Encoder where
  pos : Word
  flag : Byte
  cnt : Fin 9
  isOpen : Bool
  pend : List Byte
  deriving DecidableEq, Repr

/-- Which LCG table a running cipher uses (10_state.md R35). -/
inductive LcgTab where
  | ecd
  | exf
  deriving DecidableEq, Repr

/-- The keystream of a running cipher (10_state.md R35). -/
structure LcgState where
  s : Word
  idx : Half
  tab : LcgTab
  deriving DecidableEq, Repr

/-- The ECD registers (10_state.md R36). -/
structure EcdState where
  chain : Byte
  xorpad : Word
  r10 : Word
  r11 : Byte
  r12 : Byte
  deriving DecidableEq, Repr

/-- The EXF registers (10_state.md R37). -/
structure ExfState where
  kb : Memory
  i : Word
  count : Word
  deriving DecidableEq, Repr

/-- The host-conflict latch (10_state.md R46). -/
structure ConflictLatch where
  isSet : Bool
  info : Word
  deriving DecidableEq, Repr

/-- Where the engine stands (the model's own field, log 8): idle; a CMD word written and still to be
dispatched (47_commands.md R280); or the LZ decode loop (42_lz_decode.md R160). -/
inductive Phase where
  | idle
  | dispatch (cmd : Word)
  | lzDecode
  deriving DecidableEq, Repr

/-- A move of the HOST (47_commands.md R294). A register is named by its word number, its byte
offset divided by 4, so a misaligned or outside access is no move (20_memory.md R68, log 29).
`writeOut` is here because a write of a byte of OUT is an access, and so a conflict, while BUSY = 1
(60_exceptions.md R331); R294 allows it at no time (log 32). -/
inductive HostMove where
  | writeIn (a : Word) (v : Byte)
  | readIn (a : Word)
  | writeMeta (a : Word) (v : Byte)
  | readMeta (a : Word)
  | writeOut (a : Word) (v : Byte)
  | readOut (a : Word)
  | writeReg (r : BitVec 4) (v : Word)
  | readReg (r : BitVec 4)
  | reset
  deriving DecidableEq, Repr

/-- What the HOST does next: a move, or nothing while the engine takes a step (log 7). -/
inductive HostEvent where
  | move (m : HostMove)
  | wait
  deriving DecidableEq, Repr

/-- The state of the block and of its two agents. INVENTORY.md lists every field with the rule
that names it. -/
structure State where
  /-- The implementation parameters (00_scope.md R6). -/
  cfg : Config
  status : Word
  inLen : Word
  outLen : Word
  paramType : Half
  paramLevel : Half
  paramIndex : Half
  paramUnk : Half
  lcgState : Word
  lcgWord : Word
  faultInPos : Word
  faultOutPos : Word
  faultInfo : Word
  inPos : Word
  outPos : Word
  size : Word
  bc : BitCursor
  hf : HuffState
  /-- The loaded entries of HT, from entry 0; no other entry holds a value (10_state.md R33). -/
  ht : List Half
  enc : Encoder
  lcg : LcgState
  ecd : EcdState
  exf : ExfState
  tokOut : Word
  hc : ConflictLatch
  inBuf : Memory
  outBuf : Memory
  metaBuf : Memory
  /-- The model's own (log 8). -/
  phase : Phase
  /-- The model's own: what the HOST will do, oldest first (log 7). -/
  host : List HostEvent
  /-- The model's own: what the last move returned, if it was a read (log 16). -/
  hostData : Option Word
  deriving DecidableEq, Repr

/-- The machine right after reset (10_state.md R42, 70_reset_and_hazards.md R360): every register
0, every buffer without value, the engine idle, the parameters as `Config.initial` gives them. -/
def State.reset : State where
  cfg := Config.initial
  status := 0
  inLen := 0
  outLen := 0
  paramType := 0
  paramLevel := 0
  paramIndex := 0
  paramUnk := 0
  lcgState := 0
  lcgWord := 0
  faultInPos := 0
  faultOutPos := 0
  faultInfo := 0
  inPos := 0
  outPos := 0
  size := 0
  bc := ⟨0, 0⟩
  hf := ⟨false, 0, ⟨0, 0⟩⟩
  ht := []
  enc := ⟨0, 0, 0, false, []⟩
  lcg := ⟨0, 0, .ecd⟩
  ecd := ⟨0, 0, 0, 0, 0⟩
  exf := ⟨[], 0, 0⟩
  tokOut := 0
  hc := ⟨false, 0⟩
  inBuf := []
  outBuf := []
  metaBuf := []
  phase := .idle
  host := []
  hostData := none

end Sys2Proof.Machine
end

