-- ==== Sys2Proof/Machine/Flags.lean ====
section
/-! DEFINITION. The STATUS register: its layout (10_state.md R22), its fields, and the fault codes
(60_exceptions.md R320). The block has no other flags (10_state.md R39). -/

namespace Sys2Proof.Machine

/-- `STATUS` with the given fields, its reserved bits 0 (10_state.md R22). -/
def statusWord (busy done err : Bool) (code lastop : Byte) : Word :=
  0#8 ++ lastop ++ code ++ 0#5 ++ BitVec.ofBool err ++ BitVec.ofBool done ++ BitVec.ofBool busy

/-- `STATUS.BUSY`. -/
def statusBusy (w : Word) : Bool := w.getLsbD 0

/-- `STATUS.DONE`. -/
def statusDone (w : Word) : Bool := w.getLsbD 1

/-- `STATUS.ERR`. -/
def statusErr (w : Word) : Bool := w.getLsbD 2

/-- `STATUS.ERRCODE`. -/
def statusErrCode (w : Word) : Byte := w.extractLsb' 8 8

/-- `STATUS.LASTOP`. -/
def statusLastOp (w : Word) : Byte := w.extractLsb' 16 8

/-- The `ERRCODE` of a fault kind (60_exceptions.md R320). -/
def FaultKind.code : FaultKind → Byte
  | .malformedHeader => 0x01
  | .truncated => 0x02
  | .invalidFormat => 0x03
  | .unsupportedOperation => 0x04
  | .backrefUnderflow => 0x10
  | .outputOverrun => 0x11
  | .huffmanIndexRange => 0x12
  | .paramRange => 0x13
  | .illegalCommand => 0x14
  | .hostConflict => 0x15
  | .bufferCapacity => 0x16

/-- STATUS at a command's start (47_commands.md R280). -/
def statusStarted (op : Byte) : Word := statusWord true false false 0 op

/-- STATUS after a successful completion; LASTOP is kept (47_commands.md R281). -/
def statusCompleted (w : Word) : Word := statusWord false true false 0 (statusLastOp w)

/-- STATUS after a fault; LASTOP is kept (60_exceptions.md R324). -/
def statusFaulted (k : FaultKind) (w : Word) : Word :=
  statusWord false false true k.code (statusLastOp w)

/-- Whether a STATUS value has a form that ever occurs (10_state.md R22, 60_exceptions.md R320):
one of the four combinations of BUSY, DONE and ERR, reserved bits 0, ERRCODE 0 exactly when ERR is
0. -/
def statusLegal (w : Word) : Bool :=
  (statusBusy w, statusDone w, statusErr w) ∈
      [(false, false, false), (true, false, false), (false, true, false), (false, false, true)] &&
  w.extractLsb' 3 5 == 0 && w.extractLsb' 24 8 == 0 &&
  (statusErr w == (statusErrCode w != 0))

end Sys2Proof.Machine
end

