-- ==== Sys2Proof/Machine/Ops.lean ====
section
/-! DEFINITION. The named operations over buffers and registers, the start and the end of a
command, and the ONE operation that takes a fault (60_exceptions.md R324). -/

namespace Sys2Proof.Machine

/-! ### Buffers -/

/-- The byte at an address, if the address holds a value (10_state.md R41). -/
def Memory.read : Memory → Nat → Option Byte
  | [], _ => none
  | (k, v) :: m, a => if k = a then some v else Memory.read m a

/-- A buffer after a byte is stored; it keeps the canonical form. -/
def Memory.write : Memory → Nat → Byte → Memory
  | [], a, b => [(a, b)]
  | (k, v) :: m, a, b =>
    if a < k then (a, b) :: (k, v) :: m
    else if a = k then (a, b) :: m
    else (k, v) :: Memory.write m a b

/-- A buffer in which the bytes at `n` and above hold no value (47_commands.md R281). -/
def Memory.below (m : Memory) (n : Nat) : Memory := m.filter (fun p => decide (p.1 < n))

/-- A buffer after the bytes `bs` are stored from address `a` on. -/
def Memory.writeAll : Memory → Nat → List Byte → Memory
  | m, _, [] => m
  | m, a, b :: bs => Memory.writeAll (Memory.write m a b) (a + 1) bs

/-- The buffer a name stands for. -/
def State.buffer (s : State) : Buffer → Memory
  | .inBuf => s.inBuf
  | .outBuf => s.outBuf
  | .metaBuf => s.metaBuf
  | .keyBuf => s.exf.kb

/-! ### Engine operations -/

/-- Why an engine operation ends before its last statement: a `raise F(info)` (00_scope.md R12), or
a read of something that holds no value. -/
inductive Stop where
  | raise (k : FaultKind) (info : Nat)
  | refuse (r : Refusal)
  deriving DecidableEq, Repr

/-- An operation of the ENGINE. A stop keeps the state at the point where it was raised: no later
statement executes (60_exceptions.md R323). -/
abbrev Engine := EStateM Stop State

/-- `raise F(info)` (00_scope.md R12). -/
def raise {α : Type} (k : FaultKind) (info : Nat) : Engine α := fun s => .error (.raise k info) s

/-- The engine declines to go on. -/
def refuse {α : Type} (r : Refusal) : Engine α := fun s => .error (.refuse r) s

/-- `raise F(info)` if a check holds. -/
def raiseIf (c : Bool) (k : FaultKind) (info : Nat) : Engine Unit :=
  if c then raise k info else pure ()

/-- `MemRead(B, a, 1)` (00_scope.md R10); a byte with no value is refused (10_state.md R41). -/
def memRead (b : Buffer) (a : Nat) : Engine Byte := fun s =>
  match (s.buffer b).read a with
  | some v => .ok v s
  | none => .error (.refuse (.unwrittenByte b a)) s

/-- `out_pos` after a byte was appended (20_memory.md R66). It has 32 bits (00_scope.md R7): an advance
to a number that does not fit them leaves a free value (DESIGN CHOICE, safe, log 3). -/
def nextOutPos (p : Word) : Word :=
  if p.toNat + 1 < 2 ^ 32 then p + 1 else Config.wideOutPos (p.toNat + 1)

/-- The state after a byte is appended to OUT (20_memory.md R66). -/
def State.pushOut (s : State) (v : Byte) : State :=
  { s with outBuf := Memory.write s.outBuf s.outPos.toNat v, outPos := nextOutPos s.outPos }

/-- The OUT append with its capacity check (20_memory.md R66). -/
def append (v : Byte) : Engine Unit := do
  let s ← get
  raiseIf (decide (s.cfg.outCap ≤ s.outPos.toNat)) .bufferCapacity (s.cfg.outCap + 1)
  set (s.pushOut v)

/-- Appends of several bytes, in order. -/
def appendAll : List Byte → Engine Unit
  | [] => pure ()
  | v :: vs => do
    append v
    appendAll vs

/-- The state after `InByte()` has taken a byte. -/
def State.advanceIn (s : State) : State := { s with inPos := s.inPos + 1 }

/-- `InByte()` (40_bitcursor.md R133). -/
def inByte : Engine Byte := do
  let s ← get
  raiseIf (decide (s.inLen.toNat ≤ s.inPos.toNat)) .truncated s.inPos.toNat
  let b ← memRead .inBuf s.inPos.toNat
  modify State.advanceIn
  pure b

/-- `Append(InByte())`, `n` times (47_commands.md R286, R287). -/
def copyIn : Nat → Engine Unit
  | 0 => pure ()
  | n + 1 => do
    let b ← inByte
    append b
    copyIn n

/-! ### Start and end of a command -/

/-- What FAULT_INFO holds for a recorded value: the value, or a free value when it does not fit the
register (DESIGN CHOICE, safe, log 17). -/
def infoWord (n : Nat) : Word := if n < 2 ^ 32 then BitVec.ofNat 32 n else Config.wideInfo n

/-- Taking a fault (60_exceptions.md R324), the one place where it is written: the fault registers,
OUT_LEN and OUT, STATUS, and the engine idle. There is no vector, no saved program counter and no
return (R328). -/
def takeFault (k : FaultKind) (info : Nat) (s : State) : State :=
  { s with
    faultInPos := s.inPos
    faultOutPos := if s.phase = .lzDecode then s.tokOut else s.outPos
    faultInfo := infoWord info
    outLen := 0
    outBuf := []
    status := statusFaulted k s.status
    phase := .idle }

/-- A command that ends with a fault: a latched host conflict takes priority over it
(60_exceptions.md R326, R331). -/
def endWithFault (k : FaultKind) (info : Nat) (s : State) : State :=
  if s.hc.isSet then takeFault .hostConflict s.hc.info.toNat s else takeFault k info s

/-- `Complete()` (47_commands.md R281): OUT_LEN and STATUS are published, bytes of OUT at OUT_LEN
and above hold no value, the engine is idle. -/
def publish (s : State) : State :=
  { s with
    outLen := s.outPos
    outBuf := Memory.below s.outBuf s.outPos.toNat
    status := statusCompleted s.status
    phase := .idle }

/-- A command that reaches its end without a fault of its own: it completes, or ends with the
latched host conflict (60_exceptions.md R331). Its body is over, so no LZ decode is running any
more and FAULT_OUT_POS gets `out_pos` (DEDUCED, unsafe, log 19). -/
def complete (s : State) : State :=
  if s.hc.isSet then takeFault .hostConflict s.hc.info.toNat { s with phase := .idle }
  else publish s

/-- The start of a command (47_commands.md R280): STATUS, and the working state as 10_state.md R43
lists it. The word waits in `phase` for its dispatch. -/
def commandStart (v : Word) (s : State) : State :=
  { s with
    status := statusStarted (v.extractLsb' 0 8)
    inPos := 0
    outPos := 0
    bc := ⟨0, 0⟩
    hf := { s.hf with on := false, cursor := ⟨0, 0⟩ }
    hc := ⟨false, 0⟩
    tokOut := 0
    enc := { s.enc with isOpen := false, cnt := 0, flag := 0, pend := [] }
    outLen := 0
    phase := .dispatch v }

/-- Runs an engine operation as the body of an instruction: what it leaves is passed to `k`, a raised
fault is taken, a refusal stops the machine. -/
def runBody (body : Engine Unit) (k : State → State) (s : State) :
    Host.Outcome State Fault Refusal :=
  match body s with
  | .ok _ s' => .next (k s')
  | .error (.raise f info) s' => .next (endWithFault f info s')
  | .error (.refuse r) _ => .refused r

/-- A command whose whole body runs in one step and then completes (47_commands.md R280, R296). -/
def runCommand (body : Engine Unit) (s : State) : Host.Outcome State Fault Refusal :=
  runBody body complete s

/-- A token of a running LZ decode (42_lz_decode.md R160): the loop goes on after it. -/
def runToken (body : Engine Unit) (s : State) : Host.Outcome State Fault Refusal :=
  runBody body id s

end Sys2Proof.Machine
end

