-- ==== Sys2Proof/Machine/Operands.lean ====
section
/-! DEFINITION. Every operand form: the multi-byte fields in their byte orders (00_scope.md R10,
20_memory.md R61), the header fields, and the lengths and offsets of tokens (30_encoding.md R91). -/

namespace Sys2Proof.Machine

/-! ### Multi-byte fields -/

/-- Assembles `LE16` from the bytes in memory order. -/
def le16 (b0 b1 : Byte) : Half := b1 ++ b0

/-- Assembles `BE16`. -/
def be16 (b0 b1 : Byte) : Half := b0 ++ b1

/-- Assembles `LE32`. -/
def le32 (b0 b1 b2 b3 : Byte) : Word := b3 ++ b2 ++ b1 ++ b0

/-- Assembles `BE32`. -/
def be32 (b0 b1 b2 b3 : Byte) : Word := b0 ++ b1 ++ b2 ++ b3

/-- A 16-bit field in a byte order. -/
def join16 (o : ByteOrder) (b0 b1 : Byte) : Half :=
  match o with
  | .big => be16 b0 b1
  | .little => le16 b0 b1

/-- A 32-bit field in a byte order. -/
def join32 (o : ByteOrder) (b0 b1 b2 b3 : Byte) : Word :=
  match o with
  | .big => be32 b0 b1 b2 b3
  | .little => le32 b0 b1 b2 b3

/-- The bytes of a 16-bit field in memory order. -/
def split16 (o : ByteOrder) (v : Half) : List Byte :=
  match o with
  | .big => [v.extractLsb' 8 8, v.extractLsb' 0 8]
  | .little => [v.extractLsb' 0 8, v.extractLsb' 8 8]

/-- The bytes of a 32-bit field in memory order. -/
def split32 (o : ByteOrder) (v : Word) : List Byte :=
  match o with
  | .big => [v.extractLsb' 24 8, v.extractLsb' 16 8, v.extractLsb' 8 8, v.extractLsb' 0 8]
  | .little => [v.extractLsb' 0 8, v.extractLsb' 8 8, v.extractLsb' 16 8, v.extractLsb' 24 8]

/-- A 16-bit field of a buffer, read bytewise (20_memory.md R64). -/
def field16 (o : ByteOrder) (b : Buffer) (a : Nat) : Engine Half := do
  let b0 ← memRead b a
  let b1 ← memRead b (a + 1)
  pure (join16 o b0 b1)

/-- A 32-bit field of a buffer, read bytewise (20_memory.md R64). -/
def field32 (o : ByteOrder) (b : Buffer) (a : Nat) : Engine Word := do
  let b0 ← memRead b a
  let b1 ← memRead b (a + 1)
  let b2 ← memRead b (a + 2)
  let b3 ← memRead b (a + 3)
  pure (join32 o b0 b1 b2 b3)

/-- `LE16(IN, a)` (00_scope.md R10). -/
def inLE16 (a : Nat) : Engine Half := field16 .little .inBuf a

/-- `LE32(IN, a)`. -/
def inLE32 (a : Nat) : Engine Word := field32 .little .inBuf a

/-- `H16(B, a)`: the cipher header order (00_scope.md R10). -/
def h16 (b : Buffer) (a : Nat) : Engine Half := do
  let s ← get
  field16 s.cfg.hdrOrder b a

/-- `H32(B, a)`. -/
def h32 (b : Buffer) (a : Nat) : Engine Word := do
  let s ← get
  field32 s.cfg.hdrOrder b a

/-! ### Magic numbers (30_encoding.md R102, R105, R106) -/

/-- The JPK magic `4A 4B 52 1A` read as `LE32`. -/
def jpkMagic : Word := 0x1A524B4A

/-- The ECD magic read as `H32`. -/
def ecdMagic : Word := 0x1A646365

/-- The EXF magic read as `H32`. -/
def exfMagic : Word := 0x1A667865

/-! ### Token operands (30_encoding.md R93 to R98) -/

/-- SHORT: length `l + 3`. -/
def shortLength (l : BitVec 2) : Nat := l.toNat + 3

/-- LONG: length `len_field + 2`. -/
def longLength (lenField : BitVec 3) : Nat := lenField.toNat + 2

/-- LONGX4: length `x + 10`. -/
def longx4Length (x : BitVec 4) : Nat := x.toNat + 10

/-- LONGX8: length `t + 0x1A`. -/
def longx8Length (t : Byte) : Nat := t.toNat + 0x1A

/-- RUN: `count + 0x1B` data bytes. -/
def runLength (count : BitVec 13) : Nat := count.toNat + 0x1B

/-- The source address of a back-reference with this offset field (42_lz_decode.md R161): it is
used only when `offset + 1 <= out_pos`. -/
def copySource (outPos offset : Nat) : Nat := outPos - (offset + 1)

end Sys2Proof.Machine
end

