-- ==== Sys2Proof/Machine/Lcg.lean ====
section
/-! DEFINITION. The LCG keystream (41_lcg.md R150, R151) and the command LCG_NEXT
(47_commands.md R289). -/

namespace Sys2Proof.Machine

/-- The table a selector names (10_state.md R35). -/
def lcgTable (cfg : Config) : LcgTab → LcgTable
  | .ecd => cfg.ecdLcgTable
  | .exf => cfg.exfLcgTable

/-- The number of entries of a table: `ECD_LCG_COUNT` or `EXF_LCG_COUNT`. -/
def lcgCount (cfg : Config) (t : LcgTab) : Nat := (lcgTable cfg t).entries.length

/-- One step of an entry: `s * m + c` reduced mod 2^32 (41_lcg.md R150). -/
def lcgStep (e : LcgEntry) (s : Word) : Word := s * e.multiplier + e.increment

/-- `LcgNext(T, index, s)` (41_lcg.md R150): the new state, which is also the word. -/
def lcgNext (t : LcgTab) (index : Half) (st : Word) : Engine Word := do
  let s ← get
  match (lcgTable s.cfg t).entries[index.toNat]? with
  | none => raise .malformedHeader index.toNat
  | some e => pure (lcgStep e st)

/-- The index check every command makes before its first step (41_lcg.md R152). -/
def checkIndex (t : LcgTab) (index : Half) : Engine Unit := do
  let s ← get
  raiseIf (decide (lcgCount s.cfg t ≤ index.toNat)) .malformedHeader index.toNat

/-- The next keystream word of a running cipher, with `lcg.s` advanced (10_state.md R35). -/
def keyWord : Engine Word := do
  let s ← get
  let w ← lcgNext s.lcg.tab s.lcg.idx s.lcg.s
  modify (fun s => { s with lcg := { s.lcg with s := w } })
  pure w

/-- The table `CMD.TSEL` selects (41_lcg.md R151). -/
def tableOf (tsel : Bool) : LcgTab := if tsel then .exf else .ecd

/-- The body of LCG_NEXT (47_commands.md R289). With a host conflict latched the command ends in a
fault, and a fault leaves both registers unchanged (R289; DEDUCED, unsafe, log 27). -/
def lcgNextBody (tsel : Bool) : Engine Unit := do
  let s ← get
  checkIndex (tableOf tsel) s.paramIndex
  let w ← lcgNext (tableOf tsel) s.paramIndex s.lcgState
  modify (fun s => if s.hc.isSet then s else { s with lcgState := w, lcgWord := w })

/-- LCG_NEXT (47_commands.md R289). -/
def execLcgNext (tsel : Bool) (s : State) : Host.Outcome State Fault Refusal :=
  runCommand (lcgNextBody tsel) s

end Sys2Proof.Machine
end

