-- ==== Sys2Proof/Machine/Ecd.lean ====
section
/-! DEFINITION. The ECD cipher (45_ecd.md R240 to R248), the CRC-32 it seeds from (00_scope.md R6),
and the commands ECD_DECRYPT and ECD_ENCRYPT (47_commands.md R290, R291). -/

namespace Sys2Proof.Machine

/-! ### CRC-32 -/

/-- One bit of CRC-32/ISO-HDLC: the reflected polynomial 0xEDB88320
(93_implementation_defined.md Part 2). -/
def crcBit (c : Word) : Word := if c.getLsbD 0 then (c >>> 1) ^^^ 0xEDB88320#32 else c >>> 1

/-- One byte of CRC-32/ISO-HDLC. -/
def crcByte (c : Word) (b : Byte) : Word := (crcBit)^[8] (c ^^^ b.setWidth 32)

/-- CRC-32/ISO-HDLC: initial value and final XOR 0xFFFFFFFF (93_implementation_defined.md Part 2). -/
def crc32IsoHdlc (bs : List Byte) : Word := bs.foldl crcByte 0xFFFFFFFF#32 ^^^ 0xFFFFFFFF#32

/-- A given function `CRC32` (00_scope.md R6): the points the configuration states, else the
uninterpreted function (log 5). -/
def crcGiven (points : List CrcPoint) (bs : List Byte) : Word :=
  match points.find? (fun p => decide (p.bytes = bs)) with
  | some p => p.value
  | none => Config.openCrc bs

/-- The parameter `CRC32` (00_scope.md R6). -/
def crc32 (v : CrcVariant) (bs : List Byte) : Word :=
  match v with
  | .isoHdlc => crc32IsoHdlc bs
  | .given points => crcGiven points bs

/-! ### Keystream seed and network -/

/-- `EcdSeed(crc)` (45_ecd.md R240): the halves swapped, bit 0 forced to 1. -/
def ecdSeed (crc : Word) : Word := ((crc <<< 16) ||| (crc >>> 16)) ||| 1

/-- One round of the diffusion network (45_ecd.md R242). The register form is UNVERIFIED against
any real file, as the spec says (log 6). -/
def ecdRound (e : EcdState) : EcdState :=
  let r10 := e.xorpad ^^^ e.r11.setWidth 32
  { e with
    r10 := r10
    r11 := e.r12
    r12 := (e.r12.setWidth 32 ^^^ r10).setWidth 8
    xorpad := e.xorpad >>> 4 }

/-- `EcdDiffuse(x, xp)` (45_ecd.md R242) on the ECD registers. -/
def ecdDiffuse (x : Byte) (xp : Word) (e : EcdState) : EcdState :=
  (ecdRound)^[8] { e with r11 := x, r12 := x >>> 4, xorpad := xp }

/-- The plaintext byte from the two accumulators (45_ecd.md R243). -/
def ecdJoin (a b : Byte) : Byte := (b &&& 0xF) ||| ((a &&& 0xF) <<< 4)

/-- The ciphertext byte before chaining, from a plaintext byte and the keystream-only accumulators
(45_ecd.md R246). -/
def ecdFold (d a b : Byte) : Byte :=
  let lo := (d &&& 0xF) ^^^ (b &&& 0xF)
  let hi := ((d >>> 4) ^^^ a ^^^ lo) &&& 0xF
  (hi <<< 4) ||| lo

/-- The ECD registers after `EcdDecryptByte(c)` with the keystream word `xp` (45_ecd.md R243); the
chain register then holds the plaintext byte. -/
def ecdDecryptStep (c : Byte) (xp : Word) (e : EcdState) : EcdState :=
  let e' := ecdDiffuse (c ^^^ e.chain) xp e
  { e' with chain := ecdJoin e'.r11 e'.r12 }

/-- The ciphertext byte of `EcdEncryptByte(d)` (45_ecd.md R246). -/
def ecdCipherByte (d : Byte) (xp : Word) (e : EcdState) : Byte :=
  let e' := ecdDiffuse 0 xp e
  ecdFold d e'.r11 e'.r12 ^^^ e.chain

/-- The ECD registers after `EcdEncryptByte(d)` (45_ecd.md R246); it chains on the plaintext byte. -/
def ecdEncryptStep (d : Byte) (xp : Word) (e : EcdState) : EcdState :=
  { ecdDiffuse 0 xp e with chain := d }

/-! ### The byte steps and bodies -/

/-- The state with the ECD registers replaced. -/
def State.withEcd (e : EcdState) (s : State) : State := { s with ecd := e }

/-- `EcdDecryptByte(c)` (45_ecd.md R243). -/
def ecdDecryptByte (c : Byte) : Engine Byte := do
  let xp ← keyWord
  let s ← get
  let e := ecdDecryptStep c xp s.ecd
  set (s.withEcd e)
  pure e.chain

/-- `EcdEncryptByte(d)` (45_ecd.md R246). -/
def ecdEncryptByte (d : Byte) : Engine Byte := do
  let xp ← keyWord
  let s ← get
  set (s.withEcd (ecdEncryptStep d xp s.ecd))
  pure (ecdCipherByte d xp s.ecd)

/-- The seed and the chain seed (45_ecd.md R240, R241): one keystream word whose low byte is the
chain byte. -/
def ecdInit (crc : Word) : Engine Unit := do
  modify (fun s => { s with lcg := { s.lcg with s := ecdSeed crc } })
  let w ← keyWord
  modify (fun s => { s with ecd := { s.ecd with chain := w.setWidth 8 } })

/-- The loop of `EcdDecryptBody` (45_ecd.md R244). -/
def ecdDecryptLoop : Nat → Engine Unit
  | 0 => pure ()
  | n + 1 => do
    let c ← inByte
    let p ← ecdDecryptByte c
    append p
    ecdDecryptLoop n

/-- The loop of `EcdEncryptBody` (45_ecd.md R248). -/
def ecdEncryptLoop : Nat → Engine Unit
  | 0 => pure ()
  | n + 1 => do
    let d ← inByte
    let c ← ecdEncryptByte d
    append c
    ecdEncryptLoop n

/-- The state with the input cursor set. -/
def State.withInPos (v : Word) (s : State) : State := { s with inPos := v }

/-- `EcdDecryptBody(n)` (45_ecd.md R244). -/
def ecdDecryptBody (n : Nat) : Engine Unit := do
  let crc ← h32 .inBuf 12
  ecdInit crc
  modify (State.withInPos 16)
  ecdDecryptLoop n

/-- The bytes `IN[a .. a+n-1]`. -/
def inBytes : Nat → Nat → Engine (List Byte)
  | _, 0 => pure []
  | a, n + 1 => do
    let b ← memRead .inBuf a
    let bs ← inBytes (a + 1) n
    pure (b :: bs)

/-- The header of ECD_ENCRYPT (45_ecd.md R247): magic, the index bytes of META, two zero bytes,
IN_LEN and the CRC. -/
def ecdHeader (crc : Word) : Engine Unit := do
  let s ← get
  let m4 ← memRead .metaBuf 4
  let m5 ← memRead .metaBuf 5
  appendAll (split32 s.cfg.hdrOrder ecdMagic ++ [m4, m5] ++ [0, 0] ++
    split32 s.cfg.hdrOrder s.inLen ++ split32 s.cfg.hdrOrder crc)

/-- `EcdEncryptBody(n)` (45_ecd.md R248). -/
def ecdEncryptBody (crc : Word) (n : Nat) : Engine Unit := do
  ecdInit crc
  modify (State.withInPos 0)
  ecdEncryptLoop n

/-! ### The commands -/

/-- The check `IN_LEN <= IN_CAP` of every command that reads IN (47_commands.md R283). -/
def checkInCap : Engine Unit := do
  let s ← get
  raiseIf (decide (s.cfg.inCap < s.inLen.toNat)) .bufferCapacity s.inLen.toNat

/-- The check that a header fits the input (47_commands.md R284, R290, R292). -/
def checkHeaderLen : Engine Unit := do
  let s ← get
  raiseIf (decide (s.inLen.toNat < 16)) .malformedHeader s.inLen.toNat

/-- The check of an output length against OUT_CAP (47_commands.md R283). -/
def checkOutCap (n : Nat) : Engine Unit := do
  let s ← get
  raiseIf (decide (s.cfg.outCap < n)) .bufferCapacity n

/-- Selects the LCG table and the validated index of a cipher (47_commands.md R290 to R292). -/
def selectLcg (t : LcgTab) (index : Half) : Engine Unit :=
  modify (fun s => { s with lcg := { s.lcg with tab := t, idx := index } })

/-- The body of ECD_DECRYPT (47_commands.md R290). -/
def ecdDecryptCommand : Engine Unit := do
  checkInCap
  checkHeaderLen
  let magic ← h32 .inBuf 0
  raiseIf (magic != ecdMagic) .malformedHeader magic.toNat
  let index ← h16 .inBuf 4
  checkIndex .ecd index
  let n ← h32 .inBuf 8
  checkOutCap n.toNat
  selectLcg .ecd index
  ecdDecryptBody n.toNat

/-- The body of ECD_ENCRYPT (47_commands.md R291). -/
def ecdEncryptCommand : Engine Unit := do
  checkInCap
  let index ← h16 .metaBuf 4
  checkIndex .ecd index
  let s ← get
  checkOutCap (16 + s.inLen.toNat)
  selectLcg .ecd index
  let p ← inBytes 0 s.inLen.toNat
  ecdHeader (crc32 s.cfg.crc p)
  ecdEncryptBody (crc32 s.cfg.crc p) s.inLen.toNat

/-- ECD_DECRYPT (47_commands.md R290). -/
def execEcdDecrypt (s : State) : Host.Outcome State Fault Refusal := runCommand ecdDecryptCommand s

/-- ECD_ENCRYPT (47_commands.md R291). -/
def execEcdEncrypt (s : State) : Host.Outcome State Fault Refusal := runCommand ecdEncryptCommand s

end Sys2Proof.Machine
end

