-- ==== Sys2Proof/Machine/Exf.lean ====
section
/-! DEFINITION. The EXF cipher (46_exf.md R260 to R268) and the commands EXF_DECRYPT and EXF_ENCRYPT
(47_commands.md R292, R293). -/

namespace Sys2Proof.Machine

/-! ### Key derivation -/

/-- Writes bytes into the KeyBuffer from index `a` on (10_state.md R37). -/
def writeKey (a : Nat) (bs : List Byte) : Engine Unit :=
  modify (fun s => { s with exf := { s.exf with kb := Memory.writeAll s.exf.kb a bs } })

/-- The rounds of `ExfKey` (46_exf.md R260): `n` of them, the first writing from index `a`. The
keystream state carries from round to round; every word is XORed with the original seed. -/
def exfRounds (seed : Word) : Nat → Nat → Engine Unit
  | 0, _ => pure ()
  | n + 1, a => do
    let w ← keyWord
    let s ← get
    writeKey a (split32 s.cfg.keyByteOrder (w ^^^ seed))
    exfRounds seed n (a + 4)

/-- `ExfKey()` (46_exf.md R260). The index was selected at command start. -/
def exfKey : Engine Unit := do
  let seed ← h32 .inBuf 12
  writeKey 0 (List.replicate 16 0)
  modify (fun s => { s with lcg := { s.lcg with s := seed } })
  exfRounds seed 4 16

/-- The bytes `KB[a .. a+n-1]`. -/
def keyBytes : Nat → Nat → Engine (List Byte)
  | _, 0 => pure []
  | a, n + 1 => do
    let b ← memRead .keyBuf a
    let bs ← keyBytes (a + 1) n
    pure (b :: bs)

/-- `EXF_KEY_INDEX_BASE` as a number (46_exf.md R261). -/
def keyBase : KeyIndexBase → Nat
  | .zero => 0
  | .sixteen => 16

/-- The 16-byte key view `KV` (46_exf.md R261). -/
def keyView : Engine (List Byte) := do
  let s ← get
  keyBytes (keyBase s.cfg.keyIndexBase) 16

/-! ### The payload -/

/-- `EXF_SUBST` (00_scope.md R6, 46_exf.md R263): the points the configuration states, else the
uninterpreted function (log 4). -/
def exfSubst (cfg : Config) (c : Byte) (idx : BitVec 4) (kv : List Byte) : Byte :=
  match cfg.substPoints.find? (fun p => decide (p.c = c ∧ p.idx = idx ∧ p.kv = kv)) with
  | some p => p.value
  | none => Config.openSubst c idx kv

/-- `exf.count` for an input length (46_exf.md R262); `plen = IN_LEN - 16`. -/
def exfCount (m : CountMode) (inLen : Nat) : Nat :=
  match m with
  | .minusHeader => (inLen - 16) - 16
  | .full => inLen - 16

/-- `ExfDecryptByte(c, i)` (46_exf.md R263): the key index is `i & 0xF`. -/
def exfDecryptByte (c : Byte) (i : Word) : Engine Byte := do
  let kv ← keyView
  let s ← get
  pure (exfSubst s.cfg c (i.setWidth 4) kv)

/-- The payload loop of `ExfDecryptBody` (46_exf.md R266): bytes past the count are left as they
were. -/
def exfLoop : Nat → Engine Unit
  | 0 => pure ()
  | n + 1 => do
    let c ← inByte
    let s ← get
    let v ← if s.exf.i < s.exf.count then exfDecryptByte c s.exf.i else pure c
    append v
    modify (fun s => { s with exf := { s.exf with i := s.exf.i + 1 } })
    exfLoop n

/-- `ExfDecryptBody()` (46_exf.md R266): a copy of the whole file, header unchanged (R267). -/
def exfDecryptBody : Engine Unit := do
  exfKey
  let s ← get
  modify (fun s => { s with
    exf := { s.exf with count := BitVec.ofNat 32 (exfCount s.cfg.countMode s.inLen.toNat) } })
  modify (State.withInPos 0)
  copyIn 16
  modify (fun s => { s with exf := { s.exf with i := 0 } })
  exfLoop (s.inLen.toNat - 16)

/-! ### The commands -/

/-- The body of EXF_DECRYPT (47_commands.md R292). -/
def exfDecryptCommand : Engine Unit := do
  checkInCap
  checkHeaderLen
  let magic ← h32 .inBuf 0
  raiseIf (magic != exfMagic) .malformedHeader magic.toNat
  let index ← h16 .inBuf 4
  checkIndex .exf index
  let s ← get
  checkOutCap s.inLen.toNat
  selectLcg .exf index
  exfDecryptBody

/-- EXF_DECRYPT (47_commands.md R292). -/
def execExfDecrypt (s : State) : Host.Outcome State Fault Refusal := runCommand exfDecryptCommand s

/-- EXF_ENCRYPT (47_commands.md R293): its whole effect is the fault `UnsupportedOperation(7)`,
before any input is read (46_exf.md R269). -/
def execExfEncrypt (s : State) : Host.Outcome State Fault Refusal :=
  runCommand (raise .unsupportedOperation 7) s

end Sys2Proof.Machine
end

