-- ==== Sys2Proof/Syntax.lean ====
section
/-! DEFINITION. The instructions of the block: the six tokens of the LZ stream and the seven host
commands, one constructor per row of spec/opcode_table.json. -/

namespace Sys2Proof

/-- An instruction. A token carries the fields its head holds (30_encoding.md R91); the data bytes
of a RUN are read by its meaning, after its overrun check (42_lz_decode.md R168). -/
inductive Instr where
  /-- LIT (30_encoding.md R92): the literal byte. -/
  | lit (b : Byte)
  /-- SHORT (R93): `l`, length less 3, and the offset field. -/
  | short (l : BitVec 2) (o : Byte)
  /-- LONG (R95): `len_field`, length less 2 and never 0, and the offset field. -/
  | long (lenField : BitVec 3) (offset : BitVec 13)
  /-- LONGX4 (R96): the offset field and the extension, length less 10. -/
  | longx4 (offset : BitVec 13) (x : BitVec 4)
  /-- LONGX8 (R97): the offset field and the byte `t`, length less 0x1A and never 0xFF. -/
  | longx8 (offset : BitVec 13) (t : Byte)
  /-- RUN (R98): the count field, run length less 0x1B. -/
  | run (count : BitVec 13)
  /-- JPK_DECODE, opcode 0x01 (R107). -/
  | jpkDecode
  /-- JPK_ENCODE, opcode 0x02. -/
  | jpkEncode
  /-- LCG_NEXT, opcode 0x03, with `CMD.TSEL`: false selects the ECD table, true the EXF table
  (10_state.md R21). -/
  | lcgNext (tsel : Bool)
  /-- ECD_DECRYPT, opcode 0x04. -/
  | ecdDecrypt
  /-- ECD_ENCRYPT, opcode 0x05. -/
  | ecdEncrypt
  /-- EXF_DECRYPT, opcode 0x06. -/
  | exfDecrypt
  /-- EXF_ENCRYPT, opcode 0x07. -/
  | exfEncrypt
  deriving DecidableEq, Repr

/-- Whether the instruction is a token of the LZ stream, rather than a host command. -/
def Instr.isToken : Instr → Bool
  | .lit _ => true
  | .short _ _ => true
  | .long _ _ => true
  | .longx4 _ _ => true
  | .longx8 _ _ => true
  | .run _ => true
  | .jpkDecode => false
  | .jpkEncode => false
  | .lcgNext _ => false
  | .ecdDecrypt => false
  | .ecdEncrypt => false
  | .exfDecrypt => false
  | .exfEncrypt => false

end Sys2Proof
end

