-- ==== Sys2Proof/WellFormed.lean ====
section
/-! DEFINITION. Which instructions the encodings can express. The field widths are in the types of
`Instr`; what remains are the two conditions of the table's rows. -/

namespace Sys2Proof

/-- 30_encoding.md R95: a LONG has `len_field != 0`; with 0 it would be another long token.
R97: a LONGX8 has `t != 0xFF`; with 0xFF it would be a RUN. -/
def Instr.wellFormed : Instr → Bool
  | .lit _ => true
  | .short _ _ => true
  | .long lenField _ => lenField != 0
  | .longx4 _ _ => true
  | .longx8 _ t => t != 0xFF
  | .run _ => true
  | .jpkDecode => true
  | .jpkEncode => true
  | .lcgNext _ => true
  | .ecdDecrypt => true
  | .ecdEncrypt => true
  | .exfDecrypt => true
  | .exfEncrypt => true

end Sys2Proof
end

