-- ==== Sys2Proof/Decode.lean ====
section
/-! DEFINITION. Decoding and encoding of both encoding spaces: the LZ token stream
(30_encoding.md R90 to R98) and the CMD word (R107, R108), with the bit cursor and byte-order
helpers they use. -/

namespace Sys2Proof

/-! ### Bit cursor steps (40_bitcursor.md R130) -/

/-- The bit a non-empty cursor returns: bit 7 first, bit 0 last. -/
def BitCursor.bit (c : BitCursor) : Bool := c.cur.getLsbD (c.rem.val - 1)

/-- A non-empty cursor after it has returned a bit. -/
def BitCursor.advance (c : BitCursor) : BitCursor := ⟨c.cur, c.rem - 1⟩

/-- A cursor that has just been refilled with `b` and has returned its bit 7. -/
def BitCursor.refilled (b : Byte) : BitCursor := ⟨b, 7⟩

/-- The bit a refill with `b` returns at once. -/
def BitCursor.firstBit (b : Byte) : Bool := b.getLsbD 7

/-! ### The decision tree, once for every byte source -/

/-- `ReadBits(c, n)` (40_bitcursor.md R131) over any bit reader, from the value `v` read so far:
the first bit read becomes the most significant. -/
def readBitsWith {m : Type → Type} [Monad m] (bit : m Bool) : Nat → Nat → m Nat
  | 0, v => pure v
  | n + 1, v => do
    let b ← bit
    readBitsWith bit n (v * 2 + b.toNat)

/-- The reads of `DecodeToken()` (42_lz_decode.md R162) over any flag-bit reader and byte source,
in the order 30_encoding.md R91 lists them. -/
def decodeTree {m : Type → Type} [Monad m] (bit : m Bool) (byte : m Byte) : m Instr := do
  if ← bit then
    if ← bit then
      let hi ← byte
      let lo ← byte
      let lenField : BitVec 3 := hi.extractLsb' 5 3
      let offset : BitVec 13 := hi.extractLsb' 0 5 ++ lo
      if lenField ≠ 0 then
        pure (.long lenField offset)
      else if ← bit then
        let t ← byte
        if t = 0xFF then pure (.run offset) else pure (.longx8 offset t)
      else
        let x ← readBitsWith bit 4 0
        pure (.longx4 offset (BitVec.ofNat 4 x))
    else
      let l ← readBitsWith bit 2 0
      let o ← byte
      pure (.short (BitVec.ofNat 2 l) o)
  else
    let b ← byte
    pure (.lit b)

/-! ### Decoding plain bytes -/

/-- Why the decoder refuses its input. -/
inductive DecodeError where
  /-- The CMD word is illegal (30_encoding.md R108). -/
  | illegalCommand (v : Word)
  /-- The stream ends inside a token (30_encoding.md R99). -/
  | streamEnded
  deriving DecidableEq, Repr

/-- A token stream held as bytes, with its flag-bit cursor. -/
structure TokenSource where
  cursor : BitCursor
  bytes : List Byte
  deriving DecidableEq, Repr

/-- A stream about to be read from its first byte, its cursor empty (10_state.md R43). -/
def TokenSource.ofBytes (bs : List Byte) : TokenSource := ⟨⟨0, 0⟩, bs⟩

/-- A reader of a byte stream. -/
abbrev StreamReader := EStateM DecodeError TokenSource

/-- The next stream byte. -/
def streamByte : StreamReader Byte := fun src =>
  match src.bytes with
  | [] => .error .streamEnded src
  | b :: bs => .ok b { src with bytes := bs }

/-- The next flag bit, with the refill of 40_bitcursor.md R130. -/
def streamBit : StreamReader Bool := fun src =>
  if src.cursor.rem = 0 then
    match src.bytes with
    | [] => .error .streamEnded src
    | b :: bs => .ok (BitCursor.firstBit b) ⟨BitCursor.refilled b, bs⟩
  else .ok src.cursor.bit { src with cursor := src.cursor.advance }

/-- The head of the next token of a stream, and the stream after it. -/
def decodeToken (src : TokenSource) : Except DecodeError (Instr × TokenSource) :=
  match decodeTree streamBit streamByte src with
  | .ok i src' => .ok (i, src')
  | .error e _ => .error e

/-- A row of the CMD opcode map (30_encoding.md R107). -/
structure CommandRow where
  pattern : Word
  mask : Word
  build : Word → Instr

/-- 30_encoding.md R107, in its order. -/
def commandRows : List CommandRow :=
  [ ⟨0x00000001, 0xFFFFFFFF, fun _ => .jpkDecode⟩,
    ⟨0x00000002, 0xFFFFFFFF, fun _ => .jpkEncode⟩,
    ⟨0x00000003, 0xFFFFFEFF, fun v => .lcgNext (v.getLsbD 8)⟩,
    ⟨0x00000004, 0xFFFFFFFF, fun _ => .ecdDecrypt⟩,
    ⟨0x00000005, 0xFFFFFFFF, fun _ => .ecdEncrypt⟩,
    ⟨0x00000006, 0xFFFFFFFF, fun _ => .exfDecrypt⟩,
    ⟨0x00000007, 0xFFFFFFFF, fun _ => .exfEncrypt⟩ ]

/-- The command a CMD word stands for: a word that matches no row is illegal
(30_encoding.md R107, R108). -/
def decodeCommand (v : Word) : Except DecodeError Instr :=
  match commandRows.find? (fun r => decide (v &&& r.mask = r.pattern)) with
  | some r => .ok (r.build v)
  | none => .error (.illegalCommand v)

/-! ### Encoding -/

/-- One item of a token, in consumption order (30_encoding.md R91): a flag bit or a data byte. -/
inductive Item where
  | flag (b : Bool)
  | data (b : Byte)
  deriving DecidableEq, Repr

/-- A flag field, its high bit first (00_scope.md R8). -/
def flagField {n : Nat} (v : BitVec n) : List Item :=
  (List.range n).map fun k => .flag (v.getMsbD k)

/-- The two data bytes of a long token (30_encoding.md R94): `hi`, then `lo`. -/
def longBytes (lenField : BitVec 3) (offset : BitVec 13) : List Item :=
  [.data (lenField ++ offset.extractLsb' 8 5), .data (offset.extractLsb' 0 8)]

/-- The items of a token's head (30_encoding.md R92 to R98); a command has none. -/
def tokenItems : Instr → List Item
  | .lit b => [.flag false, .data b]
  | .short l o => [.flag true, .flag false] ++ flagField l ++ [.data o]
  | .long lenField offset => [.flag true, .flag true] ++ longBytes lenField offset
  | .longx4 offset x =>
    [.flag true, .flag true] ++ longBytes 0 offset ++ [.flag false] ++ flagField x
  | .longx8 offset t =>
    [.flag true, .flag true] ++ longBytes 0 offset ++ [.flag true, .data t]
  | .run count =>
    [.flag true, .flag true] ++ longBytes 0 count ++ [.flag true, .data 0xFF]
  | .jpkDecode => []
  | .jpkEncode => []
  | .lcgNext _ => []
  | .ecdDecrypt => []
  | .ecdEncrypt => []
  | .exfDecrypt => []
  | .exfEncrypt => []

/-- A flag byte with the flag bit `b` placed as its bit number `cnt`, counted from bit 7 down
(20_memory.md R62, 40_bitcursor.md R135). -/
def placeFlag (flag : Byte) (cnt : Nat) (b : Bool) : Byte :=
  flag ||| ((BitVec.ofBool b).setWidth 8 <<< (7 - cnt))

/-- The bytes of an item sequence written behind an open flag byte `flag` that holds `cnt` bits,
with the data bytes `pend` emitted since: a flag byte goes out when the ninth bit is due and at the
end (40_bitcursor.md R135), which is where the reader refills (R137). -/
def packItems : List Item → Byte → Nat → List Byte → List Byte
  | [], flag, _, pend => flag :: pend
  | .data b :: is, flag, cnt, pend => packItems is flag cnt (pend ++ [b])
  | .flag b :: is, flag, cnt, pend =>
    if cnt = 8 then flag :: pend ++ packItems is (placeFlag 0 0 b) 1 []
    else packItems is (placeFlag flag cnt b) (cnt + 1) pend

/-- The stream bytes of one token that starts on a fresh flag byte; unused low flag bits are 0. -/
def encodeToken (i : Instr) : List Byte := packItems (tokenItems i) 0 0 []

/-- The CMD word of a command (30_encoding.md R107); a token has none. -/
def encodeCommand : Instr → Option Word
  | .lit _ => none
  | .short _ _ => none
  | .long _ _ => none
  | .longx4 _ _ => none
  | .longx8 _ _ => none
  | .run _ => none
  | .jpkDecode => some 0x00000001
  | .jpkEncode => some 0x00000002
  | .lcgNext tsel => some (if tsel then 0x00000103 else 0x00000003)
  | .ecdDecrypt => some 0x00000004
  | .ecdEncrypt => some 0x00000005
  | .exfDecrypt => some 0x00000006
  | .exfEncrypt => some 0x00000007

/-- The code of an instruction in its own encoding space. -/
inductive Code where
  | word (v : Word)
  | stream (bs : List Byte)
  deriving DecidableEq, Repr

/-- The encoder: a CMD word, or the stream bytes of a token on a fresh flag byte. -/
def encode (i : Instr) : Code :=
  match encodeCommand i with
  | some v => .word v
  | none => .stream (encodeToken i)

/-- The decoder of both spaces; of a stream it gives the first token. -/
def decode : Code → Except DecodeError Instr
  | .word v => decodeCommand v
  | .stream bs => (decodeToken (.ofBytes bs)).map Prod.fst

/-! ### The opcode table's words -/

/-- The first `n` bytes of a number, least significant first. -/
def bytesOf (n w : Nat) : List Byte :=
  (List.range n).map fun k => BitVec.ofNat 8 (w / 256 ^ k)

/-- Whether an opcode-table word is a CMD word: the seven command rows have 32 bits. A token head
of 32 bits is a LONGX8 or a RUN, whose flag byte begins with three ones; no CMD word of the map
has such a low byte (DESIGN CHOICE, log 11). -/
def isCommandWord (nbits w : Nat) : Bool := nbits == 32 && decide (w % 256 < 0xE0)

/-- The stream a table word stands for: its bytes in order, then as many zero bytes as the longest
head needs. -/
def tableStream (nbits w : Nat) : List Byte :=
  bytesOf (nbits / 8) w ++ List.replicate 4 0

/-- The instruction the decoder reads from a word of spec/opcode_table.json (log 11). -/
def decodeTableWord (nbits w : Nat) : Option Instr :=
  if isCommandWord nbits w then (decodeCommand (BitVec.ofNat 32 w)).toOption
  else (decode (.stream (tableStream nbits w))).toOption

end Sys2Proof
end

