-- ==== Sys2Proof/Machine/Huffman.lean ====
section
/-! DEFINITION. The two read cursors, the byte sources and the Huffman byte layer
(40_bitcursor.md R130 to R134, 44_huffman.md R220 to R225), and the fetch of a token from the
running decode (42_lz_decode.md R162). -/

namespace Sys2Proof.Machine

/-- `ReadBit(c)` (40_bitcursor.md R130) for the cursor that `get` and `put` name, with its byte
source. When the refill stops, the cursor is unchanged. -/
def readBitOf (get : State → BitCursor) (put : BitCursor → State → State) (src : Engine Byte) :
    Engine Bool := do
  let s ← MonadState.get
  let c := get s
  if c.rem = 0 then
    let b ← src
    modify (put (BitCursor.refilled b))
    pure (BitCursor.firstBit b)
  else
    set (put c.advance s)
    pure c.bit

/-- The state with the Huffman cursor replaced. -/
def State.withHfCursor (c : BitCursor) (s : State) : State := { s with hf := { s.hf with cursor := c } }

/-- The state with the LZ flag-bit cursor replaced. -/
def State.withBc (c : BitCursor) (s : State) : State := { s with bc := c }

/-- `ReadBit(hf)`: the Huffman data cursor refills from `InByte()` (40_bitcursor.md R132). -/
def huffBit : Engine Bool := readBitOf (fun s => s.hf.cursor) State.withHfCursor inByte

/-- The table entry `HT[k]` as the signed value it stands for (10_state.md R33). -/
def huffEntry (k : Nat) : Engine Int := fun s =>
  match s.ht[k]? with
  | some v => .ok v.toInt s
  | none => .error (.refuse (.unwrittenEntry k)) s

/-- The child index of an internal node (44_huffman.md R222); `node >= 0x100`. -/
def childIndex (node : Int) (bit : Bool) : Nat := (node * 2 - 0x200).toNat + bit.toNat

/-- The walk of `HuffByte()` (44_huffman.md R222 to R224) from a node, with the number of data bits
that are left: each pass takes one bit (R227), and with none left the next `ReadBit` is the one
that raises `Truncated(in_pos)` (DEDUCED from R227, safe, log 28). -/
def huffWalk : Nat → Int → Engine Byte
  | 0, node =>
    if node < 0x100 then pure (BitVec.ofInt 8 node)
    else do
      let s ← get
      raise .truncated s.inPos.toNat
  | fuel + 1, node =>
    if node < 0x100 then pure (BitVec.ofInt 8 node)
    else do
      let bit ← huffBit
      let s ← get
      raiseIf (decide (s.hf.len.toNat ≤ childIndex node bit)) .huffmanIndexRange
        (childIndex node bit)
      let next ← huffEntry (childIndex node bit)
      huffWalk fuel next

/-- How many Huffman data bits are left in the input. -/
def State.huffBitsLeft (s : State) : Nat :=
  s.hf.cursor.rem.val + 8 * (s.inLen.toNat - s.inPos.toNat)

/-- `HuffByte()` (44_huffman.md R222): the root is `table_len` itself. -/
def huffByte : Engine Byte := do
  let s ← get
  huffWalk s.huffBitsLeft (Int.ofNat s.hf.len.toNat)

/-- `SrcByte()` (40_bitcursor.md R134). -/
def srcByte : Engine Byte := do
  let s ← get
  if s.hf.on then huffByte else inByte

/-- `ReadBit(bc)`: the LZ flag-bit cursor refills from `SrcByte()` (40_bitcursor.md R132). -/
def lzBit : Engine Bool := readBitOf (fun s => s.bc) State.withBc srcByte

/-- The reads of `DecodeToken()` (42_lz_decode.md R162) by the engine: the next token's head. -/
def fetchToken : Engine Instr := decodeTree lzBit srcByte

/-- The state after one more entry of HT is loaded. -/
def State.pushEntry (s : State) (v : Half) : State := { s with ht := s.ht ++ [v] }

/-- Loads `n` further entries of HT, little-endian (44_huffman.md R220). -/
def loadEntries : Nat → Engine Unit
  | 0 => pure ()
  | n + 1 => do
    let lo ← inByte
    let hi ← inByte
    modify (fun s => s.pushEntry (le16 lo hi))
    loadEntries n

/-- `HuffLoad()` (44_huffman.md R220). Entries at `hf.len` and above hold no value
(10_state.md R33), so the list starts empty. -/
def huffLoad : Engine Unit := do
  let lo ← inByte
  let hi ← inByte
  modify (fun s => { s with hf := { s.hf with len := le16 lo hi }, ht := [] })
  loadEntries (le16 lo hi).toNat

/-- The Huffman cursor setup (44_huffman.md R221). -/
def huffSetup : Engine Unit :=
  modify (fun s => { s with hf := { s.hf with cursor := ⟨0, 0⟩, on := true } })

end Sys2Proof.Machine
end

