-- ==== Sys2Proof/Machine/LzDecode.lean ====
section
/-! DEFINITION. The meanings of the six LZ tokens (42_lz_decode.md R161 to R168). No token writes
STATUS. -/

namespace Sys2Proof.Machine

/-- The copying loop of `CopyBack` (42_lz_decode.md R161): one byte at a time, each read after the
byte before it was written. -/
def copyLoop (offset : Nat) : Nat → Engine Unit
  | 0 => pure ()
  | n + 1 => do
    let s ← get
    let v ← memRead .outBuf (copySource s.outPos.toNat offset)
    append v
    copyLoop offset n

/-- `CopyBack(offset, n)` (42_lz_decode.md R161): both checks come before the first byte. -/
def copyBack (offset n : Nat) : Engine Unit := do
  let s ← get
  raiseIf (decide (s.outPos.toNat < offset + 1)) .backrefUnderflow offset
  raiseIf (decide (s.size.toNat < s.outPos.toNat + n)) .outputOverrun n
  copyLoop offset n

/-- The run bytes of a RUN, each read through `SrcByte()` (42_lz_decode.md R168). -/
def runLoop : Nat → Engine Unit
  | 0 => pure ()
  | n + 1 => do
    let b ← srcByte
    append b
    runLoop n

/-- `RUN` (42_lz_decode.md R168): the overrun check comes before any data byte is read. -/
def runBytes (n : Nat) : Engine Unit := do
  let s ← get
  raiseIf (decide (s.size.toNat < s.outPos.toNat + n)) .outputOverrun n
  runLoop n

/-- LIT (42_lz_decode.md R163). -/
def execLit (b : Byte) (s : State) : Host.Outcome State Fault Refusal := runToken (append b) s

/-- SHORT (42_lz_decode.md R164). -/
def execShort (l : BitVec 2) (o : Byte) (s : State) : Host.Outcome State Fault Refusal :=
  runToken (copyBack o.toNat (shortLength l)) s

/-- LONG (42_lz_decode.md R165). -/
def execLong (lenField : BitVec 3) (offset : BitVec 13) (s : State) :
    Host.Outcome State Fault Refusal :=
  runToken (copyBack offset.toNat (longLength lenField)) s

/-- LONGX4 (42_lz_decode.md R166). -/
def execLongx4 (offset : BitVec 13) (x : BitVec 4) (s : State) :
    Host.Outcome State Fault Refusal :=
  runToken (copyBack offset.toNat (longx4Length x)) s

/-- LONGX8 (42_lz_decode.md R167). -/
def execLongx8 (offset : BitVec 13) (t : Byte) (s : State) : Host.Outcome State Fault Refusal :=
  runToken (copyBack offset.toNat (longx8Length t)) s

/-- RUN (42_lz_decode.md R168). -/
def execRun (count : BitVec 13) (s : State) : Host.Outcome State Fault Refusal :=
  runToken (runBytes (runLength count)) s

end Sys2Proof.Machine
end

