-- ==== Sys2Proof/Machine/LzEncode.lean ====
section
/-! DEFINITION. The LZ encoder: the bit writer (40_bitcursor.md R135), `FindMatch`
(43_lz_encode.md R191, R192) and the greedy main loop (R193 to R197). -/

namespace Sys2Proof.Machine

/-! ### The bit writer -/

/-- `Flush()` (40_bitcursor.md R135). -/
def flush : Engine Unit := do
  let s ← get
  append s.enc.flag
  appendAll s.enc.pend
  modify (fun s => { s with enc := { s.enc with isOpen := false, pend := [] } })

/-- The writer with a fresh flag byte opened, if none is open (40_bitcursor.md R135). -/
def State.openFlag (s : State) : State :=
  if s.enc.isOpen then s
  else { s with enc := { s.enc with isOpen := true, flag := 0, cnt := 0, pend := [] } }

/-- The writer with a bit placed in its open flag byte (40_bitcursor.md R135). -/
def State.placeBit (b : Bool) (s : State) : State :=
  { s with enc := { s.enc with flag := placeFlag s.enc.flag s.enc.cnt.val b, cnt := s.enc.cnt + 1 } }

/-- `EmitBit(b)` (40_bitcursor.md R135): a full flag byte goes out only when a ninth bit is due. -/
def emitBit (b : Bool) : Engine Unit := do
  let s ← get
  if s.enc.isOpen && s.enc.cnt == 8 then flush
  modify (fun s => s.openFlag.placeBit b)

/-- `EmitByte(v)` (40_bitcursor.md R135). -/
def emitByte (v : Byte) : Engine Unit :=
  modify (fun s => { s with enc := { s.enc with pend := s.enc.pend ++ [v] } })

/-- One item of a token. -/
def emitItem : Item → Engine Unit
  | .flag b => emitBit b
  | .data v => emitByte v

/-- The items of a token, in order; a field's high bit goes first (`EmitBits`, R135). -/
def emitItems : List Item → Engine Unit
  | [] => pure ()
  | i :: is => do
    emitItem i
    emitItems is

/-- `Finish()` (40_bitcursor.md R135). -/
def finish : Engine Unit := do
  let s ← get
  if s.enc.isOpen then flush

/-! ### FindMatch -/

/-- How many bytes from `pos + l` on equal those from `p + l` on, at most `fuel` of them, counted
on from `l` (43_lz_encode.md R191). The plaintext is read byte by byte (log 26). -/
def matchLen (pos p : Nat) : Nat → Nat → Engine Nat
  | 0, l => pure l
  | fuel + 1, l => do
    let x ← memRead .inBuf (pos + l)
    let y ← memRead .inBuf (p + l)
    if x = y then matchLen pos p fuel (l + 1) else pure l

/-- The scan of `FindMatch` over the candidates: only a strictly longer match replaces the best one,
and the scan stops at the longest length allowed (43_lz_encode.md R191). -/
def scanMatches (pos nlen : Nat) : List Nat → Nat × Nat → Engine (Nat × Nat)
  | [], best => pure best
  | p :: ps, best => do
    let l ← matchLen pos p nlen 0
    if 3 ≤ l ∧ best.1 < l then
      if l = nlen then pure (l, pos - p - 1) else scanMatches pos nlen ps (l, pos - p - 1)
    else scanMatches pos nlen ps best

/-- `Candidates(lo, pos)` (43_lz_encode.md R192). -/
def candidates (o : ScanOrder) (lo pos : Nat) : List Nat :=
  match o with
  | .farFirst => List.range' lo (pos - lo)
  | .nearFirst => (List.range' lo (pos - lo)).reverse

/-- `FindMatch(pos)` (43_lz_encode.md R191): the length, 0 for no match, and the offset field. -/
def findMatch (pos : Nat) : Engine (Nat × Nat) := do
  let s ← get
  let nlen := min s.paramLevel.toNat (s.inLen.toNat - pos)
  if pos = 0 ∨ nlen < 3 then pure (0, 0)
  else scanMatches pos nlen (candidates s.cfg.scanOrder (pos - min pos s.cfg.lzWindow) pos) (0, 0)

/-! ### The main loop -/

/-- The offset field of a long match (43_lz_encode.md R196, R197). Only an LZ_WINDOW above 0x2000 makes
an offset that does not fit: the field is then a free value (DESIGN CHOICE, safe, log 33). -/
def matchOffset (off : Nat) : BitVec 13 :=
  if off < 2 ^ 13 then BitVec.ofNat 13 off else Config.wideMatchOffset off

/-- The byte `L - 0x1A` of a LONGX8 (43_lz_encode.md R197). Only an LZ_MAX_LEN above 281 makes a length
that does not fit: the byte is then a free value (DESIGN CHOICE, safe, log 33). -/
def matchExtension (len : Nat) : Byte :=
  if len - 0x1A < 2 ^ 8 then BitVec.ofNat 8 (len - 0x1A) else Config.wideMatchLength len

/-- The match token for a length and an offset field (30_encoding.md R100; 43_lz_encode.md R195 to
R197). -/
def matchToken (len off : Nat) : Instr :=
  if len ≤ 6 ∧ off ≤ 0xFF then .short (BitVec.ofNat 2 (len - 3)) (BitVec.ofNat 8 off)
  else if len ≤ 9 then .long (BitVec.ofNat 3 (len - 2)) (matchOffset off)
  else if len ≤ 25 then .longx4 (matchOffset off) (BitVec.ofNat 4 (len - 10))
  else .longx8 (matchOffset off) (matchExtension len)

/-- `EmitLit` and `EmitMatch`: the items of a token (43_lz_encode.md R194 to R197). -/
def emitToken (i : Instr) : Engine Unit := emitItems (tokenItems i)

/-- The state after the encoder has moved on by `n` bytes. -/
def State.advanceEnc (n : Nat) (s : State) : State :=
  { s with enc := { s.enc with pos := s.enc.pos + BitVec.ofNat 32 n } }

/-- One pass of the main loop at `e.pos` (43_lz_encode.md R193). -/
def encodeStep : Engine Unit := do
  let s ← get
  let pos := s.enc.pos.toNat
  let m ← findMatch pos
  if m.1 < 3 then
    let b ← memRead .inBuf pos
    emitToken (.lit b)
    modify (State.advanceEnc 1)
  else
    emitToken (matchToken m.1 m.2)
    modify (State.advanceEnc m.1)

/-- The main loop (43_lz_encode.md R193); each pass moves on by at least one byte (R200), so `IN_LEN`
passes are enough. -/
def encodeLoop : Nat → Engine Unit
  | 0 => pure ()
  | fuel + 1 => do
    let s ← get
    if s.enc.pos.toNat < s.inLen.toNat then
      encodeStep
      encodeLoop fuel

/-- `LzEncode()` (43_lz_encode.md R193). -/
def lzEncode : Engine Unit := do
  modify (fun s => { s with enc := { s.enc with pos := 0 } })
  let s ← get
  encodeLoop s.inLen.toNat
  finish

end Sys2Proof.Machine
end

