-- ==== Sys2Proof/Machine/Jpk.lean ====
section
/-! DEFINITION. The JPK container commands: JPK_DECODE (47_commands.md R284 to R286) and JPK_ENCODE
(R287, R288). -/

namespace Sys2Proof.Machine

/-- The JPK `type` values (30_encoding.md R103), and the reserved rest. -/
inductive JpkType where
  | raw
  | huffRw
  | lz
  | huff
  | reserved
  deriving DecidableEq, Repr

/-- The type a `type` field names (30_encoding.md R103). -/
def jpkType (v : Half) : JpkType :=
  if v = 0 then .raw
  else if v = 2 then .huffRw
  else if v = 3 then .lz
  else if v = 4 then .huff
  else .reserved

/-- `JpkBody(type, off, size)` (47_commands.md R285), up to the LZ loop. The answer says whether an
LZ decode now runs; type 0 is copied here (R286). Type 2 is decoded as type 4. -/
def jpkBody (ty : JpkType) (off size : Word) : Engine Bool := do
  modify (State.withInPos off)
  match ty with
  | .raw =>
    copyIn size.toNat
    pure false
  | .lz =>
    modify (fun s => { s with hf := { s.hf with on := false } })
    pure true
  | .huffRw =>
    huffLoad
    huffSetup
    pure true
  | .huff =>
    huffLoad
    huffSetup
    pure true
  | .reserved => pure false

/-- The body of JPK_DECODE (47_commands.md R284): the start checks in their order, then `JpkBody`. -/
def jpkDecodeCommand : Engine Bool := do
  checkInCap
  checkHeaderLen
  let magic ← inLE32 0
  raiseIf (magic != jpkMagic) .malformedHeader magic.toNat
  let ty ← inLE16 6
  let off ← inLE32 8
  let size ← inLE32 12
  modify (fun s => { s with size := size })
  raiseIf (jpkType ty == .reserved) .invalidFormat ty.toNat
  let s ← get
  raiseIf (jpkType ty == .huffRw && s.cfg.type2Mode == .refuse) .unsupportedOperation 2
  raiseIf (decide (off.toNat < 16 ∨ s.inLen.toNat < off.toNat)) .malformedHeader off.toNat
  checkOutCap size.toNat
  jpkBody (jpkType ty) off size

/-- The state in which the LZ decode loop runs (42_lz_decode.md R160). -/
def State.startDecode (s : State) : State := { s with phase := .lzDecode }

/-- JPK_DECODE (47_commands.md R284). Types 2, 3 and 4 leave the LZ decode running: each token of it
is an instruction of its own (log 8). -/
def execJpkDecode (s : State) : Host.Outcome State Fault Refusal :=
  match jpkDecodeCommand s with
  | .ok true s' => .next s'.startDecode
  | .ok false s' => .next (complete s')
  | .error (.raise f info) s' => .next (endWithFault f info s')
  | .error (.refuse r) _ => .refused r

/-- The 16 header bytes of JPK_ENCODE (30_encoding.md R102, 47_commands.md R288). -/
def jpkHeaderBytes (unk ty : Half) (inLen : Word) : List Byte :=
  split32 .little jpkMagic ++ split16 .little unk ++ split16 .little ty ++
    split32 .little 0x10 ++ split32 .little inLen

/-- `JpkHeader(type)` (47_commands.md R288). -/
def jpkHeader : Engine Unit := do
  let s ← get
  appendAll (jpkHeaderBytes s.paramUnk s.paramType s.inLen)

/-- The body of JPK_ENCODE (47_commands.md R287). -/
def jpkEncodeCommand : Engine Unit := do
  checkInCap
  let s ← get
  let ty := jpkType s.paramType
  raiseIf (ty == .huffRw || ty == .huff) .unsupportedOperation s.paramType.toNat
  raiseIf (ty == .reserved) .invalidFormat s.paramType.toNat
  raiseIf (ty == .lz && decide (s.cfg.lzMaxLen < s.paramLevel.toNat)) .paramRange
    s.paramLevel.toNat
  if ty == .raw then checkOutCap (16 + s.inLen.toNat)
  jpkHeader
  if ty == .raw then
    modify (State.withInPos 0)
    copyIn s.inLen.toNat
  else lzEncode

/-- JPK_ENCODE (47_commands.md R287). -/
def execJpkEncode (s : State) : Host.Outcome State Fault Refusal := runCommand jpkEncodeCommand s

end Sys2Proof.Machine
end

