-- ==== Sys2Proof/Machine/Dispatch.lean ====
section
/-! DEFINITION. The dispatch of an instruction to its meaning, one arm per row of
spec/opcode_table.json. -/

namespace Sys2Proof.Machine

def exec (i : Instr) (s : State) : Host.Outcome State Fault Refusal :=
  match i with
  | .lit b => Sys2Proof.Machine.execLit b s
  | .short l o => Sys2Proof.Machine.execShort l o s
  | .long lenField offset => Sys2Proof.Machine.execLong lenField offset s
  | .longx4 offset x => Sys2Proof.Machine.execLongx4 offset x s
  | .longx8 offset t => Sys2Proof.Machine.execLongx8 offset t s
  | .run count => Sys2Proof.Machine.execRun count s
  | .jpkDecode => Sys2Proof.Machine.execJpkDecode s
  | .jpkEncode => Sys2Proof.Machine.execJpkEncode s
  | .lcgNext tsel => Sys2Proof.Machine.execLcgNext tsel s
  | .ecdDecrypt => Sys2Proof.Machine.execEcdDecrypt s
  | .ecdEncrypt => Sys2Proof.Machine.execEcdEncrypt s
  | .exfDecrypt => Sys2Proof.Machine.execExfDecrypt s
  | .exfEncrypt => Sys2Proof.Machine.execExfEncrypt s

end Sys2Proof.Machine
end

