-- ==== Sys2Proof/Machine/HostPort.lean ====
section
/-! DEFINITION. The moves of the HOST (47_commands.md R294): the register window (10_state.md R20),
the byte accesses, reset (70_reset_and_hazards.md R360, R361), and what a forbidden access does
while a command runs (60_exceptions.md R331). -/

namespace Sys2Proof.Machine

/-- The register whose word number is `r` (10_state.md R20): CMD and the reserved offsets read 0,
and PARAM registers read 0 in their upper half (R25). -/
def readRegister (s : State) (r : BitVec 4) : Word :=
  match r.toNat with
  | 1 => s.status
  | 2 => s.inLen
  | 3 => s.outLen
  | 4 => s.paramType.setWidth 32
  | 5 => s.paramLevel.setWidth 32
  | 6 => s.paramIndex.setWidth 32
  | 7 => s.paramUnk.setWidth 32
  | 8 => s.lcgState
  | 9 => s.lcgWord
  | 10 => s.faultInPos
  | 11 => s.faultOutPos
  | 12 => s.faultInfo
  | _ => 0

/-- A host write to a register while the block is idle (10_state.md R20): CMD starts a command
(R21), PARAM registers keep bits 15:0 (R25), read-only registers and the reserved offsets ignore
the write (20_memory.md R69). -/
def writeRegister (s : State) (r : BitVec 4) (v : Word) : State :=
  match r.toNat with
  | 0 => commandStart v s
  | 2 => { s with inLen := v }
  | 4 => { s with paramType := v.setWidth 16 }
  | 5 => { s with paramLevel := v.setWidth 16 }
  | 6 => { s with paramIndex := v.setWidth 16 }
  | 7 => { s with paramUnk := v.setWidth 16 }
  | 8 => { s with lcgState := v }
  | _ => s

/-- The effect of a reset (70_reset_and_hazards.md R360): the parameters stand, everything else of
the block takes its reset value; what the HOST will do next is not the block's to change. -/
def resetBlock (s : State) : State := { State.reset with cfg := s.cfg, host := s.host }

/-- The offset field of a conflict descriptor for a byte offset (60_exceptions.md R331); one that
does not fit 29 bits leaves a free value (DESIGN CHOICE, safe, log 18). -/
def offsetField (a : Word) : BitVec 29 :=
  if a.toNat < 2 ^ 29 then a.setWidth 29 else Config.wideOffset a

/-- The descriptor of a forbidden access (60_exceptions.md R331): the space, whether it is a write,
the offset. -/
def descriptor (space : BitVec 2) (write : Bool) (a : Word) : Word :=
  space ++ BitVec.ofBool write ++ offsetField a

/-- The byte offset of a register (10_state.md R20). -/
def registerOffset (r : BitVec 4) : Word := r.setWidth 32 <<< 2

/-- The descriptor of a move, and whether it reads; a reset is no access (60_exceptions.md R331). -/
def moveDescriptor : HostMove → Option (Word × Bool)
  | .writeIn a _ => some (descriptor 1 true a, false)
  | .readIn a => some (descriptor 1 false a, true)
  | .writeMeta a _ => some (descriptor 3 true a, false)
  | .readMeta a => some (descriptor 3 false a, true)
  | .writeOut a _ => some (descriptor 2 true a, false)
  | .readOut a => some (descriptor 2 false a, true)
  | .writeReg r _ => some (descriptor 0 true (registerOffset r), false)
  | .readReg r => some (descriptor 0 false (registerOffset r), true)
  | .reset => none

/-- A forbidden access while BUSY = 1 (60_exceptions.md R331): it has no effect, a read returns 0,
and the first one is latched. -/
def conflict (d : Word) (reads : Bool) (s : State) : State :=
  { s with
    hc := if s.hc.isSet then s.hc else ⟨true, d⟩
    hostData := if reads then some 0 else none }

/-- A host read of a buffer byte while idle; a byte with no value is refused (10_state.md R41). -/
def hostRead (b : Buffer) (a : Nat) (s : State) : Host.Outcome State Fault Refusal :=
  match (s.buffer b).read a with
  | some v => .next { s with hostData := some (v.setWidth 32) }
  | none => .refused (.unwrittenByte b a)

/-- A move while the block is idle (47_commands.md R294). A byte of OUT at OUT_LEN or above holds no
value for the host (10_state.md R41), and the host does not write OUT (20_memory.md R60, R66; log 32).
Reads of IN and META: 20_memory.md R60, log 15. -/
def idleMove (m : HostMove) (s : State) : Host.Outcome State Fault Refusal :=
  match m with
  | .writeIn a v =>
    if a.toNat < s.cfg.inCap then
      .next { s with inBuf := Memory.write s.inBuf a.toNat v, hostData := none }
    else .fault (.noSuchAddress .inBuf a.toNat)
  | .readIn a =>
    if a.toNat < s.cfg.inCap then hostRead .inBuf a.toNat s
    else .fault (.noSuchAddress .inBuf a.toNat)
  | .writeMeta a v =>
    if a.toNat < 16 then
      .next { s with metaBuf := Memory.write s.metaBuf a.toNat v, hostData := none }
    else .fault (.noSuchAddress .metaBuf a.toNat)
  | .readMeta a =>
    if a.toNat < 16 then hostRead .metaBuf a.toNat s
    else .fault (.noSuchAddress .metaBuf a.toNat)
  | .writeOut a _ => .fault (.outNotWritable a.toNat)
  | .readOut a =>
    if a.toNat < s.outLen.toNat then hostRead .outBuf a.toNat s
    else .refused (.unwrittenByte .outBuf a.toNat)
  | .writeReg r v => .next { writeRegister s r v with hostData := none }
  | .readReg r => .next { s with hostData := some (readRegister s r) }
  | .reset => .next (resetBlock s)

/-- A move while BUSY = 1: reset and a STATUS read are allowed (47_commands.md R294), every other
access is a conflict (60_exceptions.md R331). -/
def busyMove (m : HostMove) (s : State) : State :=
  if m = .reset then resetBlock s
  else if m = .readReg 1 then { s with hostData := some s.status }
  else
    match moveDescriptor m with
    | some (d, reads) => conflict d reads s
    | none => s

/-- One move of the HOST. -/
def hostMove (m : HostMove) (s : State) : Host.Outcome State Fault Refusal :=
  if statusBusy s.status then .next (busyMove m s) else idleMove m s

end Sys2Proof.Machine
end

