-- ==== Sys2Proof/Machine/Fetch.lean ====
section
/-! DEFINITION. What the ENGINE does in one step: it dispatches a CMD word (47_commands.md R282), runs
one token of the LZ decode (42_lz_decode.md R160), completes, or stays idle
(70_reset_and_hazards.md R362); and the placing of an instruction where the next step fetches. -/

namespace Sys2Proof.Machine

/-- `Dispatch(v)` (47_commands.md R282): an illegal word raises `IllegalCommand(v)`
(30_encoding.md R108). -/
def dispatch (v : Word) (s : State) : Host.Outcome State Fault Refusal :=
  match decodeCommand v with
  | .ok i => exec i s
  | .error _ => .next (endWithFault .illegalCommand v.toNat s)

/-- The state at the start of a token: `tok_out` takes `out_pos` (42_lz_decode.md R160). -/
def State.markToken (s : State) : State := { s with tokOut := s.outPos }

/-- One pass of `LzDecode()` (42_lz_decode.md R160): the next token, or the end of the decode. -/
def decodeStep (s : State) : Host.Outcome State Fault Refusal :=
  if s.outPos.toNat < s.size.toNat then
    match fetchToken s.markToken with
    | .ok i s' => exec i s'
    | .error (.raise f info) s' => .next (endWithFault f info s')
    | .error (.refuse r) _ => .refused r
  else .next (complete s)

/-- One step of the ENGINE. -/
def engineStep (s : State) : Host.Outcome State Fault Refusal :=
  match s.phase with
  | .idle => .next s
  | .dispatch v => dispatch v s
  | .lzDecode => decodeStep s

/-- How many data bytes of its own a decoded instruction takes from the stream after its head
(30_encoding.md R98). -/
def dataBytes : Option Instr → Nat
  | some (.run count) => runLength count
  | _ => 0

/-- The most output one token can make: a RUN of the largest count (30_encoding.md R98). -/
def maxTokenOut : Nat := 8218

/-- The buffer IN that holds exactly these bytes. -/
def bufferOf (bs : List Byte) : Memory := bs.mapIdx (fun k b => (k, b))

/-- A running LZ decode of type 3 whose next token is the first of the stream `bs`; `size` leaves
room for one token if the state leaves none (log 10). -/
def placeStream (bs : List Byte) (s : State) : State :=
  { s with
    status := statusStarted 1
    phase := .lzDecode
    host := []
    inBuf := bufferOf bs
    inLen := BitVec.ofNat 32 bs.length
    inPos := 0
    bc := ⟨0, 0⟩
    hf := { s.hf with on := false }
    size := if s.outPos.toNat < s.size.toNat then s.size
      else BitVec.ofNat 32 (s.outPos.toNat + maxTokenOut) }

/-- A command whose word waits for its dispatch, as a host write to CMD leaves it. -/
def placeCommand (v : Word) (s : State) : State := commandStart v { s with host := [] }

/-- The instruction of an opcode-table word placed where the next step fetches: a CMD word as a
command just started, a token as the next of a running decode (log 10, log 11). -/
def placeWord (nbits w : Nat) (s : State) : State :=
  if isCommandWord nbits w then placeCommand (BitVec.ofNat 32 w) s
  else placeStream
    (tableStream nbits w ++ List.replicate (dataBytes (decodeTableWord nbits w)) 0) s

end Sys2Proof.Machine
end

