-- ==== Sys2Proof/Machine/Step.lean ====
section
/-! DEFINITION. One step of the machine: the HOST's next move if it makes one, else a step of the
ENGINE. -/

namespace Sys2Proof.Machine

/-- One step. The list `host` says which agent moves next (log 7). -/
def step (s : State) : Host.Outcome State Fault Refusal :=
  match s.host with
  | [] => engineStep s
  | .wait :: rest => engineStep { s with host := rest }
  | .move m :: rest => hostMove m { s with host := rest }

/-- The state with an opcode-table word placed where `step` fetches its next instruction. -/
def State.withFetchWord (s : State) (nbits w : Nat) : State := placeWord nbits w s

end Sys2Proof.Machine
end

