-- ==== Sys2Proof/Safety.lean ====
section
/-! DEFINITION. The terms the statements use: what a buffer holds, what a register word reads as,
what a command's end leaves, the invariants of the machine, and reference forms of the ciphers on
plain lists. -/

namespace Sys2Proof.Machine

/-! ### What a buffer holds -/

/-- The bytes at `a .. a+n-1` all hold a value. -/
def HasBytes (m : Memory) (a n : Nat) : Prop := ∀ k < n, (Memory.read m (a + k)).isSome

/-- The byte at an address that holds a value. -/
def byteAt (m : Memory) (a : Nat) : Byte := (Memory.read m a).getD 0

/-- The bytes at `a .. a+n-1`, all of which hold a value. -/
def bytesAt (m : Memory) (a n : Nat) : List Byte := (List.range n).map fun k => byteAt m (a + k)

/-- A buffer that holds the bytes `bs` from address 0 on, and nothing else. -/
def Holds (m : Memory) (bs : List Byte) : Prop := ∀ a, Memory.read m a = bs[a]?

/-- `LE16` at an address (00_scope.md R10). -/
def le16At (m : Memory) (a : Nat) : Half := byteAt m (a + 1) ++ byteAt m a

/-- `LE32` at an address (00_scope.md R10). -/
def le32At (m : Memory) (a : Nat) : Word :=
  byteAt m (a + 3) ++ byteAt m (a + 2) ++ byteAt m (a + 1) ++ byteAt m a

/-- `H16` at an address (00_scope.md R10). -/
def h16At (o : ByteOrder) (m : Memory) (a : Nat) : Half :=
  match o with
  | .big => byteAt m a ++ byteAt m (a + 1)
  | .little => le16At m a

/-- `H32` at an address (00_scope.md R10). -/
def h32At (o : ByteOrder) (m : Memory) (a : Nat) : Word :=
  match o with
  | .big => byteAt m a ++ byteAt m (a + 1) ++ byteAt m (a + 2) ++ byteAt m (a + 3)
  | .little => le32At m a

/-! ### What the host can see -/

/-- Every field of a STATUS word, its reserved bits 0 (10_state.md R22). -/
def StatusReads (w : Word) (busy done err : Bool) (code lastop : Byte) : Prop :=
  w.getLsbD 0 = busy ∧ w.getLsbD 1 = done ∧ w.getLsbD 2 = err ∧ w.extractLsb' 3 5 = 0 ∧
  w.extractLsb' 8 8 = code ∧ w.extractLsb' 16 8 = lastop ∧ w.extractLsb' 24 8 = 0

/-- What a command leaves alone whether it succeeds or faults, LCG_NEXT's own registers apart:
the parameters, the input registers and buffers (10_state.md R44), and the HOST's own fields. -/
def InputsKept (s t : State) : Prop :=
  t.cfg = s.cfg ∧ t.inLen = s.inLen ∧ t.paramType = s.paramType ∧ t.paramLevel = s.paramLevel ∧
  t.paramIndex = s.paramIndex ∧ t.paramUnk = s.paramUnk ∧ t.inBuf = s.inBuf ∧
  t.metaBuf = s.metaBuf ∧ t.host = s.host ∧ t.hostData = s.hostData

/-- A command that began in `s` has ended with a fault in `t` (60_exceptions.md R324): the fault
registers, OUT_LEN, OUT and STATUS as the rule gives them, LCG_STATE and LCG_WORD and the inputs
kept, the engine idle. -/
def FaultResult (s t : State) (code : Byte) (info : Nat) (inPos outPos : Word) : Prop :=
  t.faultInPos = inPos ∧ t.faultOutPos = outPos ∧ t.faultInfo = BitVec.ofNat 32 info ∧
  t.outLen = 0 ∧ t.outBuf = [] ∧
  StatusReads t.status false false true code (s.status.extractLsb' 16 8) ∧
  t.lcgState = s.lcgState ∧ t.lcgWord = s.lcgWord ∧ t.phase = .idle ∧ InputsKept s t

/-- A command that began in `s` has completed in `t` with the output `out` (47_commands.md R281);
the fault registers and the inputs are kept. -/
def CompleteResult (s t : State) (out : List Byte) : Prop :=
  t.outLen = BitVec.ofNat 32 out.length ∧ Holds t.outBuf out ∧
  StatusReads t.status false true false 0 (s.status.extractLsb' 16 8) ∧
  t.faultInPos = s.faultInPos ∧ t.faultOutPos = s.faultOutPos ∧ t.faultInfo = s.faultInfo ∧
  t.phase = .idle ∧ InputsKept s t

/-- A command as its start leaves it (47_commands.md R280, 10_state.md R43), with no conflict
latched since. -/
def Started (s : State) : Prop :=
  s.inPos = 0 ∧ s.outPos = 0 ∧ s.hc.isSet = false ∧ s.enc.isOpen = false ∧
  ∃ v, s.phase = .dispatch v

/-! ### LZ decoding -/

/-- The offset field and the length of a back-reference token (30_encoding.md R91). -/
def matchFields : Instr → Option (Nat × Nat)
  | .short l o => some (o.toNat, l.toNat + 3)
  | .long lenField offset => some (offset.toNat, lenField.toNat + 2)
  | .longx4 offset x => some (offset.toNat, x.toNat + 10)
  | .longx8 offset t => some (offset.toNat, t.toNat + 0x1A)
  | _ => none

/-- A plain list of output bytes after `n` more, each equal to the one `offset + 1` before it. -/
def extendBack (offset : Nat) : Nat → List Byte → List Byte
  | 0, out => out
  | n + 1, out => extendBack offset n (out ++ [out.getD (out.length - (offset + 1)) 0])

/-- A plain list of output bytes after a token that the encoder can emit (43_lz_encode.md R199). -/
def applyToken (out : List Byte) (i : Instr) : List Byte :=
  match i with
  | .lit b => out ++ [b]
  | _ =>
    match matchFields i with
    | some (offset, n) => extendBack offset n out
    | none => out

/-- The stream body of a sequence of tokens: nothing for none (40_bitcursor.md R135). -/
def packTokens (ts : List Instr) : List Byte :=
  if ts.isEmpty then [] else packItems (ts.flatMap tokenItems) 0 0 []

/-- The tokens the greedy main loop emits from `pos` to the end of the input (43_lz_encode.md R193): a
LIT where `FindMatch` finds nothing, else the token of the match, which begins inside what was
emitted (R198). -/
def GreedyTokens (s : State) : Nat → List Instr → Prop
  | pos, [] => pos = s.inLen.toNat
  | pos, i :: ts =>
    pos < s.inLen.toNat ∧ ∃ len off, findMatch pos s = .ok (len, off) s ∧
      ((len < 3 ∧ i = .lit (byteAt s.inBuf pos) ∧ GreedyTokens s (pos + 1) ts) ∨
        (3 ≤ len ∧ off + 1 ≤ pos ∧ i = matchToken len off ∧ GreedyTokens s (pos + len) ts))

/-- A copy of `n` bytes from `offset + 1` bytes back stays inside the output (42_lz_decode.md
R161), in a decode whose earlier output holds values. -/
def CopyReady (s : State) (offset n : Nat) : Prop :=
  offset + 1 ≤ s.outPos.toNat ∧ s.outPos.toNat + n ≤ s.size.toNat ∧
  s.size.toNat ≤ s.cfg.outCap ∧ HasBytes s.outBuf 0 s.outPos.toNat

/-- `t` is `s` after a copy of `n` bytes from `offset + 1` bytes back: each new byte equals the one
`offset + 1` before it, which may be new itself; nothing else changes (42_lz_decode.md R161). -/
def CopyResult (s t : State) (offset n : Nat) : Prop :=
  t = { s with outBuf := t.outBuf, outPos := s.outPos + BitVec.ofNat 32 n } ∧
  (∀ k < n, Memory.read t.outBuf (s.outPos.toNat + k) =
    Memory.read t.outBuf (s.outPos.toNat + k - (offset + 1))) ∧
  ∀ a, a < s.outPos.toNat ∨ s.outPos.toNat + n ≤ a →
    Memory.read t.outBuf a = Memory.read s.outBuf a

/-- `t` is `s` after the bytes `bs` were appended to OUT; nothing else changes (20_memory.md R66). -/
def AppendResult (s t : State) (bs : List Byte) : Prop :=
  t = { s with outBuf := t.outBuf, outPos := s.outPos + BitVec.ofNat 32 bs.length } ∧
  (∀ k (h : k < bs.length), Memory.read t.outBuf (s.outPos.toNat + k) = some bs[k]) ∧
  ∀ a, a < s.outPos.toNat ∨ s.outPos.toNat + bs.length ≤ a →
    Memory.read t.outBuf a = Memory.read s.outBuf a

/-- `n` bytes read one after the other through `SrcByte()` (40_bitcursor.md R134). -/
def srcBytes : Nat → Engine (List Byte)
  | 0 => pure []
  | n + 1 => do
    let b ← srcByte
    let bs ← srcBytes n
    pure (b :: bs)

/-- Reads items of the same kinds as the given ones from a stream: a flag bit for a flag, a byte
for a data byte. -/
def readItems : List Item → StreamReader (List Item)
  | [] => pure []
  | .flag _ :: is => do
    let b ← streamBit
    let rest ← readItems is
    pure (.flag b :: rest)
  | .data _ :: is => do
    let b ← streamByte
    let rest ← readItems is
    pure (.data b :: rest)

/-- The input that a type-3 decode has not read yet, as a token stream. -/
def State.tokenSource (s : State) : TokenSource :=
  ⟨s.bc, bytesAt s.inBuf s.inPos.toNat (s.inLen.toNat - s.inPos.toNat)⟩

/-! ### Host accesses -/

/-- The space, the direction and the offset of a move that accesses the block (60_exceptions.md
R331): 0 register, 1 IN, 2 OUT, 3 META; true for a write. -/
def accessOf : HostMove → Option (BitVec 2 × Bool × Word)
  | .writeIn a _ => some (1, true, a)
  | .readIn a => some (1, false, a)
  | .writeMeta a _ => some (3, true, a)
  | .readMeta a => some (3, false, a)
  | .writeOut a _ => some (2, true, a)
  | .readOut a => some (2, false, a)
  | .writeReg r _ => some (0, true, BitVec.ofNat 32 (4 * r.toNat))
  | .readReg r => some (0, false, BitVec.ofNat 32 (4 * r.toNat))
  | .reset => none

/-! ### Headers a command accepts -/

/-- A JPK file in IN whose header passes the start checks of JPK_DECODE (47_commands.md R284). -/
def JpkReady (s : State) (ty : Half) (off size : Word) : Prop :=
  s.inLen.toNat ≤ s.cfg.inCap ∧ 16 ≤ s.inLen.toNat ∧ HasBytes s.inBuf 0 16 ∧
  le32At s.inBuf 0 = 0x1A524B4A ∧ le16At s.inBuf 6 = ty ∧ le32At s.inBuf 8 = off ∧
  le32At s.inBuf 12 = size ∧ 16 ≤ off.toNat ∧ off.toNat ≤ s.inLen.toNat ∧
  size.toNat ≤ s.cfg.outCap

/-- A cipher file in IN whose header passes the checks of IN_LEN, magic and index
(47_commands.md R290, R292); `e` is the LCG entry its index selects. -/
def CipherReady (s : State) (magic : Word) (table : LcgTable) (e : LcgEntry) : Prop :=
  s.inLen.toNat ≤ s.cfg.inCap ∧ 16 ≤ s.inLen.toNat ∧ HasBytes s.inBuf 0 16 ∧
  h32At s.cfg.hdrOrder s.inBuf 0 = magic ∧
  table.entries[(h16At s.cfg.hdrOrder s.inBuf 4).toNat]? = some e

/-- The start checks of a decrypting cipher command before its length check, in their order, and that
check against OUT_CAP (60_exceptions.md R326): the first that fails decides the fault. -/
def CipherChecks (i : Instr) (magic : Word) (table : Config → LcgTable) (len : State → Word) :
    Prop :=
  ∀ s, Started s →
    let fails := fun (code : Byte) (info : Nat) =>
      ∃ t, exec i s = .next t ∧ FaultResult s t code info 0 0
    let index := h16At s.cfg.hdrOrder s.inBuf 4
    (s.cfg.inCap < s.inLen.toNat → fails 0x16 s.inLen.toNat) ∧
    (s.inLen.toNat ≤ s.cfg.inCap → s.inLen.toNat < 16 → fails 0x01 s.inLen.toNat) ∧
    (s.inLen.toNat ≤ s.cfg.inCap → 16 ≤ s.inLen.toNat → HasBytes s.inBuf 0 16 →
      (h32At s.cfg.hdrOrder s.inBuf 0 ≠ magic →
        fails 0x01 (h32At s.cfg.hdrOrder s.inBuf 0).toNat) ∧
      (h32At s.cfg.hdrOrder s.inBuf 0 = magic →
        ((table s.cfg).entries.length ≤ index.toNat → fails 0x01 index.toNat) ∧
        (index.toNat < (table s.cfg).entries.length →
          s.cfg.outCap < (len s).toNat → fails 0x16 (len s).toNat)))

/-- The 16 bytes of a JPK header that JPK_ENCODE writes (30_encoding.md R102, 47_commands.md
R288). -/
def jpkFileHeader (unk ty : Half) (inLen : Word) : List Byte :=
  [0x4A, 0x4B, 0x52, 0x1A, unk.extractLsb' 0 8, unk.extractLsb' 8 8,
    ty.extractLsb' 0 8, ty.extractLsb' 8 8, 0x10, 0x00, 0x00, 0x00,
    inLen.extractLsb' 0 8, inLen.extractLsb' 8 8, inLen.extractLsb' 16 8, inLen.extractLsb' 24 8]

/-- The file that JPK_ENCODE of type 0 or 3 writes for its input (47_commands.md R287, R288): the
header, then the plaintext, or the packed tokens of the greedy main loop. -/
def JpkFile (s : State) (file : List Byte) : Prop :=
  (s.paramType = 0 ∧
    file = jpkFileHeader s.paramUnk 0 s.inLen ++ bytesAt s.inBuf 0 s.inLen.toNat) ∨
  (s.paramType = 3 ∧ ∃ ts, GreedyTokens s 0 ts ∧
    file = jpkFileHeader s.paramUnk 3 s.inLen ++ packTokens ts)

/-! ### Reads of bytes that hold no value -/

/-- `k` is the first of the addresses `ks` whose byte holds no value. -/
def FirstWithoutValue (m : Memory) (ks : List Nat) (k : Nat) : Prop :=
  k ∈ ks ∧ Memory.read m k = none ∧ ∀ j ∈ ks, j < k → (Memory.read m j).isSome

/-- The instruction is refused for a byte of IN that holds no value. -/
def RefusedAtIn (i : Instr) (s : State) (a : Nat) : Prop :=
  exec i s = .refused (.unwrittenByte .inBuf a)

/-- A command is refused at the first byte without value among those of the header or the index that
it reads, once the checks that come before that byte have passed (47_commands.md R284, R290 to
R292). -/
def HeaderReadsRefused : Prop :=
  (∀ (s : State) (k : Nat), s.inLen.toNat ≤ s.cfg.inCap → 16 ≤ s.inLen.toNat →
    (FirstWithoutValue s.inBuf [0, 1, 2, 3, 6, 7, 8, 9, 10, 11, 12, 13, 14, 15] k →
      (4 ≤ k → le32At s.inBuf 0 = 0x1A524B4A) → RefusedAtIn .jpkDecode s k) ∧
    (FirstWithoutValue s.inBuf [0, 1, 2, 3, 4, 5, 8, 9, 10, 11, 12, 13, 14, 15] k →
      (4 ≤ k → h32At s.cfg.hdrOrder s.inBuf 0 = 0x1A646365) →
      (6 ≤ k →
        (h16At s.cfg.hdrOrder s.inBuf 4).toNat < s.cfg.ecdLcgTable.entries.length) →
      (12 ≤ k → (h32At s.cfg.hdrOrder s.inBuf 8).toNat ≤ s.cfg.outCap) →
      RefusedAtIn .ecdDecrypt s k) ∧
    (FirstWithoutValue s.inBuf [0, 1, 2, 3, 4, 5, 12, 13, 14, 15] k →
      (4 ≤ k → h32At s.cfg.hdrOrder s.inBuf 0 = 0x1A667865) →
      (6 ≤ k → (h16At s.cfg.hdrOrder s.inBuf 4).toNat < s.cfg.exfLcgTable.entries.length ∧
        s.inLen.toNat ≤ s.cfg.outCap) →
      RefusedAtIn .exfDecrypt s k)) ∧
  ∀ (s : State) (k : Nat), s.inLen.toNat ≤ s.cfg.inCap → FirstWithoutValue s.metaBuf [4, 5] k →
    exec .ecdEncrypt s = .refused (.unwrittenByte .metaBuf k)

/-- A command is refused at the first byte without value of its body (47_commands.md R284 to R292,
44_huffman.md R220). -/
def BodyReadsRefused : Prop :=
  (∀ (s : State) (ty : Half) (off size : Word) (k : Nat), Started s → JpkReady s ty off size →
    off.toNat + k < s.inLen.toNat → HasBytes s.inBuf off.toNat k →
    Memory.read s.inBuf (off.toNat + k) = none →
    (ty = 0 ∧ k < size.toNat) ∨
      ((ty = 4 ∨ (ty = 2 ∧ s.cfg.type2Mode = .asType4)) ∧
        (2 ≤ k → k < 2 + 2 * (le16At s.inBuf off.toNat).toNat)) →
    RefusedAtIn .jpkDecode s (off.toNat + k)) ∧
  (∀ (s : State) (e : LcgEntry) (k : Nat), Started s →
    CipherReady s 0x1A646365 s.cfg.ecdLcgTable e →
    (h32At s.cfg.hdrOrder s.inBuf 8).toNat ≤ s.cfg.outCap →
    k < (h32At s.cfg.hdrOrder s.inBuf 8).toNat → 16 + k < s.inLen.toNat →
    HasBytes s.inBuf 16 k → Memory.read s.inBuf (16 + k) = none →
    RefusedAtIn .ecdDecrypt s (16 + k)) ∧
  (∀ (s : State) (k : Nat), Started s → s.inLen.toNat ≤ s.cfg.inCap → 16 ≤ s.inLen.toNat →
    h32At s.cfg.hdrOrder s.inBuf 0 = 0x1A667865 →
    (h16At s.cfg.hdrOrder s.inBuf 4).toNat < s.cfg.exfLcgTable.entries.length →
    s.inLen.toNat ≤ s.cfg.outCap → HasBytes s.inBuf 12 4 → 6 ≤ k → k < s.inLen.toNat →
    HasBytes s.inBuf 0 k → Memory.read s.inBuf k = none → RefusedAtIn .exfDecrypt s k) ∧
  ∀ (s : State) (k : Nat), Started s → s.inLen.toNat ≤ s.cfg.inCap → k < s.inLen.toNat →
    HasBytes s.inBuf 0 k → Memory.read s.inBuf k = none →
    (s.paramType = 0 → 16 + s.inLen.toNat ≤ s.cfg.outCap → 16 + s.inLen.toNat < 2 ^ 32 →
      RefusedAtIn .jpkEncode s k) ∧
    (s.paramType = 3 → s.paramLevel.toNat ≤ s.cfg.lzMaxLen → k = 0 →
      RefusedAtIn .jpkEncode s k) ∧
    (HasBytes s.metaBuf 4 2 →
      (h16At s.cfg.hdrOrder s.metaBuf 4).toNat < s.cfg.ecdLcgTable.entries.length →
      16 + s.inLen.toNat ≤ s.cfg.outCap → RefusedAtIn .ecdEncrypt s k)

/-- In a running decode a token is refused at the first byte without value: of its head, where the `n`
bytes before it do not hold a whole head; of a RUN's data; of what a back-reference copies
(42_lz_decode.md R161 to R168). -/
def TokenReadsRefused : Prop :=
  (∀ (s : State) (n : Nat), s.host = [] → s.phase = .lzDecode → s.outPos.toNat < s.size.toNat →
    s.hf.on = false → s.inPos.toNat + n < s.inLen.toNat → HasBytes s.inBuf s.inPos.toNat n →
    Memory.read s.inBuf (s.inPos.toNat + n) = none →
    decodeToken ⟨s.bc, bytesAt s.inBuf s.inPos.toNat n⟩ = .error .streamEnded →
    step s = .refused (.unwrittenByte .inBuf (s.inPos.toNat + n))) ∧
  (∀ (s : State) (count : BitVec 13) (k : Nat),
    s.outPos.toNat + (count.toNat + 0x1B) ≤ s.size.toNat → s.hf.on = false →
    k < count.toNat + 0x1B → k = 0 ∨ s.outPos.toNat + k ≤ s.cfg.outCap →
    s.inPos.toNat + k < s.inLen.toNat → HasBytes s.inBuf s.inPos.toNat k →
    Memory.read s.inBuf (s.inPos.toNat + k) = none →
    RefusedAtIn (.run count) s (s.inPos.toNat + k)) ∧
  ∀ (i : Instr) (offset n : Nat) (s : State), matchFields i = some (offset, n) →
    i.wellFormed = true → offset + 1 ≤ s.outPos.toNat → s.outPos.toNat + n ≤ s.size.toNat →
    Memory.read s.outBuf (s.outPos.toNat - (offset + 1)) = none →
    exec i s = .refused (.unwrittenByte .outBuf (s.outPos.toNat - (offset + 1)))

/-! ### The ciphers on plain lists -/

/-- The keystream word sequence of an entry is that of its LCG (41_lcg.md R150): decrypts the bytes
one after the other from the state `w` of the generator and the registers `r` (45_ecd.md R243). -/
def ecdDecryptList (e : LcgEntry) : Word → EcdState → List Byte → List Byte
  | _, _, [] => []
  | w, r, c :: cs =>
    let w' := lcgStep e w
    let r' := ecdDecryptStep c w' r
    r'.chain :: ecdDecryptList e w' r' cs

/-- Encrypts the bytes one after the other (45_ecd.md R246). -/
def ecdEncryptList (e : LcgEntry) : Word → EcdState → List Byte → List Byte
  | _, _, [] => []
  | w, r, d :: ds =>
    let w' := lcgStep e w
    ecdCipherByte d w' r :: ecdEncryptList e w' (ecdEncryptStep d w' r) ds

/-- The first keystream word (45_ecd.md R241). Its seed is spelled out: the halves of the CRC swapped,
bit 0 set (R240). -/
def ecdFirstWord (e : LcgEntry) (crc : Word) : Word :=
  lcgStep e ((crc.extractLsb' 0 16 ++ crc.extractLsb' 16 16) ||| 1)

/-- The plaintext of a payload: seed and chain seed (45_ecd.md R240, R241), then byte by byte. -/
def ecdPlain (e : LcgEntry) (crc : Word) (cs : List Byte) : List Byte :=
  let w := ecdFirstWord e crc
  ecdDecryptList e w ⟨w.setWidth 8, 0, 0, 0, 0⟩ cs

/-- The ciphertext of a plaintext (45_ecd.md R248). -/
def ecdCipher (e : LcgEntry) (crc : Word) (ds : List Byte) : List Byte :=
  let w := ecdFirstWord e crc
  ecdEncryptList e w ⟨w.setWidth 8, 0, 0, 0, 0⟩ ds

/-- The header ECD_ENCRYPT writes (45_ecd.md R247). -/
def ecdFileHeader (o : ByteOrder) (m4 m5 : Byte) (len crc : Word) : List Byte :=
  split32 o 0x1A646365 ++ [m4, m5, 0, 0] ++ split32 o len ++ split32 o crc

/-- The 16 derived key bytes of EXF (46_exf.md R260). -/
def exfDerived (o : ByteOrder) (e : LcgEntry) (seed : Word) : List Byte :=
  (List.range 4).flatMap fun r => split32 o ((lcgStep e)^[r + 1] seed ^^^ seed)

/-- The key view of EXF (46_exf.md R261). -/
def exfView (cfg : Config) (e : LcgEntry) (seed : Word) : List Byte :=
  match cfg.keyIndexBase with
  | .zero => List.replicate 16 0
  | .sixteen => exfDerived cfg.keyByteOrder e seed

/-- The payload after EXF_DECRYPT (46_exf.md R263, R266): byte `i` is substituted when it lies below
the count, which is spelled out as 46_exf.md R262 gives it for the payload length `plen`. -/
def exfPayload (cfg : Config) (e : LcgEntry) (seed : Word) (inLen : Nat) (cs : List Byte) :
    List Byte :=
  let plen := inLen - 16
  let count :=
    match cfg.countMode with
    | .minusHeader => if plen ≤ 16 then 0 else plen - 16
    | .full => plen
  cs.mapIdx fun i c =>
    if i < count then
      exfSubst cfg c (BitVec.ofNat 4 i) (exfView cfg e seed)
    else c

/-! ### Invariants -/

/-- Every buffer has its canonical form. -/
def State.BuffersWf (s : State) : Prop :=
  s.inBuf.wf ∧ s.outBuf.wf ∧ s.metaBuf.wf ∧ s.exf.kb.wf

/-- No buffer holds a byte at an address it does not have (10_state.md R37, R40). -/
def State.BuffersInRange (s : State) : Prop :=
  (∀ p ∈ s.inBuf, p.1 < s.cfg.inCap) ∧ (∀ p ∈ s.outBuf, p.1 < s.cfg.outCap) ∧
  (∀ p ∈ s.metaBuf, p.1 < 16) ∧ ∀ p ∈ s.exf.kb, p.1 < 32

/-- STATUS has a form that occurs (10_state.md R22), and BUSY says whether a command runs. -/
def State.StatusOk (s : State) : Prop :=
  statusLegal s.status = true ∧ (statusBusy s.status = true ↔ s.phase ≠ .idle)

/-- OUT and OUT_LEN agree (10_state.md R24, R41): while a command runs OUT_LEN is 0 and every byte
below `out_pos` holds a value; when none runs OUT holds exactly OUT_LEN bytes; after a fault
OUT_LEN is 0. -/
def State.OutputOk (s : State) : Prop :=
  (s.phase ≠ .idle → s.outLen = 0 ∧ HasBytes s.outBuf 0 s.outPos.toNat) ∧
  (s.phase = .idle →
    (∀ p ∈ s.outBuf, p.1 < s.outLen.toNat) ∧ HasBytes s.outBuf 0 s.outLen.toNat) ∧
  (statusErr s.status = true → s.outLen = 0)

end Sys2Proof.Machine
end

