-- ==== Sys2Proof/Certificates/Slice0/Obligations.lean ====
section
/-! DEFINITION. The statements for the provers. Each docstring names the rules it rests on, and the
log entry where a clause is the model's own choice. -/

open Sys2Proof Sys2Proof.Machine

/-! ### Encoding -/

/-- Decoding an encoded well-formed instruction gives it back, with every operand at every value,
and a token's bytes are used up (30_encoding.md R91 to R98, R107). -/
def Obligations.DecodeInvertsEncode : Prop :=
  ∀ i : Instr, i.wellFormed = true →
    decode (encode i) = .ok i ∧
    (i.isToken = true → ∃ src, decodeToken (.ofBytes (encodeToken i)) = .ok (i, src) ∧
      src.bytes = [])

/-- A CMD word is illegal exactly as 30_encoding.md R108 lists it, and the command it starts then
faults with IllegalCommand and the word as FAULT_INFO. -/
def Obligations.IllegalCommandWordsFault : Prop :=
  let illegal := fun v : Word =>
    v.extractLsb' 0 8 = 0 ∨ 8 ≤ (v.extractLsb' 0 8).toNat ∨ v.extractLsb' 9 23 ≠ 0 ∨
      (v.getLsbD 8 = true ∧ v.extractLsb' 0 8 ≠ 3)
  (∀ v, (∃ i, decodeCommand v = .ok i) ↔ ¬ illegal v) ∧
  ∀ s v, s.host = [] → s.phase = .dispatch v → s.hc.isSet = false → illegal v →
    ∃ t, step s = .next t ∧ FaultResult s t 0x14 v.toNat s.inPos s.outPos

/-- Every legal CMD word is the code of the command it decodes to (30_encoding.md R107). -/
def Obligations.CommandWordsHaveOneMeaning : Prop :=
  ∀ v i, decodeCommand v = .ok i → encodeCommand i = some v

/-- Words written out from the spec's encodings and examples decode to what they stand for
(30_encoding.md R92 to R98, R107). -/
def Obligations.WrittenWordsDecode : Prop :=
  decode (.stream [0x00, 0x41]) = .ok (.lit 0x41) ∧
  decode (.stream [0x90, 0x01]) = .ok (.short 1 1) ∧
  decode (.stream [0xC0, 0x20, 0x00]) = .ok (.long 1 0) ∧
  decode (.stream [0xCA, 0x00, 0x07]) = .ok (.longx4 7 5) ∧
  decode (.stream [0xE0, 0x00, 0x28, 0x04]) = .ok (.longx8 40 4) ∧
  decode (.stream [0xE0, 0x01, 0x02, 0xFF]) = .ok (.run 0x102) ∧
  decode (.word 0x00000103) = .ok (.lcgNext true) ∧
  decode (.word 0x00000007) = .ok .exfEncrypt

/-- Writer and reader agree (40_bitcursor.md R137): the items of any sequence that begins with a flag
bit come back in order from the bytes the writer packs, and the bytes are used up. -/
def Obligations.PackedItemsReadBack : Prop :=
  ∀ (b : Bool) (is : List Item),
    ∃ src, readItems (.flag b :: is) (.ofBytes (packItems (.flag b :: is) 0 0 [])) =
      .ok (.flag b :: is) src ∧ src.bytes = []

/-- The encoder's bit writer (40_bitcursor.md R135), from a closed writer to `Finish`, appends to OUT
exactly the packed bytes of the items, and leaves the writer closed. An output length that does not
fit `out_pos` is left out: what the register then holds is free (log 3). -/
def Obligations.WriterAppendsPackedItems : Prop :=
  ∀ (s : State) (b : Bool) (is : List Item), s.enc.isOpen = false →
    s.outPos.toNat + (packItems (.flag b :: is) 0 0 []).length ≤ s.cfg.outCap →
    s.outPos.toNat + (packItems (.flag b :: is) 0 0 []).length < 2 ^ 32 →
    ∃ t, (emitItems (.flag b :: is) >>= fun _ => finish) s = .ok () t ∧ t.enc.isOpen = false ∧
      AppendResult { s with enc := t.enc } t (packItems (.flag b :: is) 0 0 [])

/-- `e.pend` never holds more than 9 bytes, at any point of any token sequence (40_bitcursor.md
R136). -/
def Obligations.PendingBytesNeverAboveNine : Prop :=
  ∀ (ts : List Instr) (n : Nat) (s t : State), s.enc.isOpen = false → s.enc.pend = [] →
    emitItems ((ts.flatMap tokenItems).take n) s = .ok () t → t.enc.pend.length ≤ 9

/-- The token the encoder chooses for a match is well-formed and carries its length and offset field,
in the form 30_encoding.md R100 and 43_lz_encode.md R195 to R197 name; it is never a RUN (R198). It
covers every match a token can express. -/
def Obligations.MatchTokenCarriesMatch : Prop :=
  ∀ len off : Nat, 3 ≤ len → len ≤ 280 → off ≤ 0x1FFF →
    (matchToken len off).wellFormed = true ∧
    matchFields (matchToken len off) = some (off, len) ∧
    ((len ≤ 6 ∧ off ≤ 0xFF) → ∃ l o, matchToken len off = .short l o) ∧
    (len ≤ 9 → ¬ (len ≤ 6 ∧ off ≤ 0xFF) → ∃ f o, matchToken len off = .long f o) ∧
    (10 ≤ len → len ≤ 25 → ∃ o x, matchToken len off = .longx4 o x) ∧
    (26 ≤ len → ∃ o t, matchToken len off = .longx8 o t)

/-- The token code is complete (30_encoding.md R99): four stream bytes always hold a token, at every
cursor position, and it is well-formed. -/
def Obligations.TokenCodeIsComplete : Prop :=
  ∀ src : TokenSource, 4 ≤ src.bytes.length →
    ∃ i src', decodeToken src = .ok (i, src') ∧ i.isToken = true ∧ i.wellFormed = true

/-- Eight reads after a refill return bits 7 down to 0 of one byte (40_bitcursor.md R130, 20_memory.md
R62), and the first of them is the most significant of the field (R131). It holds of both read cursors
(R132): the LZ cursor refills from `SrcByte()`, whatever that is, the Huffman cursor from `InByte()`,
and neither touches the other. A refill at the end of the input raises `Truncated(in_pos)` and changes
nothing (R133, 44_huffman.md R227). -/
def Obligations.FlagByteReadsMsbFirst : Prop :=
  (∀ (s : State) (b : Byte), s.hf.on = false → s.bc.rem = 0 → s.inPos.toNat < s.inLen.toNat →
    Memory.read s.inBuf s.inPos.toNat = some b →
    readBitsWith lzBit 8 0 s = .ok b.toNat { s with bc := ⟨b, 0⟩, inPos := s.inPos + 1 }) ∧
  (∀ (s s' : State) (b : Byte), s.bc.rem = 0 → srcByte s = .ok b s' →
    readBitsWith lzBit 8 0 s = .ok b.toNat { s' with bc := ⟨b, 0⟩ }) ∧
  (∀ (s : State) (b : Byte), s.hf.cursor.rem = 0 → s.inPos.toNat < s.inLen.toNat →
    Memory.read s.inBuf s.inPos.toNat = some b →
    readBitsWith huffBit 8 0 s = .ok b.toNat { s with
      hf := { s.hf with cursor := ⟨b, 0⟩ }, inPos := s.inPos + 1 }) ∧
  ∀ s : State, s.inLen.toNat ≤ s.inPos.toNat →
    (s.hf.cursor.rem = 0 → huffBit s = .error (.raise .truncated s.inPos.toNat) s) ∧
    (s.hf.on = false → s.bc.rem = 0 → lzBit s = .error (.raise .truncated s.inPos.toNat) s)

/-! ### Tokens -/

/-- LIT, in a decode with output left to make (42_lz_decode.md R160), appends its byte and changes
nothing else (R163, 20_memory.md R66). -/
def Obligations.LitAppendsItsByte : Prop :=
  ∀ (b : Byte) (s : State), s.outPos.toNat < s.size.toNat → s.outPos.toNat < s.cfg.outCap →
    ∃ t, exec (.lit b) s = .next t ∧ AppendResult s t [b]

/-- SHORT, LONG, LONGX4 and LONGX8 copy from the output, byte by byte, and change nothing else
(42_lz_decode.md R161, R164 to R167). -/
def Obligations.MatchTokensCopyBack : Prop :=
  ∀ (i : Instr) (offset n : Nat) (s : State), matchFields i = some (offset, n) →
    i.wellFormed = true → CopyReady s offset n →
    ∃ t, exec i s = .next t ∧ CopyResult s t offset n

/-- A back-reference with offset field 0 writes the byte just before `out_pos`, every time
(42_lz_decode.md R169). -/
def Obligations.OffsetZeroRepeatsLastByte : Prop :=
  ∀ (i : Instr) (n : Nat) (s : State), matchFields i = some (0, n) → i.wellFormed = true →
    CopyReady s 0 n →
    ∃ t, exec i s = .next t ∧ ∀ k < n,
      Memory.read t.outBuf (s.outPos.toNat + k) = Memory.read s.outBuf (s.outPos.toNat - 1)

/-- A back-reference that reaches before the output, or past `size`, faults before it writes a byte
(42_lz_decode.md R161, 60_exceptions.md R320, R326). -/
def Obligations.MatchTokensFaultOutsideOutput : Prop :=
  ∀ (i : Instr) (offset n : Nat) (s : State), matchFields i = some (offset, n) →
    i.wellFormed = true → s.phase = .lzDecode → s.hc.isSet = false →
    (s.outPos.toNat < offset + 1 →
      ∃ t, exec i s = .next t ∧ FaultResult s t 0x10 offset s.inPos s.tokOut) ∧
    (offset + 1 ≤ s.outPos.toNat → s.size.toNat < s.outPos.toNat + n →
      ∃ t, exec i s = .next t ∧ FaultResult s t 0x11 n s.inPos s.tokOut)

/-- RUN appends the data bytes `SrcByte()` gives, and changes nothing else but what reading them
changes; in a type-3 decode they are the next bytes of IN (42_lz_decode.md R168). Where reading them
raises a fault, RUN ends the command with it, with FAULT_IN_POS where the reads stopped and
FAULT_OUT_POS at the token's start (60_exceptions.md R324); in a type-3 decode whose input ends within
the run that is Truncated at IN_LEN (40_bitcursor.md R133). -/
def Obligations.RunAppendsItsDataBytes : Prop :=
  ∀ (count : BitVec 13) (s : State), s.outPos.toNat + (count.toNat + 0x1B) ≤ s.size.toNat →
    s.size.toNat ≤ s.cfg.outCap →
    (∀ bs s', srcBytes (count.toNat + 0x1B) s = .ok bs s' →
      ∃ t, exec (.run count) s = .next t ∧ bs.length = count.toNat + 0x1B ∧
        AppendResult s' t bs) ∧
    (s.hf.on = false → s.inPos.toNat + (count.toNat + 0x1B) ≤ s.inLen.toNat →
      HasBytes s.inBuf s.inPos.toNat (count.toNat + 0x1B) →
      ∃ t, exec (.run count) s = .next t ∧
        AppendResult { s with inPos := s.inPos + BitVec.ofNat 32 (count.toNat + 0x1B) } t
          (bytesAt s.inBuf s.inPos.toNat (count.toNat + 0x1B))) ∧
    (s.phase = .lzDecode → s.hc.isSet = false →
      (∀ f info s', info < 2 ^ 32 →
        srcBytes (count.toNat + 0x1B) s = .error (.raise f info) s' →
        ∃ t, exec (.run count) s = .next t ∧ FaultResult s t f.code info s'.inPos s.tokOut) ∧
      (s.hf.on = false → s.inPos.toNat ≤ s.inLen.toNat →
        s.inLen.toNat < s.inPos.toNat + (count.toNat + 0x1B) →
        HasBytes s.inBuf s.inPos.toNat (s.inLen.toNat - s.inPos.toNat) →
        ∃ t, exec (.run count) s = .next t ∧
          FaultResult s t 0x02 s.inLen.toNat s.inLen s.tokOut))

/-- A RUN that would pass `size` faults before it reads a data byte (42_lz_decode.md R168). -/
def Obligations.RunOverrunFaultsBeforeReading : Prop :=
  ∀ (count : BitVec 13) (s : State), s.phase = .lzDecode → s.hc.isSet = false →
    s.size.toNat < s.outPos.toNat + (count.toNat + 0x1B) →
    ∃ t, exec (.run count) s = .next t ∧
      FaultResult s t 0x11 (count.toNat + 0x1B) s.inPos s.tokOut

/-- A step runs the instruction it fetches: a CMD word that waits is dispatched to its command
(47_commands.md R282), and a running decode executes the token whose head it reads, after `tok_out`
took `out_pos` (42_lz_decode.md R160, R162), its bits read through `ReadBit(bc)` and its data bytes
through `SrcByte()` (40_bitcursor.md R134). A fault raised while it reads a head, such as
HuffmanIndexRange or Truncated in the Huffman data (44_huffman.md R223, R227), ends the command
(60_exceptions.md R324), with FAULT_OUT_POS at the token's start. With no HOST event left a step is a step of the ENGINE, and
a HOST that makes no move is passed over; a move of the HOST that comes next, whichever it is, is what
the step makes (47_commands.md R294, log 7). -/
def Obligations.StepRunsTheFetchedInstruction : Prop :=
  (∀ s v i, s.host = [] → s.phase = .dispatch v → decodeCommand v = .ok i → step s = exec i s) ∧
  (∀ s i s', s.host = [] → s.phase = .lzDecode → s.outPos.toNat < s.size.toNat →
    decodeTree lzBit srcByte { s with tokOut := s.outPos } = .ok i s' → step s = exec i s') ∧
  (∀ s f info s', s.host = [] → s.phase = .lzDecode → s.outPos.toNat < s.size.toNat →
    s.hc.isSet = false → info < 2 ^ 32 →
    decodeTree lzBit srcByte { s with tokOut := s.outPos } = .error (.raise f info) s' →
    ∃ t, step s = .next t ∧ FaultResult s t f.code info s'.inPos s.outPos) ∧
  (∀ s, s.host = [] → step s = engineStep s) ∧
  (∀ s rest, s.host = .wait :: rest → step s = engineStep { s with host := rest }) ∧
  ∀ s m rest, s.host = .move m :: rest → step s = hostMove m { s with host := rest }

/-- In a type-3 decode the token a step executes is the one the plain decoder reads from the unread
bytes of IN, and the cursors move past its head (42_lz_decode.md R162, 10_state.md R27). Where the
stream ends inside the head, the step faults with Truncated at the end of the input
(40_bitcursor.md R133, 42_lz_decode.md R163, 60_exceptions.md R324). -/
def Obligations.StepFetchesTokenFromInput : Prop :=
  ∀ s : State, s.host = [] → s.phase = .lzDecode → s.outPos.toNat < s.size.toNat →
    s.hf.on = false → s.inPos.toNat ≤ s.inLen.toNat →
    HasBytes s.inBuf s.inPos.toNat (s.inLen.toNat - s.inPos.toNat) →
    (∀ (i : Instr) (src : TokenSource), decodeToken s.tokenSource = .ok (i, src) →
      step s = exec i { s with
        tokOut := s.outPos, bc := src.cursor
        inPos := s.inLen - BitVec.ofNat 32 src.bytes.length }) ∧
    (decodeToken s.tokenSource = .error .streamEnded → s.hc.isSet = false →
      ∃ t, step s = .next t ∧ FaultResult s t 0x02 s.inLen.toNat s.inLen s.outPos)

/-- A decode ends after at most `size` tokens (42_lz_decode.md R170): its last step completes it or
takes a fault. -/
def Obligations.DecodeEndsWithinSizeTokens : Prop :=
  ∀ s : State, s.host = [] → s.phase = .lzDecode → HasBytes s.inBuf 0 s.inLen.toNat →
    HasBytes s.outBuf 0 s.outPos.toNat → s.size.toNat ≤ s.cfg.outCap →
    (s.hf.on = true → s.ht.length = s.hf.len.toNat) →
    ∃ k ≤ s.size.toNat - s.outPos.toNat + 1, ∃ t : State,
      Sys2Proof.core.run k s = .next t ∧ t.phase = .idle

/-- Every token of a decode that goes on writes at least one byte (42_lz_decode.md R170) and none
rewrites a byte written before (20_memory.md R66). -/
def Obligations.DecodeOnlyAppends : Prop :=
  ∀ s t : State, s.phase = .lzDecode → engineStep s = .next t → t.phase = .lzDecode →
    s.outPos.toNat < t.outPos.toNat ∧
    ∀ a < s.outPos.toNat, Memory.read t.outBuf a = Memory.read s.outBuf a

/-! ### Huffman layer -/

/-- When `table_len < 0x100` every `HuffByte()` is its low byte and consumes nothing
(44_huffman.md R225). -/
def Obligations.LeafRootDecodesConstant : Prop :=
  ∀ s : State, s.hf.len.toNat < 0x100 → huffByte s = .ok (s.hf.len.setWidth 8) s

/-- The data bits that are left bound every walk (44_huffman.md R227): with any more passes allowed
its result is the same. -/
def Obligations.HuffWalkNeedsOnlyTheBitsLeft : Prop :=
  ∀ (s : State) (node : Int) (extra : Nat),
    huffWalk (s.huffBitsLeft + extra) node s = huffWalk s.huffBitsLeft node s

/-- The walk of `HuffByte()` (44_huffman.md R222 to R224). With the Huffman layer on, `SrcByte()` is
`HuffByte()`, else `InByte()` (40_bitcursor.md R134). `HuffByte()` walks from `table_len` itself, with
as many passes as data bits are left or more. One pass: a value below 0x100, negative ones included,
is a leaf and gives its low 8 bits; an internal node takes one data bit, a bit that cannot be read ends
the walk, and the child index is checked against the table before the entry is read. An entry that was
not loaded has no value; its read is refused (log 13). -/
def Obligations.HuffWalkTakesOneBitPerNode : Prop :=
  (∀ s : State, (s.hf.on = true → srcByte s = huffByte s) ∧
    (s.hf.on = false → srcByte s = inByte s)) ∧
  (∀ (s : State) (extra : Nat),
    huffByte s = huffWalk (s.huffBitsLeft + extra) (s.hf.len.toNat : Int) s) ∧
  (∀ (fuel : Nat) (node : Int) (s s' : State) (e : Stop), 0x100 ≤ node →
    huffBit s = .error e s' → huffWalk (fuel + 1) node s = .error e s') ∧
  (∀ (fuel : Nat) (node : Int) (s : State), node < 0x100 →
    huffWalk fuel node s = .ok (BitVec.ofInt 8 node) s) ∧
  ∀ (fuel : Nat) (node : Int) (s s' : State) (bit : Bool), 0x100 ≤ node →
    huffBit s = .ok bit s' →
    ∀ idx : Nat, (idx : Int) = node * 2 - 0x200 + bit.toNat →
      (s'.hf.len.toNat ≤ idx →
        huffWalk (fuel + 1) node s = .error (.raise .huffmanIndexRange idx) s') ∧
      (∀ v, idx < s'.hf.len.toNat → s'.ht[idx]? = some v →
        huffWalk (fuel + 1) node s = huffWalk fuel v.toInt s') ∧
      (idx < s'.hf.len.toNat → s'.ht[idx]? = none →
        huffWalk (fuel + 1) node s = .error (.refuse (.unwrittenEntry idx)) s')

/-- JPK_DECODE of type 4, or of type 2 under AS_TYPE4, loads the table and leaves the LZ decode
running over the Huffman source; with a truncated table it faults (44_huffman.md R220, R221,
47_commands.md R285). -/
def Obligations.JpkDecodeLoadsHuffmanTable : Prop :=
  ∀ (s : State) (ty : Half) (off size : Word), Started s → JpkReady s ty off size →
    (ty = 4 ∨ (ty = 2 ∧ s.cfg.type2Mode = .asType4)) →
    let len := le16At s.inBuf off.toNat
    let stop := off.toNat + 2 + 2 * len.toNat
    (stop ≤ s.inLen.toNat → HasBytes s.inBuf off.toNat (2 + 2 * len.toNat) →
      exec .jpkDecode s = .next { s with
        size := size
        inPos := BitVec.ofNat 32 stop
        hf := ⟨true, len, ⟨0, 0⟩⟩
        ht := (List.range len.toNat).map fun k => le16At s.inBuf (off.toNat + 2 + 2 * k)
        phase := .lzDecode }) ∧
    (s.inLen.toNat < stop → HasBytes s.inBuf off.toNat (s.inLen.toNat - off.toNat) →
      ∃ t, exec .jpkDecode s = .next t ∧ FaultResult s t 0x02 s.inLen.toNat s.inLen 0)

/-! ### JPK container -/

/-- JPK_DECODE of type 3 leaves the LZ decode running at the stored offset (47_commands.md R284,
R285). -/
def Obligations.JpkDecodeStartsLzDecode : Prop :=
  ∀ (s : State) (off size : Word), Started s → JpkReady s 3 off size →
    exec .jpkDecode s = .next { s with
      size := size, inPos := off, hf := { s.hf with on := false }, phase := .lzDecode }

/-- JPK_DECODE of type 0 copies `decompressed_size` bytes of the body; with fewer there it faults
(47_commands.md R286). -/
def Obligations.JpkDecodeCopiesRawBody : Prop :=
  ∀ (s : State) (off size : Word), Started s → JpkReady s 0 off size →
    (off.toNat + size.toNat ≤ s.inLen.toNat → HasBytes s.inBuf off.toNat size.toNat →
      ∃ t, exec .jpkDecode s = .next t ∧
        CompleteResult s t (bytesAt s.inBuf off.toNat size.toNat) ∧
        t = { s with
          size := size, inPos := off + size, outPos := size, outLen := size,
          outBuf := t.outBuf, status := t.status, phase := .idle }) ∧
    (s.inLen.toNat < off.toNat + size.toNat →
      HasBytes s.inBuf off.toNat (s.inLen.toNat - off.toNat) →
      ∃ t, exec .jpkDecode s = .next t ∧
        FaultResult s t 0x02 s.inLen.toNat s.inLen (s.inLen - off))

/-- The start checks of JPK_DECODE in their order (47_commands.md R284, 60_exceptions.md R326): the
first that fails decides the fault, and both recorded positions are 0. -/
def Obligations.JpkDecodeStartChecks : Prop :=
  ∀ s : State, Started s →
    let fails := fun (code : Byte) (info : Nat) =>
      ∃ t, exec .jpkDecode s = .next t ∧ FaultResult s t code info 0 0
    let magic := le32At s.inBuf 0
    let ty := le16At s.inBuf 6
    let off := le32At s.inBuf 8
    let size := le32At s.inBuf 12
    let offBad := off.toNat < 16 ∨ s.inLen.toNat < off.toNat
    (s.cfg.inCap < s.inLen.toNat → fails 0x16 s.inLen.toNat) ∧
    (s.inLen.toNat ≤ s.cfg.inCap → s.inLen.toNat < 16 → fails 0x01 s.inLen.toNat) ∧
    (s.inLen.toNat ≤ s.cfg.inCap → 16 ≤ s.inLen.toNat → HasBytes s.inBuf 0 16 →
      (magic ≠ 0x1A524B4A → fails 0x01 magic.toNat) ∧
      (magic = 0x1A524B4A →
        (ty ∉ [0, 2, 3, 4] → fails 0x03 ty.toNat) ∧
        (ty = 2 → s.cfg.type2Mode = .refuse → fails 0x04 2) ∧
        (ty ∈ [0, 2, 3, 4] → ¬ (ty = 2 ∧ s.cfg.type2Mode = .refuse) →
          (offBad → fails 0x01 off.toNat) ∧
          (¬ offBad → s.cfg.outCap < size.toNat → fails 0x16 size.toNat))))

/-- JPK_ENCODE of type 0 writes the header and the plaintext (47_commands.md R287, R288). A file whose
length does not fit `out_pos` is left out: what the register then holds is free (log 3). -/
def Obligations.JpkEncodeWritesRawFile : Prop :=
  ∀ s : State, Started s → s.paramType = 0 → s.inLen.toNat ≤ s.cfg.inCap →
    16 + s.inLen.toNat ≤ s.cfg.outCap → 16 + s.inLen.toNat < 2 ^ 32 → HasBytes s.inBuf 0 s.inLen.toNat →
    ∃ t, exec .jpkEncode s = .next t ∧
      CompleteResult s t
        (jpkFileHeader s.paramUnk 0 s.inLen ++ bytesAt s.inBuf 0 s.inLen.toNat) ∧
      t = { s with
        inPos := s.inLen, outPos := t.outPos, outLen := t.outLen, outBuf := t.outBuf,
        status := t.status, phase := .idle }

/-- JPK_ENCODE of type 3 completes with the tokens of the greedy main loop wherever OUT has room for
them; they take no more than `n + ceil(n/8)` bytes (43_lz_encode.md R193, R200, 47_commands.md R287,
R288). Where OUT has no room, the append that does not fit faults with BufferCapacity(OUT_CAP + 1)
(20_memory.md R66). A file length that does not fit `out_pos` (log 3) and an OUT_CAP + 1 that does not
fit FAULT_INFO (log 17) are left out: what the register then holds is free. -/
def Obligations.JpkEncodeLzCompletes : Prop :=
  ∀ s : State, Started s → s.paramType = 3 → s.paramLevel.toNat ≤ s.cfg.lzMaxLen →
    s.inLen.toNat ≤ s.cfg.inCap → HasBytes s.inBuf 0 s.inLen.toNat →
    ∃ ts, GreedyTokens s 0 ts ∧
      (packTokens ts).length ≤ s.inLen.toNat + (s.inLen.toNat + 7) / 8 ∧
      (16 + (packTokens ts).length ≤ s.cfg.outCap → 16 + (packTokens ts).length < 2 ^ 32 →
        ∃ t, exec .jpkEncode s = .next t ∧
          CompleteResult s t (jpkFileHeader s.paramUnk 3 s.inLen ++ packTokens ts) ∧
          t = { s with
            enc := t.enc, outPos := t.outPos, outLen := t.outLen, outBuf := t.outBuf,
            status := t.status, phase := .idle }) ∧
      (s.cfg.outCap < 16 + (packTokens ts).length → s.cfg.outCap + 1 < 2 ^ 32 →
        ∃ t, exec .jpkEncode s = .next t ∧
          FaultResult s t 0x16 (s.cfg.outCap + 1) 0 (BitVec.ofNat 32 s.cfg.outCap))

/-- What JPK_ENCODE of type 3 writes is the sequence of tokens of the greedy main loop: well-formed,
none a RUN, each match inside what came before it, and standing for the plaintext (43_lz_encode.md
R193, R198, R199). It covers every LZ_WINDOW and LZ_MAX_LEN whose matches a token can express; the
spec gives other matches no code (log 33). A file length that does not fit `out_pos` is left out
(log 3). -/
def Obligations.JpkEncodeLzBodyStandsForPlaintext : Prop :=
  ∀ s t : State, Started s → s.paramType = 3 → s.cfg.lzWindow ≤ 0x2000 → s.cfg.lzMaxLen ≤ 280 →
    exec .jpkEncode s = .next t → statusDone t.status = true →
    ∃ ts : List Instr, GreedyTokens s 0 ts ∧
      (∀ i ∈ ts, i.isToken = true ∧ i.wellFormed = true ∧ ∀ c, i ≠ .run c) ∧
      (∀ (before rest : List Instr) (i : Instr) (off len : Nat), ts = before ++ i :: rest →
        matchFields i = some (off, len) → off + 1 ≤ (before.foldl applyToken []).length) ∧
      ts.foldl applyToken [] = bytesAt s.inBuf 0 s.inLen.toNat ∧
      (16 + (packTokens ts).length < 2 ^ 32 →
        CompleteResult s t (jpkFileHeader s.paramUnk 3 s.inLen ++ packTokens ts))

/-- JPK_DECODE of what JPK_ENCODE wrote, of type 0 or type 3, completes with the plaintext and consumes
the whole file (43_lz_encode.md R199, 95_test_vectors.md §1.7), wherever both files fit the
buffers, the packed one fits `out_pos` (log 3), and tokens can express the matches (log 33). -/
def Obligations.JpkDecodeInvertsEncode : Prop :=
  ∀ (s t u : State) (file : List Byte), JpkFile s file → file.length < 2 ^ 32 →
    s.cfg.lzWindow ≤ 0x2000 → s.cfg.lzMaxLen ≤ 280 →
    Started s → exec .jpkEncode s = .next t → statusDone t.status = true →
    Started u → u.phase = .dispatch 1 → u.host = [] → u.bc = ⟨0, 0⟩ → u.cfg = s.cfg →
    u.inLen = t.outLen → u.inBuf = t.outBuf → u.inLen.toNat ≤ u.cfg.inCap →
    s.inLen.toNat ≤ u.cfg.outCap →
    ∃ (k : Nat) (v : State), Sys2Proof.core.run k u = .next v ∧ v.inPos = u.inLen ∧
      CompleteResult u v (bytesAt s.inBuf 0 s.inLen.toNat)

/-- The start checks of JPK_ENCODE in their order (47_commands.md R287, 60_exceptions.md R326). A
length whose recorded value does not fit FAULT_INFO is left out: its value is free (log 17). -/
def Obligations.JpkEncodeStartChecks : Prop :=
  ∀ s : State, Started s →
    let fails := fun (code : Byte) (info : Nat) =>
      ∃ t, exec .jpkEncode s = .next t ∧ FaultResult s t code info 0 0
    (s.cfg.inCap < s.inLen.toNat → fails 0x16 s.inLen.toNat) ∧
    (s.inLen.toNat ≤ s.cfg.inCap →
      (s.paramType = 2 ∨ s.paramType = 4 → fails 0x04 s.paramType.toNat) ∧
      (s.paramType ∉ [0, 2, 3, 4] → fails 0x03 s.paramType.toNat) ∧
      (s.paramType = 3 → s.cfg.lzMaxLen < s.paramLevel.toNat → fails 0x13 s.paramLevel.toNat) ∧
      (s.paramType = 0 → s.cfg.outCap < 16 + s.inLen.toNat → 16 + s.inLen.toNat < 2 ^ 32 →
        fails 0x16 (16 + s.inLen.toNat)))

/-- `FindMatch` gives the longest match in the window that the level allows, or none of length 3;
of several, the first in scan order (43_lz_encode.md R191, R192). -/
def Obligations.FindMatchIsGreedy : Prop :=
  ∀ (s : State) (pos : Nat), pos < s.inLen.toNat → HasBytes s.inBuf 0 s.inLen.toNat →
    let nlen := min s.paramLevel.toNat (s.inLen.toNat - pos)
    let agrees := fun (d n : Nat) =>
      ∀ k < n, byteAt s.inBuf (pos + k) = byteAt s.inBuf (pos - d + k)
    ∃ len off, findMatch pos s = .ok (len, off) s ∧
      (len = 0 ∨ (3 ≤ len ∧ len ≤ nlen ∧ off + 1 ≤ min pos s.cfg.lzWindow ∧ agrees (off + 1) len)) ∧
      (∀ d n, 1 ≤ d → d ≤ min pos s.cfg.lzWindow → 3 ≤ n → n ≤ nlen → agrees d n → n ≤ len) ∧
      (∀ d, len ≠ 0 → 1 ≤ d → d ≤ min pos s.cfg.lzWindow → agrees d len →
        match s.cfg.scanOrder with
        | .farFirst => d ≤ off + 1
        | .nearFirst => off + 1 ≤ d)

/-! ### LCG -/

/-- LCG_NEXT writes the next state of the selected entry to both its registers, writes no output and
changes nothing else; with an index outside the table it faults and leaves both (47_commands.md
R289, 41_lcg.md R150 to R152). -/
def Obligations.LcgNextStepsOrFaults : Prop :=
  ∀ (tsel : Bool) (s : State), Started s →
    let table := if tsel then s.cfg.exfLcgTable else s.cfg.ecdLcgTable
    (∀ e, table.entries[s.paramIndex.toNat]? = some e →
      ∃ t, exec (.lcgNext tsel) s = .next t ∧ CompleteResult s t [] ∧
        t.lcgState.toNat =
          (s.lcgState.toNat * e.multiplier.toNat + e.increment.toNat) % 2 ^ 32 ∧
        t.lcgWord = t.lcgState ∧
        t = { s with
          lcgState := t.lcgState, lcgWord := t.lcgWord, outLen := 0, outBuf := [],
          status := t.status, phase := .idle }) ∧
    (table.entries.length ≤ s.paramIndex.toNat →
      ∃ t, exec (.lcgNext tsel) s = .next t ∧ FaultResult s t 0x01 s.paramIndex.toNat 0 0)

/-- `k` steps of an entry from `s0` have the closed form of 41_lcg.md R154. -/
def Obligations.LcgStepsHaveClosedForm : Prop :=
  ∀ (e : LcgEntry) (s0 : Word) (k : Nat),
    ((lcgStep e)^[k] s0).toNat =
      (e.multiplier.toNat ^ k * s0.toNat +
        e.increment.toNat * ((List.range k).map fun j => e.multiplier.toNat ^ j).sum) % 2 ^ 32

/-! ### ECD -/

/-- The closed form of the ECD network (45_ecd.md R245): the nibbles of a decrypted byte from those
of `x` and the keystream-only accumulators, and these by the nibble recurrence. The
ciphertext byte for which the network takes `x` is `x` XORed with the chain byte, and the byte
decrypted is the next chain byte (R243). -/
def Obligations.EcdNetworkClosedForm : Prop :=
  ∀ (x : Byte) (xp : Word) (r : EcdState),
    let key := ((List.range 8).foldl
      (fun (p : BitVec 4 × BitVec 4) j => (p.2, p.1 ^^^ p.2 ^^^ xp.extractLsb' (4 * j) 4)) (0, 0))
    let p := ecdJoin (ecdDiffuse x xp r).r11 (ecdDiffuse x xp r).r12
    (ecdDiffuse 0 xp r).r11.extractLsb' 0 4 = key.1 ∧
    (ecdDiffuse 0 xp r).r12.extractLsb' 0 4 = key.2 ∧
    p.extractLsb' 0 4 = x.extractLsb' 0 4 ^^^ key.2 ∧
    p.extractLsb' 4 4 = x.extractLsb' 0 4 ^^^ x.extractLsb' 4 4 ^^^ key.1 ∧
    (ecdDecryptStep (x ^^^ r.chain) xp r).chain = p

/-- Decrypting an encrypted byte under the same keystream word and chain byte gives it back, and both
directions chain on the plaintext byte (45_ecd.md R243, R246). -/
def Obligations.EcdByteDecryptInvertsEncrypt : Prop :=
  ∀ (d : Byte) (xp : Word) (r r' : EcdState), r'.chain = r.chain →
    (ecdDecryptStep (ecdCipherByte d xp r) xp r').chain = d ∧ (ecdEncryptStep d xp r).chain = d

/-- ECD_DECRYPT decrypts exactly `filesize` payload bytes and strips the header; with fewer there it
faults (45_ecd.md R244, 47_commands.md R290). -/
def Obligations.EcdDecryptWritesPlaintext : Prop :=
  ∀ (s : State) (e : LcgEntry), Started s → CipherReady s 0x1A646365 s.cfg.ecdLcgTable e →
    let n := (h32At s.cfg.hdrOrder s.inBuf 8).toNat
    n ≤ s.cfg.outCap →
    (16 + n ≤ s.inLen.toNat → HasBytes s.inBuf 16 n →
      ∃ t, exec .ecdDecrypt s = .next t ∧
        CompleteResult s t (ecdPlain e (h32At s.cfg.hdrOrder s.inBuf 12) (bytesAt s.inBuf 16 n)) ∧
        t = { s with
          inPos := BitVec.ofNat 32 (16 + n), outPos := t.outPos, lcg := t.lcg, ecd := t.ecd,
          outLen := t.outLen, outBuf := t.outBuf, status := t.status, phase := .idle }) ∧
    (s.inLen.toNat < 16 + n → HasBytes s.inBuf 16 (s.inLen.toNat - 16) →
      ∃ t, exec .ecdDecrypt s = .next t ∧
        FaultResult s t 0x02 s.inLen.toNat s.inLen (s.inLen - 16))

/-- ECD_ENCRYPT writes the header of 45_ecd.md R247 and the ciphertext of R248 (47_commands.md
R291), for either kind of CRC32 (log 5); the default one gives its check value, that of the ASCII bytes
`123456789` (93_implementation_defined.md Part 2). A file whose length does not fit `out_pos` is left out: what
the register then holds is free (log 3). -/
def Obligations.EcdEncryptWritesFile : Prop :=
  crc32 .isoHdlc [0x31, 0x32, 0x33, 0x34, 0x35, 0x36, 0x37, 0x38, 0x39] = 0xCBF43926 ∧
  ∀ (s : State) (e : LcgEntry), Started s → s.inLen.toNat ≤ s.cfg.inCap →
    HasBytes s.metaBuf 4 2 →
    s.cfg.ecdLcgTable.entries[(h16At s.cfg.hdrOrder s.metaBuf 4).toNat]? = some e →
    16 + s.inLen.toNat ≤ s.cfg.outCap → 16 + s.inLen.toNat < 2 ^ 32 →
    HasBytes s.inBuf 0 s.inLen.toNat →
    let plain := bytesAt s.inBuf 0 s.inLen.toNat
    let crc := crc32 s.cfg.crc plain
    ∃ t, exec .ecdEncrypt s = .next t ∧
      CompleteResult s t
        (ecdFileHeader s.cfg.hdrOrder (byteAt s.metaBuf 4) (byteAt s.metaBuf 5) s.inLen crc ++
          ecdCipher e crc plain) ∧
      t = { s with
        inPos := s.inLen, outPos := t.outPos, lcg := t.lcg, ecd := t.ecd, outLen := t.outLen,
        outBuf := t.outBuf, status := t.status, phase := .idle }

/-- ECD_DECRYPT of what ECD_ENCRYPT wrote gives the plaintext back (45_ecd.md R249), wherever the
file's length fits `out_pos` (log 3). -/
def Obligations.EcdDecryptInvertsEncrypt : Prop :=
  ∀ s t u : State, 16 + s.inLen.toNat < 2 ^ 32 → Started s → exec .ecdEncrypt s = .next t → statusDone t.status = true →
    Started u → u.cfg = s.cfg → u.inLen = t.outLen → u.inBuf = t.outBuf →
    u.inLen.toNat ≤ u.cfg.inCap →
    ∃ v, exec .ecdDecrypt u = .next v ∧
      CompleteResult u v (bytesAt s.inBuf 0 s.inLen.toNat)

/-- The start checks of ECD_DECRYPT and EXF_DECRYPT in their order (47_commands.md R290, R292,
60_exceptions.md R326). -/
def Obligations.CipherDecryptStartChecks : Prop :=
  CipherChecks .ecdDecrypt 0x1A646365 (fun c => c.ecdLcgTable)
    (fun s => h32At s.cfg.hdrOrder s.inBuf 8) ∧
  CipherChecks .exfDecrypt 0x1A667865 (fun c => c.exfLcgTable) (fun s => s.inLen)

/-- The start checks of ECD_ENCRYPT in their order (47_commands.md R291, 60_exceptions.md R326). A
length whose recorded value does not fit FAULT_INFO is left out: its value is free (log 17). -/
def Obligations.EcdEncryptStartChecks : Prop :=
  ∀ s : State, Started s →
    let fails := fun (code : Byte) (info : Nat) =>
      ∃ t, exec .ecdEncrypt s = .next t ∧ FaultResult s t code info 0 0
    let index := h16At s.cfg.hdrOrder s.metaBuf 4
    (s.cfg.inCap < s.inLen.toNat → fails 0x16 s.inLen.toNat) ∧
    (s.inLen.toNat ≤ s.cfg.inCap → HasBytes s.metaBuf 4 2 →
      (s.cfg.ecdLcgTable.entries.length ≤ index.toNat → fails 0x01 index.toNat) ∧
      (index.toNat < s.cfg.ecdLcgTable.entries.length →
        s.cfg.outCap < 16 + s.inLen.toNat → 16 + s.inLen.toNat < 2 ^ 32 →
        fails 0x16 (16 + s.inLen.toNat)))

/-! ### EXF -/

/-- EXF_DECRYPT writes a copy of the whole file, its header unchanged, with the payload bytes below
the count substituted (46_exf.md R260 to R263, R266, R267, 47_commands.md R292). It holds for every
`EXF_SUBST` (log 4). -/
def Obligations.ExfDecryptWritesFile : Prop :=
  ∀ (s : State) (e : LcgEntry), Started s → CipherReady s 0x1A667865 s.cfg.exfLcgTable e →
    s.inLen.toNat ≤ s.cfg.outCap → HasBytes s.inBuf 0 s.inLen.toNat →
    ∃ t, exec .exfDecrypt s = .next t ∧
      CompleteResult s t
        (bytesAt s.inBuf 0 16 ++
          exfPayload s.cfg e (h32At s.cfg.hdrOrder s.inBuf 12) s.inLen.toNat
            (bytesAt s.inBuf 16 (s.inLen.toNat - 16))) ∧
      t = { s with
        inPos := s.inLen, outPos := t.outPos, lcg := t.lcg, exf := t.exf, outLen := t.outLen,
        outBuf := t.outBuf, status := t.status, phase := .idle }

/-- EXF_ENCRYPT is the command of opcode 0x07, and faults with `UnsupportedOperation(7)`, always, before
any input is read (47_commands.md R293). -/
def Obligations.ExfEncryptAlwaysFaults : Prop :=
  decodeCommand 0x00000007 = .ok .exfEncrypt ∧
  ∀ s : State, Started s → ∃ t, exec .exfEncrypt s = .next t ∧ FaultResult s t 0x04 7 0 0

/-! ### Commands, faults and the host -/

/-- A host write to CMD while BUSY = 0 starts a command: STATUS and the working state as
47_commands.md R280 and 10_state.md R43 list them, and nothing else. That the word then waits for a
step of its own is the model's choice (log 8). -/
def Obligations.CmdWriteStartsCommand : Prop :=
  ∀ (s : State) (v : Word) (rest : List HostEvent), s.host = .move (.writeReg 0 v) :: rest →
    statusBusy s.status = false →
    ∃ t, step s = .next t ∧ StatusReads t.status true false false 0 (v.extractLsb' 0 8) ∧
      t = { s with
        host := rest, hostData := none, status := t.status, phase := .dispatch v
        inPos := 0, outPos := 0, bc := ⟨0, 0⟩, hf := { s.hf with on := false, cursor := ⟨0, 0⟩ }
        hc := ⟨false, 0⟩, tokOut := 0, outLen := 0
        enc := { s.enc with isOpen := false, cnt := 0, flag := 0, pend := [] } }

/-- A decode that has made `size` bytes completes (42_lz_decode.md R160): OUT_LEN, STATUS and OUT as
47_commands.md R281 gives them, the fault registers kept, nothing else changed. -/
def Obligations.FinishedDecodePublishes : Prop :=
  ∀ s : State, s.host = [] → s.phase = .lzDecode → s.size.toNat ≤ s.outPos.toNat →
    s.hc.isSet = false →
    ∃ t, step s = .next t ∧
      StatusReads t.status false true false 0 (s.status.extractLsb' 16 8) ∧
      (∀ a, Memory.read t.outBuf a =
        if a < s.outPos.toNat then Memory.read s.outBuf a else none) ∧
      t = { s with
        outLen := s.outPos, outBuf := t.outBuf, status := t.status, phase := .idle }

/-- The effects of a fault (60_exceptions.md R324) with the codes of R320, for every kind whose
recorded value fits FAULT_INFO. -/
def Obligations.FaultHasItsEffects : Prop :=
  (∀ (k : FaultKind) (info : Nat) (s : State), info < 2 ^ 32 →
    FaultResult s (takeFault k info s) k.code info s.inPos
      (if s.phase = .lzDecode then s.tokOut else s.outPos)) ∧
  [FaultKind.malformedHeader, .truncated, .invalidFormat, .unsupportedOperation,
    .backrefUnderflow, .outputOverrun, .huffmanIndexRange, .paramRange, .illegalCommand,
    .hostConflict, .bufferCapacity].map FaultKind.code =
    [0x01, 0x02, 0x03, 0x04, 0x10, 0x11, 0x12, 0x13, 0x14, 0x15, 0x16]

/-- Whatever ends in a fault, an instruction, the fetch of a token or the dispatch of a CMD word,
publishes no output and keeps the LCG registers and the inputs (60_exceptions.md R324, R325). That
LCG_STATE and LCG_WORD are kept also where an LCG_NEXT ends with a latched host conflict is the
model's reading (log 27). -/
def Obligations.FaultsPublishNoOutput : Prop :=
  let noOutput := fun s t : State =>
    t.outLen = 0 ∧ t.outBuf = [] ∧ t.lcgState = s.lcgState ∧ t.lcgWord = s.lcgWord ∧
      InputsKept s t
  (∀ s t : State, s.phase ≠ .idle → engineStep s = .next t → t.phase = .idle →
    statusErr t.status = true → noOutput s t) ∧
  ∀ (i : Instr) (s t : State), s.phase ≠ .idle → exec i s = .next t → t.phase = .idle →
    statusErr t.status = true → noOutput s t

/-- A latched host conflict decides the end of every command, whatever its own outcome: that of an
instruction, of a decode that has made all its output, of a token whose head faults, of an illegal
CMD word (60_exceptions.md R326, R331). A decode that has made its output does end. That LCG_STATE and
LCG_WORD are kept is the model's reading (log 27). -/
def Obligations.HostConflictOverridesEveryOutcome : Prop :=
  let conflictEnds := fun s t : State =>
    StatusReads t.status false false true 0x15 (s.status.extractLsb' 16 8) ∧
      t.faultInfo = s.hc.info ∧ t.outLen = 0 ∧ t.outBuf = [] ∧
      t.lcgState = s.lcgState ∧ t.lcgWord = s.lcgWord ∧ InputsKept s t
  (∀ s t : State, s.phase ≠ .idle → s.hc.isSet = true → engineStep s = .next t →
    t.phase = .idle → conflictEnds s t) ∧
  (∀ (i : Instr) (s t : State), s.phase ≠ .idle → s.hc.isSet = true → exec i s = .next t →
    t.phase = .idle → conflictEnds s t) ∧
  ∀ s : State, s.phase = .lzDecode → s.hc.isSet = true → s.size.toNat ≤ s.outPos.toNat →
    ∃ t, engineStep s = .next t ∧ t.phase = .idle

/-- A host access while BUSY = 1, a STATUS read apart, has no effect but to latch the first such
access with its descriptor; a read returns 0 (60_exceptions.md R331). That a byte access outside IN,
OUT or META is latched like one inside is the model's reading (log 31). An offset that does not fit
the descriptor's field is left out: its value is free (log 18). -/
def Obligations.BusyAccessOnlyLatchesConflict : Prop :=
  (∀ (m : HostMove) (s : State) (space : BitVec 2) (write : Bool) (a : Word),
    statusBusy s.status = true → m ≠ .readReg 1 → accessOf m = some (space, write, a) →
    ∃ t d, hostMove m s = .next t ∧
      t = { s with
        hc := if s.hc.isSet then s.hc else ⟨true, d⟩
        hostData := if write then none else some 0 } ∧
      d.extractLsb' 30 2 = space ∧ d.getLsbD 29 = write ∧
      (a.toNat < 2 ^ 29 → (d.extractLsb' 0 29).toNat = a.toNat)) ∧
  ∀ s : State, hostMove (.readReg 1) s = .next { s with hostData := some s.status }

/-- A reset, at any time, leaves the reset state; only the parameters stand, and what the HOST does
next (70_reset_and_hazards.md R360, R361). -/
def Obligations.ResetRestoresResetState : Prop :=
  ∀ (s : State) (rest : List HostEvent), s.host = .move .reset :: rest →
    step s = .next { State.reset with cfg := s.cfg, host := rest }

/-- The reset values of 10_state.md R42. -/
def Obligations.ResetStateHasItsValues : Prop :=
  (∀ r, readRegister State.reset r = 0) ∧
  (∀ a, Memory.read State.reset.inBuf a = none ∧ Memory.read State.reset.outBuf a = none ∧
    Memory.read State.reset.metaBuf a = none ∧ Memory.read State.reset.exf.kb a = none ∧
    State.reset.ht[a]? = none) ∧
  State.reset.inPos = 0 ∧ State.reset.outPos = 0 ∧ State.reset.tokOut = 0 ∧
  State.reset.size = 0 ∧ State.reset.bc = ⟨0, 0⟩ ∧ State.reset.hf = ⟨false, 0, ⟨0, 0⟩⟩ ∧
  State.reset.enc = ⟨0, 0, 0, false, []⟩ ∧ State.reset.lcg = ⟨0, 0, .ecd⟩ ∧
  State.reset.ecd = ⟨0, 0, 0, 0, 0⟩ ∧ State.reset.exf.i = 0 ∧ State.reset.exf.count = 0 ∧
  State.reset.hc = ⟨false, 0⟩

/-- The register map (10_state.md R20), and the moves of the HOST while idle (R20, R25, 20_memory.md R60, R69, 47_commands.md R294):
a register write changes the writable bits of its register and nothing else of the block, a byte
write of IN or META stores that byte and changes nothing else, and a read changes nothing and returns
the register, or the byte that holds a value. CMD is written by another rule. The value returned
stands in the model's field `hostData` (log 16); that IN and META can be read is log 15. The host has
no such move for a byte outside IN or META, nor for a write of OUT (R294, 20_memory.md R66); that it
stops the machine is the model's choice (log 14, log 32). -/
def Obligations.RegisterWindowReadsAndWrites : Prop :=
  (∀ (s : State) (r : BitVec 4) (v : Word), statusBusy s.status = false → r ≠ 0 →
    ∃ t, hostMove (.writeReg r v) s = .next t ∧
      (∀ q, readRegister t q =
        if q = r ∧ (r = 2 ∨ r = 8) then v
        else if q = r ∧ (r = 4 ∨ r = 5 ∨ r = 6 ∨ r = 7) then v &&& 0xFFFF
        else readRegister s q) ∧
      t = { s with
        inLen := t.inLen, paramType := t.paramType, paramLevel := t.paramLevel
        paramIndex := t.paramIndex, paramUnk := t.paramUnk, lcgState := t.lcgState
        hostData := none }) ∧
  (∀ (s : State) (r : BitVec 4), statusBusy s.status = false →
    hostMove (.readReg r) s = .next { s with hostData := some (readRegister s r) }) ∧
  (∀ (s : State) (r : BitVec 4), r = 0 ∨ 13 ≤ r.toNat → readRegister s r = 0) ∧
  (∀ s : State, [1, 2, 3, 4, 5, 6, 7, 8, 9, 10, 11, 12].map (readRegister s) =
    [s.status, s.inLen, s.outLen, s.paramType.setWidth 32, s.paramLevel.setWidth 32,
      s.paramIndex.setWidth 32, s.paramUnk.setWidth 32, s.lcgState, s.lcgWord, s.faultInPos,
      s.faultOutPos, s.faultInfo]) ∧
  (∀ (s : State) (a : Word) (v : Byte), statusBusy s.status = false →
    (a.toNat < s.cfg.inCap → ∃ t, hostMove (.writeIn a v) s = .next t ∧
      t = { s with inBuf := t.inBuf, hostData := none } ∧
      ∀ b, Memory.read t.inBuf b = if b = a.toNat then some v else Memory.read s.inBuf b) ∧
    (a.toNat < 16 → ∃ t, hostMove (.writeMeta a v) s = .next t ∧
      t = { s with metaBuf := t.metaBuf, hostData := none } ∧
      ∀ b, Memory.read t.metaBuf b = if b = a.toNat then some v else Memory.read s.metaBuf b)) ∧
  (∀ (s : State) (a : Word) (v : Byte), statusBusy s.status = false →
    (a.toNat < s.outLen.toNat → Memory.read s.outBuf a.toNat = some v →
      hostMove (.readOut a) s = .next { s with hostData := some (v.setWidth 32) }) ∧
    (a.toNat < s.cfg.inCap → Memory.read s.inBuf a.toNat = some v →
      hostMove (.readIn a) s = .next { s with hostData := some (v.setWidth 32) }) ∧
    (a.toNat < 16 → Memory.read s.metaBuf a.toNat = some v →
      hostMove (.readMeta a) s = .next { s with hostData := some (v.setWidth 32) })) ∧
  ∀ (s : State) (a : Word) (v : Byte), statusBusy s.status = false →
    (s.cfg.inCap ≤ a.toNat → ∀ m ∈ [HostMove.writeIn a v, .readIn a],
      hostMove m s = .fault (.noSuchAddress .inBuf a.toNat)) ∧
    (16 ≤ a.toNat → ∀ m ∈ [HostMove.writeMeta a v, .readMeta a],
      hostMove m s = .fault (.noSuchAddress .metaBuf a.toNat)) ∧
    hostMove (.writeOut a v) s = .fault (.outNotWritable a.toNat)

/-- A read of a byte that holds no value is refused, with its buffer and address (10_state.md R41,
70_reset_and_hazards.md R365; that the machine declines is log 13). Stated of these reads: the HOST's
of OUT, IN and META; `MemRead`, the one operation through which the ENGINE reads a buffer; the header
and index bytes of a command, in the order in which its checks reach them; the bytes of a raw, cipher
or plaintext body and of a Huffman table; a byte of a token's head in a type-3 decode; the data bytes
of a RUN there; and the source of a back-reference, which no run meets without a value. A type-3
JPK_ENCODE reads its plaintext in the order of FindMatch (log 26): of it only the first byte is stated.
A raw JPK_ENCODE whose file does not fit `out_pos` is left out (log 3). -/
def Obligations.ReadsWithoutValueAreRefused : Prop :=
  (∀ (s : State) (a : Word), statusBusy s.status = false →
    (s.outLen.toNat ≤ a.toNat ∨ Memory.read s.outBuf a.toNat = none →
      hostMove (.readOut a) s = .refused (.unwrittenByte .outBuf a.toNat)) ∧
    (a.toNat < s.cfg.inCap → Memory.read s.inBuf a.toNat = none →
      hostMove (.readIn a) s = .refused (.unwrittenByte .inBuf a.toNat)) ∧
    (a.toNat < 16 → Memory.read s.metaBuf a.toNat = none →
      hostMove (.readMeta a) s = .refused (.unwrittenByte .metaBuf a.toNat))) ∧
  (∀ (b : Buffer) (a : Nat) (s : State), Memory.read (s.buffer b) a = none →
    memRead b a s = .error (.refuse (.unwrittenByte b a)) s) ∧
  HeaderReadsRefused ∧ BodyReadsRefused ∧ TokenReadsRefused

/-- The engine never writes IN, META, IN_LEN or a parameter register (20_memory.md R77, 10_state.md
R44), and only LCG_NEXT writes LCG_STATE or LCG_WORD (10_state.md R26); no step at all changes the
implementation parameters (70_reset_and_hazards.md R360). -/
def Obligations.EngineNeverWritesItsInputs : Prop :=
  (∀ s t : State, engineStep s = .next t → InputsKept s t) ∧
  (∀ (i : Instr) (s t : State), exec i s = .next t → (∀ b, i ≠ .lcgNext b) →
    t.lcgState = s.lcgState ∧ t.lcgWord = s.lcgWord) ∧
  ∀ s t : State, step s = .next t → t.cfg = s.cfg

/-! ### Invariants -/

/-- Every step keeps the canonical form of every buffer. -/
def Obligations.StepKeepsBuffersCanonical : Prop :=
  ∀ s t : State, s.BuffersWf → step s = .next t → t.BuffersWf

/-- Every step keeps every buffer inside its capacity (10_state.md R37, R40, 20_memory.md R66). -/
def Obligations.StepKeepsBuffersInRange : Prop :=
  ∀ s t : State, s.BuffersInRange → step s = .next t → t.BuffersInRange

/-- Every step keeps STATUS at a value that occurs, with BUSY saying whether a command runs
(10_state.md R22, 60_exceptions.md R320). -/
def Obligations.StepKeepsStatusLegal : Prop :=
  ∀ s t : State, s.StatusOk → step s = .next t → t.StatusOk

/-- Every step keeps OUT and OUT_LEN in agreement: no partial output is ever published, and every
published byte holds a value (10_state.md R24, R41, 60_exceptions.md R325). -/
def Obligations.StepKeepsOutputPublished : Prop :=
  ∀ s t : State, s.OutputOk → step s = .next t → t.OutputOk

/-- The four invariants hold after reset. -/
def Obligations.InvariantsHoldAtReset : Prop :=
  State.reset.BuffersWf ∧ State.reset.BuffersInRange ∧ State.reset.StatusOk ∧
    State.reset.OutputOk
end

