-- ==== Sys2Proof/Laws/Memory.lean ====
section
/-! SUPPORT. What the buffer operations of Machine/Ops.lean do, said through the read of one byte,
and that each keeps the canonical form. -/

namespace Sys2Proof.Machine

theorem Memory.read_nil (a : Nat) : Memory.read [] a = none := rfl

theorem Memory.read_cons (k : Nat) (v : Byte) (m : Memory) (a : Nat) :
    Memory.read ((k, v) :: m) a = if k = a then some v else Memory.read m a := rfl

theorem Memory.read_write (m : Memory) (a : Nat) (b : Byte) (x : Nat) :
    Memory.read (Memory.write m a b) x = if a = x then some b else Memory.read m x := by
  induction m with
  | nil => simp [Memory.write, Memory.read]
  | cons c m ih =>
    obtain ⟨k, v⟩ := c
    simp only [Memory.write]
    split
    · simp [Memory.read_cons]
    · split
      · subst_vars; simp [Memory.read_cons]; split <;> simp_all
      · simp only [Memory.read_cons, ih]
        split
        · rename_i h1 h2 h3; subst h3; simp [h2]
        · rfl

@[simp] theorem Memory.read_write_same (m : Memory) (a : Nat) (b : Byte) :
    Memory.read (Memory.write m a b) a = some b := by simp [Memory.read_write]

theorem Memory.read_write_other (m : Memory) {a x : Nat} (b : Byte) (h : x ≠ a) :
    Memory.read (Memory.write m a b) x = Memory.read m x := by
  rw [Memory.read_write, if_neg (Ne.symm h)]

theorem Memory.mem_write {m : Memory} {a : Nat} {b : Byte} {p : Host.Cell}
    (h : p ∈ Memory.write m a b) : p = (a, b) ∨ p ∈ m := by
  induction m with
  | nil => simpa [Memory.write] using h
  | cons c m ih =>
    obtain ⟨k, v⟩ := c
    simp only [Memory.write] at h
    split at h
    · simpa using h
    · split at h
      · rcases List.mem_cons.1 h with h | h <;> simp [h]
      · rcases List.mem_cons.1 h with h | h
        · simp [h]
        · rcases ih h with h | h <;> simp [h]

theorem Memory.wf_nil : Memory.wf [] := List.Pairwise.nil

theorem Memory.wf_write {m : Memory} (a : Nat) (b : Byte) (h : Memory.wf m) :
    Memory.wf (Memory.write m a b) := by
  induction m with
  | nil => simp [Memory.write, Memory.wf]
  | cons c m ih =>
    obtain ⟨k, v⟩ := c
    have hk := List.pairwise_cons.1 h
    simp only [Memory.write]
    split
    · rename_i hlt
      refine List.pairwise_cons.2 ⟨fun p hp => ?_, h⟩
      rcases List.mem_cons.1 hp with rfl | hp
      · exact hlt
      · exact lt_trans hlt (hk.1 p hp)
    · split
      · rename_i heq
        exact List.pairwise_cons.2 ⟨fun p hp => heq ▸ hk.1 p hp, hk.2⟩
      · rename_i hnlt hne
        refine List.pairwise_cons.2 ⟨fun p hp => ?_, ih hk.2⟩
        rcases Memory.mem_write hp with rfl | hp
        · exact lt_of_le_of_ne (not_lt.1 hnlt) (Ne.symm hne)
        · exact hk.1 p hp

theorem Memory.wf_below {m : Memory} (n : Nat) (h : Memory.wf m) : Memory.wf (Memory.below m n) :=
  List.Pairwise.filter _ h

theorem Memory.mem_below {m : Memory} {n : Nat} {p : Host.Cell} :
    p ∈ Memory.below m n ↔ p ∈ m ∧ p.1 < n := by simp [Memory.below]

theorem Memory.read_below (m : Memory) (n a : Nat) :
    Memory.read (Memory.below m n) a = if a < n then Memory.read m a else none := by
  induction m with
  | nil => simp [Memory.below, Memory.read]
  | cons c m ih =>
    obtain ⟨k, v⟩ := c
    simp only [Memory.below] at ih
    by_cases hk : k < n
    · simp only [Memory.below, List.filter_cons, hk, decide_true, if_true, Memory.read_cons, ih]
      by_cases h : k = a
      · subst h; simp [hk]
      · simp [h]
    · simp only [Memory.below, List.filter_cons, hk, decide_false, Memory.read_cons]
      rw [if_neg (by simp)]
      rw [ih]
      by_cases h : k = a
      · subst h; simp [hk]
      · simp [h]

theorem Memory.wf_writeAll {m : Memory} (a : Nat) (bs : List Byte) (h : Memory.wf m) :
    Memory.wf (Memory.writeAll m a bs) := by
  induction bs generalizing m a with
  | nil => exact h
  | cons b bs ih => exact ih (a + 1) (Memory.wf_write a b h)

theorem Memory.read_writeAll (m : Memory) (a : Nat) (bs : List Byte) (x : Nat) :
    Memory.read (Memory.writeAll m a bs) x =
      if a ≤ x ∧ x < a + bs.length then bs[x - a]? else Memory.read m x := by
  induction bs generalizing m a with
  | nil => simp only [Memory.writeAll, List.length_nil]; split <;> [omega; rfl]
  | cons b bs ih =>
    simp only [Memory.writeAll, ih, Memory.read_write, List.length_cons]
    by_cases h1 : a + 1 ≤ x ∧ x < a + 1 + bs.length
    · have h2 : a ≤ x ∧ x < a + (bs.length + 1) := by omega
      rw [if_pos h1, if_pos h2]
      have : x - a = (x - (a + 1)) + 1 := by omega
      rw [this, List.getElem?_cons_succ]
    · rw [if_neg h1]
      by_cases h3 : a = x
      · subst h3
        simp
      · rw [if_neg h3, if_neg (by omega)]

theorem Memory.mem_writeAll {m : Memory} {a : Nat} {bs : List Byte} {p : Host.Cell}
    (h : p ∈ Memory.writeAll m a bs) : (a ≤ p.1 ∧ p.1 < a + bs.length) ∨ p ∈ m := by
  induction bs generalizing m a with
  | nil => exact Or.inr h
  | cons b bs ih =>
    rcases ih h with h | h
    · left; simp only [List.length_cons]; omega
    · rcases Memory.mem_write h with h | h
      · left; subst h; simp
      · exact Or.inr h

/-- A cell that stands in a canonical buffer is what a read of its address gives. -/
theorem Memory.read_of_mem {m : Memory} {p : Host.Cell} (hw : Memory.wf m) (h : p ∈ m) :
    Memory.read m p.1 = some p.2 := by
  induction m with
  | nil => cases h
  | cons c m ih =>
    obtain ⟨k, v⟩ := c
    have hk := List.pairwise_cons.1 hw
    rcases List.mem_cons.1 h with rfl | h
    · simp [Memory.read_cons]
    · have := hk.1 p h
      rw [Memory.read_cons, if_neg (Nat.ne_of_lt this), ih hk.2 h]

/-- An address that reads as a value stands in the buffer. -/
theorem Memory.mem_of_read {m : Memory} {a : Nat} {b : Byte} (h : Memory.read m a = some b) :
    (a, b) ∈ m := by
  induction m with
  | nil => simp [Memory.read] at h
  | cons c m ih =>
    obtain ⟨k, v⟩ := c
    rw [Memory.read_cons] at h
    split at h
    · simp_all
    · exact List.mem_cons_of_mem _ (ih h)

/-- The buffers of the reset state are canonical. -/
theorem reset_memory_wf : Memory.wf State.reset.inBuf ∧ Memory.wf State.reset.outBuf ∧
    Memory.wf State.reset.metaBuf ∧ Memory.wf State.reset.exf.kb :=
  ⟨.nil, .nil, .nil, .nil⟩

end Sys2Proof.Machine
end

