-- ==== Sys2Proof/Laws/State.lean ====
section
/-! SUPPORT. One lemma per field per update of the state, so that no later proof unfolds a record
update. -/

namespace Sys2Proof.Machine

/-! ### State.pushOut -/

@[simp] theorem State.pushOut_cfg (s : State) (v : Byte) : (s.pushOut v).cfg = s.cfg := rfl
@[simp] theorem State.pushOut_status (s : State) (v : Byte) : (s.pushOut v).status = s.status := rfl
@[simp] theorem State.pushOut_inLen (s : State) (v : Byte) : (s.pushOut v).inLen = s.inLen := rfl
@[simp] theorem State.pushOut_outLen (s : State) (v : Byte) : (s.pushOut v).outLen = s.outLen := rfl
@[simp] theorem State.pushOut_paramType (s : State) (v : Byte) :
    (s.pushOut v).paramType = s.paramType := rfl
@[simp] theorem State.pushOut_paramLevel (s : State) (v : Byte) :
    (s.pushOut v).paramLevel = s.paramLevel := rfl
@[simp] theorem State.pushOut_paramIndex (s : State) (v : Byte) :
    (s.pushOut v).paramIndex = s.paramIndex := rfl
@[simp] theorem State.pushOut_paramUnk (s : State) (v : Byte) :
    (s.pushOut v).paramUnk = s.paramUnk := rfl
@[simp] theorem State.pushOut_lcgState (s : State) (v : Byte) :
    (s.pushOut v).lcgState = s.lcgState := rfl
@[simp] theorem State.pushOut_lcgWord (s : State) (v : Byte) :
    (s.pushOut v).lcgWord = s.lcgWord := rfl
@[simp] theorem State.pushOut_faultInPos (s : State) (v : Byte) :
    (s.pushOut v).faultInPos = s.faultInPos := rfl
@[simp] theorem State.pushOut_faultOutPos (s : State) (v : Byte) :
    (s.pushOut v).faultOutPos = s.faultOutPos := rfl
@[simp] theorem State.pushOut_faultInfo (s : State) (v : Byte) :
    (s.pushOut v).faultInfo = s.faultInfo := rfl
@[simp] theorem State.pushOut_inPos (s : State) (v : Byte) : (s.pushOut v).inPos = s.inPos := rfl
@[simp] theorem State.pushOut_outPos (s : State) (v : Byte) :
    (s.pushOut v).outPos = nextOutPos s.outPos := rfl
@[simp] theorem State.pushOut_size (s : State) (v : Byte) : (s.pushOut v).size = s.size := rfl
@[simp] theorem State.pushOut_bc (s : State) (v : Byte) : (s.pushOut v).bc = s.bc := rfl
@[simp] theorem State.pushOut_hf (s : State) (v : Byte) : (s.pushOut v).hf = s.hf := rfl
@[simp] theorem State.pushOut_ht (s : State) (v : Byte) : (s.pushOut v).ht = s.ht := rfl
@[simp] theorem State.pushOut_enc (s : State) (v : Byte) : (s.pushOut v).enc = s.enc := rfl
@[simp] theorem State.pushOut_lcg (s : State) (v : Byte) : (s.pushOut v).lcg = s.lcg := rfl
@[simp] theorem State.pushOut_ecd (s : State) (v : Byte) : (s.pushOut v).ecd = s.ecd := rfl
@[simp] theorem State.pushOut_exf (s : State) (v : Byte) : (s.pushOut v).exf = s.exf := rfl
@[simp] theorem State.pushOut_tokOut (s : State) (v : Byte) : (s.pushOut v).tokOut = s.tokOut := rfl
@[simp] theorem State.pushOut_hc (s : State) (v : Byte) : (s.pushOut v).hc = s.hc := rfl
@[simp] theorem State.pushOut_inBuf (s : State) (v : Byte) : (s.pushOut v).inBuf = s.inBuf := rfl
@[simp] theorem State.pushOut_outBuf (s : State) (v : Byte) :
    (s.pushOut v).outBuf = Memory.write s.outBuf s.outPos.toNat v := rfl
@[simp] theorem State.pushOut_metaBuf (s : State) (v : Byte) :
    (s.pushOut v).metaBuf = s.metaBuf := rfl
@[simp] theorem State.pushOut_phase (s : State) (v : Byte) : (s.pushOut v).phase = s.phase := rfl
@[simp] theorem State.pushOut_host (s : State) (v : Byte) : (s.pushOut v).host = s.host := rfl
@[simp] theorem State.pushOut_hostData (s : State) (v : Byte) :
    (s.pushOut v).hostData = s.hostData := rfl

/-! ### State.advanceIn -/

@[simp] theorem State.advanceIn_cfg (s : State) : (s.advanceIn).cfg = s.cfg := rfl
@[simp] theorem State.advanceIn_status (s : State) : (s.advanceIn).status = s.status := rfl
@[simp] theorem State.advanceIn_inLen (s : State) : (s.advanceIn).inLen = s.inLen := rfl
@[simp] theorem State.advanceIn_outLen (s : State) : (s.advanceIn).outLen = s.outLen := rfl
@[simp] theorem State.advanceIn_paramType (s : State) : (s.advanceIn).paramType = s.paramType := rfl
@[simp] theorem State.advanceIn_paramLevel (s : State) :
    (s.advanceIn).paramLevel = s.paramLevel := rfl
@[simp] theorem State.advanceIn_paramIndex (s : State) :
    (s.advanceIn).paramIndex = s.paramIndex := rfl
@[simp] theorem State.advanceIn_paramUnk (s : State) : (s.advanceIn).paramUnk = s.paramUnk := rfl
@[simp] theorem State.advanceIn_lcgState (s : State) : (s.advanceIn).lcgState = s.lcgState := rfl
@[simp] theorem State.advanceIn_lcgWord (s : State) : (s.advanceIn).lcgWord = s.lcgWord := rfl
@[simp] theorem State.advanceIn_faultInPos (s : State) :
    (s.advanceIn).faultInPos = s.faultInPos := rfl
@[simp] theorem State.advanceIn_faultOutPos (s : State) :
    (s.advanceIn).faultOutPos = s.faultOutPos := rfl
@[simp] theorem State.advanceIn_faultInfo (s : State) : (s.advanceIn).faultInfo = s.faultInfo := rfl
@[simp] theorem State.advanceIn_inPos (s : State) : (s.advanceIn).inPos = s.inPos + 1 := rfl
@[simp] theorem State.advanceIn_outPos (s : State) : (s.advanceIn).outPos = s.outPos := rfl
@[simp] theorem State.advanceIn_size (s : State) : (s.advanceIn).size = s.size := rfl
@[simp] theorem State.advanceIn_bc (s : State) : (s.advanceIn).bc = s.bc := rfl
@[simp] theorem State.advanceIn_hf (s : State) : (s.advanceIn).hf = s.hf := rfl
@[simp] theorem State.advanceIn_ht (s : State) : (s.advanceIn).ht = s.ht := rfl
@[simp] theorem State.advanceIn_enc (s : State) : (s.advanceIn).enc = s.enc := rfl
@[simp] theorem State.advanceIn_lcg (s : State) : (s.advanceIn).lcg = s.lcg := rfl
@[simp] theorem State.advanceIn_ecd (s : State) : (s.advanceIn).ecd = s.ecd := rfl
@[simp] theorem State.advanceIn_exf (s : State) : (s.advanceIn).exf = s.exf := rfl
@[simp] theorem State.advanceIn_tokOut (s : State) : (s.advanceIn).tokOut = s.tokOut := rfl
@[simp] theorem State.advanceIn_hc (s : State) : (s.advanceIn).hc = s.hc := rfl
@[simp] theorem State.advanceIn_inBuf (s : State) : (s.advanceIn).inBuf = s.inBuf := rfl
@[simp] theorem State.advanceIn_outBuf (s : State) : (s.advanceIn).outBuf = s.outBuf := rfl
@[simp] theorem State.advanceIn_metaBuf (s : State) : (s.advanceIn).metaBuf = s.metaBuf := rfl
@[simp] theorem State.advanceIn_phase (s : State) : (s.advanceIn).phase = s.phase := rfl
@[simp] theorem State.advanceIn_host (s : State) : (s.advanceIn).host = s.host := rfl
@[simp] theorem State.advanceIn_hostData (s : State) : (s.advanceIn).hostData = s.hostData := rfl

/-! ### State.withHfCursor -/

@[simp] theorem State.withHfCursor_cfg (c : BitCursor) (s : State) :
    (State.withHfCursor c s).cfg = s.cfg := rfl
@[simp] theorem State.withHfCursor_status (c : BitCursor) (s : State) :
    (State.withHfCursor c s).status = s.status := rfl
@[simp] theorem State.withHfCursor_inLen (c : BitCursor) (s : State) :
    (State.withHfCursor c s).inLen = s.inLen := rfl
@[simp] theorem State.withHfCursor_outLen (c : BitCursor) (s : State) :
    (State.withHfCursor c s).outLen = s.outLen := rfl
@[simp] theorem State.withHfCursor_paramType (c : BitCursor) (s : State) :
    (State.withHfCursor c s).paramType = s.paramType := rfl
@[simp] theorem State.withHfCursor_paramLevel (c : BitCursor) (s : State) :
    (State.withHfCursor c s).paramLevel = s.paramLevel := rfl
@[simp] theorem State.withHfCursor_paramIndex (c : BitCursor) (s : State) :
    (State.withHfCursor c s).paramIndex = s.paramIndex := rfl
@[simp] theorem State.withHfCursor_paramUnk (c : BitCursor) (s : State) :
    (State.withHfCursor c s).paramUnk = s.paramUnk := rfl
@[simp] theorem State.withHfCursor_lcgState (c : BitCursor) (s : State) :
    (State.withHfCursor c s).lcgState = s.lcgState := rfl
@[simp] theorem State.withHfCursor_lcgWord (c : BitCursor) (s : State) :
    (State.withHfCursor c s).lcgWord = s.lcgWord := rfl
@[simp] theorem State.withHfCursor_faultInPos (c : BitCursor) (s : State) :
    (State.withHfCursor c s).faultInPos = s.faultInPos := rfl
@[simp] theorem State.withHfCursor_faultOutPos (c : BitCursor) (s : State) :
    (State.withHfCursor c s).faultOutPos = s.faultOutPos := rfl
@[simp] theorem State.withHfCursor_faultInfo (c : BitCursor) (s : State) :
    (State.withHfCursor c s).faultInfo = s.faultInfo := rfl
@[simp] theorem State.withHfCursor_inPos (c : BitCursor) (s : State) :
    (State.withHfCursor c s).inPos = s.inPos := rfl
@[simp] theorem State.withHfCursor_outPos (c : BitCursor) (s : State) :
    (State.withHfCursor c s).outPos = s.outPos := rfl
@[simp] theorem State.withHfCursor_size (c : BitCursor) (s : State) :
    (State.withHfCursor c s).size = s.size := rfl
@[simp] theorem State.withHfCursor_bc (c : BitCursor) (s : State) :
    (State.withHfCursor c s).bc = s.bc := rfl
@[simp] theorem State.withHfCursor_hf (c : BitCursor) (s : State) :
    (State.withHfCursor c s).hf = { s.hf with cursor := c } := rfl
@[simp] theorem State.withHfCursor_ht (c : BitCursor) (s : State) :
    (State.withHfCursor c s).ht = s.ht := rfl
@[simp] theorem State.withHfCursor_enc (c : BitCursor) (s : State) :
    (State.withHfCursor c s).enc = s.enc := rfl
@[simp] theorem State.withHfCursor_lcg (c : BitCursor) (s : State) :
    (State.withHfCursor c s).lcg = s.lcg := rfl
@[simp] theorem State.withHfCursor_ecd (c : BitCursor) (s : State) :
    (State.withHfCursor c s).ecd = s.ecd := rfl
@[simp] theorem State.withHfCursor_exf (c : BitCursor) (s : State) :
    (State.withHfCursor c s).exf = s.exf := rfl
@[simp] theorem State.withHfCursor_tokOut (c : BitCursor) (s : State) :
    (State.withHfCursor c s).tokOut = s.tokOut := rfl
@[simp] theorem State.withHfCursor_hc (c : BitCursor) (s : State) :
    (State.withHfCursor c s).hc = s.hc := rfl
@[simp] theorem State.withHfCursor_inBuf (c : BitCursor) (s : State) :
    (State.withHfCursor c s).inBuf = s.inBuf := rfl
@[simp] theorem State.withHfCursor_outBuf (c : BitCursor) (s : State) :
    (State.withHfCursor c s).outBuf = s.outBuf := rfl
@[simp] theorem State.withHfCursor_metaBuf (c : BitCursor) (s : State) :
    (State.withHfCursor c s).metaBuf = s.metaBuf := rfl
@[simp] theorem State.withHfCursor_phase (c : BitCursor) (s : State) :
    (State.withHfCursor c s).phase = s.phase := rfl
@[simp] theorem State.withHfCursor_host (c : BitCursor) (s : State) :
    (State.withHfCursor c s).host = s.host := rfl
@[simp] theorem State.withHfCursor_hostData (c : BitCursor) (s : State) :
    (State.withHfCursor c s).hostData = s.hostData := rfl

/-! ### State.withBc -/

@[simp] theorem State.withBc_cfg (c : BitCursor) (s : State) : (State.withBc c s).cfg = s.cfg := rfl
@[simp] theorem State.withBc_status (c : BitCursor) (s : State) :
    (State.withBc c s).status = s.status := rfl
@[simp] theorem State.withBc_inLen (c : BitCursor) (s : State) :
    (State.withBc c s).inLen = s.inLen := rfl
@[simp] theorem State.withBc_outLen (c : BitCursor) (s : State) :
    (State.withBc c s).outLen = s.outLen := rfl
@[simp] theorem State.withBc_paramType (c : BitCursor) (s : State) :
    (State.withBc c s).paramType = s.paramType := rfl
@[simp] theorem State.withBc_paramLevel (c : BitCursor) (s : State) :
    (State.withBc c s).paramLevel = s.paramLevel := rfl
@[simp] theorem State.withBc_paramIndex (c : BitCursor) (s : State) :
    (State.withBc c s).paramIndex = s.paramIndex := rfl
@[simp] theorem State.withBc_paramUnk (c : BitCursor) (s : State) :
    (State.withBc c s).paramUnk = s.paramUnk := rfl
@[simp] theorem State.withBc_lcgState (c : BitCursor) (s : State) :
    (State.withBc c s).lcgState = s.lcgState := rfl
@[simp] theorem State.withBc_lcgWord (c : BitCursor) (s : State) :
    (State.withBc c s).lcgWord = s.lcgWord := rfl
@[simp] theorem State.withBc_faultInPos (c : BitCursor) (s : State) :
    (State.withBc c s).faultInPos = s.faultInPos := rfl
@[simp] theorem State.withBc_faultOutPos (c : BitCursor) (s : State) :
    (State.withBc c s).faultOutPos = s.faultOutPos := rfl
@[simp] theorem State.withBc_faultInfo (c : BitCursor) (s : State) :
    (State.withBc c s).faultInfo = s.faultInfo := rfl
@[simp] theorem State.withBc_inPos (c : BitCursor) (s : State) :
    (State.withBc c s).inPos = s.inPos := rfl
@[simp] theorem State.withBc_outPos (c : BitCursor) (s : State) :
    (State.withBc c s).outPos = s.outPos := rfl
@[simp] theorem State.withBc_size (c : BitCursor) (s : State) :
    (State.withBc c s).size = s.size := rfl
@[simp] theorem State.withBc_bc (c : BitCursor) (s : State) : (State.withBc c s).bc = c := rfl
@[simp] theorem State.withBc_hf (c : BitCursor) (s : State) : (State.withBc c s).hf = s.hf := rfl
@[simp] theorem State.withBc_ht (c : BitCursor) (s : State) : (State.withBc c s).ht = s.ht := rfl
@[simp] theorem State.withBc_enc (c : BitCursor) (s : State) : (State.withBc c s).enc = s.enc := rfl
@[simp] theorem State.withBc_lcg (c : BitCursor) (s : State) : (State.withBc c s).lcg = s.lcg := rfl
@[simp] theorem State.withBc_ecd (c : BitCursor) (s : State) : (State.withBc c s).ecd = s.ecd := rfl
@[simp] theorem State.withBc_exf (c : BitCursor) (s : State) : (State.withBc c s).exf = s.exf := rfl
@[simp] theorem State.withBc_tokOut (c : BitCursor) (s : State) :
    (State.withBc c s).tokOut = s.tokOut := rfl
@[simp] theorem State.withBc_hc (c : BitCursor) (s : State) : (State.withBc c s).hc = s.hc := rfl
@[simp] theorem State.withBc_inBuf (c : BitCursor) (s : State) :
    (State.withBc c s).inBuf = s.inBuf := rfl
@[simp] theorem State.withBc_outBuf (c : BitCursor) (s : State) :
    (State.withBc c s).outBuf = s.outBuf := rfl
@[simp] theorem State.withBc_metaBuf (c : BitCursor) (s : State) :
    (State.withBc c s).metaBuf = s.metaBuf := rfl
@[simp] theorem State.withBc_phase (c : BitCursor) (s : State) :
    (State.withBc c s).phase = s.phase := rfl
@[simp] theorem State.withBc_host (c : BitCursor) (s : State) :
    (State.withBc c s).host = s.host := rfl
@[simp] theorem State.withBc_hostData (c : BitCursor) (s : State) :
    (State.withBc c s).hostData = s.hostData := rfl

/-! ### State.pushEntry -/

@[simp] theorem State.pushEntry_cfg (s : State) (v : Half) : (s.pushEntry v).cfg = s.cfg := rfl
@[simp] theorem State.pushEntry_status (s : State) (v : Half) :
    (s.pushEntry v).status = s.status := rfl
@[simp] theorem State.pushEntry_inLen (s : State) (v : Half) :
    (s.pushEntry v).inLen = s.inLen := rfl
@[simp] theorem State.pushEntry_outLen (s : State) (v : Half) :
    (s.pushEntry v).outLen = s.outLen := rfl
@[simp] theorem State.pushEntry_paramType (s : State) (v : Half) :
    (s.pushEntry v).paramType = s.paramType := rfl
@[simp] theorem State.pushEntry_paramLevel (s : State) (v : Half) :
    (s.pushEntry v).paramLevel = s.paramLevel := rfl
@[simp] theorem State.pushEntry_paramIndex (s : State) (v : Half) :
    (s.pushEntry v).paramIndex = s.paramIndex := rfl
@[simp] theorem State.pushEntry_paramUnk (s : State) (v : Half) :
    (s.pushEntry v).paramUnk = s.paramUnk := rfl
@[simp] theorem State.pushEntry_lcgState (s : State) (v : Half) :
    (s.pushEntry v).lcgState = s.lcgState := rfl
@[simp] theorem State.pushEntry_lcgWord (s : State) (v : Half) :
    (s.pushEntry v).lcgWord = s.lcgWord := rfl
@[simp] theorem State.pushEntry_faultInPos (s : State) (v : Half) :
    (s.pushEntry v).faultInPos = s.faultInPos := rfl
@[simp] theorem State.pushEntry_faultOutPos (s : State) (v : Half) :
    (s.pushEntry v).faultOutPos = s.faultOutPos := rfl
@[simp] theorem State.pushEntry_faultInfo (s : State) (v : Half) :
    (s.pushEntry v).faultInfo = s.faultInfo := rfl
@[simp] theorem State.pushEntry_inPos (s : State) (v : Half) :
    (s.pushEntry v).inPos = s.inPos := rfl
@[simp] theorem State.pushEntry_outPos (s : State) (v : Half) :
    (s.pushEntry v).outPos = s.outPos := rfl
@[simp] theorem State.pushEntry_size (s : State) (v : Half) : (s.pushEntry v).size = s.size := rfl
@[simp] theorem State.pushEntry_bc (s : State) (v : Half) : (s.pushEntry v).bc = s.bc := rfl
@[simp] theorem State.pushEntry_hf (s : State) (v : Half) : (s.pushEntry v).hf = s.hf := rfl
@[simp] theorem State.pushEntry_ht (s : State) (v : Half) : (s.pushEntry v).ht = s.ht ++ [v] := rfl
@[simp] theorem State.pushEntry_enc (s : State) (v : Half) : (s.pushEntry v).enc = s.enc := rfl
@[simp] theorem State.pushEntry_lcg (s : State) (v : Half) : (s.pushEntry v).lcg = s.lcg := rfl
@[simp] theorem State.pushEntry_ecd (s : State) (v : Half) : (s.pushEntry v).ecd = s.ecd := rfl
@[simp] theorem State.pushEntry_exf (s : State) (v : Half) : (s.pushEntry v).exf = s.exf := rfl
@[simp] theorem State.pushEntry_tokOut (s : State) (v : Half) :
    (s.pushEntry v).tokOut = s.tokOut := rfl
@[simp] theorem State.pushEntry_hc (s : State) (v : Half) : (s.pushEntry v).hc = s.hc := rfl
@[simp] theorem State.pushEntry_inBuf (s : State) (v : Half) :
    (s.pushEntry v).inBuf = s.inBuf := rfl
@[simp] theorem State.pushEntry_outBuf (s : State) (v : Half) :
    (s.pushEntry v).outBuf = s.outBuf := rfl
@[simp] theorem State.pushEntry_metaBuf (s : State) (v : Half) :
    (s.pushEntry v).metaBuf = s.metaBuf := rfl
@[simp] theorem State.pushEntry_phase (s : State) (v : Half) :
    (s.pushEntry v).phase = s.phase := rfl
@[simp] theorem State.pushEntry_host (s : State) (v : Half) : (s.pushEntry v).host = s.host := rfl
@[simp] theorem State.pushEntry_hostData (s : State) (v : Half) :
    (s.pushEntry v).hostData = s.hostData := rfl

/-! ### State.withEcd -/

@[simp] theorem State.withEcd_cfg (e : EcdState) (s : State) :
    (State.withEcd e s).cfg = s.cfg := rfl
@[simp] theorem State.withEcd_status (e : EcdState) (s : State) :
    (State.withEcd e s).status = s.status := rfl
@[simp] theorem State.withEcd_inLen (e : EcdState) (s : State) :
    (State.withEcd e s).inLen = s.inLen := rfl
@[simp] theorem State.withEcd_outLen (e : EcdState) (s : State) :
    (State.withEcd e s).outLen = s.outLen := rfl
@[simp] theorem State.withEcd_paramType (e : EcdState) (s : State) :
    (State.withEcd e s).paramType = s.paramType := rfl
@[simp] theorem State.withEcd_paramLevel (e : EcdState) (s : State) :
    (State.withEcd e s).paramLevel = s.paramLevel := rfl
@[simp] theorem State.withEcd_paramIndex (e : EcdState) (s : State) :
    (State.withEcd e s).paramIndex = s.paramIndex := rfl
@[simp] theorem State.withEcd_paramUnk (e : EcdState) (s : State) :
    (State.withEcd e s).paramUnk = s.paramUnk := rfl
@[simp] theorem State.withEcd_lcgState (e : EcdState) (s : State) :
    (State.withEcd e s).lcgState = s.lcgState := rfl
@[simp] theorem State.withEcd_lcgWord (e : EcdState) (s : State) :
    (State.withEcd e s).lcgWord = s.lcgWord := rfl
@[simp] theorem State.withEcd_faultInPos (e : EcdState) (s : State) :
    (State.withEcd e s).faultInPos = s.faultInPos := rfl
@[simp] theorem State.withEcd_faultOutPos (e : EcdState) (s : State) :
    (State.withEcd e s).faultOutPos = s.faultOutPos := rfl
@[simp] theorem State.withEcd_faultInfo (e : EcdState) (s : State) :
    (State.withEcd e s).faultInfo = s.faultInfo := rfl
@[simp] theorem State.withEcd_inPos (e : EcdState) (s : State) :
    (State.withEcd e s).inPos = s.inPos := rfl
@[simp] theorem State.withEcd_outPos (e : EcdState) (s : State) :
    (State.withEcd e s).outPos = s.outPos := rfl
@[simp] theorem State.withEcd_size (e : EcdState) (s : State) :
    (State.withEcd e s).size = s.size := rfl
@[simp] theorem State.withEcd_bc (e : EcdState) (s : State) : (State.withEcd e s).bc = s.bc := rfl
@[simp] theorem State.withEcd_hf (e : EcdState) (s : State) : (State.withEcd e s).hf = s.hf := rfl
@[simp] theorem State.withEcd_ht (e : EcdState) (s : State) : (State.withEcd e s).ht = s.ht := rfl
@[simp] theorem State.withEcd_enc (e : EcdState) (s : State) :
    (State.withEcd e s).enc = s.enc := rfl
@[simp] theorem State.withEcd_lcg (e : EcdState) (s : State) :
    (State.withEcd e s).lcg = s.lcg := rfl
@[simp] theorem State.withEcd_ecd (e : EcdState) (s : State) : (State.withEcd e s).ecd = e := rfl
@[simp] theorem State.withEcd_exf (e : EcdState) (s : State) :
    (State.withEcd e s).exf = s.exf := rfl
@[simp] theorem State.withEcd_tokOut (e : EcdState) (s : State) :
    (State.withEcd e s).tokOut = s.tokOut := rfl
@[simp] theorem State.withEcd_hc (e : EcdState) (s : State) : (State.withEcd e s).hc = s.hc := rfl
@[simp] theorem State.withEcd_inBuf (e : EcdState) (s : State) :
    (State.withEcd e s).inBuf = s.inBuf := rfl
@[simp] theorem State.withEcd_outBuf (e : EcdState) (s : State) :
    (State.withEcd e s).outBuf = s.outBuf := rfl
@[simp] theorem State.withEcd_metaBuf (e : EcdState) (s : State) :
    (State.withEcd e s).metaBuf = s.metaBuf := rfl
@[simp] theorem State.withEcd_phase (e : EcdState) (s : State) :
    (State.withEcd e s).phase = s.phase := rfl
@[simp] theorem State.withEcd_host (e : EcdState) (s : State) :
    (State.withEcd e s).host = s.host := rfl
@[simp] theorem State.withEcd_hostData (e : EcdState) (s : State) :
    (State.withEcd e s).hostData = s.hostData := rfl

/-! ### State.withInPos -/

@[simp] theorem State.withInPos_cfg (v : Word) (s : State) :
    (State.withInPos v s).cfg = s.cfg := rfl
@[simp] theorem State.withInPos_status (v : Word) (s : State) :
    (State.withInPos v s).status = s.status := rfl
@[simp] theorem State.withInPos_inLen (v : Word) (s : State) :
    (State.withInPos v s).inLen = s.inLen := rfl
@[simp] theorem State.withInPos_outLen (v : Word) (s : State) :
    (State.withInPos v s).outLen = s.outLen := rfl
@[simp] theorem State.withInPos_paramType (v : Word) (s : State) :
    (State.withInPos v s).paramType = s.paramType := rfl
@[simp] theorem State.withInPos_paramLevel (v : Word) (s : State) :
    (State.withInPos v s).paramLevel = s.paramLevel := rfl
@[simp] theorem State.withInPos_paramIndex (v : Word) (s : State) :
    (State.withInPos v s).paramIndex = s.paramIndex := rfl
@[simp] theorem State.withInPos_paramUnk (v : Word) (s : State) :
    (State.withInPos v s).paramUnk = s.paramUnk := rfl
@[simp] theorem State.withInPos_lcgState (v : Word) (s : State) :
    (State.withInPos v s).lcgState = s.lcgState := rfl
@[simp] theorem State.withInPos_lcgWord (v : Word) (s : State) :
    (State.withInPos v s).lcgWord = s.lcgWord := rfl
@[simp] theorem State.withInPos_faultInPos (v : Word) (s : State) :
    (State.withInPos v s).faultInPos = s.faultInPos := rfl
@[simp] theorem State.withInPos_faultOutPos (v : Word) (s : State) :
    (State.withInPos v s).faultOutPos = s.faultOutPos := rfl
@[simp] theorem State.withInPos_faultInfo (v : Word) (s : State) :
    (State.withInPos v s).faultInfo = s.faultInfo := rfl
@[simp] theorem State.withInPos_inPos (v : Word) (s : State) :
    (State.withInPos v s).inPos = v := rfl
@[simp] theorem State.withInPos_outPos (v : Word) (s : State) :
    (State.withInPos v s).outPos = s.outPos := rfl
@[simp] theorem State.withInPos_size (v : Word) (s : State) :
    (State.withInPos v s).size = s.size := rfl
@[simp] theorem State.withInPos_bc (v : Word) (s : State) : (State.withInPos v s).bc = s.bc := rfl
@[simp] theorem State.withInPos_hf (v : Word) (s : State) : (State.withInPos v s).hf = s.hf := rfl
@[simp] theorem State.withInPos_ht (v : Word) (s : State) : (State.withInPos v s).ht = s.ht := rfl
@[simp] theorem State.withInPos_enc (v : Word) (s : State) :
    (State.withInPos v s).enc = s.enc := rfl
@[simp] theorem State.withInPos_lcg (v : Word) (s : State) :
    (State.withInPos v s).lcg = s.lcg := rfl
@[simp] theorem State.withInPos_ecd (v : Word) (s : State) :
    (State.withInPos v s).ecd = s.ecd := rfl
@[simp] theorem State.withInPos_exf (v : Word) (s : State) :
    (State.withInPos v s).exf = s.exf := rfl
@[simp] theorem State.withInPos_tokOut (v : Word) (s : State) :
    (State.withInPos v s).tokOut = s.tokOut := rfl
@[simp] theorem State.withInPos_hc (v : Word) (s : State) : (State.withInPos v s).hc = s.hc := rfl
@[simp] theorem State.withInPos_inBuf (v : Word) (s : State) :
    (State.withInPos v s).inBuf = s.inBuf := rfl
@[simp] theorem State.withInPos_outBuf (v : Word) (s : State) :
    (State.withInPos v s).outBuf = s.outBuf := rfl
@[simp] theorem State.withInPos_metaBuf (v : Word) (s : State) :
    (State.withInPos v s).metaBuf = s.metaBuf := rfl
@[simp] theorem State.withInPos_phase (v : Word) (s : State) :
    (State.withInPos v s).phase = s.phase := rfl
@[simp] theorem State.withInPos_host (v : Word) (s : State) :
    (State.withInPos v s).host = s.host := rfl
@[simp] theorem State.withInPos_hostData (v : Word) (s : State) :
    (State.withInPos v s).hostData = s.hostData := rfl

/-! ### State.startDecode -/

@[simp] theorem State.startDecode_cfg (s : State) : (s.startDecode).cfg = s.cfg := rfl
@[simp] theorem State.startDecode_status (s : State) : (s.startDecode).status = s.status := rfl
@[simp] theorem State.startDecode_inLen (s : State) : (s.startDecode).inLen = s.inLen := rfl
@[simp] theorem State.startDecode_outLen (s : State) : (s.startDecode).outLen = s.outLen := rfl
@[simp] theorem State.startDecode_paramType (s : State) :
    (s.startDecode).paramType = s.paramType := rfl
@[simp] theorem State.startDecode_paramLevel (s : State) :
    (s.startDecode).paramLevel = s.paramLevel := rfl
@[simp] theorem State.startDecode_paramIndex (s : State) :
    (s.startDecode).paramIndex = s.paramIndex := rfl
@[simp] theorem State.startDecode_paramUnk (s : State) :
    (s.startDecode).paramUnk = s.paramUnk := rfl
@[simp] theorem State.startDecode_lcgState (s : State) :
    (s.startDecode).lcgState = s.lcgState := rfl
@[simp] theorem State.startDecode_lcgWord (s : State) : (s.startDecode).lcgWord = s.lcgWord := rfl
@[simp] theorem State.startDecode_faultInPos (s : State) :
    (s.startDecode).faultInPos = s.faultInPos := rfl
@[simp] theorem State.startDecode_faultOutPos (s : State) :
    (s.startDecode).faultOutPos = s.faultOutPos := rfl
@[simp] theorem State.startDecode_faultInfo (s : State) :
    (s.startDecode).faultInfo = s.faultInfo := rfl
@[simp] theorem State.startDecode_inPos (s : State) : (s.startDecode).inPos = s.inPos := rfl
@[simp] theorem State.startDecode_outPos (s : State) : (s.startDecode).outPos = s.outPos := rfl
@[simp] theorem State.startDecode_size (s : State) : (s.startDecode).size = s.size := rfl
@[simp] theorem State.startDecode_bc (s : State) : (s.startDecode).bc = s.bc := rfl
@[simp] theorem State.startDecode_hf (s : State) : (s.startDecode).hf = s.hf := rfl
@[simp] theorem State.startDecode_ht (s : State) : (s.startDecode).ht = s.ht := rfl
@[simp] theorem State.startDecode_enc (s : State) : (s.startDecode).enc = s.enc := rfl
@[simp] theorem State.startDecode_lcg (s : State) : (s.startDecode).lcg = s.lcg := rfl
@[simp] theorem State.startDecode_ecd (s : State) : (s.startDecode).ecd = s.ecd := rfl
@[simp] theorem State.startDecode_exf (s : State) : (s.startDecode).exf = s.exf := rfl
@[simp] theorem State.startDecode_tokOut (s : State) : (s.startDecode).tokOut = s.tokOut := rfl
@[simp] theorem State.startDecode_hc (s : State) : (s.startDecode).hc = s.hc := rfl
@[simp] theorem State.startDecode_inBuf (s : State) : (s.startDecode).inBuf = s.inBuf := rfl
@[simp] theorem State.startDecode_outBuf (s : State) : (s.startDecode).outBuf = s.outBuf := rfl
@[simp] theorem State.startDecode_metaBuf (s : State) : (s.startDecode).metaBuf = s.metaBuf := rfl
@[simp] theorem State.startDecode_phase (s : State) : (s.startDecode).phase = .lzDecode := rfl
@[simp] theorem State.startDecode_host (s : State) : (s.startDecode).host = s.host := rfl
@[simp] theorem State.startDecode_hostData (s : State) :
    (s.startDecode).hostData = s.hostData := rfl

/-! ### State.markToken -/

@[simp] theorem State.markToken_cfg (s : State) : (s.markToken).cfg = s.cfg := rfl
@[simp] theorem State.markToken_status (s : State) : (s.markToken).status = s.status := rfl
@[simp] theorem State.markToken_inLen (s : State) : (s.markToken).inLen = s.inLen := rfl
@[simp] theorem State.markToken_outLen (s : State) : (s.markToken).outLen = s.outLen := rfl
@[simp] theorem State.markToken_paramType (s : State) : (s.markToken).paramType = s.paramType := rfl
@[simp] theorem State.markToken_paramLevel (s : State) :
    (s.markToken).paramLevel = s.paramLevel := rfl
@[simp] theorem State.markToken_paramIndex (s : State) :
    (s.markToken).paramIndex = s.paramIndex := rfl
@[simp] theorem State.markToken_paramUnk (s : State) : (s.markToken).paramUnk = s.paramUnk := rfl
@[simp] theorem State.markToken_lcgState (s : State) : (s.markToken).lcgState = s.lcgState := rfl
@[simp] theorem State.markToken_lcgWord (s : State) : (s.markToken).lcgWord = s.lcgWord := rfl
@[simp] theorem State.markToken_faultInPos (s : State) :
    (s.markToken).faultInPos = s.faultInPos := rfl
@[simp] theorem State.markToken_faultOutPos (s : State) :
    (s.markToken).faultOutPos = s.faultOutPos := rfl
@[simp] theorem State.markToken_faultInfo (s : State) : (s.markToken).faultInfo = s.faultInfo := rfl
@[simp] theorem State.markToken_inPos (s : State) : (s.markToken).inPos = s.inPos := rfl
@[simp] theorem State.markToken_outPos (s : State) : (s.markToken).outPos = s.outPos := rfl
@[simp] theorem State.markToken_size (s : State) : (s.markToken).size = s.size := rfl
@[simp] theorem State.markToken_bc (s : State) : (s.markToken).bc = s.bc := rfl
@[simp] theorem State.markToken_hf (s : State) : (s.markToken).hf = s.hf := rfl
@[simp] theorem State.markToken_ht (s : State) : (s.markToken).ht = s.ht := rfl
@[simp] theorem State.markToken_enc (s : State) : (s.markToken).enc = s.enc := rfl
@[simp] theorem State.markToken_lcg (s : State) : (s.markToken).lcg = s.lcg := rfl
@[simp] theorem State.markToken_ecd (s : State) : (s.markToken).ecd = s.ecd := rfl
@[simp] theorem State.markToken_exf (s : State) : (s.markToken).exf = s.exf := rfl
@[simp] theorem State.markToken_tokOut (s : State) : (s.markToken).tokOut = s.outPos := rfl
@[simp] theorem State.markToken_hc (s : State) : (s.markToken).hc = s.hc := rfl
@[simp] theorem State.markToken_inBuf (s : State) : (s.markToken).inBuf = s.inBuf := rfl
@[simp] theorem State.markToken_outBuf (s : State) : (s.markToken).outBuf = s.outBuf := rfl
@[simp] theorem State.markToken_metaBuf (s : State) : (s.markToken).metaBuf = s.metaBuf := rfl
@[simp] theorem State.markToken_phase (s : State) : (s.markToken).phase = s.phase := rfl
@[simp] theorem State.markToken_host (s : State) : (s.markToken).host = s.host := rfl
@[simp] theorem State.markToken_hostData (s : State) : (s.markToken).hostData = s.hostData := rfl

/-! ### State.advanceEnc -/

@[simp] theorem State.advanceEnc_cfg (n : Nat) (s : State) :
    (State.advanceEnc n s).cfg = s.cfg := rfl
@[simp] theorem State.advanceEnc_status (n : Nat) (s : State) :
    (State.advanceEnc n s).status = s.status := rfl
@[simp] theorem State.advanceEnc_inLen (n : Nat) (s : State) :
    (State.advanceEnc n s).inLen = s.inLen := rfl
@[simp] theorem State.advanceEnc_outLen (n : Nat) (s : State) :
    (State.advanceEnc n s).outLen = s.outLen := rfl
@[simp] theorem State.advanceEnc_paramType (n : Nat) (s : State) :
    (State.advanceEnc n s).paramType = s.paramType := rfl
@[simp] theorem State.advanceEnc_paramLevel (n : Nat) (s : State) :
    (State.advanceEnc n s).paramLevel = s.paramLevel := rfl
@[simp] theorem State.advanceEnc_paramIndex (n : Nat) (s : State) :
    (State.advanceEnc n s).paramIndex = s.paramIndex := rfl
@[simp] theorem State.advanceEnc_paramUnk (n : Nat) (s : State) :
    (State.advanceEnc n s).paramUnk = s.paramUnk := rfl
@[simp] theorem State.advanceEnc_lcgState (n : Nat) (s : State) :
    (State.advanceEnc n s).lcgState = s.lcgState := rfl
@[simp] theorem State.advanceEnc_lcgWord (n : Nat) (s : State) :
    (State.advanceEnc n s).lcgWord = s.lcgWord := rfl
@[simp] theorem State.advanceEnc_faultInPos (n : Nat) (s : State) :
    (State.advanceEnc n s).faultInPos = s.faultInPos := rfl
@[simp] theorem State.advanceEnc_faultOutPos (n : Nat) (s : State) :
    (State.advanceEnc n s).faultOutPos = s.faultOutPos := rfl
@[simp] theorem State.advanceEnc_faultInfo (n : Nat) (s : State) :
    (State.advanceEnc n s).faultInfo = s.faultInfo := rfl
@[simp] theorem State.advanceEnc_inPos (n : Nat) (s : State) :
    (State.advanceEnc n s).inPos = s.inPos := rfl
@[simp] theorem State.advanceEnc_outPos (n : Nat) (s : State) :
    (State.advanceEnc n s).outPos = s.outPos := rfl
@[simp] theorem State.advanceEnc_size (n : Nat) (s : State) :
    (State.advanceEnc n s).size = s.size := rfl
@[simp] theorem State.advanceEnc_bc (n : Nat) (s : State) : (State.advanceEnc n s).bc = s.bc := rfl
@[simp] theorem State.advanceEnc_hf (n : Nat) (s : State) : (State.advanceEnc n s).hf = s.hf := rfl
@[simp] theorem State.advanceEnc_ht (n : Nat) (s : State) : (State.advanceEnc n s).ht = s.ht := rfl
@[simp] theorem State.advanceEnc_enc (n : Nat) (s : State) :
    (State.advanceEnc n s).enc = { s.enc with pos := s.enc.pos + BitVec.ofNat 32 n } := rfl
@[simp] theorem State.advanceEnc_lcg (n : Nat) (s : State) :
    (State.advanceEnc n s).lcg = s.lcg := rfl
@[simp] theorem State.advanceEnc_ecd (n : Nat) (s : State) :
    (State.advanceEnc n s).ecd = s.ecd := rfl
@[simp] theorem State.advanceEnc_exf (n : Nat) (s : State) :
    (State.advanceEnc n s).exf = s.exf := rfl
@[simp] theorem State.advanceEnc_tokOut (n : Nat) (s : State) :
    (State.advanceEnc n s).tokOut = s.tokOut := rfl
@[simp] theorem State.advanceEnc_hc (n : Nat) (s : State) : (State.advanceEnc n s).hc = s.hc := rfl
@[simp] theorem State.advanceEnc_inBuf (n : Nat) (s : State) :
    (State.advanceEnc n s).inBuf = s.inBuf := rfl
@[simp] theorem State.advanceEnc_outBuf (n : Nat) (s : State) :
    (State.advanceEnc n s).outBuf = s.outBuf := rfl
@[simp] theorem State.advanceEnc_metaBuf (n : Nat) (s : State) :
    (State.advanceEnc n s).metaBuf = s.metaBuf := rfl
@[simp] theorem State.advanceEnc_phase (n : Nat) (s : State) :
    (State.advanceEnc n s).phase = s.phase := rfl
@[simp] theorem State.advanceEnc_host (n : Nat) (s : State) :
    (State.advanceEnc n s).host = s.host := rfl
@[simp] theorem State.advanceEnc_hostData (n : Nat) (s : State) :
    (State.advanceEnc n s).hostData = s.hostData := rfl

/-! ### takeFault -/

@[simp] theorem State.takeFault_cfg (k : FaultKind) (n : Nat) (s : State) :
    (takeFault k n s).cfg = s.cfg := rfl
@[simp] theorem State.takeFault_status (k : FaultKind) (n : Nat) (s : State) :
    (takeFault k n s).status = statusFaulted k s.status := rfl
@[simp] theorem State.takeFault_inLen (k : FaultKind) (n : Nat) (s : State) :
    (takeFault k n s).inLen = s.inLen := rfl
@[simp] theorem State.takeFault_outLen (k : FaultKind) (n : Nat) (s : State) :
    (takeFault k n s).outLen = 0 := rfl
@[simp] theorem State.takeFault_paramType (k : FaultKind) (n : Nat) (s : State) :
    (takeFault k n s).paramType = s.paramType := rfl
@[simp] theorem State.takeFault_paramLevel (k : FaultKind) (n : Nat) (s : State) :
    (takeFault k n s).paramLevel = s.paramLevel := rfl
@[simp] theorem State.takeFault_paramIndex (k : FaultKind) (n : Nat) (s : State) :
    (takeFault k n s).paramIndex = s.paramIndex := rfl
@[simp] theorem State.takeFault_paramUnk (k : FaultKind) (n : Nat) (s : State) :
    (takeFault k n s).paramUnk = s.paramUnk := rfl
@[simp] theorem State.takeFault_lcgState (k : FaultKind) (n : Nat) (s : State) :
    (takeFault k n s).lcgState = s.lcgState := rfl
@[simp] theorem State.takeFault_lcgWord (k : FaultKind) (n : Nat) (s : State) :
    (takeFault k n s).lcgWord = s.lcgWord := rfl
@[simp] theorem State.takeFault_faultInPos (k : FaultKind) (n : Nat) (s : State) :
    (takeFault k n s).faultInPos = s.inPos := rfl
@[simp] theorem State.takeFault_faultOutPos (k : FaultKind) (n : Nat) (s : State) :
    (takeFault k n s).faultOutPos = if s.phase = .lzDecode then s.tokOut else s.outPos := rfl
@[simp] theorem State.takeFault_faultInfo (k : FaultKind) (n : Nat) (s : State) :
    (takeFault k n s).faultInfo = infoWord n := rfl
@[simp] theorem State.takeFault_inPos (k : FaultKind) (n : Nat) (s : State) :
    (takeFault k n s).inPos = s.inPos := rfl
@[simp] theorem State.takeFault_outPos (k : FaultKind) (n : Nat) (s : State) :
    (takeFault k n s).outPos = s.outPos := rfl
@[simp] theorem State.takeFault_size (k : FaultKind) (n : Nat) (s : State) :
    (takeFault k n s).size = s.size := rfl
@[simp] theorem State.takeFault_bc (k : FaultKind) (n : Nat) (s : State) :
    (takeFault k n s).bc = s.bc := rfl
@[simp] theorem State.takeFault_hf (k : FaultKind) (n : Nat) (s : State) :
    (takeFault k n s).hf = s.hf := rfl
@[simp] theorem State.takeFault_ht (k : FaultKind) (n : Nat) (s : State) :
    (takeFault k n s).ht = s.ht := rfl
@[simp] theorem State.takeFault_enc (k : FaultKind) (n : Nat) (s : State) :
    (takeFault k n s).enc = s.enc := rfl
@[simp] theorem State.takeFault_lcg (k : FaultKind) (n : Nat) (s : State) :
    (takeFault k n s).lcg = s.lcg := rfl
@[simp] theorem State.takeFault_ecd (k : FaultKind) (n : Nat) (s : State) :
    (takeFault k n s).ecd = s.ecd := rfl
@[simp] theorem State.takeFault_exf (k : FaultKind) (n : Nat) (s : State) :
    (takeFault k n s).exf = s.exf := rfl
@[simp] theorem State.takeFault_tokOut (k : FaultKind) (n : Nat) (s : State) :
    (takeFault k n s).tokOut = s.tokOut := rfl
@[simp] theorem State.takeFault_hc (k : FaultKind) (n : Nat) (s : State) :
    (takeFault k n s).hc = s.hc := rfl
@[simp] theorem State.takeFault_inBuf (k : FaultKind) (n : Nat) (s : State) :
    (takeFault k n s).inBuf = s.inBuf := rfl
@[simp] theorem State.takeFault_outBuf (k : FaultKind) (n : Nat) (s : State) :
    (takeFault k n s).outBuf = [] := rfl
@[simp] theorem State.takeFault_metaBuf (k : FaultKind) (n : Nat) (s : State) :
    (takeFault k n s).metaBuf = s.metaBuf := rfl
@[simp] theorem State.takeFault_phase (k : FaultKind) (n : Nat) (s : State) :
    (takeFault k n s).phase = .idle := rfl
@[simp] theorem State.takeFault_host (k : FaultKind) (n : Nat) (s : State) :
    (takeFault k n s).host = s.host := rfl
@[simp] theorem State.takeFault_hostData (k : FaultKind) (n : Nat) (s : State) :
    (takeFault k n s).hostData = s.hostData := rfl

/-! ### publish -/

@[simp] theorem State.publish_cfg (s : State) : (publish s).cfg = s.cfg := rfl
@[simp] theorem State.publish_status (s : State) :
    (publish s).status = statusCompleted s.status := rfl
@[simp] theorem State.publish_inLen (s : State) : (publish s).inLen = s.inLen := rfl
@[simp] theorem State.publish_outLen (s : State) : (publish s).outLen = s.outPos := rfl
@[simp] theorem State.publish_paramType (s : State) : (publish s).paramType = s.paramType := rfl
@[simp] theorem State.publish_paramLevel (s : State) : (publish s).paramLevel = s.paramLevel := rfl
@[simp] theorem State.publish_paramIndex (s : State) : (publish s).paramIndex = s.paramIndex := rfl
@[simp] theorem State.publish_paramUnk (s : State) : (publish s).paramUnk = s.paramUnk := rfl
@[simp] theorem State.publish_lcgState (s : State) : (publish s).lcgState = s.lcgState := rfl
@[simp] theorem State.publish_lcgWord (s : State) : (publish s).lcgWord = s.lcgWord := rfl
@[simp] theorem State.publish_faultInPos (s : State) : (publish s).faultInPos = s.faultInPos := rfl
@[simp] theorem State.publish_faultOutPos (s : State) :
    (publish s).faultOutPos = s.faultOutPos := rfl
@[simp] theorem State.publish_faultInfo (s : State) : (publish s).faultInfo = s.faultInfo := rfl
@[simp] theorem State.publish_inPos (s : State) : (publish s).inPos = s.inPos := rfl
@[simp] theorem State.publish_outPos (s : State) : (publish s).outPos = s.outPos := rfl
@[simp] theorem State.publish_size (s : State) : (publish s).size = s.size := rfl
@[simp] theorem State.publish_bc (s : State) : (publish s).bc = s.bc := rfl
@[simp] theorem State.publish_hf (s : State) : (publish s).hf = s.hf := rfl
@[simp] theorem State.publish_ht (s : State) : (publish s).ht = s.ht := rfl
@[simp] theorem State.publish_enc (s : State) : (publish s).enc = s.enc := rfl
@[simp] theorem State.publish_lcg (s : State) : (publish s).lcg = s.lcg := rfl
@[simp] theorem State.publish_ecd (s : State) : (publish s).ecd = s.ecd := rfl
@[simp] theorem State.publish_exf (s : State) : (publish s).exf = s.exf := rfl
@[simp] theorem State.publish_tokOut (s : State) : (publish s).tokOut = s.tokOut := rfl
@[simp] theorem State.publish_hc (s : State) : (publish s).hc = s.hc := rfl
@[simp] theorem State.publish_inBuf (s : State) : (publish s).inBuf = s.inBuf := rfl
@[simp] theorem State.publish_outBuf (s : State) :
    (publish s).outBuf = Memory.below s.outBuf s.outPos.toNat := rfl
@[simp] theorem State.publish_metaBuf (s : State) : (publish s).metaBuf = s.metaBuf := rfl
@[simp] theorem State.publish_phase (s : State) : (publish s).phase = .idle := rfl
@[simp] theorem State.publish_host (s : State) : (publish s).host = s.host := rfl
@[simp] theorem State.publish_hostData (s : State) : (publish s).hostData = s.hostData := rfl

/-! ### commandStart -/

@[simp] theorem State.commandStart_cfg (v : Word) (s : State) :
    (commandStart v s).cfg = s.cfg := rfl
@[simp] theorem State.commandStart_status (v : Word) (s : State) :
    (commandStart v s).status = statusStarted (v.extractLsb' 0 8) := rfl
@[simp] theorem State.commandStart_inLen (v : Word) (s : State) :
    (commandStart v s).inLen = s.inLen := rfl
@[simp] theorem State.commandStart_outLen (v : Word) (s : State) :
    (commandStart v s).outLen = 0 := rfl
@[simp] theorem State.commandStart_paramType (v : Word) (s : State) :
    (commandStart v s).paramType = s.paramType := rfl
@[simp] theorem State.commandStart_paramLevel (v : Word) (s : State) :
    (commandStart v s).paramLevel = s.paramLevel := rfl
@[simp] theorem State.commandStart_paramIndex (v : Word) (s : State) :
    (commandStart v s).paramIndex = s.paramIndex := rfl
@[simp] theorem State.commandStart_paramUnk (v : Word) (s : State) :
    (commandStart v s).paramUnk = s.paramUnk := rfl
@[simp] theorem State.commandStart_lcgState (v : Word) (s : State) :
    (commandStart v s).lcgState = s.lcgState := rfl
@[simp] theorem State.commandStart_lcgWord (v : Word) (s : State) :
    (commandStart v s).lcgWord = s.lcgWord := rfl
@[simp] theorem State.commandStart_faultInPos (v : Word) (s : State) :
    (commandStart v s).faultInPos = s.faultInPos := rfl
@[simp] theorem State.commandStart_faultOutPos (v : Word) (s : State) :
    (commandStart v s).faultOutPos = s.faultOutPos := rfl
@[simp] theorem State.commandStart_faultInfo (v : Word) (s : State) :
    (commandStart v s).faultInfo = s.faultInfo := rfl
@[simp] theorem State.commandStart_inPos (v : Word) (s : State) :
    (commandStart v s).inPos = 0 := rfl
@[simp] theorem State.commandStart_outPos (v : Word) (s : State) :
    (commandStart v s).outPos = 0 := rfl
@[simp] theorem State.commandStart_size (v : Word) (s : State) :
    (commandStart v s).size = s.size := rfl
@[simp] theorem State.commandStart_bc (v : Word) (s : State) : (commandStart v s).bc = ⟨0, 0⟩ := rfl
@[simp] theorem State.commandStart_hf (v : Word) (s : State) :
    (commandStart v s).hf = { s.hf with on := false, cursor := ⟨0, 0⟩ } := rfl
@[simp] theorem State.commandStart_ht (v : Word) (s : State) : (commandStart v s).ht = s.ht := rfl
@[simp] theorem State.commandStart_enc (v : Word) (s : State) :
    (commandStart v s).enc = { s.enc with isOpen := false, cnt := 0, flag := 0, pend := [] } := rfl
@[simp] theorem State.commandStart_lcg (v : Word) (s : State) :
    (commandStart v s).lcg = s.lcg := rfl
@[simp] theorem State.commandStart_ecd (v : Word) (s : State) :
    (commandStart v s).ecd = s.ecd := rfl
@[simp] theorem State.commandStart_exf (v : Word) (s : State) :
    (commandStart v s).exf = s.exf := rfl
@[simp] theorem State.commandStart_tokOut (v : Word) (s : State) :
    (commandStart v s).tokOut = 0 := rfl
@[simp] theorem State.commandStart_hc (v : Word) (s : State) :
    (commandStart v s).hc = ⟨false, 0⟩ := rfl
@[simp] theorem State.commandStart_inBuf (v : Word) (s : State) :
    (commandStart v s).inBuf = s.inBuf := rfl
@[simp] theorem State.commandStart_outBuf (v : Word) (s : State) :
    (commandStart v s).outBuf = s.outBuf := rfl
@[simp] theorem State.commandStart_metaBuf (v : Word) (s : State) :
    (commandStart v s).metaBuf = s.metaBuf := rfl
@[simp] theorem State.commandStart_phase (v : Word) (s : State) :
    (commandStart v s).phase = .dispatch v := rfl
@[simp] theorem State.commandStart_host (v : Word) (s : State) :
    (commandStart v s).host = s.host := rfl
@[simp] theorem State.commandStart_hostData (v : Word) (s : State) :
    (commandStart v s).hostData = s.hostData := rfl

/-! ### conflict -/

@[simp] theorem State.conflict_cfg (d : Word) (r : Bool) (s : State) :
    (conflict d r s).cfg = s.cfg := rfl
@[simp] theorem State.conflict_status (d : Word) (r : Bool) (s : State) :
    (conflict d r s).status = s.status := rfl
@[simp] theorem State.conflict_inLen (d : Word) (r : Bool) (s : State) :
    (conflict d r s).inLen = s.inLen := rfl
@[simp] theorem State.conflict_outLen (d : Word) (r : Bool) (s : State) :
    (conflict d r s).outLen = s.outLen := rfl
@[simp] theorem State.conflict_paramType (d : Word) (r : Bool) (s : State) :
    (conflict d r s).paramType = s.paramType := rfl
@[simp] theorem State.conflict_paramLevel (d : Word) (r : Bool) (s : State) :
    (conflict d r s).paramLevel = s.paramLevel := rfl
@[simp] theorem State.conflict_paramIndex (d : Word) (r : Bool) (s : State) :
    (conflict d r s).paramIndex = s.paramIndex := rfl
@[simp] theorem State.conflict_paramUnk (d : Word) (r : Bool) (s : State) :
    (conflict d r s).paramUnk = s.paramUnk := rfl
@[simp] theorem State.conflict_lcgState (d : Word) (r : Bool) (s : State) :
    (conflict d r s).lcgState = s.lcgState := rfl
@[simp] theorem State.conflict_lcgWord (d : Word) (r : Bool) (s : State) :
    (conflict d r s).lcgWord = s.lcgWord := rfl
@[simp] theorem State.conflict_faultInPos (d : Word) (r : Bool) (s : State) :
    (conflict d r s).faultInPos = s.faultInPos := rfl
@[simp] theorem State.conflict_faultOutPos (d : Word) (r : Bool) (s : State) :
    (conflict d r s).faultOutPos = s.faultOutPos := rfl
@[simp] theorem State.conflict_faultInfo (d : Word) (r : Bool) (s : State) :
    (conflict d r s).faultInfo = s.faultInfo := rfl
@[simp] theorem State.conflict_inPos (d : Word) (r : Bool) (s : State) :
    (conflict d r s).inPos = s.inPos := rfl
@[simp] theorem State.conflict_outPos (d : Word) (r : Bool) (s : State) :
    (conflict d r s).outPos = s.outPos := rfl
@[simp] theorem State.conflict_size (d : Word) (r : Bool) (s : State) :
    (conflict d r s).size = s.size := rfl
@[simp] theorem State.conflict_bc (d : Word) (r : Bool) (s : State) :
    (conflict d r s).bc = s.bc := rfl
@[simp] theorem State.conflict_hf (d : Word) (r : Bool) (s : State) :
    (conflict d r s).hf = s.hf := rfl
@[simp] theorem State.conflict_ht (d : Word) (r : Bool) (s : State) :
    (conflict d r s).ht = s.ht := rfl
@[simp] theorem State.conflict_enc (d : Word) (r : Bool) (s : State) :
    (conflict d r s).enc = s.enc := rfl
@[simp] theorem State.conflict_lcg (d : Word) (r : Bool) (s : State) :
    (conflict d r s).lcg = s.lcg := rfl
@[simp] theorem State.conflict_ecd (d : Word) (r : Bool) (s : State) :
    (conflict d r s).ecd = s.ecd := rfl
@[simp] theorem State.conflict_exf (d : Word) (r : Bool) (s : State) :
    (conflict d r s).exf = s.exf := rfl
@[simp] theorem State.conflict_tokOut (d : Word) (r : Bool) (s : State) :
    (conflict d r s).tokOut = s.tokOut := rfl
@[simp] theorem State.conflict_hc (d : Word) (r : Bool) (s : State) :
    (conflict d r s).hc = if s.hc.isSet then s.hc else ⟨true, d⟩ := rfl
@[simp] theorem State.conflict_inBuf (d : Word) (r : Bool) (s : State) :
    (conflict d r s).inBuf = s.inBuf := rfl
@[simp] theorem State.conflict_outBuf (d : Word) (r : Bool) (s : State) :
    (conflict d r s).outBuf = s.outBuf := rfl
@[simp] theorem State.conflict_metaBuf (d : Word) (r : Bool) (s : State) :
    (conflict d r s).metaBuf = s.metaBuf := rfl
@[simp] theorem State.conflict_phase (d : Word) (r : Bool) (s : State) :
    (conflict d r s).phase = s.phase := rfl
@[simp] theorem State.conflict_host (d : Word) (r : Bool) (s : State) :
    (conflict d r s).host = s.host := rfl
@[simp] theorem State.conflict_hostData (d : Word) (r : Bool) (s : State) :
    (conflict d r s).hostData = if r then some 0 else none := rfl

end Sys2Proof.Machine
end

