-- ==== Sys2Proof/Laws/Engine.lean ====
section
/-! SUPPORT. How engine operations run: the equations of the monad, one lemma per shared operation
that says everything it can do, and the rule that carries a relation between the states before and
after through a whole operation. -/

namespace Sys2Proof.Machine

/-! ### The monad's equations -/

@[simp] theorem Engine.pure_apply {α : Type} (a : α) (s : State) :
    (pure a : Engine α) s = .ok a s := rfl

theorem Engine.bind_apply {α β : Type} (m : Engine α) (f : α → Engine β) (s : State) :
    (m >>= f) s = match m s with
      | .ok a s' => f a s'
      | .error e s' => .error e s' := by
  show EStateM.bind m f s = _
  unfold EStateM.bind
  cases m s <;> rfl

/-- A sequence whose first operation answers goes on with the second. -/
theorem Engine.bind_ok {α β : Type} {m : Engine α} {f : α → Engine β} {s s' : State} {a : α}
    (h : m s = .ok a s') : (m >>= f) s = f a s' := by rw [Engine.bind_apply, h]

/-- A sequence whose first operation stops has stopped. -/
theorem Engine.bind_error {α β : Type} {m : Engine α} {f : α → Engine β} {s s' : State} {e : Stop}
    (h : m s = .error e s') : (m >>= f) s = .error e s' := by rw [Engine.bind_apply, h]

/-- A sequence that answers is made of two operations that answer. -/
theorem Engine.bind_eq_ok {α β : Type} {m : Engine α} {f : α → Engine β} {s t : State} {b : β} :
    (m >>= f) s = .ok b t ↔ ∃ a s', m s = .ok a s' ∧ f a s' = .ok b t := by
  rw [Engine.bind_apply]
  cases h : m s <;> simp

/-- A sequence that stops does so in its first or in its second operation. -/
theorem Engine.bind_eq_error {α β : Type} {m : Engine α} {f : α → Engine β} {s t : State}
    {e : Stop} :
    (m >>= f) s = .error e t ↔
      m s = .error e t ∨ ∃ a s', m s = .ok a s' ∧ f a s' = .error e t := by
  rw [Engine.bind_apply]
  cases h : m s <;> simp

@[simp] theorem Engine.get_bind {β : Type} (f : State → Engine β) (s : State) :
    ((get : Engine State) >>= f) s = f s s := rfl

@[simp] theorem Engine.set_bind {β : Type} (t : State) (f : PUnit → Engine β) (s : State) :
    ((set t : Engine PUnit) >>= f) s = f ⟨⟩ t := rfl

@[simp] theorem Engine.modify_bind {β : Type} (g : State → State) (f : PUnit → Engine β)
    (s : State) : ((modify g : Engine PUnit) >>= f) s = f ⟨⟩ (g s) := rfl

@[simp] theorem Engine.pure_bind_apply {α β : Type} (a : α) (f : α → Engine β) (s : State) :
    ((pure a : Engine α) >>= f) s = f a s := rfl

@[simp] theorem Engine.set_apply (t s : State) : (set t : Engine PUnit) s = .ok ⟨⟩ t := rfl

@[simp] theorem Engine.modify_apply (g : State → State) (s : State) :
    (modify g : Engine PUnit) s = .ok ⟨⟩ (g s) := rfl

@[simp] theorem raise_apply {α : Type} (k : FaultKind) (n : Nat) (s : State) :
    (raise k n : Engine α) s = .error (.raise k n) s := rfl

@[simp] theorem raise_bind {α β : Type} (k : FaultKind) (n : Nat) (f : α → Engine β) (s : State) :
    ((raise k n : Engine α) >>= f) s = .error (.raise k n) s := rfl

theorem raiseIf_apply (c : Bool) (k : FaultKind) (n : Nat) (s : State) :
    raiseIf c k n s = if c then .error (.raise k n) s else .ok () s := by
  unfold raiseIf; split <;> rfl

theorem raiseIf_bind {β : Type} (c : Bool) (k : FaultKind) (n : Nat) (f : Unit → Engine β)
    (s : State) :
    (raiseIf c k n >>= f) s = if c then .error (.raise k n) s else f () s := by
  rw [Engine.bind_apply, raiseIf_apply]; cases c <;> rfl

/-- A check that holds raises its fault. -/
theorem raiseIf_bind_true {β : Type} {c : Bool} (h : c = true) (k : FaultKind) (n : Nat)
    (f : Unit → Engine β) (s : State) : (raiseIf c k n >>= f) s = .error (.raise k n) s := by
  rw [raiseIf_bind, if_pos h]

/-- A check that does not hold does nothing. -/
theorem raiseIf_bind_false {β : Type} {c : Bool} (h : c = false) (k : FaultKind) (n : Nat)
    (f : Unit → Engine β) (s : State) : (raiseIf c k n >>= f) s = f () s := by
  rw [raiseIf_bind, if_neg (by simp [h])]

/-! ### The shared operations -/

/-- A read of a byte with a value. -/
theorem memRead_ok {b : Buffer} {a : Nat} {v : Byte} {s : State}
    (h : (s.buffer b).read a = some v) : memRead b a s = .ok v s := by simp [memRead, h]

/-- Everything `memRead` can do. -/
theorem memRead_cases (b : Buffer) (a : Nat) (s : State) :
    (∃ v, (s.buffer b).read a = some v ∧ memRead b a s = .ok v s) ∨
    ((s.buffer b).read a = none ∧ memRead b a s = .error (.refuse (.unwrittenByte b a)) s) := by
  unfold memRead
  cases h : (s.buffer b).read a <;> simp

/-- An append with room. -/
theorem append_ok {v : Byte} {s : State} (h : s.outPos.toNat < s.cfg.outCap) :
    append v s = .ok () (s.pushOut v) := by
  unfold append
  rw [Engine.get_bind, raiseIf_bind_false (by simpa using h)]
  rfl

/-- Everything `append` can do. -/
theorem append_cases (v : Byte) (s : State) :
    (s.outPos.toNat < s.cfg.outCap ∧ append v s = .ok () (s.pushOut v)) ∨
    (s.cfg.outCap ≤ s.outPos.toNat ∧
      append v s = .error (.raise .bufferCapacity (s.cfg.outCap + 1)) s) := by
  rcases Nat.lt_or_ge s.outPos.toNat s.cfg.outCap with h | h
  · exact .inl ⟨h, append_ok h⟩
  · refine .inr ⟨h, ?_⟩
    unfold append
    rw [Engine.get_bind, raiseIf_bind_true (by simpa using h)]

/-- An `InByte()` below IN_LEN. -/
theorem inByte_ok {s : State} {b : Byte} (h : s.inPos.toNat < s.inLen.toNat)
    (hb : s.inBuf.read s.inPos.toNat = some b) : inByte s = .ok b s.advanceIn := by
  unfold inByte
  rw [Engine.get_bind, raiseIf_bind_false (by simpa using h),
    Engine.bind_ok (memRead_ok (b := .inBuf) hb)]
  rfl

/-- Everything `InByte()` can do. -/
theorem inByte_cases (s : State) :
    (∃ b, s.inPos.toNat < s.inLen.toNat ∧ s.inBuf.read s.inPos.toNat = some b ∧
      inByte s = .ok b s.advanceIn) ∨
    (s.inLen.toNat ≤ s.inPos.toNat ∧
      inByte s = .error (.raise .truncated s.inPos.toNat) s) ∨
    (s.inPos.toNat < s.inLen.toNat ∧ s.inBuf.read s.inPos.toNat = none ∧
      inByte s = .error (.refuse (.unwrittenByte .inBuf s.inPos.toNat)) s) := by
  rcases Nat.lt_or_ge s.inPos.toNat s.inLen.toNat with h | h
  · cases hb : s.inBuf.read s.inPos.toNat with
    | some b => exact .inl ⟨b, h, rfl, inByte_ok h hb⟩
    | none =>
      refine .inr (.inr ⟨h, rfl, ?_⟩)
      unfold inByte
      rw [Engine.get_bind, raiseIf_bind_false (by simpa using h)]
      have : memRead .inBuf s.inPos.toNat s =
          .error (.refuse (.unwrittenByte .inBuf s.inPos.toNat)) s := by
        simp [memRead, State.buffer, hb]
      rw [Engine.bind_error this]
  · refine .inr (.inl ⟨h, ?_⟩)
    unfold inByte
    rw [Engine.get_bind, raiseIf_bind_true (by simpa using h)]

/-- Everything the body of an instruction can end in. -/
theorem runBody_cases (body : Engine Unit) (k : State → State) (s : State) :
    (∃ s', body s = .ok () s' ∧ runBody body k s = .next (k s')) ∨
    (∃ f n s', body s = .error (.raise f n) s' ∧ runBody body k s = .next (endWithFault f n s')) ∨
    (∃ r s', body s = .error (.refuse r) s' ∧ runBody body k s = .refused r) := by
  unfold runBody
  rcases h : body s with ⟨u, s'⟩ | ⟨⟨f, n⟩ | r, s'⟩
  · exact .inl ⟨s', rfl, rfl⟩
  · exact .inr (.inl ⟨f, n, s', rfl, rfl⟩)
  · exact .inr (.inr ⟨r, s', rfl, rfl⟩)

theorem runBody_ok {body : Engine Unit} {k : State → State} {s s' : State}
    (h : body s = .ok () s') : runBody body k s = .next (k s') := by simp [runBody, h]

theorem runBody_raise {body : Engine Unit} {k : State → State} {s s' : State} {f : FaultKind}
    {n : Nat} (h : body s = .error (.raise f n) s') :
    runBody body k s = .next (endWithFault f n s') := by simp [runBody, h]

theorem runBody_refuse {body : Engine Unit} {k : State → State} {s s' : State} {r : Refusal}
    (h : body s = .error (.refuse r) s') : runBody body k s = .refused r := by simp [runBody, h]

/-- How a command's fault ends it. -/
theorem endWithFault_cases (k : FaultKind) (n : Nat) (s : State) :
    (s.hc.isSet = false ∧ endWithFault k n s = takeFault k n s) ∨
    (s.hc.isSet = true ∧ endWithFault k n s = takeFault .hostConflict s.hc.info.toNat s) := by
  unfold endWithFault
  cases h : s.hc.isSet <;> simp

/-- How a command that raised no fault ends. -/
theorem complete_cases (s : State) :
    (s.hc.isSet = false ∧ complete s = publish s) ∨
    (s.hc.isSet = true ∧
      complete s = takeFault .hostConflict s.hc.info.toNat { s with phase := .idle }) := by
  unfold complete
  cases h : s.hc.isSet <;> simp

/-! ### Carrying a relation through an operation -/

/-- The state an operation leaves, whether it answers or stops. -/
def Engine.final {α : Type} (m : Engine α) (s : State) : State :=
  match m s with
  | .ok _ s' => s'
  | .error _ s' => s'

/-- `m` relates every state to the one it leaves. -/
def Engine.Preserves {α : Type} (R : State → State → Prop) (m : Engine α) : Prop :=
  ∀ s, R s (m.final s)

section
variable {R : State → State → Prop} {α β : Type}

theorem Engine.Preserves.ok {m : Engine α} (h : m.Preserves R) {s s' : State} {a : α}
    (e : m s = .ok a s') : R s s' := by simpa [Engine.final, e] using h s

theorem Engine.Preserves.error {m : Engine α} (h : m.Preserves R) {s s' : State} {x : Stop}
    (e : m s = .error x s') : R s s' := by simpa [Engine.final, e] using h s

theorem Engine.preserves_pure (hr : ∀ s, R s s) (a : α) : (pure a : Engine α).Preserves R :=
  fun s => hr s

theorem Engine.preserves_bind (ht : ∀ a b c, R a b → R b c → R a c) {m : Engine α}
    {f : α → Engine β} (hm : m.Preserves R) (hf : ∀ a, (f a).Preserves R) :
    (m >>= f).Preserves R := by
  intro s
  unfold Engine.final
  rw [Engine.bind_apply]
  cases h : m s with
  | ok a s' =>
    refine ht _ _ _ (hm.ok h) ?_
    simpa [Engine.final] using hf a s'
  | error e s' => exact hm.error h

theorem Engine.preserves_get (hr : ∀ s, R s s) : (get : Engine State).Preserves R := fun s => hr s

/-- A `get` whose state is used as the state the rest starts from. -/
theorem Engine.preserves_get_bind {f : State → Engine β}
    (hf : ∀ s, R s ((f s).final s)) : ((get : Engine State) >>= f).Preserves R := fun s => hf s

theorem Engine.preserves_modify {g : State → State} (h : ∀ s, R s (g s)) :
    (modify g : Engine PUnit).Preserves R := fun s => h s

theorem preserves_raise (hr : ∀ s, R s s) (k : FaultKind) (n : Nat) :
    (raise k n : Engine α).Preserves R := fun s => hr s

theorem preserves_raiseIf (hr : ∀ s, R s s) (c : Bool) (k : FaultKind) (n : Nat) :
    (raiseIf c k n).Preserves R := by
  intro s; unfold Engine.final; rw [raiseIf_apply]; cases c <;> exact hr s

theorem preserves_memRead (hr : ∀ s, R s s) (b : Buffer) (a : Nat) :
    (memRead b a).Preserves R := by
  intro s
  unfold Engine.final
  rcases memRead_cases b a s with ⟨v, -, h⟩ | ⟨-, h⟩ <;> rw [h] <;> exact hr s

theorem preserves_append (hr : ∀ s, R s s)
    (h : ∀ s v, s.outPos.toNat < s.cfg.outCap → R s (s.pushOut v)) (v : Byte) :
    (append v).Preserves R := by
  intro s
  unfold Engine.final
  rcases append_cases v s with ⟨hl, e⟩ | ⟨-, e⟩ <;> rw [e]
  · exact h s v hl
  · exact hr s

theorem preserves_inByte (hr : ∀ s, R s s)
    (h : ∀ s, s.inPos.toNat < s.inLen.toNat → R s s.advanceIn) : inByte.Preserves R := by
  intro s
  unfold Engine.final
  rcases inByte_cases s with ⟨b, hl, -, e⟩ | ⟨-, e⟩ | ⟨-, -, e⟩ <;> rw [e]
  · exact h s hl
  · exact hr s
  · exact hr s

end

end Sys2Proof.Machine
end

