-- ==== Sys2Proof/Laws/Bodies.lean ====
section
/-! SUPPORT. Every body of the engine keeps every relation that is closed under the updates a body
makes; from that, once and for all, what executing an instruction and what a step of the ENGINE can
do. -/

namespace Sys2Proof.Machine

/-! ### Closed relations -/

/-- A relation that every update an engine body makes keeps: it is reflexive and transitive, and
holds from a state to the same state with its working registers replaced, with a byte appended to
OUT, or with key bytes written. -/
structure Engine.Closed (R : State → State → Prop) : Prop where
  refl : ∀ s, R s s
  trans : ∀ s t u, R s t → R t u → R s u
  work : ∀ (s : State) (inPos size : Word) (bc : BitCursor) (hf : HuffState) (ht : List Half)
    (enc : Encoder) (lcg : LcgState) (ecd : EcdState) (i count : Word),
    R s { s with
      inPos := inPos, size := size, bc := bc, hf := hf, ht := ht, enc := enc,
      lcg := lcg, ecd := ecd, exf := ⟨s.exf.kb, i, count⟩ }
  push : ∀ (s : State) (v : Byte), s.outPos.toNat < s.cfg.outCap → R s (s.pushOut v)
  key : ∀ (s : State) (a : Nat) (bs : List Byte), a + bs.length ≤ 32 →
    R s { s with exf := { s.exf with kb := Memory.writeAll s.exf.kb a bs } }

section
variable {R : State → State → Prop} {α β : Type}

theorem Engine.Closed.pure (h : Engine.Closed R) (a : α) :
    (Pure.pure a : Engine α).Preserves R := fun s => h.refl s

theorem Engine.Closed.bind (h : Engine.Closed R) {m : Engine α} {f : α → Engine β}
    (hm : m.Preserves R) (hf : ∀ a, (f a).Preserves R) : (m >>= f).Preserves R :=
  Engine.preserves_bind (fun a b c => h.trans a b c) hm hf

theorem Engine.Closed.get (_h : Engine.Closed R) {f : State → Engine β}
    (hf : ∀ s, (f s).Preserves R) : ((MonadState.get : Engine State) >>= f).Preserves R :=
  Engine.preserves_get_bind (fun s => hf s s)

theorem Engine.Closed.raiseIf (h : Engine.Closed R) (c : Bool) (k : FaultKind) (n : Nat) :
    (raiseIf c k n).Preserves R := preserves_raiseIf h.refl c k n

theorem Engine.Closed.memRead (h : Engine.Closed R) (b : Buffer) (a : Nat) :
    (memRead b a).Preserves R := preserves_memRead h.refl b a

theorem Engine.Closed.append (h : Engine.Closed R) (v : Byte) : (append v).Preserves R :=
  preserves_append h.refl h.push v

theorem Engine.Closed.appendAll (h : Engine.Closed R) (bs : List Byte) :
    (appendAll bs).Preserves R := by
  induction bs with
  | nil => exact h.pure _
  | cons b bs ih => exact h.bind (h.append b) fun _ => ih

theorem Engine.Closed.inByte (h : Engine.Closed R) : inByte.Preserves R :=
  preserves_inByte h.refl fun s _ =>
    h.work s (s.inPos + 1) s.size s.bc s.hf s.ht s.enc s.lcg s.ecd s.exf.i s.exf.count

theorem Engine.Closed.copyIn (h : Engine.Closed R) (n : Nat) : (copyIn n).Preserves R := by
  induction n with
  | zero => exact h.pure _
  | succ n ih => exact h.bind h.inByte fun b => h.bind (h.append b) fun _ => ih

/-- An update of working registers. -/
theorem Engine.Closed.update (h : Engine.Closed R) {g : State → State}
    (hg : ∀ s, ∃ inPos size bc hf ht enc lcg ecd i count, g s = { s with
      inPos := inPos, size := size, bc := bc, hf := hf, ht := ht, enc := enc,
      lcg := lcg, ecd := ecd, exf := ⟨s.exf.kb, i, count⟩ }) :
    (modify g : Engine PUnit).Preserves R := by
  refine Engine.preserves_modify fun s => ?_
  obtain ⟨_, _, _, _, _, _, _, _, _, _, e⟩ := hg s
  rw [e]
  exact h.work _ _ _ _ _ _ _ _ _ _ _

theorem Engine.Closed.updInPos (h : Engine.Closed R) {g : State → State}
    (hg : ∀ s, ∃ v, g s = { s with inPos := v }) : (modify g : Engine PUnit).Preserves R :=
  h.update fun s => by
    obtain ⟨v, e⟩ := hg s
    exact ⟨v, s.size, s.bc, s.hf, s.ht, s.enc, s.lcg, s.ecd, s.exf.i, s.exf.count, e⟩

theorem Engine.Closed.updSize (h : Engine.Closed R) {g : State → State}
    (hg : ∀ s, ∃ v, g s = { s with size := v }) : (modify g : Engine PUnit).Preserves R :=
  h.update fun s => by
    obtain ⟨v, e⟩ := hg s
    exact ⟨s.inPos, v, s.bc, s.hf, s.ht, s.enc, s.lcg, s.ecd, s.exf.i, s.exf.count, e⟩

theorem Engine.Closed.updEnc (h : Engine.Closed R) {g : State → State}
    (hg : ∀ s, ∃ enc, g s = { s with enc := enc }) : (modify g : Engine PUnit).Preserves R :=
  h.update fun s => by
    obtain ⟨enc, e⟩ := hg s
    exact ⟨s.inPos, s.size, s.bc, s.hf, s.ht, enc, s.lcg, s.ecd, s.exf.i, s.exf.count, e⟩

theorem Engine.Closed.updLcg (h : Engine.Closed R) {g : State → State}
    (hg : ∀ s, ∃ v, g s = { s with lcg := v }) : (modify g : Engine PUnit).Preserves R :=
  h.update fun s => by
    obtain ⟨v, e⟩ := hg s
    exact ⟨s.inPos, s.size, s.bc, s.hf, s.ht, s.enc, v, s.ecd, s.exf.i, s.exf.count, e⟩

theorem Engine.Closed.updEcd (h : Engine.Closed R) {g : State → State}
    (hg : ∀ s, ∃ v, g s = { s with ecd := v }) : (modify g : Engine PUnit).Preserves R :=
  h.update fun s => by
    obtain ⟨v, e⟩ := hg s
    exact ⟨s.inPos, s.size, s.bc, s.hf, s.ht, s.enc, s.lcg, v, s.exf.i, s.exf.count, e⟩

theorem Engine.Closed.updHt (h : Engine.Closed R) {g : State → State}
    (hg : ∀ s, ∃ hf ht, g s = { s with hf := hf, ht := ht }) :
    (modify g : Engine PUnit).Preserves R :=
  h.update fun s => by
    obtain ⟨hf, ht, e⟩ := hg s
    exact ⟨s.inPos, s.size, s.bc, hf, ht, s.enc, s.lcg, s.ecd, s.exf.i, s.exf.count, e⟩

theorem Engine.Closed.readBit (h : Engine.Closed R) {get : State → BitCursor}
    {put : BitCursor → State → State} {src : Engine Byte} (hs : src.Preserves R)
    (hp : ∀ c s, ∃ bc hf, put c s = { s with bc := bc, hf := hf }) :
    (readBitOf get put src).Preserves R := by
  have hput : ∀ c s, R s (put c s) := by
    intro c s
    obtain ⟨bc, hf, e⟩ := hp c s
    rw [e]
    exact h.work s s.inPos s.size bc hf s.ht s.enc s.lcg s.ecd s.exf.i s.exf.count
  unfold readBitOf
  refine Engine.preserves_get_bind fun s => ?_
  dsimp only
  split
  · exact (h.bind hs fun b => h.bind (Engine.preserves_modify (hput _)) fun _ => h.pure _) s
  · exact hput _ _

theorem Engine.Closed.huffBit (h : Engine.Closed R) : huffBit.Preserves R :=
  h.readBit h.inByte fun c s => ⟨s.bc, { s.hf with cursor := c }, rfl⟩

theorem Engine.Closed.huffEntry (h : Engine.Closed R) (k : Nat) : (huffEntry k).Preserves R := by
  intro s
  unfold Engine.final Machine.huffEntry
  cases s.ht[k]? <;> exact h.refl s

theorem Engine.Closed.huffWalk (h : Engine.Closed R) (fuel : Nat) (node : Int) :
    (huffWalk fuel node).Preserves R := by
  induction fuel generalizing node with
  | zero =>
    unfold Machine.huffWalk
    split
    · exact h.pure _
    · exact h.get fun s => preserves_raise h.refl _ _
  | succ n ih =>
    unfold Machine.huffWalk
    split
    · exact h.pure _
    · exact h.bind h.huffBit fun b => h.get fun s => h.bind (h.raiseIf _ _ _) fun _ =>
        h.bind (h.huffEntry _) fun v => ih v

theorem Engine.Closed.srcByte (h : Engine.Closed R) : srcByte.Preserves R := by
  unfold Machine.srcByte
  refine h.get fun s => ?_
  split
  · unfold huffByte; exact h.get fun s => h.huffWalk _ _
  · exact h.inByte

theorem Engine.Closed.lzBit (h : Engine.Closed R) : lzBit.Preserves R :=
  h.readBit h.srcByte fun c s => ⟨c, s.hf, rfl⟩

theorem Engine.Closed.readBits (h : Engine.Closed R) {bit : Engine Bool} (hb : bit.Preserves R)
    (n v : Nat) : (readBitsWith bit n v).Preserves R := by
  induction n generalizing v with
  | zero => exact h.pure _
  | succ n ih => exact h.bind hb fun b => ih _

theorem Engine.Closed.fetchToken (h : Engine.Closed R) : fetchToken.Preserves R := by
  unfold Machine.fetchToken decodeTree
  have hb := h.lzBit
  have hy := h.srcByte
  refine h.bind hb fun b => ?_
  split
  · refine h.bind hb fun b => ?_
    split
    · refine h.bind hy fun hi => h.bind hy fun lo => ?_
      dsimp only
      split
      · exact h.pure _
      · refine h.bind hb fun b => ?_
        split
        · refine h.bind hy fun t => ?_
          split <;> exact h.pure _
        · exact h.bind (h.readBits hb _ _) fun x => h.pure _
    · exact h.bind (h.readBits hb _ _) fun x => h.bind hy fun o => h.pure _
  · exact h.bind hy fun b => h.pure _

theorem Engine.Closed.loadEntries (h : Engine.Closed R) (n : Nat) :
    (loadEntries n).Preserves R := by
  induction n with
  | zero => exact h.pure _
  | succ n ih =>
    exact h.bind h.inByte fun lo => h.bind h.inByte fun hi =>
      h.bind (h.updHt fun s => ⟨s.hf, _, rfl⟩) fun _ => ih

theorem Engine.Closed.huffLoad (h : Engine.Closed R) : huffLoad.Preserves R :=
  h.bind h.inByte fun _ => h.bind h.inByte fun _ =>
    h.bind (h.updHt fun _ => ⟨_, _, rfl⟩)
      fun _ => h.loadEntries _

theorem Engine.Closed.huffSetup (h : Engine.Closed R) : huffSetup.Preserves R :=
  h.updHt fun s => ⟨_, s.ht, rfl⟩

theorem Engine.Closed.copyBack (h : Engine.Closed R) (offset n : Nat) :
    (copyBack offset n).Preserves R := by
  have loop : ∀ n, (copyLoop offset n).Preserves R := by
    intro n
    induction n with
    | zero => exact h.pure _
    | succ n ih =>
      exact h.get fun s => h.bind (h.memRead _ _) fun v => h.bind (h.append v) fun _ => ih
  exact h.get fun s => h.bind (h.raiseIf _ _ _) fun _ => h.bind (h.raiseIf _ _ _) fun _ => loop n

theorem Engine.Closed.runBytes (h : Engine.Closed R) (n : Nat) : (runBytes n).Preserves R := by
  have loop : ∀ n, (runLoop n).Preserves R := by
    intro n
    induction n with
    | zero => exact h.pure _
    | succ n ih => exact h.bind h.srcByte fun b => h.bind (h.append b) fun _ => ih
  exact h.get fun s => h.bind (h.raiseIf _ _ _) fun _ => loop n

theorem Engine.Closed.field16 (h : Engine.Closed R) (o : ByteOrder) (b : Buffer) (a : Nat) :
    (field16 o b a).Preserves R :=
  h.bind (h.memRead _ _) fun _ => h.bind (h.memRead _ _) fun _ => h.pure _

theorem Engine.Closed.field32 (h : Engine.Closed R) (o : ByteOrder) (b : Buffer) (a : Nat) :
    (field32 o b a).Preserves R :=
  h.bind (h.memRead _ _) fun _ => h.bind (h.memRead _ _) fun _ => h.bind (h.memRead _ _) fun _ =>
    h.bind (h.memRead _ _) fun _ => h.pure _

theorem Engine.Closed.h16 (h : Engine.Closed R) (b : Buffer) (a : Nat) : (h16 b a).Preserves R :=
  h.get fun _ => h.field16 _ _ _

theorem Engine.Closed.h32 (h : Engine.Closed R) (b : Buffer) (a : Nat) : (h32 b a).Preserves R :=
  h.get fun _ => h.field32 _ _ _

theorem Engine.Closed.checkInCap (h : Engine.Closed R) : checkInCap.Preserves R :=
  h.get fun _ => h.raiseIf _ _ _

theorem Engine.Closed.checkHeaderLen (h : Engine.Closed R) : checkHeaderLen.Preserves R :=
  h.get fun _ => h.raiseIf _ _ _

theorem Engine.Closed.checkOutCap (h : Engine.Closed R) (n : Nat) : (checkOutCap n).Preserves R :=
  h.get fun _ => h.raiseIf _ _ _

theorem Engine.Closed.checkIndex (h : Engine.Closed R) (t : LcgTab) (i : Half) :
    (checkIndex t i).Preserves R := h.get fun _ => h.raiseIf _ _ _

theorem Engine.Closed.lcgNext (h : Engine.Closed R) (t : LcgTab) (i : Half) (w : Word) :
    (lcgNext t i w).Preserves R := by
  refine h.get fun s => ?_
  split
  · exact preserves_raise h.refl _ _
  · exact h.pure _

theorem Engine.Closed.keyWord (h : Engine.Closed R) : keyWord.Preserves R :=
  h.get fun _ => h.bind (h.lcgNext _ _ _) fun _ => h.bind
    (h.updLcg fun _ => ⟨_, rfl⟩) fun _ => h.pure _

theorem Engine.Closed.jpkBody (h : Engine.Closed R) (ty : JpkType) (off size : Word) :
    (jpkBody ty off size).Preserves R := by
  refine h.bind (h.updInPos fun _ => ⟨_, rfl⟩) fun _ => ?_
  cases ty
  · exact h.bind (h.copyIn _) fun _ => h.pure _
  · exact h.bind h.huffLoad fun _ => h.bind h.huffSetup fun _ => h.pure _
  · exact h.bind (h.updHt fun s => ⟨_, s.ht, rfl⟩) fun _ => h.pure _
  · exact h.bind h.huffLoad fun _ => h.bind h.huffSetup fun _ => h.pure _
  · exact h.pure _

theorem Engine.Closed.jpkDecode (h : Engine.Closed R) : jpkDecodeCommand.Preserves R :=
  h.bind h.checkInCap fun _ => h.bind h.checkHeaderLen fun _ => h.bind (h.field32 _ _ _) fun _ =>
    h.bind (h.raiseIf _ _ _) fun _ => h.bind (h.field16 _ _ _) fun _ =>
    h.bind (h.field32 _ _ _) fun _ => h.bind (h.field32 _ _ _) fun _ =>
    h.bind (h.updSize fun _ => ⟨_, rfl⟩) fun _ =>
    h.bind (h.raiseIf _ _ _) fun _ => h.get fun _ => h.bind (h.raiseIf _ _ _) fun _ =>
    h.bind (h.raiseIf _ _ _) fun _ => h.bind (h.checkOutCap _) fun _ => h.jpkBody _ _ _

theorem Engine.Closed.flush (h : Engine.Closed R) : flush.Preserves R :=
  h.get fun _ => h.bind (h.append _) fun _ => h.bind (h.appendAll _) fun _ =>
    h.updEnc fun _ => ⟨_, rfl⟩

theorem Engine.Closed.emitItem (h : Engine.Closed R) (i : Item) : (emitItem i).Preserves R := by
  cases i with
  | flag b =>
    have hm : (modify (fun s => s.openFlag.placeBit b) : Engine PUnit).Preserves R :=
      h.updEnc fun s => by
        unfold State.openFlag; split
        · exact ⟨_, rfl⟩
        · exact ⟨_, rfl⟩
    unfold Machine.emitItem emitBit
    refine h.get fun s => ?_
    dsimp only
    split
    · exact h.bind h.flush fun _ => hm
    · exact hm
  | data v => exact h.updEnc fun _ => ⟨_, rfl⟩

theorem Engine.Closed.emitItems (h : Engine.Closed R) (is : List Item) :
    (emitItems is).Preserves R := by
  induction is with
  | nil => exact h.pure _
  | cons i is ih => exact h.bind (h.emitItem i) fun _ => ih

theorem Engine.Closed.findMatch (h : Engine.Closed R) (pos : Nat) :
    (findMatch pos).Preserves R := by
  have ml : ∀ p fuel l, (matchLen pos p fuel l).Preserves R := by
    intro p fuel
    induction fuel with
    | zero => intro l; exact h.pure _
    | succ n ih =>
      intro l
      refine h.bind (h.memRead _ _) fun x => h.bind (h.memRead _ _) fun y => ?_
      split
      · exact ih _
      · exact h.pure _
  have sm : ∀ nlen ps best, (scanMatches pos nlen ps best).Preserves R := by
    intro nlen ps
    induction ps with
    | nil => intro best; exact h.pure _
    | cons p ps ih =>
      intro best
      refine h.bind (ml _ _ _) fun l => ?_
      split
      · split
        · exact h.pure _
        · exact ih _
      · exact ih _
  refine h.get fun s => ?_
  dsimp only
  split
  · exact h.pure _
  · exact sm _ _ _

theorem Engine.Closed.lzEncode (h : Engine.Closed R) : lzEncode.Preserves R := by
  have st : encodeStep.Preserves R := by
    refine h.get fun s => h.bind (h.findMatch _) fun m => ?_
    split
    · exact h.bind (h.memRead _ _) fun b => h.bind (h.emitItems _) fun _ =>
        h.updEnc fun _ => ⟨_, rfl⟩
    · exact h.bind (h.emitItems _) fun _ => h.updEnc fun _ => ⟨_, rfl⟩
  have lp : ∀ n, (encodeLoop n).Preserves R := by
    intro n
    induction n with
    | zero => exact h.pure _
    | succ n ih =>
      refine h.get fun s => ?_
      split
      · exact h.bind st fun _ => ih
      · exact h.pure _
  refine h.bind (h.updEnc fun _ => ⟨_, rfl⟩) fun _ => h.get fun s => h.bind (lp _) fun _ => ?_
  refine h.get fun s => ?_
  split
  · exact h.flush
  · exact h.pure _

theorem Engine.Closed.jpkEncode (h : Engine.Closed R) : jpkEncodeCommand.Preserves R := by
  refine h.bind h.checkInCap fun _ => h.get fun s => ?_
  dsimp only
  refine h.bind (h.raiseIf _ _ _) fun _ => h.bind (h.raiseIf _ _ _) fun _ =>
    h.bind (h.raiseIf _ _ _) fun _ => ?_
  have hh : jpkHeader.Preserves R := h.get fun _ => h.appendAll _
  split
  · exact h.bind (h.checkOutCap _) fun _ => h.bind hh fun _ =>
      h.bind (h.updInPos fun _ => ⟨_, rfl⟩) fun _ => h.copyIn _
  · exact h.bind hh fun _ => h.lzEncode

theorem Engine.Closed.inBytes (h : Engine.Closed R) (a n : Nat) : (inBytes a n).Preserves R := by
  induction n generalizing a with
  | zero => exact h.pure _
  | succ n ih => exact h.bind (h.memRead _ _) fun _ => h.bind (ih _) fun _ => h.pure _

theorem Engine.Closed.selectLcg (h : Engine.Closed R) (t : LcgTab) (i : Half) :
    (selectLcg t i).Preserves R :=
  h.updLcg fun _ => ⟨_, rfl⟩

theorem Engine.Closed.setEcd (h : Engine.Closed R) (s : State) (e : EcdState) : R s (s.withEcd e) :=
  h.work s s.inPos s.size s.bc s.hf s.ht s.enc s.lcg e s.exf.i s.exf.count

theorem Engine.Closed.withInPos (h : Engine.Closed R) (v : Word) :
    (modify (State.withInPos v) : Engine PUnit).Preserves R :=
  h.updInPos fun _ => ⟨_, rfl⟩

theorem Engine.Closed.ecdInit (h : Engine.Closed R) (crc : Word) : (ecdInit crc).Preserves R :=
  h.bind (h.updLcg fun _ => ⟨_, rfl⟩)
    fun _ => h.bind h.keyWord fun _ => h.updEcd fun _ => ⟨_, rfl⟩

theorem Engine.Closed.ecdDecrypt (h : Engine.Closed R) : ecdDecryptCommand.Preserves R := by
  have loop : ∀ n, (ecdDecryptLoop n).Preserves R := by
    intro n
    induction n with
    | zero => exact h.pure _
    | succ n ih =>
      refine h.bind h.inByte fun c => h.bind (h.bind h.keyWord fun w =>
        Engine.preserves_get_bind fun s => h.setEcd s _) fun p => h.bind (h.append p) fun _ => ih
  exact h.bind h.checkInCap fun _ => h.bind h.checkHeaderLen fun _ => h.bind (h.h32 _ _) fun _ =>
    h.bind (h.raiseIf _ _ _) fun _ => h.bind (h.h16 _ _) fun _ => h.bind (h.checkIndex _ _) fun _ =>
    h.bind (h.h32 _ _) fun _ => h.bind (h.checkOutCap _) fun _ => h.bind (h.selectLcg _ _) fun _ =>
    h.bind (h.h32 _ _) fun _ => h.bind (h.ecdInit _) fun _ => h.bind (h.withInPos _) fun _ => loop _

theorem Engine.Closed.ecdEncrypt (h : Engine.Closed R) : ecdEncryptCommand.Preserves R := by
  have loop : ∀ n, (ecdEncryptLoop n).Preserves R := by
    intro n
    induction n with
    | zero => exact h.pure _
    | succ n ih =>
      refine h.bind h.inByte fun c => h.bind (h.bind h.keyWord fun w =>
        Engine.preserves_get_bind fun s => h.setEcd s _) fun p => h.bind (h.append p) fun _ => ih
  exact h.bind h.checkInCap fun _ => h.bind (h.h16 _ _) fun _ => h.bind (h.checkIndex _ _) fun _ =>
    h.get fun _ => h.bind (h.checkOutCap _) fun _ => h.bind (h.selectLcg _ _) fun _ =>
    h.bind (h.inBytes _ _) fun _ =>
    h.bind (h.get fun _ => h.bind (h.memRead _ _) fun _ => h.bind (h.memRead _ _) fun _ =>
      h.appendAll _) fun _ =>
    h.bind (h.ecdInit _) fun _ => h.bind (h.withInPos _) fun _ => loop _

theorem Engine.Closed.writeKey (h : Engine.Closed R) {a : Nat} {bs : List Byte}
    (hl : a + bs.length ≤ 32) : (writeKey a bs).Preserves R :=
  Engine.preserves_modify fun s => h.key s a bs hl

theorem Engine.Closed.exfRounds (h : Engine.Closed R) (seed : Word) (n a : Nat)
    (hl : a + 4 * n ≤ 32) : (exfRounds seed n a).Preserves R := by
  induction n generalizing a with
  | zero => exact h.pure _
  | succ n ih =>
    refine h.bind h.keyWord fun w => h.get fun s => h.bind (h.writeKey ?_) fun _ => ih _ (by omega)
    have : ∀ o v, (split32 o v).length = 4 := by intro o v; cases o <;> rfl
    rw [this]; omega

theorem Engine.Closed.exfDecrypt (h : Engine.Closed R) : exfDecryptCommand.Preserves R := by
  have kb : ∀ a n, (keyBytes a n).Preserves R := by
    intro a n
    induction n generalizing a with
    | zero => exact h.pure _
    | succ n ih => exact h.bind (h.memRead _ _) fun _ => h.bind (ih _) fun _ => h.pure _
  have ex : ∀ {g : State → State}, (∀ s, ∃ i count, g s = { s with exf := ⟨s.exf.kb, i, count⟩ }) →
      (modify g : Engine PUnit).Preserves R := fun hg => h.update fun s => by
    obtain ⟨i, count, e⟩ := hg s
    exact ⟨s.inPos, s.size, s.bc, s.hf, s.ht, s.enc, s.lcg, s.ecd, i, count, e⟩
  have loop : ∀ n, (exfLoop n).Preserves R := by
    intro n
    induction n with
    | zero => exact h.pure _
    | succ n ih =>
      refine h.bind h.inByte fun c => h.get fun s => ?_
      split
      · exact h.bind (h.bind (h.get fun _ => kb _ _) fun kv => h.get fun _ => h.pure _) fun v =>
          h.bind (h.append _) fun _ => h.bind (ex fun _ => ⟨_, _, rfl⟩) fun _ => ih
      · exact h.bind (h.pure c) fun v => h.bind (h.append _) fun _ =>
          h.bind (ex fun _ => ⟨_, _, rfl⟩) fun _ => ih
  have key : exfKey.Preserves R :=
    h.bind (h.h32 _ _) fun seed => h.bind (h.writeKey (by simp)) fun _ =>
      h.bind (h.updLcg fun _ => ⟨_, rfl⟩) fun _ =>
      h.exfRounds _ _ _ (by omega)
  exact h.bind h.checkInCap fun _ => h.bind h.checkHeaderLen fun _ => h.bind (h.h32 _ _) fun _ =>
    h.bind (h.raiseIf _ _ _) fun _ => h.bind (h.h16 _ _) fun _ => h.bind (h.checkIndex _ _) fun _ =>
    h.get fun _ => h.bind (h.checkOutCap _) fun _ => h.bind (h.selectLcg _ _) fun _ =>
    h.bind key fun _ => h.get fun _ => h.bind (ex fun _ => ⟨_, _, rfl⟩) fun _ =>
    h.bind (h.withInPos _) fun _ => h.bind (h.copyIn _) fun _ =>
    h.bind (ex fun _ => ⟨_, _, rfl⟩) fun _ => loop _
end

/-! ### What an instruction and a step can do -/

/-- The decision tree answers only well-formed tokens, over every reader. -/
theorem decodeTree_token {ε σ : Type} {bit : EStateM ε σ Bool} {byte : EStateM ε σ Byte} {s s' : σ}
    {i : Instr} (h : decodeTree bit byte s = .ok i s') :
    i.isToken = true ∧ i.wellFormed = true := by
  have bind_ok : ∀ {α β : Type} {m : EStateM ε σ α} {f : α → EStateM ε σ β} {s t : σ} {b : β},
      (m >>= f) s = .ok b t → ∃ a s', m s = .ok a s' ∧ f a s' = .ok b t := by
    intro α β m f s t b h
    have : (m >>= f) s = match m s with
        | .ok a s' => f a s'
        | .error e s' => .error e s' := by
      show EStateM.bind m f s = _
      unfold EStateM.bind
      cases m s <;> rfl
    rw [this] at h
    cases hm : m s with
    | ok a s' => rw [hm] at h; exact ⟨a, s', rfl, h⟩
    | error e s' => rw [hm] at h; cases h
  have pure_ok : ∀ {i j : Instr} {s t : σ}, (pure i : EStateM ε σ Instr) s = .ok j t → i = j := by
    intro i j s t h; cases h; rfl
  unfold decodeTree at h
  obtain ⟨b, s1, -, h⟩ := bind_ok h
  split at h
  · obtain ⟨b, s1, -, h⟩ := bind_ok h
    split at h
    · obtain ⟨hi, s2, -, h⟩ := bind_ok h
      obtain ⟨lo, s3, -, h⟩ := bind_ok h
      dsimp only at h
      split at h
      · rw [← pure_ok h]; refine ⟨rfl, ?_⟩; simpa [Instr.wellFormed] using ‹_›
      · obtain ⟨b, s4, -, h⟩ := bind_ok h
        split at h
        · obtain ⟨t, s5, -, h⟩ := bind_ok h
          split at h
          · rw [← pure_ok h]; exact ⟨rfl, rfl⟩
          · rw [← pure_ok h]; refine ⟨rfl, ?_⟩; simpa [Instr.wellFormed] using ‹_›
        · obtain ⟨x, s5, -, h⟩ := bind_ok h
          rw [← pure_ok h]; exact ⟨rfl, rfl⟩
    · obtain ⟨x, s5, -, h⟩ := bind_ok h
      obtain ⟨o, s5, -, h⟩ := bind_ok h
      rw [← pure_ok h]; exact ⟨rfl, rfl⟩
  · obtain ⟨x, s5, -, h⟩ := bind_ok h
    rw [← pure_ok h]; exact ⟨rfl, rfl⟩

/-- How a body's run ends, with a closed relation from the state before to the state it left. -/
theorem runBody_next {R : State → State → Prop} {body : Engine Unit} (h : body.Preserves R)
    {k : State → State} {s t : State} (e : runBody body k s = .next t) :
    ∃ s', R s s' ∧ ((body s = .ok () s' ∧ t = k s') ∨ ∃ f n, t = endWithFault f n s') := by
  rcases runBody_cases body k s with ⟨s', hb, hr⟩ | ⟨f, n, s', hb, hr⟩ | ⟨r, s', _, hr⟩
  · rw [hr] at e; cases e
    exact ⟨s', h.ok hb, .inl ⟨hb, rfl⟩⟩
  · rw [hr] at e; cases e
    exact ⟨s', h.error hb, .inr ⟨f, n, rfl⟩⟩
  · rw [hr] at e; cases e

/-- What the body of LCG_NEXT can leave. -/
theorem lcgNextBody_cases (tsel : Bool) (s : State) :
    (lcgNextBody tsel s = .error (.raise .malformedHeader s.paramIndex.toNat) s) ∨
    (s.hc.isSet = true ∧ lcgNextBody tsel s = .ok () s) ∨
    (s.hc.isSet = false ∧
      ∃ w, lcgNextBody tsel s = .ok () { s with lcgState := w, lcgWord := w }) := by
  unfold lcgNextBody
  rw [Engine.get_bind, checkIndex, lcgNext]
  rw [Engine.bind_apply, Engine.get_bind, raiseIf_apply]
  split
  · rename_i he; split at he <;> simp at he
    subst he
    rw [Engine.bind_apply, Engine.get_bind]
    cases (lcgTable s.cfg (tableOf tsel)).entries[s.paramIndex.toNat]? with
    | none => left; rfl
    | some e =>
      right
      simp only [Engine.pure_apply, Engine.modify_apply]
      cases hh : s.hc.isSet
      · right; exact ⟨rfl, _, rfl⟩
      · left; exact ⟨rfl, rfl⟩
  · rename_i he; split at he <;> simp at he
    obtain ⟨rfl, rfl⟩ := he
    left; rfl

/-- What a step of execution makes of the state `s'` its body left: a token just goes on, JPK_DECODE
starts a decode, a command completes, or a fault is taken. -/
def ExecEnds (i : Instr) (s' t : State) : Prop :=
  (i.isToken = true ∧ t = s') ∨ (i = .jpkDecode ∧ t = s'.startDecode) ∨
    (i.isToken = false ∧ t = complete s') ∨ ∃ f n, t = endWithFault f n s'

/-- Everything the execution of an instruction can do, when it answers a next state: a closed
relation `R` leads to the state its body leaves; LCG_NEXT alone writes its two registers on top. -/
theorem exec_next {R : State → State → Prop} (h : Engine.Closed R) {i : Instr} {s t : State}
    (e : exec i s = .next t) :
    (∃ s', R s s' ∧ ExecEnds i s' t) ∨
    (∃ b w, i = .lcgNext b ∧ s.hc.isSet = false ∧
      t = publish { s with lcgState := w, lcgWord := w }) := by
  have tok : ∀ {body : Engine Unit}, body.Preserves R → i.isToken = true →
      runToken body s = .next t →
      ∃ s', R s s' ∧ ExecEnds i s' t := by
    intro body hb hi e
    obtain ⟨s', hr, h⟩ := runBody_next hb e
    rcases h with ⟨-, h⟩ | h
    · exact ⟨s', hr, .inl ⟨hi, h⟩⟩
    · exact ⟨s', hr, .inr (.inr (.inr h))⟩
  have cmd : ∀ {body : Engine Unit}, body.Preserves R → i.isToken = false →
      runCommand body s = .next t →
      ∃ s', R s s' ∧ ExecEnds i s' t := by
    intro body hb hi e
    obtain ⟨s', hr, h⟩ := runBody_next hb e
    rcases h with ⟨-, h⟩ | h
    · exact ⟨s', hr, .inr (.inr (.inl ⟨hi, h⟩))⟩
    · exact ⟨s', hr, .inr (.inr (.inr h))⟩
  cases i with
  | lit b => exact .inl (tok (h.append b) rfl e)
  | short l o => exact .inl (tok (h.copyBack _ _) rfl e)
  | long f o => exact .inl (tok (h.copyBack _ _) rfl e)
  | longx4 o x => exact .inl (tok (h.copyBack _ _) rfl e)
  | longx8 o t => exact .inl (tok (h.copyBack _ _) rfl e)
  | run c => exact .inl (tok (h.runBytes _) rfl e)
  | jpkDecode =>
    left
    simp only [exec, execJpkDecode] at e
    split at e <;> cases e
    · exact ⟨_, h.jpkDecode.ok ‹_›, .inr (.inl ⟨rfl, rfl⟩)⟩
    · exact ⟨_, h.jpkDecode.ok ‹_›, .inr (.inr (.inl ⟨rfl, rfl⟩))⟩
    · exact ⟨_, h.jpkDecode.error ‹_›, .inr (.inr (.inr ⟨_, _, rfl⟩))⟩
  | jpkEncode => exact .inl (cmd h.jpkEncode rfl e)
  | lcgNext b =>
    simp only [exec, execLcgNext, runCommand] at e
    rcases lcgNextBody_cases b s with hb | ⟨hc, hb⟩ | ⟨hc, w, hb⟩
    · rw [runBody_raise hb] at e; cases e
      exact .inl ⟨s, h.refl s, .inr (.inr (.inr ⟨_, _, rfl⟩))⟩
    · rw [runBody_ok hb] at e; cases e
      exact .inl ⟨s, h.refl s, .inr (.inr (.inl ⟨rfl, rfl⟩))⟩
    · rw [runBody_ok hb] at e; cases e
      exact .inr ⟨b, w, rfl, hc, by simp [complete, hc]⟩
  | ecdDecrypt => exact .inl (cmd h.ecdDecrypt rfl e)
  | ecdEncrypt => exact .inl (cmd h.ecdEncrypt rfl e)
  | exfDecrypt => exact .inl (cmd h.exfDecrypt rfl e)
  | exfEncrypt => exact .inl (cmd (preserves_raise h.refl _ _) rfl e)

/-- Everything a step of the ENGINE can do, when it answers a next state. -/
theorem engineStep_next {R : State → State → Prop} (h : Engine.Closed R)
    (hm : ∀ s : State, R s s.markToken) {s t : State} (e : engineStep s = .next t) :
    (s.phase = .idle ∧ t = s) ∨
    (s.phase ≠ .idle ∧ ∃ s', R s s' ∧ ((s.phase = .lzDecode ∧ t = s') ∨
      t = s'.startDecode ∨ t = complete s' ∨ ∃ f n, t = endWithFault f n s')) ∨
    (∃ v b w, s.phase = .dispatch v ∧ decodeCommand v = .ok (.lcgNext b) ∧ s.hc.isSet = false ∧
      t = publish { s with lcgState := w, lcgWord := w }) := by
  unfold engineStep at e
  split at e
  · cases e; exact .inl ⟨‹_›, rfl⟩
  · rename_i v hp
    unfold dispatch at e
    split at e
    · rename_i i hi
      have hcmd : i.isToken = false := by
        revert hi; unfold decodeCommand
        split
        · rename_i r hr
          intro h; cases h
          have := List.mem_of_find?_eq_some hr
          simp only [commandRows, List.mem_cons, List.not_mem_nil, or_false] at this
          rcases this with rfl | rfl | rfl | rfl | rfl | rfl | rfl <;> rfl
        · intro h; cases h
      rcases exec_next h e with ⟨s', hr, h'⟩ | ⟨b, w, rfl, hc, ht⟩
      · refine .inr (.inl ⟨by simp [hp], s', hr, ?_⟩)
        rcases h' with ⟨h1, _⟩ | ⟨_, h1⟩ | ⟨_, h1⟩ | h1
        · simp [hcmd] at h1
        · exact .inr (.inl h1)
        · exact .inr (.inr (.inl h1))
        · exact .inr (.inr (.inr h1))
      · exact .inr (.inr ⟨v, b, w, hp, hi, hc, ht⟩)
    · cases e
      exact .inr (.inl ⟨by simp [hp], s, h.refl s, .inr (.inr (.inr ⟨_, _, rfl⟩))⟩)
  · rename_i hp
    refine .inr (.inl ⟨by simp [hp], ?_⟩)
    unfold decodeStep at e
    split at e
    · have hft := h.fetchToken
      split at e
      · rename_i i s' hf
        have hr := h.trans _ _ _ (hm s) (hft.ok hf)
        have htok : i.isToken = true := (decodeTree_token hf).1
        rcases exec_next h e with ⟨s'', hr', h'⟩ | ⟨b, w, rfl, hc, ht⟩
        · refine ⟨s'', h.trans _ _ _ hr hr', ?_⟩
          rcases h' with ⟨_, h1⟩ | ⟨rfl, h1⟩ | ⟨h0, h1⟩ | h1
          · exact .inl ⟨hp, h1⟩
          · cases htok
          · simp [htok] at h0
          · exact .inr (.inr (.inr h1))
        · cases htok
      · cases e
        rename_i hf
        exact ⟨_, h.trans _ _ _ (hm s) (hft.error hf), .inr (.inr (.inr ⟨_, _, rfl⟩))⟩
      · cases e
    · cases e
      exact ⟨s, h.refl s, .inr (.inr (.inl rfl))⟩

end Sys2Proof.Machine
end

