-- ==== Sys2Proof/Laws/PerInstr.lean ====
section
/-! SUPPORT. A family of facts about every instruction as syntax, one lemma per constructor: the
encoding space it belongs to (30_encoding.md §1, §3). -/

namespace Sys2Proof.Laws.EncodingSpace

set_option Elab.async false

/-- A token has a stream head of at least two items and no CMD word; a command has a CMD word and no
items. -/
def Statement (i : Instr) : Prop :=
  (i.isToken = true → encodeCommand i = none ∧ 2 ≤ (tokenItems i).length) ∧
  (i.isToken = false → (encodeCommand i).isSome ∧ tokenItems i = [])

theorem lit (b : Byte) : Statement (.lit b) := by
  simp [Statement, Instr.isToken, encodeCommand, tokenItems]
theorem short (l : BitVec 2) (o : Byte) : Statement (.short l o) := by
  simp [Statement, Instr.isToken, encodeCommand, tokenItems]
theorem long (lenField : BitVec 3) (offset : BitVec 13) : Statement (.long lenField offset) := by
  simp [Statement, Instr.isToken, encodeCommand, tokenItems]
theorem longx4 (offset : BitVec 13) (x : BitVec 4) : Statement (.longx4 offset x) := by
  simp [Statement, Instr.isToken, encodeCommand, tokenItems]
theorem longx8 (offset : BitVec 13) (t : Byte) : Statement (.longx8 offset t) := by
  simp [Statement, Instr.isToken, encodeCommand, tokenItems]
theorem run (count : BitVec 13) : Statement (.run count) := by
  simp [Statement, Instr.isToken, encodeCommand, tokenItems]
theorem jpkDecode : Statement .jpkDecode := by
  simp [Statement, Instr.isToken, encodeCommand, tokenItems]
theorem jpkEncode : Statement .jpkEncode := by
  simp [Statement, Instr.isToken, encodeCommand, tokenItems]
theorem lcgNext (tsel : Bool) : Statement (.lcgNext tsel) := by
  simp [Statement, Instr.isToken, encodeCommand, tokenItems]
theorem ecdDecrypt : Statement .ecdDecrypt := by
  simp [Statement, Instr.isToken, encodeCommand, tokenItems]
theorem ecdEncrypt : Statement .ecdEncrypt := by
  simp [Statement, Instr.isToken, encodeCommand, tokenItems]
theorem exfDecrypt : Statement .exfDecrypt := by
  simp [Statement, Instr.isToken, encodeCommand, tokenItems]
theorem exfEncrypt : Statement .exfEncrypt := by
  simp [Statement, Instr.isToken, encodeCommand, tokenItems]

end Sys2Proof.Laws.EncodingSpace
end

