-- ==== Sys2Proof/Laws/Results.lean ====
section
/-! SUPPORT. What the shared operations leave, in the terms of Safety: appends, copies, field reads,
start checks, the ends of a command, the keystream and the bit writer. -/

namespace Sys2Proof.Machine

/-! ### Numbers -/

theorem toNat_add_ofNat {w : Word} {n : Nat} (h : w.toNat + n < 2 ^ 32) :
    (w + BitVec.ofNat 32 n).toNat = w.toNat + n := by
  simp [BitVec.toNat_add, BitVec.toNat_ofNat]; omega

theorem add_ofNat_add (w : Word) (a b : Nat) :
    w + BitVec.ofNat 32 a + BitVec.ofNat 32 b = w + BitVec.ofNat 32 (a + b) := by
  apply BitVec.eq_of_toNat_eq; simp [BitVec.toNat_add, BitVec.toNat_ofNat]; omega

theorem add_one_add_ofNat (w : Word) (b : Nat) :
    w + 1 + BitVec.ofNat 32 b = w + BitVec.ofNat 32 (b + 1) := by
  apply BitVec.eq_of_toNat_eq; simp [BitVec.toNat_add, BitVec.toNat_ofNat]; omega

/-- Everything `nextOutPos` can be. -/
theorem nextOutPos_cases (p : Word) :
    (p.toNat + 1 < 2 ^ 32 ∧ nextOutPos p = p + 1 ∧ (nextOutPos p).toNat = p.toNat + 1) ∨
    (p.toNat + 1 = 2 ^ 32 ∧ nextOutPos p = Config.wideOutPos (2 ^ 32)) := by
  have := p.isLt
  unfold nextOutPos
  split
  · refine .inl ⟨‹_›, rfl, ?_⟩
    simp; omega
  · have h : p.toNat + 1 = 2 ^ 32 := by omega
    exact .inr ⟨h, by rw [h]⟩

/-- An append whose reached length fits 32 bits moves `out_pos` by one. -/
theorem nextOutPos_eq {p : Word} (h : p.toNat + 1 < 2 ^ 32) : nextOutPos p = p + 1 := by
  rcases nextOutPos_cases p with ⟨_, e, _⟩ | ⟨e, _⟩
  · exact e
  · omega

theorem outPos_succ {p : Word} (h : p.toNat + 1 < 2 ^ 32) : (nextOutPos p).toNat = p.toNat + 1 := by
  rw [nextOutPos_eq h]; simp; omega

/-- The fields of a match that a token can express. -/
theorem matchOffset_of_lt {off : Nat} (h : off < 2 ^ 13) :
    matchOffset off = BitVec.ofNat 13 off := if_pos h

theorem matchExtension_of_lt {len : Nat} (h : len - 0x1A < 2 ^ 8) :
    matchExtension len = BitVec.ofNat 8 (len - 0x1A) := if_pos h

/-- A read below IN_LEN moves `in_pos` without wrapping. -/
theorem inPos_succ {s : State} (h : s.inPos.toNat < s.inLen.toNat) :
    (s.inPos + 1).toNat = s.inPos.toNat + 1 := by
  have := s.inLen.isLt
  simp; omega

/-! ### Buffers that hold values -/

theorem HasBytes.read {m : Memory} {a n k : Nat} (h : HasBytes m a n) (hk : k < n) :
    Memory.read m (a + k) = some (byteAt m (a + k)) := by
  obtain ⟨v, hv⟩ := Option.isSome_iff_exists.1 (h k hk)
  simp [byteAt, hv]

theorem HasBytes.sub {m : Memory} {a n b k : Nat} (h : HasBytes m a n) (hb : a ≤ b)
    (hk : b + k ≤ a + n) : HasBytes m b k := by
  intro j hj
  have := h (b - a + j) (by omega)
  rwa [show a + (b - a + j) = b + j by omega] at this

theorem HasBytes.tail {m : Memory} {a n : Nat} (h : HasBytes m a (n + 1)) : HasBytes m (a + 1) n :=
  h.sub (by omega) (by omega)

theorem bytesAt_succ (m : Memory) (a n : Nat) :
    bytesAt m a (n + 1) = byteAt m a :: bytesAt m (a + 1) n := by
  simp [bytesAt, List.range_succ_eq_map, Function.comp_def, Nat.add_assoc, Nat.add_comm 1]

theorem bytesAt_add (m : Memory) (a n k : Nat) :
    bytesAt m a (n + k) = bytesAt m a n ++ bytesAt m (a + n) k := by
  simp [bytesAt, List.range_add, Function.comp_def, Nat.add_assoc]

theorem bytesAt_length (m : Memory) (a n : Nat) : (bytesAt m a n).length = n := by simp [bytesAt]

/-! ### Reads -/

theorem field16_ok {o : ByteOrder} {b : Buffer} {a : Nat} {s : State}
    (h : HasBytes (s.buffer b) a 2) :
    field16 o b a s =
      .ok (join16 o (byteAt (s.buffer b) a) (byteAt (s.buffer b) (a + 1))) s := by
  unfold field16
  rw [Engine.bind_ok (memRead_ok (by simpa using h.read (k := 0) (by omega))),
    Engine.bind_ok (memRead_ok (h.read (k := 1) (by omega)))]
  rfl

theorem field32_ok {o : ByteOrder} {b : Buffer} {a : Nat} {s : State}
    (h : HasBytes (s.buffer b) a 4) :
    field32 o b a s =
      .ok (join32 o (byteAt (s.buffer b) a) (byteAt (s.buffer b) (a + 1))
        (byteAt (s.buffer b) (a + 2)) (byteAt (s.buffer b) (a + 3))) s := by
  unfold field32
  rw [Engine.bind_ok (memRead_ok (by simpa using h.read (k := 0) (by omega))),
    Engine.bind_ok (memRead_ok (h.read (k := 1) (by omega))),
    Engine.bind_ok (memRead_ok (h.read (k := 2) (by omega))),
    Engine.bind_ok (memRead_ok (h.read (k := 3) (by omega)))]
  rfl

theorem inLE16_ok {a : Nat} {s : State} (h : HasBytes s.inBuf a 2) :
    inLE16 a s = .ok (le16At s.inBuf a) s := field16_ok (b := .inBuf) h

theorem inLE32_ok {a : Nat} {s : State} (h : HasBytes s.inBuf a 4) :
    inLE32 a s = .ok (le32At s.inBuf a) s := field32_ok (b := .inBuf) h

theorem h16_ok {b : Buffer} {a : Nat} {s : State} (h : HasBytes (s.buffer b) a 2) :
    h16 b a s = .ok (h16At s.cfg.hdrOrder (s.buffer b) a) s := by
  unfold h16; rw [Engine.get_bind, field16_ok h]; cases s.cfg.hdrOrder <;> rfl

theorem h32_ok {b : Buffer} {a : Nat} {s : State} (h : HasBytes (s.buffer b) a 4) :
    h32 b a s = .ok (h32At s.cfg.hdrOrder (s.buffer b) a) s := by
  unfold h32; rw [Engine.get_bind, field32_ok h]; cases s.cfg.hdrOrder <;> rfl

/-- `InByte()` where IN holds a value. -/
theorem inByte_has {s : State} {n : Nat} (h : s.inPos.toNat + (n + 1) ≤ s.inLen.toNat)
    (hb : HasBytes s.inBuf s.inPos.toNat (n + 1)) :
    inByte s = .ok (byteAt s.inBuf s.inPos.toNat) s.advanceIn :=
  inByte_ok (by omega) (by simpa using hb.read (Nat.succ_pos n))

/-- `InByte()` at the end of IN. -/
theorem inByte_end {s : State} (h : s.inLen.toNat ≤ s.inPos.toNat) :
    inByte s = .error (.raise .truncated s.inPos.toNat) s := by
  rcases inByte_cases s with ⟨b, h1, _⟩ | ⟨_, e⟩ | ⟨h1, _⟩
  · omega
  · exact e
  · omega

theorem inBytes_ok {a n : Nat} {s : State} (h : HasBytes s.inBuf a n) :
    inBytes a n s = .ok (bytesAt s.inBuf a n) s := by
  induction n generalizing a with
  | zero => rfl
  | succ n ih =>
    have h0 : Memory.read s.inBuf a = some (byteAt s.inBuf a) := by
      simpa using h.read (k := 0) (by omega)
    rw [inBytes, Engine.bind_ok (memRead_ok (b := .inBuf) h0), Engine.bind_ok (ih h.tail), bytesAt_succ]
    rfl

theorem keyBytes_ok {a n : Nat} {s : State} (h : HasBytes s.exf.kb a n) :
    keyBytes a n s = .ok (bytesAt s.exf.kb a n) s := by
  induction n generalizing a with
  | zero => rfl
  | succ n ih =>
    have h0 : Memory.read s.exf.kb a = some (byteAt s.exf.kb a) := by
      simpa using h.read (k := 0) (by omega)
    rw [keyBytes, Engine.bind_ok (memRead_ok (b := .keyBuf) h0), Engine.bind_ok (ih h.tail), bytesAt_succ]
    rfl

/-! ### Appends and copies -/

theorem AppendResult.nil (s : State) : AppendResult s s [] := ⟨by simp, by simp, by simp⟩

theorem AppendResult.push {s : State} {b : Byte} (h : s.outPos.toNat + 1 < 2 ^ 32) :
    AppendResult s (s.pushOut b) [b] := by
  refine ⟨by simp [State.pushOut, nextOutPos_eq h], ?_, ?_⟩
  · intro k h; simp at h; subst h; simp [State.pushOut]
  · intro a h; simp [State.pushOut]; rw [Memory.read_write_other]; simp at h; omega

theorem AppendResult.outPos {s t : State} {bs : List Byte} (h : AppendResult s t bs)
    (hl : s.outPos.toNat + bs.length < 2 ^ 32) :
    t.outPos.toNat = s.outPos.toNat + bs.length := by
  rw [h.1]; exact toNat_add_ofNat hl

theorem AppendResult.trans {s t u : State} {bs cs : List Byte} (h1 : AppendResult s t bs)
    (h2 : AppendResult t u cs) (hl : s.outPos.toNat + bs.length + cs.length < 2 ^ 32) :
    AppendResult s u (bs ++ cs) := by
  have ho := h1.outPos (by omega)
  obtain ⟨e1, a1, b1⟩ := h1
  obtain ⟨e2, a2, b2⟩ := h2
  refine ⟨?_, ?_, ?_⟩
  · have hp : t.outPos = s.outPos + BitVec.ofNat 32 bs.length := by rw [e1]
    have : u.outPos = s.outPos + BitVec.ofNat 32 (bs ++ cs).length := by
      rw [e2]; simp only [hp, List.length_append, add_ofNat_add]
    rw [← this]
    calc u = _ := e2
      _ = _ := by rw [e1, this]; simp [add_ofNat_add]
  · intro k hk
    by_cases hkb : k < bs.length
    · rw [List.getElem_append_left hkb, b2 _ (by omega), a1 k hkb]
    · rw [List.getElem_append_right (by omega)]
      have := a2 (k - bs.length) (by simp at hk; omega)
      rw [ho] at this
      rw [← this]; congr 1; omega
  · intro a ha
    simp only [List.length_append] at ha
    rw [b2 a (by omega), b1 a (by omega)]

/-- Appends with room, up to a length that fits 32 bits. -/
theorem appendAll_ok {bs : List Byte} {s : State}
    (h : s.outPos.toNat + bs.length ≤ s.cfg.outCap) (hw : s.outPos.toNat + bs.length < 2 ^ 32) :
    ∃ t, appendAll bs s = .ok () t ∧ AppendResult s t bs := by
  induction bs generalizing s with
  | nil => exact ⟨s, rfl, .nil s⟩
  | cons b bs ih =>
    simp only [List.length_cons] at h hw
    have hlt : s.outPos.toNat < s.cfg.outCap := by omega
    have hop : (s.pushOut b).outPos.toNat = s.outPos.toNat + 1 := outPos_succ (by omega)
    obtain ⟨t, e, ht⟩ := ih (s := s.pushOut b) (by rw [hop, State.pushOut_cfg]; omega)
      (by rw [hop]; omega)
    refine ⟨t, ?_, (AppendResult.push (by omega)).trans ht (by simp; omega)⟩
    rw [appendAll, Engine.bind_ok (append_ok hlt)]; exact e

/-- The copying loop with room and a source inside the output. -/
theorem copyLoop_ok {offset n : Nat} {s : State} (h1 : offset + 1 ≤ s.outPos.toNat)
    (h2 : s.outPos.toNat + n ≤ s.cfg.outCap) (hw : s.outPos.toNat + n < 2 ^ 32)
    (h3 : HasBytes s.outBuf 0 s.outPos.toNat) :
    ∃ t, copyLoop offset n s = .ok () t ∧ CopyResult s t offset n := by
  induction n generalizing s with
  | zero => exact ⟨s, rfl, by simp [CopyResult]⟩
  | succ n ih =>
    have hlt : s.outPos.toNat < s.cfg.outCap := by omega
    have hs := h3 (copySource s.outPos.toNat offset) (by unfold copySource; omega)
    obtain ⟨v, hv⟩ := Option.isSome_iff_exists.1 hs
    simp only [Nat.zero_add] at hv
    have hop := outPos_succ (p := s.outPos) (by omega)
    have hb : HasBytes (s.pushOut v).outBuf 0 (s.pushOut v).outPos.toNat := by
      intro k hk
      simp only [State.pushOut_outPos, hop] at hk
      simp only [State.pushOut, Memory.read_write]
      split
      · rfl
      · exact h3 k (by omega)
    obtain ⟨t, e, ht⟩ := ih (s := s.pushOut v) (by simp only [State.pushOut_outPos, hop]; omega)
      (by simp only [State.pushOut_outPos, hop, State.pushOut_cfg]; omega)
      (by simp only [State.pushOut_outPos, hop]; omega) hb
    refine ⟨t, ?_, ?_⟩
    · rw [copyLoop, Engine.get_bind, Engine.bind_ok (memRead_ok (b := .outBuf) hv),
        Engine.bind_ok (append_ok hlt)]
      exact e
    · obtain ⟨t1, t2, t3⟩ := ht
      simp only [State.pushOut_outPos, hop] at t1 t2 t3
      have r0 : Memory.read t.outBuf s.outPos.toNat = some v := by
        rw [t3 _ (by omega)]; simp [State.pushOut]
      refine ⟨?_, ?_, ?_⟩
      · have : t.outPos = s.outPos + BitVec.ofNat 32 (n + 1) := by
          rw [t1]; simp only [nextOutPos_eq (show s.outPos.toNat + 1 < 2 ^ 32 by omega)]
          exact add_one_add_ofNat _ _
        rw [← this, t1]
        simp [State.pushOut]
      · intro k hk
        rcases Nat.eq_zero_or_pos k with rfl | hk0
        · rw [Nat.add_zero, r0, t3 _ (by omega)]
          simp only [State.pushOut]
          rw [Memory.read_write_other _ _ (by omega)]
          unfold copySource at hv; exact hv.symm
        · have := t2 (k - 1) (by omega)
          rw [show s.outPos.toNat + k = s.outPos.toNat + 1 + (k - 1) by omega]
          exact this
      · intro a ha
        rw [t3 a (by omega)]
        simp only [State.pushOut]
        rw [Memory.read_write_other _ _ (by omega)]

/-- `Append(InByte())` several times, with room and enough input. -/
theorem copyIn_ok {n : Nat} {s : State} (h1 : s.inPos.toNat + n ≤ s.inLen.toNat)
    (h2 : s.outPos.toNat + n ≤ s.cfg.outCap) (hw : s.outPos.toNat + n < 2 ^ 32)
    (h3 : HasBytes s.inBuf s.inPos.toNat n) :
    ∃ t, copyIn n s = .ok () t ∧
      AppendResult { s with inPos := s.inPos + BitVec.ofNat 32 n } t
        (bytesAt s.inBuf s.inPos.toNat n) := by
  induction n generalizing s with
  | zero => exact ⟨s, rfl, by simpa [bytesAt] using AppendResult.nil s⟩
  | succ n ih =>
    have hlt : s.outPos.toNat < s.cfg.outCap := by omega
    have hop := outPos_succ (p := s.outPos) (by omega)
    have hip := inPos_succ (s := s) (by omega)
    let s1 := (s.advanceIn).pushOut (byteAt s.inBuf s.inPos.toNat)
    have hin : s1.inPos.toNat = s.inPos.toNat + 1 := hip
    have hout : s1.outPos.toNat = s.outPos.toNat + 1 := hop
    obtain ⟨t, e, ht⟩ := ih (s := s1) (by rw [hin]; show _ ≤ s.inLen.toNat; omega)
      (by rw [hout]; show _ ≤ s.cfg.outCap; omega) (by rw [hout]; omega)
      (by rw [hin]; exact h3.tail)
    refine ⟨t, ?_, ?_⟩
    · rw [copyIn, Engine.bind_ok (inByte_has h1 h3)]
      exact (Engine.bind_ok (append_ok (s := s.advanceIn) hlt)).trans e
    · rw [bytesAt_succ]
      have := AppendResult.trans (s := { s with inPos := s.inPos + BitVec.ofNat 32 (n + 1) })
        (t := { s1 with inPos := s.inPos + BitVec.ofNat 32 (n + 1) }) (u := t)
        (bs := [byteAt s.inBuf s.inPos.toNat]) (cs := bytesAt s.inBuf (s.inPos.toNat + 1) n)
        (AppendResult.push (by show s.outPos.toNat + 1 < 2 ^ 32; omega)) ?_
        (by simp [bytesAt_length]; omega)
      · simpa using this
      · rw [hin] at ht
        have hh : s1.inPos + BitVec.ofNat 32 n = s.inPos + BitVec.ofNat 32 (n + 1) := by
          show s.inPos + 1 + BitVec.ofNat 32 n = _
          exact add_one_add_ofNat _ _
        rw [hh] at ht; exact ht

theorem State.withInPos_self {s : State} {v : Word} (h : s.inPos = v) :
    ({ s with inPos := v } : State) = s := by subst h; rfl

/-- `Append(InByte())` more often than there is input. -/
theorem copyIn_truncated {n : Nat} {s : State} (h0 : s.inPos.toNat ≤ s.inLen.toNat)
    (h1 : s.inLen.toNat < s.inPos.toNat + n) (h2 : s.outPos.toNat + n ≤ s.cfg.outCap)
    (hw : s.outPos.toNat + n < 2 ^ 32)
    (h3 : HasBytes s.inBuf s.inPos.toNat (s.inLen.toNat - s.inPos.toNat)) :
    ∃ t, copyIn n s = .error (.raise .truncated s.inLen.toNat) t ∧
      AppendResult { s with inPos := s.inLen } t
        (bytesAt s.inBuf s.inPos.toNat (s.inLen.toNat - s.inPos.toNat)) := by
  induction n generalizing s with
  | zero => omega
  | succ n ih =>
    have hlt : s.outPos.toNat < s.cfg.outCap := by omega
    by_cases hend : s.inLen.toNat ≤ s.inPos.toNat
    · have heq : s.inPos = s.inLen := BitVec.eq_of_toNat_eq (by omega)
      refine ⟨s, ?_, ?_⟩
      · rw [copyIn, Engine.bind_error (inByte_end hend), heq]
      · have : ({ s with inPos := s.inLen } : State) = s := State.withInPos_self heq
        rw [this, show s.inLen.toNat - s.inPos.toNat = 0 by omega]; exact .nil s
    obtain ⟨m, hm⟩ : ∃ m, s.inLen.toNat - s.inPos.toNat = m + 1 :=
      ⟨s.inLen.toNat - s.inPos.toNat - 1, by omega⟩
    rw [hm] at h3 ⊢
    have hop := outPos_succ (p := s.outPos) (by omega)
    have hip := inPos_succ (s := s) (by omega)
    let s1 := (s.advanceIn).pushOut (byteAt s.inBuf s.inPos.toNat)
    have hin : s1.inPos.toNat = s.inPos.toNat + 1 := hip
    have hout : s1.outPos.toNat = s.outPos.toNat + 1 := hop
    have hm' : s1.inLen.toNat - s1.inPos.toNat = m := by
      rw [hin]; show s.inLen.toNat - _ = _; omega
    obtain ⟨t, e, ht⟩ := ih (s := s1) (by rw [hin]; show _ ≤ s.inLen.toNat; omega)
      (by rw [hin]; show s.inLen.toNat < _; omega)
      (by rw [hout]; show _ ≤ s.cfg.outCap; omega) (by rw [hout]; omega)
      (by rw [hm', hin]; exact h3.tail)
    refine ⟨t, ?_, ?_⟩
    · rw [copyIn, Engine.bind_ok (inByte_has (n := m) (by omega) h3)]
      exact (Engine.bind_ok (append_ok (s := s.advanceIn) hlt)).trans e
    · rw [bytesAt_succ]
      rw [hm'] at ht
      have := AppendResult.trans (s := { s with inPos := s.inLen })
        (t := { s1 with inPos := s.inLen }) (u := t)
        (bs := [byteAt s.inBuf s.inPos.toNat]) (cs := bytesAt s.inBuf (s.inPos.toNat + 1) m)
        (AppendResult.push (by show s.outPos.toNat + 1 < 2 ^ 32; omega)) ?_
        (by simp [bytesAt_length]; omega)
      · simpa using this
      · rw [hin] at ht; exact ht

/-- The loading of table entries that the input holds. -/
theorem loadEntries_ok {n : Nat} {s : State} (h1 : s.inPos.toNat + 2 * n ≤ s.inLen.toNat)
    (h3 : HasBytes s.inBuf s.inPos.toNat (2 * n)) :
    loadEntries n s = .ok () { s with
      inPos := s.inPos + BitVec.ofNat 32 (2 * n)
      ht := s.ht ++ (List.range n).map fun k => le16At s.inBuf (s.inPos.toNat + 2 * k) } := by
  induction n generalizing s with
  | zero => simp [loadEntries]
  | succ n ih =>
    have hip : s.advanceIn.inPos.toNat = s.inPos.toNat + 1 := inPos_succ (s := s) (by omega)
    have e1 := inByte_has (n := 2 * n + 1) (s := s) (by omega) h3
    have e2 := inByte_has (n := 2 * n) (s := s.advanceIn)
      (by rw [hip]; show _ ≤ s.inLen.toNat; omega) (by rw [hip]; exact h3.tail)
    have hip2 : s.advanceIn.advanceIn.inPos.toNat = s.inPos.toNat + 2 := by
      show (s.advanceIn.inPos + 1).toNat = _
      rw [inPos_succ (s := s.advanceIn) (by rw [hip]; show _ < s.inLen.toNat; omega), hip]
    rw [loadEntries, Engine.bind_ok e1, Engine.bind_ok e2, Engine.modify_bind, ih]
    · have hipp : ∀ v, (s.advanceIn.advanceIn.pushEntry v).inPos.toNat = s.inPos.toNat + 2 :=
        fun _ => hip2
      rw [hipp, hip]
      simp only [State.pushEntry, State.advanceIn]
      have : s.inPos + 1 + 1 + BitVec.ofNat 32 (2 * n) =
          s.inPos + BitVec.ofNat 32 (2 * (n + 1)) := by
        rw [add_one_add_ofNat, add_one_add_ofNat, show 2 * n + 1 + 1 = 2 * (n + 1) by omega]
      rw [this, List.range_succ_eq_map]
      simp only [List.map_cons, List.map_map, List.append_assoc, List.singleton_append,
        Function.comp_def]
      congr 4
      apply List.map_congr_left
      intro a _
      rw [show s.inPos.toNat + 2 * a.succ = s.inPos.toNat + 2 + 2 * a by omega]
    · show s.advanceIn.advanceIn.inPos.toNat + _ ≤ s.inLen.toNat
      rw [hip2]; omega
    · show HasBytes s.inBuf s.advanceIn.advanceIn.inPos.toNat _
      rw [hip2]; exact h3.sub (by omega) (by omega)

/-! ### Start checks -/

theorem checkInCap_bind {β : Type} (f : Unit → Engine β) (s : State) :
    (checkInCap >>= f) s =
      if s.cfg.inCap < s.inLen.toNat then .error (.raise .bufferCapacity s.inLen.toNat) s
      else f () s := by
  rw [Engine.bind_apply, checkInCap, Engine.get_bind, raiseIf_apply]
  simp only [decide_eq_true_eq]; split_ifs <;> rfl

theorem checkHeaderLen_bind {β : Type} (f : Unit → Engine β) (s : State) :
    (checkHeaderLen >>= f) s =
      if s.inLen.toNat < 16 then .error (.raise .malformedHeader s.inLen.toNat) s
      else f () s := by
  rw [Engine.bind_apply, checkHeaderLen, Engine.get_bind, raiseIf_apply]
  simp only [decide_eq_true_eq]; split_ifs <;> rfl

theorem checkOutCap_bind {β : Type} (n : Nat) (f : Unit → Engine β) (s : State) :
    (checkOutCap n >>= f) s =
      if s.cfg.outCap < n then .error (.raise .bufferCapacity n) s else f () s := by
  rw [Engine.bind_apply, checkOutCap, Engine.get_bind, raiseIf_apply]
  simp only [decide_eq_true_eq]; split_ifs <;> rfl

theorem checkIndex_bind {β : Type} (t : LcgTab) (i : Half) (f : Unit → Engine β) (s : State) :
    (checkIndex t i >>= f) s =
      if lcgCount s.cfg t ≤ i.toNat then .error (.raise .malformedHeader i.toNat) s
      else f () s := by
  rw [Engine.bind_apply, checkIndex, Engine.get_bind, raiseIf_apply]
  simp only [decide_eq_true_eq]; split_ifs <;> rfl

/-! ### Keystream -/

/-- `KeyWord()` with an index inside the table. -/
theorem keyWord_ok {s : State} {e : LcgEntry}
    (h : (lcgTable s.cfg s.lcg.tab).entries[s.lcg.idx.toNat]? = some e) :
    keyWord s =
      .ok (lcgStep e s.lcg.s) { s with lcg := { s.lcg with s := lcgStep e s.lcg.s } } := by
  unfold keyWord lcgNext
  rw [Engine.get_bind, Engine.bind_apply, Engine.get_bind, h]
  rfl

/-! ### The ends of a command -/

/-- Everything outside the working registers and OUT, which no body changes but that of LCG_NEXT. -/
def Kept (s t : State) : Prop :=
  InputsKept s t ∧ t.phase = s.phase ∧ t.status = s.status ∧ t.outLen = s.outLen ∧ t.hc = s.hc ∧
  t.lcgState = s.lcgState ∧ t.lcgWord = s.lcgWord ∧ t.faultInPos = s.faultInPos ∧
  t.faultOutPos = s.faultOutPos ∧ t.faultInfo = s.faultInfo

theorem kept_closed : Engine.Closed Kept where
  refl s := by simp [Kept, InputsKept]
  trans s t u := by
    simp only [Kept, InputsKept]
    intro h1 h2
    simp_all
  work := by intros; simp [Kept, InputsKept]
  push := by intros; simp [Kept, InputsKept]
  key := by intros; simp [Kept, InputsKept]

/-- The fields of a STATUS word put together. -/
theorem statusReads_statusWord (b d e : Bool) (c l : Byte) :
    StatusReads (statusWord b d e c l) b d e c l := by
  unfold StatusReads statusWord
  refine ⟨?_, ?_, ?_, ?_, ?_, ?_, ?_⟩
  · simp only [BitVec.getLsbD_append]; cases b <;> simp
  · simp only [BitVec.getLsbD_append]; cases d <;> simp
  · simp only [BitVec.getLsbD_append]; cases e <;> simp
  all_goals
    apply BitVec.eq_of_getLsbD_eq
    intro i hi
    simp only [BitVec.getLsbD_extractLsb', BitVec.getLsbD_append]
    interval_cases i <;> cases b <;> cases d <;> cases e <;> simp

/-- A command that raises a fault of its own, with no conflict latched. -/
theorem endWithFault_result {s s' : State} {k : FaultKind} {n : Nat} (h : Kept s s')
    (hc : s.hc.isSet = false) (hn : n < 2 ^ 32) :
    FaultResult s (endWithFault k n s') k.code n s'.inPos
      (if s'.phase = .lzDecode then s'.tokOut else s'.outPos) := by
  obtain ⟨h, hph, hst, _, hhc, h1, h2, _⟩ := h
  rw [show endWithFault k n s' = takeFault k n s' by simp [endWithFault, hhc, hc]]
  refine ⟨rfl, rfl, by simp only [State.takeFault_faultInfo, infoWord, hn, if_true], rfl, rfl, ?_,
    h1, h2, rfl, h⟩
  simp only [State.takeFault_status, statusFaulted, hst]
  exact statusReads_statusWord ..

/-- A command that completes with what it appended from `out_pos` 0 on. -/
theorem complete_result {s s0 u : State} {out : List Byte} (h : Kept s u)
    (hc : s.hc.isSet = false) (ha : AppendResult s0 u out) (h0 : s0.outPos = 0)
    (hl : out.length < 2 ^ 32) : CompleteResult s (complete u) out := by
  obtain ⟨h, hph, hst, _, hhc, h1, h2, h3, h4, h5⟩ := h
  have ho := ha.outPos (by rw [h0]; simpa using hl)
  have ho' : u.outPos = BitVec.ofNat 32 out.length := by rw [ha.1]; simp [h0]
  obtain ⟨a1, a2, a3⟩ := ha
  rw [show complete u = publish u by simp [complete, hhc, hc]]
  refine ⟨ho', ?_, ?_, h3, h4, h5, rfl, h⟩
  · intro a
    simp only [State.publish_outBuf, Memory.read_below, ho, h0]
    simp only [h0] at a2
    split
    · rename_i hlt
      have hlt : a < out.length := by simpa using hlt
      have := a2 a hlt
      simp at this
      rw [this, List.getElem?_eq_getElem hlt]
    · rename_i hlt
      rw [List.getElem?_eq_none]; simpa using hlt
  · simp only [State.publish_status, statusCompleted, hst]
    exact statusReads_statusWord ..

/-! ### The bit writer -/

/-- `Flush()` with room. -/
theorem flush_ok {s : State} (hr : s.outPos.toNat + (1 + s.enc.pend.length) ≤ s.cfg.outCap)
    (hw : s.outPos.toNat + (1 + s.enc.pend.length) < 2 ^ 32) :
    ∃ t, flush s = .ok () t ∧ t.enc = { s.enc with isOpen := false, pend := [] } ∧
      AppendResult { s with enc := t.enc } t (s.enc.flag :: s.enc.pend) := by
  obtain ⟨t1, e1, a1⟩ := appendAll_ok (s := s) (bs := s.enc.flag :: s.enc.pend) (by simp; omega)
    (by simp; omega)
  have ep : t1.enc = s.enc := by rw [a1.1]
  refine ⟨{ t1 with enc := { t1.enc with isOpen := false, pend := [] } }, ?_, by simp [ep], ?_⟩
  · unfold flush
    rw [Engine.get_bind]
    rw [appendAll] at e1
    obtain ⟨u, s1, q1, q2⟩ := Engine.bind_eq_ok.1 e1
    rw [Engine.bind_ok q1, Engine.bind_ok q2]; rfl
  · obtain ⟨x, y, z⟩ := a1
    refine ⟨?_, y, z⟩
    conv => lhs; rw [x]
    simp only [ep]

/-- One item written behind an open flag byte, with room: what goes out now and what the writer
holds afterwards make up the packed bytes of the item and whatever follows. -/
theorem emitItem_ok {s : State} (ho : s.enc.isOpen = true) (i : Item)
    (hr : s.outPos.toNat + (1 + s.enc.pend.length) ≤ s.cfg.outCap)
    (hw : s.outPos.toNat + (1 + s.enc.pend.length) < 2 ^ 32) :
    ∃ t D, emitItem i s = .ok () t ∧ t.enc.isOpen = true ∧ t.enc.pos = s.enc.pos ∧
      AppendResult { s with enc := t.enc } t D ∧
      ∀ more, packItems (i :: more) s.enc.flag s.enc.cnt.val s.enc.pend =
        D ++ packItems more t.enc.flag t.enc.cnt.val t.enc.pend := by
  have hopen : s.openFlag = s := by simp [State.openFlag, ho]
  cases i with
  | data v =>
    exact ⟨{ s with enc := { s.enc with pend := s.enc.pend ++ [v] } }, [], rfl, ho, rfl,
      .nil _, fun _ => rfl⟩
  | flag b =>
    by_cases h8 : s.enc.cnt = 8
    · obtain ⟨t1, e1, p1, a1⟩ := flush_ok hr hw
      refine ⟨{ t1 with enc := ⟨s.enc.pos, placeFlag 0 0 b, 1, true, []⟩ },
        s.enc.flag :: s.enc.pend, ?_, rfl, rfl, ?_, ?_⟩
      · show emitBit b s = _
        unfold emitBit
        rw [Engine.get_bind]
        simp only [ho, h8, beq_self_eq_true, Bool.and_self, if_true]
        refine (Engine.bind_ok e1).trans ?_
        simp only [Engine.modify_apply, State.openFlag, State.placeBit, p1, Bool.false_eq_true,
          if_false]
        rfl
      · obtain ⟨x, y, z⟩ := a1
        refine ⟨?_, y, z⟩
        conv => lhs; rw [x]
      · intro more
        rw [packItems, if_pos (by rw [h8]; rfl)]
        rfl
    · have h8' : s.enc.cnt.val ≠ 8 := fun h => h8 (Fin.ext h)
      have hv : (s.enc.cnt + 1).val = s.enc.cnt.val + 1 := by
        have : ∀ c : Fin 9, c.val ≠ 8 → (c + 1).val = c.val + 1 := by decide
        exact this _ h8'
      refine ⟨{ s with enc := { s.enc with
        flag := placeFlag s.enc.flag s.enc.cnt.val b, cnt := s.enc.cnt + 1 } }, [], ?_, ho, rfl,
        .nil _, ?_⟩
      · show emitBit b s = _
        unfold emitBit
        rw [Engine.get_bind, if_neg (by simp [h8])]
        show EStateM.Result.ok () (s.openFlag.placeBit b) = _
        rw [hopen]; rfl
      · intro more
        rw [packItems, if_neg h8', hv]; rfl

/-- The first flag bit of a token opens a closed writer. -/
theorem emitItem_first {s : State} (ho : s.enc.isOpen = false) (b : Bool) :
    emitItem (.flag b) s =
      .ok () { s with enc := ⟨s.enc.pos, placeFlag 0 0 b, 1, true, []⟩ } := by
  show emitBit b s = _
  unfold emitBit
  rw [Engine.get_bind]
  simp only [ho, Bool.false_and, Bool.false_eq_true, if_false,
    Engine.modify_apply, State.openFlag, State.placeBit]
  rfl

end Sys2Proof.Machine
end

