-- ==== Sys2Proof/Tests/Slice0.lean ====
section
/-! SUPPORT. The model's own tests: the WellFormed smoke, words written out from the encodings, one
step of each instruction on the vectors of spec/95_test_vectors.md, and for every statement with
hypotheses a concrete case that meets them. -/

namespace Sys2Proof.Tests

open Sys2Proof Sys2Proof.Machine

set_option Elab.async false

/-! ### WellFormed: the two checks refuse their ill-formed term -/

theorem test_wellFormed_refuses_long_zero : Instr.wellFormed (.long 0 5) = false := by decide

theorem test_wellFormed_refuses_longx8_ff : Instr.wellFormed (.longx8 5 0xFF) = false := by decide

/-! ### Decoding of words written out bit by bit (30_encoding.md R92 to R98, R107) -/

/-- R92: flag 0, data 41. -/
theorem test_decode_lit : decode (.stream [0b00000000, 0x41]) = .ok (.lit 0x41) := by decide

/-- R93: flags 1 0, length bits 1 0, data 01. -/
theorem test_decode_short : decode (.stream [0b10100000, 0x01]) = .ok (.short 2 1) := by decide

/-- R95: flags 1 1, data 101 00001, data 23. -/
theorem test_decode_long :
    decode (.stream [0b11000000, 0b10100001, 0x23]) = .ok (.long 5 0x123) := by decide

/-- R96: flags 1 1, data 000 00001 23, flag 0, extension bits 0 1 1 0. -/
theorem test_decode_longx4 :
    decode (.stream [0b11001100, 0b00000001, 0x23]) = .ok (.longx4 0x123 6) := by decide

/-- R97: flags 1 1, data 000 11111 FE, flag 1, data 07. -/
theorem test_decode_longx8 :
    decode (.stream [0b11100000, 0b00011111, 0xFE, 0x07]) = .ok (.longx8 0x1FFE 7) := by decide

/-- R98: as LONGX8 with the last data byte FF. -/
theorem test_decode_run :
    decode (.stream [0b11100000, 0b00000001, 0x02, 0xFF]) = .ok (.run 0x102) := by decide

theorem test_decode_jpkDecode : decode (.word 0x00000001) = .ok .jpkDecode := by decide
theorem test_decode_jpkEncode : decode (.word 0x00000002) = .ok .jpkEncode := by decide
theorem test_decode_lcgNext : decode (.word 0x00000003) = .ok (.lcgNext false) := by decide
theorem test_decode_lcgNext_exf : decode (.word 0x00000103) = .ok (.lcgNext true) := by decide
theorem test_decode_ecdDecrypt : decode (.word 0x00000004) = .ok .ecdDecrypt := by decide
theorem test_decode_ecdEncrypt : decode (.word 0x00000005) = .ok .ecdEncrypt := by decide
theorem test_decode_exfDecrypt : decode (.word 0x00000006) = .ok .exfDecrypt := by decide
theorem test_decode_exfEncrypt : decode (.word 0x00000007) = .ok .exfEncrypt := by decide

/-! ### Small states -/

/-- The test table of spec/95 §2. -/
def table : LcgTable := ⟨⟨0x0019660D, 0x3C6EF35F⟩, [⟨0x41C64E6D, 0x00003039⟩]⟩

/-- Both capacities 64, the parameters of spec/95. -/
def cfg : Config where
  ecdLcgTable := table
  exfLcgTable := table
  hdrOrder := .big
  lzWindow := 0x1FFF
  lzMaxLen := 280
  scanOrder := .farFirst
  inExtra := 48
  outExtra := 48
  type2Mode := .asType4
  substPoints := []
  keyIndexBase := .zero
  countMode := .minusHeader
  keyByteOrder := .little
  crc := .isoHdlc

/-- Reset, with the bytes `bs` in IN. -/
def given (bs : List Byte) : State :=
  { State.reset with cfg := cfg, inBuf := bufferOf bs, inLen := BitVec.ofNat 32 bs.length }

/-- A command just started over the input `bs`. -/
def started (bs : List Byte) : State :=
  { given bs with status := statusStarted 1, phase := .dispatch 1 }

/-- A type-3 decode that has made the output `out` and reads `bs` next. -/
def running (bs out : List Byte) (size : Word) : State :=
  { given bs with
    status := statusStarted 1, phase := .lzDecode, size := size
    outBuf := bufferOf out, outPos := BitVec.ofNat 32 out.length }

/-- `hdr(t, s)` of spec/95 with further bytes. -/
def jpk (t s : Byte) (body : List Byte) : List Byte :=
  [0x4A, 0x4B, 0x52, 0x1A, 0, 0, t, 0, 0x10, 0, 0, 0, s, 0, 0, 0] ++ body

/-- The ECD fixture of spec/95 §1.2. -/
def fixture : List Byte :=
  [0x1A, 0x64, 0x63, 0x65, 0, 0, 0, 0, 0, 0, 0, 4, 0, 0, 0, 0, 0, 0, 0, 0]

/-- The EXF header of spec/95 P7 with `n` bytes of payload `00 01 02 ..`. -/
def exfFile (n : Nat) : List Byte :=
  [0x1A, 0x66, 0x78, 0x65, 0, 0, 0, 0, 0, 0, 0, 0, 0x12, 0x34, 0x56, 0x78] ++
    (List.range n).map (BitVec.ofNat 8)

/-- The state with the byte of IN at `k` never written. -/
def lacking (k : Nat) (s : State) : State := { s with inBuf := s.inBuf.filter fun p => p.1 != k }

/-- A decode over the Huffman data `bs` with a `table_len` of 0x100, whose root goes to HT[1] = `v` on a
first bit of 1. -/
def huffRunning (bs : List Byte) (v : Half) (size : Word) : State :=
  { running bs [] size with hf := ⟨true, 0x100, ⟨0, 0⟩⟩, ht := [0, v] }

/-- The output, STATUS and fault registers of a next state. -/
def view : Host.Outcome State Fault Refusal → Option (List Byte × Word × Word × Word × Word)
  | .next t => some (t.outBuf.map Prod.snd, t.status, t.faultInfo, t.faultInPos, t.faultOutPos)
  | .fault _ => none
  | .refused _ => none

/-- Whether an outcome is a next state with a property. -/
def nextIs (p : State → Bool) : Host.Outcome State Fault Refusal → Bool
  | .next t => p t
  | .fault _ => false
  | .refused _ => false

/-! ### One step of each instruction -/

theorem test_lit : view (exec (.lit 0x42) (running [] [0x41] 2)) =
    some ([0x41, 0x42], 0x00010001, 0, 0, 0) := by decide +kernel

/-- spec/95 §3.3 #1. -/
theorem test_short : view (exec (.short 1 1) (running [] [0x41, 0x42] 6)) =
    some ([0x41, 0x42, 0x41, 0x42, 0x41, 0x42], 0x00010001, 0, 0, 0) := by decide +kernel

/-- spec/95 §3.3 #15: the overrun. -/
theorem test_short_overrun : view (exec (.short 0 0) { running [] [0x41] 3 with tokOut := 1 }) =
    some ([], 0x00011104, 3, 0, 1) := by decide +kernel

/-- spec/95 §3.3 #3. -/
theorem test_long : view (exec (.long 1 0) (running [] [0x41] 4)) =
    some (List.replicate 4 0x41, 0x00010001, 0, 0, 0) := by decide +kernel

/-- spec/95 §3.3 #16: the underflow. -/
theorem test_long_underflow : view (exec (.long 1 1) { running [] [0x41] 4 with tokOut := 1 }) =
    some ([], 0x00011004, 1, 0, 1) := by decide +kernel

/-- spec/95 §3.3 #5. -/
theorem test_longx4 : view (exec (.longx4 0 1) (running [] [0x41] 12)) =
    some (List.replicate 12 0x41, 0x00010001, 0, 0, 0) := by decide +kernel

/-- spec/95 §3.3 #8. -/
theorem test_longx8 : view (exec (.longx8 0 1) (running [] [0x41] 28)) =
    some (List.replicate 28 0x41, 0x00010001, 0, 0, 0) := by decide +kernel

/-- spec/95 §3.3 #10. -/
theorem test_run :
    view (exec (.run 0) (running ((List.range 27).map (BitVec.ofNat 8)) [] 27)) =
      some ((List.range 27).map (BitVec.ofNat 8), 0x00010001, 0, 0, 0) := by decide +kernel

/-- spec/95 §3.3 #22: no data byte is read. -/
theorem test_run_overrun : view (exec (.run 0) (running [] [] 26)) =
    some ([], 0x00011104, 0x1B, 0, 0) := by decide +kernel

/-- spec/95 §3.8 #12. -/
theorem test_jpkDecode_raw : view (exec .jpkDecode (started (jpk 0 2 [0x61, 0x62, 0x63]))) =
    some ([0x61, 0x62], 0x00010002, 0, 0, 0) := by decide +kernel

/-- spec/95 §3.5 #8 up to its first token: the decode runs, the data cursor is empty. -/
theorem test_jpkDecode_huffman :
    nextIs (fun t => decide (t.phase = .lzDecode ∧ t.inPos = 18 ∧ t.size = 4 ∧
      t.hf = ⟨true, 0, ⟨0, 0⟩⟩ ∧ t.ht = [])) (exec .jpkDecode (started (jpk 4 4 [0, 0]))) =
      true := by decide +kernel

/-- spec/95 §3.4 #3. -/
theorem test_jpkEncode :
    view (exec .jpkEncode { started [0x41, 0x41, 0x41, 0x41] with
      paramType := 3, paramLevel := 280, status := statusStarted 2 }) =
      some ([0x4A, 0x4B, 0x52, 0x1A, 0, 0, 3, 0, 0x10, 0, 0, 0, 4, 0, 0, 0, 0x40, 0x41, 0],
        0x00020002, 0, 0, 0) := by decide +kernel

/-- spec/95 §3.8 #19: OUT has room for the header alone. -/
theorem test_jpkEncode_full :
    view (exec .jpkEncode
      { started [0x41, 0x42, 0x43, 0x44, 0x45, 0x46, 0x47, 0x48] with
        cfg := { cfg with outExtra := 0 }
        paramType := 3, paramLevel := 280, status := statusStarted 2 }) =
      some ([], 0x00021604, 0x11, 0, 16) := by decide +kernel

/-- spec/95 §3.2: `s = 1`, index 1. -/
theorem test_lcgNext :
    nextIs (fun t => decide (t.lcgState = 0x41C67EA6 ∧ t.lcgWord = 0x41C67EA6))
      (exec (.lcgNext false) { started [] with lcgState := 1, paramIndex := 1 }) = true := by
  decide +kernel

/-- spec/95 §3.8 #22. -/
theorem test_lcgNext_index :
    nextIs (fun t => decide (t.lcgState = 5 ∧ t.faultInfo = 2 ∧ t.status = 0x00030104))
      (exec (.lcgNext false) { started [] with
        lcgState := 5, paramIndex := 2, status := statusStarted 3 }) = true := by decide +kernel

/-- spec/95 §1.2. -/
theorem test_ecdDecrypt :
    view (exec .ecdDecrypt { started fixture with status := statusStarted 4 }) =
      some ([0xA1, 0x47, 0xC1, 0x5D], 0x00040002, 0, 0, 0) := by decide +kernel

/-- spec/95 §3.6 #4: two payload bytes of four. -/
theorem test_ecdDecrypt_truncated :
    view (exec .ecdDecrypt { started (fixture.take 18) with status := statusStarted 4 }) =
      some ([], 0x00040204, 0x12, 18, 2) := by decide +kernel

/-- 44_huffman.md R223: the example, a child index of 0x1FE in a table of 0x100 entries. -/
theorem test_huffman_index_range : view (step (huffRunning [0x80] 0x01FF 1)) =
    some ([], 0x00011204, 0x1FE, 1, 0) := by decide +kernel

/-- 44_huffman.md R227: the example, a cycle that the 16 bits of the data run out in. -/
theorem test_huffman_truncated : view (step (huffRunning [0xFF, 0xFF] 0x0100 1)) =
    some ([], 0x00010204, 2, 2, 0) := by decide +kernel

/-- A RUN of 27 bytes whose input ends after 26. -/
theorem test_run_truncated :
    view (exec (.run 0) { running (List.replicate 26 0x55) [0x41] 28 with tokOut := 1 }) =
      some ([], 0x00010204, 26, 26, 1) := by decide +kernel

/-- A given CRC32 (00_scope.md R6) is used where it is stated. -/
theorem test_crc32_given :
    crc32 (.given [⟨[0x48, 0x69], 0x12345678⟩]) [0x48, 0x69] = 0x12345678 := by decide +kernel

/-- spec/95 P5. -/
theorem test_ecdEncrypt :
    view (exec .ecdEncrypt { started [0x48, 0x69, 0x21] with
      metaBuf := [(4, 0), (5, 1)], status := statusStarted 5 }) =
      some ([0x1A, 0x64, 0x63, 0x65, 0, 1, 0, 0, 0, 0, 0, 3, 0x79, 0x9E, 0xC5, 0xDA,
        0x6D, 0x2D, 0x69], 0x00050002, 0, 0, 0) := by decide +kernel

/-- spec/95 §3.7: the derived key; a file of 32 bytes has count 0, so every byte is copied. -/
theorem test_exfDecrypt :
    nextIs (fun t => decide (t.outBuf.map Prod.snd = exfFile 16 ∧ t.status = 0x00060002 ∧
      (t.exf.kb.map Prod.snd).drop 16 = [0x0F, 0x71, 0x77, 0x67, 0x12, 0x08, 0x04, 0xDF,
        0xB9, 0xAC, 0xEF, 0x37, 0x54, 0xC3, 0x68, 0x59]))
      (exec .exfDecrypt { started (exfFile 16) with status := statusStarted 6 }) = true := by
  decide +kernel

/-- spec/95 P7, base 16, MINUS_HEADER, a payload of 17 bytes: one byte is substituted, and the
stand-in gives `00 ^ KV[0] = 0F`. -/
theorem test_exfDecrypt_substitutes :
    (view (exec .exfDecrypt { started (exfFile 17) with cfg := { cfg with
      keyIndexBase := .sixteen
      substPoints := [⟨0, 0, [0x0F, 0x71, 0x77, 0x67, 0x12, 0x08, 0x04, 0xDF,
        0xB9, 0xAC, 0xEF, 0x37, 0x54, 0xC3, 0x68, 0x59], 0x0F⟩] } })).map
      (fun v => (v.1.drop 16).take 3) = some [0x0F, 0x01, 0x02] := by decide +kernel

/-- spec/95 §3.8 #5. -/
theorem test_exfEncrypt : view (exec .exfEncrypt { started [] with status := statusStarted 7 }) =
    some ([], 0x00070404, 7, 0, 0) := by decide +kernel

/-! ### The host port and the fetch -/

/-- spec/95 §3.8 #23: a write of IN_LEN while a decode runs. -/
theorem test_conflict_descriptor :
    nextIs (fun t => decide (t.hc = ⟨true, 0x20000008⟩ ∧ t.inLen = 0 ∧ t.phase = .lzDecode))
      (hostMove (.writeReg 2 7) (running [] [] 1)) = true := by decide +kernel

/-- spec/95 §3.8 #24: the host reads OUT[3] while a decode runs whose output is complete. The read
returns 0, and the command ends with the conflict. -/
theorem test_conflict_ends_decode :
    nextIs (fun t => decide (t.hostData = some 0) &&
      nextIs (fun u => decide (u.status = 0x00011504 ∧ u.faultInfo = 0x80000003 ∧
        u.phase = .idle)) (engineStep t))
      (hostMove (.readOut 3) (running [] [0x41] 1)) = true := by decide +kernel

/-- 60_exceptions.md R331: a host write of OUT[3] while a decode runs is ignored and latched as a write
(bit 29) in the space OUT. -/
theorem test_conflict_of_out_write :
    nextIs (fun t => decide (t.hc = ⟨true, 0xA0000003⟩ ∧ t.outBuf = [(0, 0x41)] ∧
      t.hostData = none ∧ t.phase = .lzDecode))
      (hostMove (.writeOut 3 0x55) (running [] [0x41] 2)) = true := by decide +kernel

/-- spec/95 §3.8 #3: an illegal word. -/
theorem test_illegal_command :
    view (step { started [] with phase := .dispatch 0x104, status := statusStarted 4 }) =
      some ([], 0x00041404, 0x104, 0, 0) := by decide +kernel

/-- A table word is the instruction that the next step from reset runs. -/
theorem test_withFetchWord :
    decodeTableWord 16 0x4100 = some (.lit 0x41) ∧ decodeTableWord 32 3 = some (.lcgNext false) ∧
    nextIs (fun t => decide (t.outBuf = [(0, 0x41)])) (step (State.reset.withFetchWord 16 0x4100)) =
      true ∧
    nextIs (fun t => decide (t.status = 0x00070404)) (step (State.reset.withFetchWord 32 7)) =
      true := by decide +kernel

/-! ### Witnesses: concrete cases that meet the hypotheses of each statement -/

theorem witness_DecodeInvertsEncode :
    Instr.wellFormed (.long 7 0x1FFF) = true ∧ Instr.isToken (.long 7 0x1FFF) = true ∧
    Instr.wellFormed (.longx8 0x1FFF 0xFE) = true ∧
    Instr.wellFormed (.lcgNext true) = true ∧ Instr.isToken (.lcgNext true) = false := by decide

/-- One word for each clause of R108, at the boundaries of the opcodes, and a legal one. -/
theorem witness_IllegalCommandWordsFault :
    (0x00000000 : Word).extractLsb' 0 8 = 0 ∧ 8 ≤ ((0x00000008 : Word).extractLsb' 0 8).toNat ∧
    (0x00000201 : Word).extractLsb' 9 23 ≠ 0 ∧
    ((0x00000104 : Word).getLsbD 8 = true ∧ (0x00000104 : Word).extractLsb' 0 8 ≠ 3) ∧
    ((started []).host = [] ∧ (started []).hc.isSet = false) ∧
    ∀ v ∈ [(0 : Word), 8, 0x201, 0x104],
      ({ started [] with phase := .dispatch v } : State).phase = .dispatch v := by
  refine ⟨by decide, by decide, by decide, by decide, ⟨rfl, rfl⟩, fun _ _ => rfl⟩

theorem witness_CommandWordsHaveOneMeaning : decodeCommand 0x103 = .ok (.lcgNext true) := by decide

theorem witness_WriterAppendsPackedItems :
    (given []).enc.isOpen = false ∧
    (given []).outPos.toNat + (packItems [.flag false, .data 0x41] 0 0 []).length ≤
      (given []).cfg.outCap ∧
    (given []).outPos.toNat + (packItems [.flag false, .data 0x41] 0 0 []).length < 2 ^ 32 := by
  decide

/-- Seven literals, a LONG whose second flag bit opens a byte, seven literals: nine bytes wait. -/
theorem witness_PendingBytesNeverAboveNine :
    let ts := List.replicate 7 (Instr.lit 0x41) ++ [.long 1 0] ++ List.replicate 7 (.lit 0x42)
    (given []).enc.isOpen = false ∧ (given []).enc.pend = [] ∧
    (match emitItems ((ts.flatMap tokenItems).take 32) (given []) with
      | .ok _ t => t.enc.pend.length == 9
      | .error _ _ => false) = true := by decide +kernel

/-- The lengths and offsets at which the token's form changes. -/
theorem witness_MatchTokenCarriesMatch :
    matchToken 3 0 = .short 0 0 ∧ matchToken 6 0xFF = .short 3 0xFF ∧
    matchToken 6 0x100 = .long 4 0x100 ∧ matchToken 7 0xFF = .long 5 0xFF ∧
    matchToken 9 0x1FFE = .long 7 0x1FFE ∧ matchToken 10 0 = .longx4 0 0 ∧
    matchToken 25 0 = .longx4 0 15 ∧ matchToken 26 0 = .longx8 0 0 ∧
    matchToken 280 0x1FFF = .longx8 0x1FFF 0xFE := by decide

theorem witness_TokenCodeIsComplete :
    4 ≤ (TokenSource.mk ⟨0xFF, 1⟩ [0, 0, 0xC0, 0]).bytes.length := by decide

/-- A byte for both cursors, a Huffman layer of constant byte 41, and an input that is used up. -/
theorem witness_FlagByteReadsMsbFirst :
    (let s := running [0xA5] [] 1
     s.hf.on = false ∧ s.bc.rem = 0 ∧ s.hf.cursor.rem = 0 ∧ s.inPos.toNat < s.inLen.toNat ∧
     Memory.read s.inBuf s.inPos.toNat = some 0xA5) ∧
    (let s : State := { running [] [] 1 with hf := ⟨true, 0x41, ⟨0, 0⟩⟩ }
     s.bc.rem = 0 ∧ (match srcByte s with
       | .ok b _ => b == 0x41
       | .error _ _ => false) = true) ∧
    (let s := running [] [] 1
     s.inLen.toNat ≤ s.inPos.toNat ∧ s.hf.cursor.rem = 0 ∧ s.hf.on = false ∧ s.bc.rem = 0) := by
  decide +kernel

/-- The last byte of OUT. -/
theorem witness_LitAppendsItsByte :
    let s : State := { running [] [] 64 with outPos := 63 }
    s.outPos.toNat < s.size.toNat ∧ s.outPos.toNat < s.cfg.outCap := by decide +kernel

/-- The shortest copy, from the first byte of OUT, up to `size` exactly. -/
theorem witness_MatchTokensCopyBack :
    matchFields (.short 0 1) = some (1, 3) ∧ Instr.wellFormed (.short 0 1) = true ∧
    CopyReady (running [] [0x41, 0x42] 5) 1 3 := by
  unfold CopyReady HasBytes; decide +kernel

theorem witness_OffsetZeroRepeatsLastByte :
    matchFields (.longx4 0 0) = some (0, 10) ∧ Instr.wellFormed (.longx4 0 0) = true ∧
    CopyReady (running [] [0x41] 11) 0 10 := by
  unfold CopyReady HasBytes; decide +kernel

/-- One byte too far back, and one byte past `size`. -/
theorem witness_MatchTokensFaultOutsideOutput :
    matchFields (.long 1 1) = some (1, 3) ∧ Instr.wellFormed (.long 1 1) = true ∧
    (running [] [0x41] 4).phase = .lzDecode ∧ (running [] [0x41] 4).hc.isSet = false ∧
    (running [] [0x41] 4).outPos.toNat < 1 + 1 ∧
    1 + 1 ≤ (running [] [0x41, 0x42] 4).outPos.toNat ∧
    (running [] [0x41, 0x42] 4).size.toNat < (running [] [0x41, 0x42] 4).outPos.toNat + 3 := by
  decide +kernel

/-- The 27 data bytes. -/
def runData : List Byte := List.replicate 27 0x55

/-- A run that is there whole, one whose data ends a byte early, and one whose first data byte is a
Huffman walk out of the table. -/
theorem witness_RunAppendsItsDataBytes :
    (let s := running (List.replicate 26 0x55) [] 27
     s.outPos.toNat + ((0 : BitVec 13).toNat + 0x1B) ≤ s.size.toNat ∧
     s.size.toNat ≤ s.cfg.outCap ∧ s.phase = .lzDecode ∧ s.hc.isSet = false ∧ s.hf.on = false ∧
     s.inPos.toNat ≤ s.inLen.toNat ∧
     s.inLen.toNat < s.inPos.toNat + ((0 : BitVec 13).toNat + 0x1B) ∧
     HasBytes s.inBuf s.inPos.toNat (s.inLen.toNat - s.inPos.toNat)) ∧
    (let s := huffRunning [0x80] 0x01FF 27
     s.outPos.toNat + ((0 : BitVec 13).toNat + 0x1B) ≤ s.size.toNat ∧
     s.size.toNat ≤ s.cfg.outCap ∧ s.phase = .lzDecode ∧ s.hc.isSet = false ∧ 0x1FE < 2 ^ 32 ∧
     (match srcBytes ((0 : BitVec 13).toNat + 0x1B) s with
       | .ok _ _ => false
       | .error e _ => e == .raise .huffmanIndexRange 0x1FE) = true) ∧
    let s := running runData [] 27
    s.outPos.toNat + ((0 : BitVec 13).toNat + 0x1B) ≤ s.size.toNat ∧ s.size.toNat ≤ s.cfg.outCap ∧
    s.hf.on = false ∧ s.inPos.toNat + ((0 : BitVec 13).toNat + 0x1B) ≤ s.inLen.toNat ∧
    HasBytes s.inBuf s.inPos.toNat ((0 : BitVec 13).toNat + 0x1B) ∧
    (match srcBytes ((0 : BitVec 13).toNat + 0x1B) s with
      | .ok bs _ => bs == runData
      | .error _ _ => false) = true := by
  unfold HasBytes; decide +kernel

theorem witness_RunOverrunFaultsBeforeReading :
    let s := running [] [] 26
    s.phase = .lzDecode ∧ s.hc.isSet = false ∧
    s.size.toNat < s.outPos.toNat + ((0 : BitVec 13).toNat + 0x1B) := by decide +kernel

/-- A command, a LIT, a head that a Huffman walk out of the table cuts short, a wait and a move. -/
theorem witness_StepRunsTheFetchedInstruction :
    (let s := huffRunning [0x80] 0x01FF 1
     s.host = [] ∧ s.phase = .lzDecode ∧ s.outPos.toNat < s.size.toNat ∧ s.hc.isSet = false ∧
     0x1FE < 2 ^ 32 ∧
     (match decodeTree lzBit srcByte { s with tokOut := s.outPos } with
       | .ok _ _ => false
       | .error e _ => e == .raise .huffmanIndexRange 0x1FE) = true) ∧
    ({ started [] with phase := .dispatch 7 } : State).host = [] ∧
    decodeCommand 7 = .ok .exfEncrypt ∧
    (let s := running [0x00, 0x41] [] 1
     s.host = [] ∧ s.phase = .lzDecode ∧ s.outPos.toNat < s.size.toNat ∧
     (match decodeTree lzBit srcByte { s with tokOut := s.outPos } with
       | .ok i _ => i == .lit 0x41
       | .error _ _ => false) = true) ∧
    ({ started [] with host := [.wait] } : State).host = .wait :: [] ∧
    ({ given [] with host := [.move (.writeIn 0 0x41), .wait] } : State).host =
      .move (.writeIn 0 0x41) :: [.wait] := by decide +kernel

/-- A LIT that is there; a long token that ends after its first byte, and a stream with no flag byte
left at all. -/
theorem witness_StepFetchesTokenFromInput :
    (∀ bs ∈ [[0xC0, 0x20], []],
      let s := running bs [] 1
      s.host = [] ∧ s.phase = .lzDecode ∧ s.outPos.toNat < s.size.toNat ∧ s.hf.on = false ∧
      s.hc.isSet = false ∧ s.inPos.toNat ≤ s.inLen.toNat ∧
      HasBytes s.inBuf s.inPos.toNat (s.inLen.toNat - s.inPos.toNat) ∧
      (match decodeToken s.tokenSource with
        | .ok _ => false
        | .error e => e == .streamEnded) = true) ∧
    let s := running [0x00, 0x41] [] 1
    s.host = [] ∧ s.phase = .lzDecode ∧ s.outPos.toNat < s.size.toNat ∧ s.hf.on = false ∧
    s.inPos.toNat ≤ s.inLen.toNat ∧
    HasBytes s.inBuf s.inPos.toNat (s.inLen.toNat - s.inPos.toNat) ∧
    (match decodeToken s.tokenSource with
      | .ok (i, src) => i == .lit 0x41 && src.bytes == []
      | .error _ => false) = true := by
  unfold HasBytes; decide +kernel

theorem witness_DecodeEndsWithinSizeTokens :
    let s := running [0x00, 0x41] [0x40] 2
    s.host = [] ∧ s.phase = .lzDecode ∧ HasBytes s.inBuf 0 s.inLen.toNat ∧
    HasBytes s.outBuf 0 s.outPos.toNat ∧ s.size.toNat ≤ s.cfg.outCap ∧
    (s.hf.on = true → s.ht.length = s.hf.len.toNat) := by
  unfold HasBytes; decide +kernel

theorem witness_DecodeOnlyAppends :
    (running [0x00, 0x41] [0x40] 2).phase = .lzDecode ∧
    nextIs (fun t => decide (t.phase = .lzDecode)) (engineStep (running [0x00, 0x41] [0x40] 2)) =
      true := by decide +kernel

theorem witness_LeafRootDecodesConstant :
    ({ given [] with hf := ⟨true, 0xFF, ⟨0, 0⟩⟩ } : State).hf.len.toNat < 0x100 := by decide

/-- A state of the walk: two entries of the four that `table_len` claims for the index check. -/
def walking : State :=
  { given [0x80] with hf := ⟨true, 2, ⟨0, 0⟩⟩, ht := [0x41, 0x42] }

/-- The layer on and off; a leaf below 0x100, a negative leaf, and an internal node whose children are 0
and 1, lie just outside the table, or were not loaded; a node with no bit left. -/
theorem witness_HuffWalkTakesOneBitPerNode :
    ({ walking with hf := { walking.hf with on := true } } : State).hf.on = true ∧
    (running [] [] 1).hf.on = false ∧
    (match huffBit (running [] [] 1) with
      | .ok _ _ => false
      | .error e _ => e == .raise .truncated 0) = true ∧
    (match huffBit { walking with ht := [] } with
      | .ok b s' => b && s'.hf.len == 2 && s'.ht[1]? == none
      | .error _ _ => false) = true ∧
    (0xFF : Int) < 0x100 ∧ (-1 : Int) < 0x100 ∧ (0x100 : Int) ≤ 0x100 ∧ (0x101 : Int) ≥ 0x100 ∧
    (match huffBit walking with
      | .ok b s' => b && s'.hf.len == 2 && s'.ht[1]? == some 0x42
      | .error _ _ => false) = true ∧
    (((1 : Nat) : Int) = 0x100 * 2 - 0x200 + ((true.toNat : Nat) : Int) ∧ 1 < 2) ∧
    (((3 : Nat) : Int) = 0x101 * 2 - 0x200 + ((true.toNat : Nat) : Int) ∧ 2 ≤ 3) := by
  decide +kernel

theorem started_of_dispatch {s : State} {v : Word} (h1 : s.inPos = 0) (h2 : s.outPos = 0)
    (h3 : s.hc.isSet = false) (h4 : s.enc.isOpen = false) (h5 : s.phase = .dispatch v) :
    Started s := ⟨h1, h2, h3, h4, v, h5⟩

theorem started_started (bs : List Byte) : Started (started bs) :=
  started_of_dispatch rfl rfl rfl rfl rfl

/-- A type-4 file with one table entry, a type-2 file, and a table cut after one entry of two. -/
theorem witness_JpkDecodeLoadsHuffmanTable :
    Started (started (jpk 4 1 [1, 0, 0x41, 0])) ∧
    JpkReady (started (jpk 4 1 [1, 0, 0x41, 0])) 4 16 1 ∧
    HasBytes (started (jpk 4 1 [1, 0, 0x41, 0])).inBuf 16 4 ∧
    JpkReady (started (jpk 2 1 [1, 0, 0x41, 0])) 2 16 1 ∧ cfg.type2Mode = .asType4 ∧
    JpkReady (started (jpk 4 1 [2, 0, 0x41, 0])) 4 16 1 ∧
    HasBytes (started (jpk 4 1 [2, 0, 0x41, 0])).inBuf 16 4 ∧
    (started (jpk 4 1 [2, 0, 0x41, 0])).inLen.toNat < 16 + 2 + 2 * 2 ∧
    le16At (started (jpk 4 1 [2, 0, 0x41, 0])).inBuf 16 = 2 := by
  refine ⟨started_started _, ?_⟩
  unfold JpkReady HasBytes; decide +kernel

theorem witness_JpkDecodeStartsLzDecode :
    Started (started (jpk 3 6 [])) ∧ JpkReady (started (jpk 3 6 [])) 3 16 6 := by
  refine ⟨started_started _, ?_⟩
  unfold JpkReady HasBytes; decide +kernel

/-- A body of exactly `size` bytes, and one that is a byte short. -/
theorem witness_JpkDecodeCopiesRawBody :
    Started (started (jpk 0 2 [0x61, 0x62])) ∧ JpkReady (started (jpk 0 2 [0x61, 0x62])) 0 16 2 ∧
    HasBytes (started (jpk 0 2 [0x61, 0x62])).inBuf 16 2 ∧
    JpkReady (started (jpk 0 2 [0x61])) 0 16 2 ∧
    HasBytes (started (jpk 0 2 [0x61])).inBuf 16 1 ∧
    (started (jpk 0 2 [0x61])).inLen.toNat < 16 + 2 := by
  refine ⟨started_started _, ?_⟩
  unfold JpkReady HasBytes; decide +kernel

/-- Each check's failing case, at a boundary: lengths 65 and 15, a wrong magic, type 1, type 2
refused, offsets 15 and 17, size 65. -/
theorem witness_JpkDecodeStartChecks :
    (∀ bs, Started (started bs)) ∧
    (let s : State := { started [] with inLen := 65 }
     Started s ∧ s.cfg.inCap < s.inLen.toNat) ∧
    (started (List.replicate 15 0)).inLen.toNat < 16 ∧
    HasBytes (started (List.replicate 16 0)).inBuf 0 16 ∧
    le32At (started (List.replicate 16 0)).inBuf 0 ≠ 0x1A524B4A ∧
    le32At (started (jpk 1 0 [])).inBuf 0 = 0x1A524B4A ∧
    le16At (started (jpk 1 0 [])).inBuf 6 ∉ [0, 2, 3, 4] ∧
    le16At (started (jpk 2 0 [])).inBuf 6 = 2 ∧
    (Started { started (jpk 2 0 []) with cfg := { cfg with type2Mode := .refuse } }) ∧
    le32At (started ((jpk 3 0 []).set 8 15)).inBuf 8 = 15 ∧
    le32At (started ((jpk 3 0 []).set 8 17)).inBuf 8 = 17 ∧
    (started ((jpk 3 0 []).set 8 17)).inLen.toNat < 17 ∧
    (started (jpk 3 65 [])).cfg.outCap < (le32At (started (jpk 3 65 [])).inBuf 12).toNat := by
  refine ⟨started_started, ⟨started_of_dispatch rfl rfl rfl rfl rfl, by decide +kernel⟩, ?_⟩
  refine ⟨by decide +kernel, by unfold HasBytes; decide +kernel, by decide +kernel,
    by decide +kernel, by decide +kernel, by decide +kernel,
    started_of_dispatch rfl rfl rfl rfl rfl, by decide +kernel⟩

theorem witness_JpkEncodeWritesRawFile :
    let s := started [0x61, 0x62, 0x63]
    Started s ∧ s.paramType = 0 ∧ s.inLen.toNat ≤ s.cfg.inCap ∧
    16 + s.inLen.toNat ≤ s.cfg.outCap ∧ 16 + s.inLen.toNat < 2 ^ 32 ∧
    HasBytes s.inBuf 0 s.inLen.toNat := by
  refine ⟨started_started _, ?_⟩
  unfold HasBytes; decide +kernel

/-- Type 3, the largest level, nine literals and thus a second flag byte. -/
def packing : State :=
  { started [0x41, 0x42, 0x43, 0x44, 0x45, 0x46, 0x47, 0x48, 0x49] with
    paramType := 3, paramLevel := 280 }

/-- Type 3 on four equal bytes: a LIT and a SHORT. -/
def repeating : State :=
  { started [0x41, 0x41, 0x41, 0x41] with paramType := 3, paramLevel := 280 }

/-- An operation that answered `a` and left the state alone, checked by evaluation. -/
theorem ok_of_check {α : Type} [DecidableEq α] {m : EStateM.Result Stop State α} {a : α}
    {s : State}
    (h : (match m with
      | .ok b t => decide (b = a ∧ t = s)
      | .error _ _ => false) = true) : m = .ok a s := by
  cases m <;> simp_all

theorem greedy_repeating : GreedyTokens repeating 0 [.lit 0x41, .short 0 0] :=
  ⟨by decide, 0, 0, ok_of_check (by decide +kernel), .inl ⟨by decide, by decide +kernel,
    by decide, 3, 0, ok_of_check (by decide +kernel), .inr ⟨by decide, by decide, by decide,
      by unfold GreedyTokens; decide +kernel⟩⟩⟩

/-- `repeating` where OUT has room for the file of 19 bytes, and where it has none. -/
theorem witness_JpkEncodeLzCompletes :
    GreedyTokens repeating 0 [.lit 0x41, .short 0 0] ∧
    (packTokens [.lit 0x41, .short 0 0]).length = 3 ∧
    ∀ s ∈ [repeating, { repeating with cfg := { cfg with outExtra := 2 } }],
      Started s ∧ s.paramType = 3 ∧ s.paramLevel.toNat ≤ s.cfg.lzMaxLen ∧
      s.inLen.toNat ≤ s.cfg.inCap ∧ HasBytes s.inBuf 0 s.inLen.toNat ∧
      ((16 + 3 ≤ s.cfg.outCap ∧ 16 + 3 < 2 ^ 32) ∨
        (s.cfg.outCap < 16 + 3 ∧ s.cfg.outCap + 1 < 2 ^ 32)) := by
  refine ⟨greedy_repeating, by decide, fun s hs => ?_⟩
  simp only [List.mem_cons, List.not_mem_nil, or_false] at hs
  rcases hs with rfl | rfl
  all_goals
    refine ⟨started_of_dispatch rfl rfl rfl rfl rfl, ?_⟩
    unfold HasBytes; decide +kernel

theorem witness_JpkEncodeLzBodyStandsForPlaintext :
    Started packing ∧ packing.paramType = 3 ∧ packing.cfg.lzWindow ≤ 0x2000 ∧
    packing.cfg.lzMaxLen ≤ 280 ∧
    nextIs (fun t => statusDone t.status) (exec .jpkEncode packing) = true :=
  ⟨started_of_dispatch rfl rfl rfl rfl rfl, rfl, by decide, by decide, by decide +kernel⟩

/-- The file that `repeating` is packed into is the input of a decode about to start. -/
theorem witness_JpkDecodeInvertsEncode :
    let u := started (jpk 3 4 [0x40, 0x41, 0])
    JpkFile repeating (jpk 3 4 [0x40, 0x41, 0]) ∧ (jpk 3 4 [0x40, 0x41, 0]).length < 2 ^ 32 ∧
    repeating.cfg.lzWindow ≤ 0x2000 ∧ repeating.cfg.lzMaxLen ≤ 280 ∧
    Started repeating ∧ Started u ∧ u.phase = .dispatch 1 ∧ u.host = [] ∧ u.bc = ⟨0, 0⟩ ∧
    u.cfg = repeating.cfg ∧ u.inLen.toNat ≤ u.cfg.inCap ∧
    repeating.inLen.toNat ≤ u.cfg.outCap ∧
    nextIs (fun t => statusDone t.status && decide (t.outLen = u.inLen) &&
      decide (t.outBuf = u.inBuf)) (exec .jpkEncode repeating) = true :=
  ⟨.inr ⟨rfl, _, greedy_repeating, by decide +kernel⟩, by decide, by decide, by decide,
    started_of_dispatch rfl rfl rfl rfl rfl, started_started _, rfl, rfl, rfl, rfl,
    by decide +kernel, by decide +kernel, by decide +kernel⟩

/-- Each check's failing case: a length of 65, types 2, 4 and 1, level 281, 49 bytes of raw
input. -/
theorem witness_JpkEncodeStartChecks :
    (∀ (n : Word) (ty lv : Half),
      Started { started [] with inLen := n, paramType := ty, paramLevel := lv }) ∧
    cfg.inCap < (65 : Word).toNat ∧ (49 : Word).toNat ≤ cfg.inCap ∧
    cfg.outCap < 16 + (49 : Word).toNat ∧ 16 + (49 : Word).toNat < 2 ^ 32 ∧
    (1 : Half) ∉ [(0 : Half), 2, 3, 4] ∧ cfg.lzMaxLen < (281 : Half).toNat :=
  ⟨fun _ _ _ => started_of_dispatch rfl rfl rfl rfl rfl, by decide +kernel⟩

/-- Candidates at distances 1 and 2 match equally far; at level 3 a match of 3 is found. -/
theorem witness_FindMatchIsGreedy :
    let s : State := { started (List.replicate 5 0x41) with paramLevel := 3 }
    2 < s.inLen.toNat ∧ HasBytes s.inBuf 0 s.inLen.toNat ∧
    (match findMatch 2 s with
      | .ok r _ => r == (3, 1)
      | .error _ _ => false) = true := by
  unfold HasBytes; decide +kernel

/-- The last index of the table, and the first outside it. -/
theorem witness_LcgNextStepsOrFaults :
    (∀ i, Started { started [] with paramIndex := i }) ∧
    cfg.ecdLcgTable.entries[(1 : Half).toNat]? = some ⟨0x41C64E6D, 0x00003039⟩ ∧
    cfg.exfLcgTable.entries[(1 : Half).toNat]? = some ⟨0x41C64E6D, 0x00003039⟩ ∧
    cfg.ecdLcgTable.entries.length ≤ (2 : Half).toNat ∧
    cfg.exfLcgTable.entries.length ≤ (2 : Half).toNat :=
  ⟨fun _ => started_of_dispatch rfl rfl rfl rfl rfl, by decide +kernel⟩

theorem witness_EcdByteDecryptInvertsEncrypt :
    (EcdState.mk 0x6C 1 2 3 4).chain = (EcdState.mk 0x6C 0 0 0 0).chain := rfl

/-- The fixture, and the fixture two bytes short. -/
theorem witness_EcdDecryptWritesPlaintext :
    Started (started fixture) ∧
    CipherReady (started fixture) 0x1A646365 cfg.ecdLcgTable ⟨0x0019660D, 0x3C6EF35F⟩ ∧
    (h32At cfg.hdrOrder (started fixture).inBuf 8).toNat = 4 ∧ 4 ≤ cfg.outCap ∧
    16 + 4 ≤ (started fixture).inLen.toNat ∧ HasBytes (started fixture).inBuf 16 4 ∧
    CipherReady (started (fixture.take 18)) 0x1A646365 cfg.ecdLcgTable ⟨0x0019660D, 0x3C6EF35F⟩ ∧
    (h32At cfg.hdrOrder (started (fixture.take 18)).inBuf 8).toNat = 4 ∧
    (started (fixture.take 18)).inLen.toNat < 16 + 4 ∧
    HasBytes (started (fixture.take 18)).inBuf 16 2 := by
  refine ⟨started_started _, ?_⟩
  unfold CipherReady HasBytes; decide +kernel

/-- The state of spec/95 P5 as ECD_ENCRYPT starts. -/
def encrypting : State := { started [0x48, 0x69, 0x21] with metaBuf := [(4, 0), (5, 1)] }

theorem witness_EcdEncryptWritesFile :
    Started encrypting ∧ encrypting.inLen.toNat ≤ encrypting.cfg.inCap ∧
    HasBytes encrypting.metaBuf 4 2 ∧
    encrypting.cfg.ecdLcgTable.entries[
      (h16At encrypting.cfg.hdrOrder encrypting.metaBuf 4).toNat]? =
        some ⟨0x41C64E6D, 0x00003039⟩ ∧
    16 + encrypting.inLen.toNat ≤ encrypting.cfg.outCap ∧
    16 + encrypting.inLen.toNat < 2 ^ 32 ∧
    HasBytes encrypting.inBuf 0 encrypting.inLen.toNat := by
  refine ⟨started_of_dispatch rfl rfl rfl rfl rfl, ?_⟩
  unfold HasBytes; decide +kernel

/-- The file that spec/95 P5 writes is the input that its second command decrypts. -/
theorem witness_EcdDecryptInvertsEncrypt :
    let file : List Byte := [0x1A, 0x64, 0x63, 0x65, 0, 1, 0, 0, 0, 0, 0, 3,
      0x79, 0x9E, 0xC5, 0xDA, 0x6D, 0x2D, 0x69]
    16 + encrypting.inLen.toNat < 2 ^ 32 ∧ Started encrypting ∧ Started (started file) ∧ (started file).cfg = encrypting.cfg ∧
    (started file).inLen.toNat ≤ cfg.inCap ∧
    nextIs (fun t => statusDone t.status && decide (t.outLen = (started file).inLen) &&
      decide (t.outBuf = (started file).inBuf)) (exec .ecdEncrypt encrypting) = true :=
  ⟨by decide, started_of_dispatch rfl rfl rfl rfl rfl, started_started _, rfl, by decide +kernel⟩

/-- Lengths 65 and 15, a wrong magic, index 2, and a length outside OUT: a filesize of 65 for ECD;
for EXF an OUT smaller than IN. -/
theorem witness_CipherDecryptStartChecks :
    (∀ bs, Started (started bs)) ∧ (∀ n, Started { started [] with inLen := n }) ∧
    cfg.inCap < (65 : Word).toNat ∧ (started (List.replicate 15 0)).inLen.toNat < 16 ∧
    HasBytes (started (List.replicate 16 0)).inBuf 0 16 ∧
    h32At .big (started (List.replicate 16 0)).inBuf 0 ≠ 0x1A646365 ∧
    h32At .big (started (fixture.set 5 2)).inBuf 0 = 0x1A646365 ∧
    cfg.ecdLcgTable.entries.length ≤ (h16At .big (started (fixture.set 5 2)).inBuf 4).toNat ∧
    cfg.outCap < (h32At .big (started (fixture.set 11 65)).inBuf 8).toNat ∧
    h32At .big (started (exfFile 1)).inBuf 0 = 0x1A667865 ∧
    ({ cfg with outExtra := 0 } : Config).outCap < (started (exfFile 1)).inLen.toNat := by
  refine ⟨started_started, fun _ => started_of_dispatch rfl rfl rfl rfl rfl, ?_⟩
  unfold HasBytes; decide +kernel

/-- A length of 65, index 2, and 49 bytes with an OUT of 64. -/
theorem witness_EcdEncryptStartChecks :
    (∀ (n : Word) (m : Memory), Started { started [] with inLen := n, metaBuf := m }) ∧
    cfg.inCap < (65 : Word).toNat ∧ HasBytes [(4, 0), (5, 2)] 4 2 ∧
    cfg.ecdLcgTable.entries.length ≤ (h16At cfg.hdrOrder [(4, 0), (5, 2)] 4).toNat ∧
    (h16At cfg.hdrOrder [(4, 0), (5, 1)] 4).toNat < cfg.ecdLcgTable.entries.length ∧
    (49 : Word).toNat ≤ cfg.inCap ∧ cfg.outCap < 16 + (49 : Word).toNat ∧
    16 + (49 : Word).toNat < 2 ^ 32 := by
  refine ⟨fun _ _ => started_of_dispatch rfl rfl rfl rfl rfl, ?_⟩
  unfold HasBytes; decide +kernel

/-- A payload of 17 bytes, of which one lies below the count. -/
theorem witness_ExfDecryptWritesFile :
    Started (started (exfFile 17)) ∧
    CipherReady (started (exfFile 17)) 0x1A667865 cfg.exfLcgTable ⟨0x0019660D, 0x3C6EF35F⟩ ∧
    (started (exfFile 17)).inLen.toNat ≤ cfg.outCap ∧
    HasBytes (started (exfFile 17)).inBuf 0 (started (exfFile 17)).inLen.toNat := by
  refine ⟨started_started _, ?_⟩
  unfold CipherReady HasBytes; decide +kernel

theorem witness_ExfEncryptAlwaysFaults : Started (started []) := started_started _

theorem witness_CmdWriteStartsCommand :
    let s : State := { given [] with host := [.move (.writeReg 0 7)] }
    s.host = .move (.writeReg 0 7) :: [] ∧ statusBusy s.status = false := by decide +kernel

theorem witness_FinishedDecodePublishes :
    let s := running [] [0x41] 1
    s.host = [] ∧ s.phase = .lzDecode ∧ s.size.toNat ≤ s.outPos.toNat ∧ s.hc.isSet = false := by
  decide +kernel

theorem witness_FaultHasItsEffects : 2 ^ 32 - 1 < 2 ^ 32 := by decide

/-- A command whose start check fails, a decode whose next token is cut off, and an illegal word. -/
theorem witness_FaultsPublishNoOutput :
    (started []).phase ≠ .idle ∧ (running [0xC0] [0x41] 2).phase ≠ .idle ∧
    nextIs (fun t => decide (t.phase = .idle) && statusErr t.status)
      (exec .jpkDecode (started [])) = true ∧
    nextIs (fun t => decide (t.phase = .idle) && statusErr t.status)
      (engineStep (running [0xC0] [0x41] 2)) = true ∧
    nextIs (fun t => decide (t.phase = .idle) && statusErr t.status)
      (engineStep { started [] with phase := .dispatch 0 }) = true := by decide +kernel

/-- With a conflict latched: a command that would succeed, one that would fault, an illegal word, a
decode that has made its output, and one whose next token is cut off. -/
theorem witness_HostConflictOverridesEveryOutcome :
    let c : ConflictLatch := ⟨true, 0x80000003⟩
    let s : State := { started (jpk 0 2 [0x61, 0x62]) with hc := c }
    let u : State := { running [] [0x41] 1 with hc := c }
    s.phase ≠ .idle ∧ s.hc.isSet = true ∧
    nextIs (fun t => decide (t.phase = .idle)) (exec .jpkDecode s) = true ∧
    nextIs (fun t => decide (t.phase = .idle)) (exec .exfEncrypt s) = true ∧
    nextIs (fun t => decide (t.phase = .idle)) (engineStep s) = true ∧
    nextIs (fun t => decide (t.phase = .idle)) (engineStep { s with phase := .dispatch 0 }) = true ∧
    u.phase = .lzDecode ∧ u.hc.isSet = true ∧ u.size.toNat ≤ u.outPos.toNat ∧
    nextIs (fun t => decide (t.phase = .idle)) (engineStep { u with size := 2 }) = true := by
  decide +kernel

/-- A write of IN_LEN, a read of OUT at the largest offset that fits, a write of OUT, and a read of
CMD. -/
theorem witness_BusyAccessOnlyLatchesConflict :
    statusBusy (started []).status = true ∧
    (HostMove.writeReg 2 7 ≠ .readReg 1 ∧ accessOf (.writeReg 2 7) = some (0, true, 8)) ∧
    (HostMove.readOut 0x1FFFFFFF ≠ .readReg 1 ∧
      accessOf (.readOut 0x1FFFFFFF) = some (2, false, 0x1FFFFFFF) ∧
      (0x1FFFFFFF : Word).toNat < 2 ^ 29) ∧
    (HostMove.writeOut 0 0x55 ≠ .readReg 1 ∧ accessOf (.writeOut 0 0x55) = some (2, true, 0)) ∧
    (HostMove.readReg 0 ≠ .readReg 1 ∧ accessOf (.readReg 0) = some (0, false, 0)) := by
  decide +kernel

theorem witness_ResetRestoresResetState :
    ({ running [] [0x41] 2 with host := [.move .reset, .wait] } : State).host =
      .move .reset :: [.wait] := rfl

/-- The first and the last register but CMD, the last byte of each buffer, the first address outside
it. -/
theorem witness_RegisterWindowReadsAndWrites :
    statusBusy (given []).status = false ∧ (1 : BitVec 4) ≠ 0 ∧ (15 : BitVec 4) ≠ 0 ∧
    13 ≤ (13 : BitVec 4).toNat ∧ (63 : Word).toNat < (given []).cfg.inCap ∧
    (15 : Word).toNat < 16 ∧ (given []).cfg.inCap ≤ (64 : Word).toNat ∧ 16 ≤ (16 : Word).toNat ∧
    (let s : State := { given [0x61] with
      outBuf := [(0, 0x41), (1, 0x42)], outLen := 2, metaBuf := [(15, 0x43)] }
     statusBusy s.status = false ∧ (1 : Word).toNat < s.outLen.toNat ∧
     Memory.read s.outBuf (1 : Word).toNat = some 0x42 ∧
     (0 : Word).toNat < s.cfg.inCap ∧ Memory.read s.inBuf (0 : Word).toNat = some 0x61 ∧
     Memory.read s.metaBuf (15 : Word).toNat = some 0x43) := by decide +kernel

/-- A host read of OUT at OUT_LEN and of the last bytes of IN and META, and a byte of IN. The parts that
the statement names have the three witnesses that follow. -/
theorem witness_ReadsWithoutValueAreRefused :
    (let s := given []
     statusBusy s.status = false ∧ s.outLen.toNat ≤ (0 : Word).toNat ∧
     ((63 : Word).toNat < s.cfg.inCap ∧ Memory.read s.inBuf (63 : Word).toNat = none) ∧
     (15 : Word).toNat < 16 ∧ Memory.read s.metaBuf (15 : Word).toNat = none) ∧
    Memory.read ((started []).buffer .inBuf) 0 = none := by decide +kernel

/-- The first and the last byte of each header, and each of the two index bytes of META. -/
theorem witness_HeaderReadsRefused :
    (∀ k ∈ [0, 15],
      (let s := lacking k (started (jpk 3 1 [0, 0x41]))
       s.inLen.toNat ≤ s.cfg.inCap ∧ 16 ≤ s.inLen.toNat ∧
       FirstWithoutValue s.inBuf [0, 1, 2, 3, 6, 7, 8, 9, 10, 11, 12, 13, 14, 15] k ∧
       (4 ≤ k → le32At s.inBuf 0 = 0x1A524B4A)) ∧
      (let s := lacking k (started fixture)
       s.inLen.toNat ≤ s.cfg.inCap ∧ 16 ≤ s.inLen.toNat ∧
       FirstWithoutValue s.inBuf [0, 1, 2, 3, 4, 5, 8, 9, 10, 11, 12, 13, 14, 15] k ∧
       (4 ≤ k → h32At s.cfg.hdrOrder s.inBuf 0 = 0x1A646365) ∧
       (6 ≤ k → (h16At s.cfg.hdrOrder s.inBuf 4).toNat < s.cfg.ecdLcgTable.entries.length) ∧
       (12 ≤ k → (h32At s.cfg.hdrOrder s.inBuf 8).toNat ≤ s.cfg.outCap)) ∧
      (let s := lacking k (started (exfFile 1))
       s.inLen.toNat ≤ s.cfg.inCap ∧ 16 ≤ s.inLen.toNat ∧
       FirstWithoutValue s.inBuf [0, 1, 2, 3, 4, 5, 12, 13, 14, 15] k ∧
       (4 ≤ k → h32At s.cfg.hdrOrder s.inBuf 0 = 0x1A667865) ∧
       (6 ≤ k → (h16At s.cfg.hdrOrder s.inBuf 4).toNat < s.cfg.exfLcgTable.entries.length ∧
         s.inLen.toNat ≤ s.cfg.outCap))) ∧
    (started []).inLen.toNat ≤ cfg.inCap ∧ FirstWithoutValue (started []).metaBuf [4, 5] 4 ∧
    FirstWithoutValue ({ started [] with metaBuf := [(4, 0)] } : State).metaBuf [4, 5] 5 := by
  unfold FirstWithoutValue; decide +kernel

/-- The last byte of a raw body, of a table length, of a table and of an ECD payload; a header byte and a
payload byte of EXF; the last plaintext byte, and the first of a type-3 JPK_ENCODE. -/
theorem witness_BodyReadsRefused :
    (∀ s ∈ [lacking 17 (started (jpk 0 2 [0x41, 0x42])), lacking 17 (started (jpk 4 1 [1, 0, 0, 0])),
        lacking 19 (started (jpk 2 1 [1, 0, 0, 0])), lacking 19 (started fixture),
        lacking 6 (started (exfFile 1)), lacking 16 (started (exfFile 1)),
        lacking 1 (started [0x41, 0x42]), lacking 0 (started [0x41])], Started s) ∧
    (let s := lacking 17 (started (jpk 0 2 [0x41, 0x42]))
     JpkReady s 0 16 2 ∧ 16 + 1 < s.inLen.toNat ∧ HasBytes s.inBuf 16 1 ∧
     Memory.read s.inBuf (16 + 1) = none ∧ 1 < (2 : Word).toNat) ∧
    (let s := lacking 17 (started (jpk 4 1 [1, 0, 0, 0]))
     JpkReady s 4 16 1 ∧ 16 + 1 < s.inLen.toNat ∧ HasBytes s.inBuf 16 1 ∧
     Memory.read s.inBuf (16 + 1) = none) ∧
    (let s := lacking 19 (started (jpk 2 1 [1, 0, 0, 0]))
     JpkReady s 2 16 1 ∧ s.cfg.type2Mode = .asType4 ∧ 16 + 3 < s.inLen.toNat ∧
     HasBytes s.inBuf 16 3 ∧ Memory.read s.inBuf (16 + 3) = none ∧
     3 < 2 + 2 * (le16At s.inBuf 16).toNat) ∧
    (let s := lacking 19 (started fixture)
     CipherReady s 0x1A646365 s.cfg.ecdLcgTable ⟨0x0019660D, 0x3C6EF35F⟩ ∧
     (h32At s.cfg.hdrOrder s.inBuf 8).toNat ≤ s.cfg.outCap ∧
     3 < (h32At s.cfg.hdrOrder s.inBuf 8).toNat ∧ 16 + 3 < s.inLen.toNat ∧
     HasBytes s.inBuf 16 3 ∧ Memory.read s.inBuf (16 + 3) = none) ∧
    (∀ k ∈ [6, 16],
      let s := lacking k (started (exfFile 1))
      s.inLen.toNat ≤ s.cfg.inCap ∧ 16 ≤ s.inLen.toNat ∧
      h32At s.cfg.hdrOrder s.inBuf 0 = 0x1A667865 ∧
      (h16At s.cfg.hdrOrder s.inBuf 4).toNat < s.cfg.exfLcgTable.entries.length ∧
      s.inLen.toNat ≤ s.cfg.outCap ∧ HasBytes s.inBuf 12 4 ∧ 6 ≤ k ∧ k < s.inLen.toNat ∧
      HasBytes s.inBuf 0 k ∧ Memory.read s.inBuf k = none) ∧
    (let s : State := { lacking 1 (started [0x41, 0x42]) with metaBuf := [(4, 0), (5, 0)] }
     Started s ∧ s.inLen.toNat ≤ s.cfg.inCap ∧ 1 < s.inLen.toNat ∧ HasBytes s.inBuf 0 1 ∧
     Memory.read s.inBuf 1 = none ∧ s.paramType = 0 ∧ 16 + s.inLen.toNat ≤ s.cfg.outCap ∧
     HasBytes s.metaBuf 4 2 ∧
     (h16At s.cfg.hdrOrder s.metaBuf 4).toNat < s.cfg.ecdLcgTable.entries.length) ∧
    (let s : State := { lacking 0 (started [0x41]) with paramType := 3, paramLevel := 280 }
     Started s ∧ s.inLen.toNat ≤ s.cfg.inCap ∧ 0 < s.inLen.toNat ∧
     Memory.read s.inBuf 0 = none ∧ s.paramType = 3 ∧ s.paramLevel.toNat ≤ s.cfg.lzMaxLen) := by
  have h : ∀ s : State, s.inPos = 0 → s.outPos = 0 → s.hc.isSet = false → s.enc.isOpen = false →
      s.phase = .dispatch 1 → Started s := fun _ h1 h2 h3 h4 h5 => started_of_dispatch h1 h2 h3 h4 h5
  refine ⟨?_, ?_, ?_, ?_, ?_, ?_, ⟨h _ rfl rfl rfl rfl rfl, ?_⟩, h _ rfl rfl rfl rfl rfl, ?_⟩
  · intro s hs
    simp only [List.mem_cons, List.not_mem_nil, or_false] at hs
    rcases hs with rfl | rfl | rfl | rfl | rfl | rfl | rfl | rfl <;> exact h _ rfl rfl rfl rfl rfl
  all_goals
    try unfold JpkReady
    try unfold CipherReady
    try unfold HasBytes
    decide +kernel

/-- A head whose second byte is missing, and one whose flag byte is; the first and the last data byte of
the shortest RUN; a back-reference to a byte of OUT without value. -/
theorem witness_TokenReadsRefused :
    (∀ n ∈ [0, 1],
      let s := lacking n (running [0xC0, 0x20, 0x00] [] 1)
      s.host = [] ∧ s.phase = .lzDecode ∧ s.outPos.toNat < s.size.toNat ∧ s.hf.on = false ∧
      s.inPos.toNat + n < s.inLen.toNat ∧ HasBytes s.inBuf s.inPos.toNat n ∧
      Memory.read s.inBuf (s.inPos.toNat + n) = none ∧
      (match decodeToken ⟨s.bc, bytesAt s.inBuf s.inPos.toNat n⟩ with
        | .ok _ => false
        | .error e => e == .streamEnded) = true) ∧
    (∀ k ∈ [0, 26],
      let s := lacking k (running (List.replicate 27 0x41) [] 27)
      s.outPos.toNat + ((0 : BitVec 13).toNat + 0x1B) ≤ s.size.toNat ∧ s.hf.on = false ∧
      k < (0 : BitVec 13).toNat + 0x1B ∧ s.outPos.toNat + k ≤ s.cfg.outCap ∧
      s.inPos.toNat + k < s.inLen.toNat ∧ HasBytes s.inBuf s.inPos.toNat k ∧
      Memory.read s.inBuf (s.inPos.toNat + k) = none) ∧
    (let s : State := { running [] [0x41] 4 with outBuf := [] }
     matchFields (.short 0 0) = some (0, 3) ∧ Instr.wellFormed (.short 0 0) = true ∧
     0 + 1 ≤ s.outPos.toNat ∧ s.outPos.toNat + 3 ≤ s.size.toNat ∧
     Memory.read s.outBuf (s.outPos.toNat - (0 + 1)) = none) := by
  unfold HasBytes; decide +kernel

/-- A step of the engine, an instruction that is not LCG_NEXT, and a step of the machine. -/
theorem witness_EngineNeverWritesItsInputs :
    nextIs (fun _ => true) (engineStep (running [0x00, 0x41] [] 1)) = true ∧
    (∀ b, Instr.lit 0x41 ≠ .lcgNext b) ∧
    nextIs (fun _ => true) (exec (.lit 0x41) (running [] [] 1)) = true ∧
    nextIs (fun _ => true) (step (running [0x00, 0x41] [] 1)) = true :=
  ⟨by decide +kernel, (by intro b h; cases h), by decide +kernel, by decide +kernel⟩

/-- A running decode with a byte of output meets the four invariants, and it has a next step. -/
theorem witness_StepKeepsInvariants :
    let s := running [0x00, 0x41] [0x40] 2
    s.BuffersWf ∧ s.BuffersInRange ∧ s.StatusOk ∧ s.OutputOk ∧
      nextIs (fun _ => true) (step s) = true := by
  unfold State.BuffersWf State.BuffersInRange State.StatusOk State.OutputOk HasBytes
  decide +kernel

end Sys2Proof.Tests
end

section
/-! Invariants of a step. An invariant of this machine speaks of nine fields only, and only a few
updates write them: what each must keep is said once, in `StepInvariant`, and one induction over the
step serves every such invariant. -/

namespace Sys2Proof.Machine

/-! ### The fields an invariant speaks of -/

/-- The parameters, STATUS, where the engine stands, how much output there is, and the four buffers
are the same. -/
def SameCore (s t : State) : Prop :=
  t.cfg = s.cfg ∧ t.status = s.status ∧ t.phase = s.phase ∧ t.outLen = s.outLen ∧
  t.outPos = s.outPos ∧ t.inBuf = s.inBuf ∧ t.outBuf = s.outBuf ∧ t.metaBuf = s.metaBuf ∧
  t.exf.kb = s.exf.kb

theorem SameCore.refl (s : State) : SameCore s s := ⟨rfl, rfl, rfl, rfl, rfl, rfl, rfl, rfl, rfl⟩

theorem SameCore.trans {s t u : State} (h1 : SameCore s t) (h2 : SameCore t u) : SameCore s u := by
  unfold SameCore at *
  simp_all

/-! ### What a move of the HOST can do -/

/-- What a move of the HOST leaves, as far as an invariant can see it. -/
inductive HostEffect (s t : State) : Prop where
  | kept (h : SameCore s t)
  | wroteIn (a : Nat) (v : Byte) (ha : a < s.cfg.inCap)
      (h : SameCore { s with inBuf := Memory.write s.inBuf a v } t)
  | wroteMeta (a : Nat) (v : Byte) (ha : a < 16)
      (h : SameCore { s with metaBuf := Memory.write s.metaBuf a v } t)
  | started (v : Word) (h : SameCore (commandStart v s) t)
  | reset (h : SameCore (resetBlock s) t)

theorem HostEffect.trans {s t u : State} (h : HostEffect s t) (hc : SameCore t u) :
    HostEffect s u := by
  cases h with
  | kept h => exact .kept (h.trans hc)
  | wroteIn a v ha h => exact .wroteIn a v ha (h.trans hc)
  | wroteMeta a v ha h => exact .wroteMeta a v ha (h.trans hc)
  | started v h => exact .started v (h.trans hc)
  | reset h => exact .reset (h.trans hc)

theorem writeRegister_effect (s : State) (r : BitVec 4) (v : Word) :
    HostEffect s (writeRegister s r v) := by
  unfold writeRegister
  split
  case h_1 => exact .started v (.refl _)
  all_goals exact .kept (.refl _)

theorem busyMove_effect (m : HostMove) (s : State) : HostEffect s (busyMove m s) := by
  unfold busyMove
  split
  · exact .reset (.refl _)
  · split
    · exact .kept (.refl _)
    · split <;> exact .kept (.refl _)

theorem hostRead_effect {b : Buffer} {a : Nat} {s t : State} (e : hostRead b a s = .next t) :
    HostEffect s t := by
  unfold hostRead at e
  split at e <;> cases e
  exact .kept (.refl _)

theorem idleMove_effect {m : HostMove} {s t : State} (e : idleMove m s = .next t) :
    HostEffect s t := by
  cases m with
  | writeIn a v =>
    simp only [idleMove] at e
    split at e <;> cases e
    exact .wroteIn a.toNat v ‹_› (.refl _)
  | readIn a =>
    simp only [idleMove] at e
    split at e
    · exact hostRead_effect e
    · cases e
  | writeMeta a v =>
    simp only [idleMove] at e
    split at e <;> cases e
    exact .wroteMeta a.toNat v ‹_› (.refl _)
  | readMeta a =>
    simp only [idleMove] at e
    split at e
    · exact hostRead_effect e
    · cases e
  | writeOut a v => cases e
  | readOut a =>
    simp only [idleMove] at e
    split at e
    · exact hostRead_effect e
    · cases e
  | writeReg r v => cases e; exact (writeRegister_effect s r v).trans (.refl _)
  | readReg r => cases e; exact .kept (.refl _)
  | reset => cases e; exact .reset (.refl _)

theorem hostMove_effect {m : HostMove} {s t : State} (e : hostMove m s = .next t) :
    HostEffect s t := by
  unfold hostMove at e
  split at e
  · cases e; exact busyMove_effect m s
  · exact idleMove_effect e

/-! ### One induction for every invariant -/

/-- What an invariant must keep: it speaks of the core fields only, and stands every update that
writes one of them, where the machine makes that update. -/
structure StepInvariant (P : State → Prop) : Prop where
  core : ∀ {s t : State}, P s → SameCore s t → P t
  push : ∀ (s : State) (v : Byte), s.phase ≠ .idle → s.outPos.toNat < s.cfg.outCap → P s →
    P (s.pushOut v)
  key : ∀ (s : State) (a : Nat) (bs : List Byte), a + bs.length ≤ 32 → P s →
    P { s with exf := { s.exf with kb := Memory.writeAll s.exf.kb a bs } }
  decode : ∀ s : State, s.phase ≠ .idle → P s → P s.startDecode
  completed : ∀ s : State, s.phase ≠ .idle → P s → P (publish s)
  faulted : ∀ (k : FaultKind) (n : Nat) (s : State), P s → P (takeFault k n s)
  wroteIn : ∀ (s : State) (a : Nat) (v : Byte), a < s.cfg.inCap → P s →
    P { s with inBuf := Memory.write s.inBuf a v }
  wroteMeta : ∀ (s : State) (a : Nat) (v : Byte), a < 16 → P s →
    P { s with metaBuf := Memory.write s.metaBuf a v }
  started : ∀ (v : Word) (s : State), P s → P (commandStart v s)
  reset : ∀ s : State, P (resetBlock s)

section
variable {P : State → Prop}

/-- While a command runs, no body of the engine leaves the invariant. -/
theorem StepInvariant.closed (h : StepInvariant P) :
    Engine.Closed fun s t => s.phase ≠ .idle ∧ P s → t.phase ≠ .idle ∧ P t where
  refl _ := id
  trans _ _ _ h1 h2 := h2 ∘ h1
  work := fun _ _ _ _ _ _ _ _ _ _ _ ⟨hp, hs⟩ =>
    ⟨hp, h.core hs (.refl _)⟩
  push := fun s v hr ⟨hp, hs⟩ => ⟨hp, h.push s v hp hr hs⟩
  key := fun s a bs hl ⟨hp, hs⟩ => ⟨hp, h.key s a bs hl hs⟩

theorem StepInvariant.endWithFault (h : StepInvariant P) (k : FaultKind) (n : Nat) {s : State}
    (hs : P s) : P (endWithFault k n s) := by
  rcases endWithFault_cases k n s with ⟨-, e⟩ | ⟨-, e⟩ <;> rw [e] <;> exact h.faulted _ _ _ hs

theorem StepInvariant.complete (h : StepInvariant P) {s : State} (hp : s.phase ≠ .idle)
    (hs : P s) : P (complete s) := by
  rcases complete_cases s with ⟨-, e⟩ | ⟨-, e⟩ <;> rw [e]
  · exact h.completed s hp hs
  · exact h.core (h.faulted .hostConflict s.hc.info.toNat s hs) (.refl _)

theorem StepInvariant.engineStep (h : StepInvariant P) {s t : State} (hs : P s)
    (e : engineStep s = .next t) : P t := by
  have hmark : ∀ s : State, s.phase ≠ .idle ∧ P s → s.markToken.phase ≠ .idle ∧ P s.markToken :=
    fun _ ⟨hp, hs⟩ => ⟨hp, h.core hs (.refl _)⟩
  rcases engineStep_next h.closed hmark e with
    ⟨-, rfl⟩ | ⟨hp, s', hr, hend⟩ | ⟨v, b, w, hp, -, -, rfl⟩
  · exact hs
  · obtain ⟨hp', hs'⟩ := hr ⟨hp, hs⟩
    rcases hend with ⟨-, rfl⟩ | rfl | rfl | ⟨f, n, rfl⟩
    · exact hs'
    · exact h.decode s' hp' hs'
    · exact h.complete hp' hs'
    · exact h.endWithFault f n hs'
  · exact h.completed _ (by simp [hp]) (h.core hs (.refl _))

theorem StepInvariant.hostMove (h : StepInvariant P) {m : HostMove} {s t : State} (hs : P s)
    (e : hostMove m s = .next t) : P t := by
  cases hostMove_effect e with
  | kept hc => exact h.core hs hc
  | wroteIn a v ha hc => exact h.core (h.wroteIn s a v ha hs) hc
  | wroteMeta a v ha hc => exact h.core (h.wroteMeta s a v ha hs) hc
  | started v hc => exact h.core (h.started v s hs) hc
  | reset hc => exact h.core (h.reset s) hc

/-- Every step keeps an invariant that stands the updates of the core fields. -/
theorem StepInvariant.step (h : StepInvariant P) {s t : State} (hs : P s)
    (e : step s = .next t) : P t := by
  have took : ∀ rest, P { s with host := rest } := fun _ =>
    h.core hs (.refl _)
  unfold Machine.step at e
  split at e
  · exact h.engineStep hs e
  · exact h.engineStep (took _) e
  · exact h.hostMove (took _) e

end

end Sys2Proof.Machine
end

section
/-! The four invariants of the machine, and their values at reset. -/

namespace Sys2Proof.Machine

/-! ### Buffers -/

theorem buffersWf_invariant : StepInvariant State.BuffersWf where
  core := by
    rintro s t h ⟨-, -, -, -, -, hin, hout, hmeta, hkb⟩
    simpa only [State.BuffersWf, hin, hout, hmeta, hkb] using h
  push := fun _ v _ _ ⟨hin, hout, hmeta, hkb⟩ => ⟨hin, Memory.wf_write _ v hout, hmeta, hkb⟩
  key := fun _ a bs _ ⟨hin, hout, hmeta, hkb⟩ => ⟨hin, hout, hmeta, Memory.wf_writeAll a bs hkb⟩
  decode := fun _ _ h => h
  completed := fun _ _ ⟨hin, hout, hmeta, hkb⟩ => ⟨hin, Memory.wf_below _ hout, hmeta, hkb⟩
  faulted := fun _ _ _ ⟨hin, _, hmeta, hkb⟩ => ⟨hin, Memory.wf_nil, hmeta, hkb⟩
  wroteIn := fun _ a v _ ⟨hin, hout, hmeta, hkb⟩ => ⟨Memory.wf_write a v hin, hout, hmeta, hkb⟩
  wroteMeta := fun _ a v _ ⟨hin, hout, hmeta, hkb⟩ => ⟨hin, hout, Memory.wf_write a v hmeta, hkb⟩
  started := fun _ _ h => h
  reset := fun _ => reset_memory_wf

/-- A store below a bound keeps a buffer below it. -/
theorem Memory.write_below {m : Memory} {a n : Nat} {v : Byte} (ha : a < n)
    (h : ∀ p ∈ m, p.1 < n) : ∀ p ∈ Memory.write m a v, p.1 < n := by
  intro p hp
  rcases Memory.mem_write hp with rfl | hp
  · exact ha
  · exact h p hp

theorem Memory.writeAll_below {m : Memory} {a n : Nat} {bs : List Byte} (ha : a + bs.length ≤ n)
    (h : ∀ p ∈ m, p.1 < n) : ∀ p ∈ Memory.writeAll m a bs, p.1 < n := by
  intro p hp
  rcases Memory.mem_writeAll hp with hp | hp
  · omega
  · exact h p hp

theorem buffersInRange_reset (cfg : Config) (host : List HostEvent) :
    State.BuffersInRange { State.reset with cfg := cfg, host := host } :=
  ⟨nofun, nofun, nofun, nofun⟩

theorem buffersInRange_invariant : StepInvariant State.BuffersInRange where
  core := by
    rintro s t h ⟨hcfg, -, -, -, -, hin, hout, hmeta, hkb⟩
    simpa only [State.BuffersInRange, hcfg, hin, hout, hmeta, hkb] using h
  push := fun _ _ _ hr ⟨hin, hout, hmeta, hkb⟩ => ⟨hin, Memory.write_below hr hout, hmeta, hkb⟩
  key := fun _ _ _ hl ⟨hin, hout, hmeta, hkb⟩ => ⟨hin, hout, hmeta, Memory.writeAll_below hl hkb⟩
  decode := fun _ _ h => h
  completed := fun _ _ ⟨hin, hout, hmeta, hkb⟩ =>
    ⟨hin, fun p hp => hout p (Memory.mem_below.1 hp).1, hmeta, hkb⟩
  faulted := fun _ _ _ ⟨hin, _, hmeta, hkb⟩ => ⟨hin, nofun, hmeta, hkb⟩
  wroteIn := fun _ _ _ ha ⟨hin, hout, hmeta, hkb⟩ => ⟨Memory.write_below ha hin, hout, hmeta, hkb⟩
  wroteMeta := fun _ _ _ ha ⟨hin, hout, hmeta, hkb⟩ =>
    ⟨hin, hout, Memory.write_below ha hmeta, hkb⟩
  started := fun _ _ h => h
  reset := fun s => buffersInRange_reset s.cfg s.host

/-! ### STATUS -/

@[simp] theorem statusBusy_statusWord (b d e : Bool) (c l : Byte) :
    statusBusy (statusWord b d e c l) = b := (statusReads_statusWord b d e c l).1

@[simp] theorem statusErr_statusWord (b d e : Bool) (c l : Byte) :
    statusErr (statusWord b d e c l) = e := (statusReads_statusWord b d e c l).2.2.1

/-- A STATUS word put together from fields that occur is one that occurs. -/
theorem statusLegal_statusWord {b d e : Bool} {c : Byte} (l : Byte)
    (hbde : (b, d, e) ∈
      [(false, false, false), (true, false, false), (false, true, false), (false, false, true)])
    (hc : e = (c != 0)) : statusLegal (statusWord b d e c l) = true := by
  obtain ⟨hb, hd, he, hlow, hcode, -, hhigh⟩ := statusReads_statusWord b d e c l
  simp only [statusLegal, statusBusy, statusDone, statusErr, statusErrCode, hb, hd, he, hlow, hcode,
    hhigh, Bool.and_eq_true, decide_eq_true_eq]
  exact ⟨⟨⟨hbde, rfl⟩, rfl⟩, by simp [hc]⟩

theorem FaultKind.code_bne_zero (k : FaultKind) : (k.code != 0) = true := by cases k <;> decide

theorem statusOk_idle {s : State} {d e : Bool} {c l : Byte}
    (hs : s.status = statusWord false d e c l) (hp : s.phase = .idle)
    (hl : statusLegal s.status = true) : s.StatusOk :=
  ⟨hl, by simp [hs, hp]⟩

theorem statusOk_reset (cfg : Config) (host : List HostEvent) :
    State.StatusOk { State.reset with cfg := cfg, host := host } :=
  ⟨by show statusLegal 0 = true; decide, by show statusBusy 0 = true ↔ Phase.idle ≠ .idle; decide⟩

theorem statusOk_invariant : StepInvariant State.StatusOk where
  core := by
    rintro s t h ⟨-, hst, hph, -⟩
    simpa only [State.StatusOk, hst, hph] using h
  push := fun _ _ _ _ h => h
  key := fun _ _ _ _ h => h
  decode := fun s hp ⟨hl, hb⟩ => ⟨hl, by simp [hb.2 hp]⟩
  completed := fun _ _ _ => statusOk_idle rfl rfl (statusLegal_statusWord _ (by decide) (by decide))
  faulted := fun k _ _ _ =>
    statusOk_idle rfl rfl (statusLegal_statusWord _ (by decide) k.code_bne_zero.symm)
  wroteIn := fun _ _ _ _ h => h
  wroteMeta := fun _ _ _ _ h => h
  started := fun v s _ =>
    ⟨statusLegal_statusWord _ (by decide) (by decide), by simp [statusStarted]⟩
  reset := fun s => statusOk_reset s.cfg s.host

/-! ### OUT and OUT_LEN -/

/-- An append behind bytes that hold values leaves every byte below the new `out_pos` with one, also
where `out_pos` becomes a free value: then OUT holds a value at every address of 32 bits (log 3). -/
theorem hasBytes_pushOut {s : State} (v : Byte) (h : HasBytes s.outBuf 0 s.outPos.toNat) :
    HasBytes (s.pushOut v).outBuf 0 (s.pushOut v).outPos.toNat := by
  intro k hk
  have hle : k ≤ s.outPos.toNat := by
    have hlt := (nextOutPos s.outPos).isLt
    simp only [State.pushOut_outPos] at hk
    rcases nextOutPos_cases s.outPos with ⟨-, -, e⟩ | ⟨e, -⟩ <;> omega
  simp only [State.pushOut_outBuf, Memory.read_write]
  split
  · rfl
  · exact h k (by omega)

theorem Memory.hasBytes_below {m : Memory} {n : Nat} (h : HasBytes m 0 n) :
    HasBytes (Memory.below m n) 0 n := by
  intro k hk
  rw [Memory.read_below, if_pos (by omega)]
  exact h k hk

theorem outputOk_invariant : StepInvariant State.OutputOk where
  core := by
    rintro s t h ⟨-, hst, hph, hol, hop, -, hout, -⟩
    simpa only [State.OutputOk, hst, hph, hol, hop, hout] using h
  push := fun _ v hp _ ⟨hrun, _, herr⟩ =>
    ⟨fun _ => ⟨(hrun hp).1, hasBytes_pushOut v (hrun hp).2⟩, fun hi => absurd hi hp, herr⟩
  key := fun _ _ _ _ h => h
  decode := fun _ hp ⟨hrun, _, herr⟩ => ⟨fun _ => hrun hp, nofun, herr⟩
  completed := fun _ hp ⟨hrun, _, _⟩ =>
    ⟨fun hi => absurd rfl hi,
      fun _ => ⟨fun _ hm => (Memory.mem_below.1 hm).2, Memory.hasBytes_below (hrun hp).2⟩,
      fun he => by simp [statusCompleted] at he⟩
  faulted := fun _ _ _ _ => ⟨fun hi => absurd rfl hi, fun _ => ⟨nofun, nofun⟩, fun _ => rfl⟩
  wroteIn := fun _ _ _ _ h => h
  wroteMeta := fun _ _ _ _ h => h
  started := fun _ _ _ => ⟨fun _ => ⟨rfl, nofun⟩, nofun, fun _ => rfl⟩
  reset := fun _ => ⟨fun hi => absurd rfl hi, fun _ => ⟨nofun, nofun⟩, fun _ => rfl⟩

/-! ### The obligations -/

/-- Settles O56: the buffer operations keep the canonical form, and no step writes a buffer in any
other way. -/
theorem stepKeepsBuffersCanonical : Obligations.StepKeepsBuffersCanonical :=
  fun _ _ hs e => buffersWf_invariant.step hs e

/-- Settles O57: every store is checked against its capacity before it is made. -/
theorem stepKeepsBuffersInRange : Obligations.StepKeepsBuffersInRange :=
  fun _ _ hs e => buffersInRange_invariant.step hs e

/-- Settles O58: STATUS is written at the start and at the end of a command only, where the phase
changes with it. -/
theorem stepKeepsStatusLegal : Obligations.StepKeepsStatusLegal :=
  fun _ _ hs e => statusOk_invariant.step hs e

/-- Settles O59: while a command runs each append moves `out_pos` past a byte with a value, and its
end either publishes those bytes or empties OUT. -/
theorem stepKeepsOutputPublished : Obligations.StepKeepsOutputPublished :=
  fun _ _ hs e => outputOk_invariant.step hs e

/-- Settles O60: each invariant holds after a reset with any parameters, so with the initial
ones. -/
theorem invariantsHoldAtReset : Obligations.InvariantsHoldAtReset :=
  ⟨buffersWf_invariant.reset .reset, buffersInRange_invariant.reset .reset,
    statusOk_invariant.reset .reset, outputOk_invariant.reset .reset⟩

end Sys2Proof.Machine
end

section
/-! The host port while idle: the register window as a list of words, the byte accesses, and the
reset values. -/

namespace Sys2Proof.Machine

/-! ### The register window -/

/-- The sixteen words of the window as they read, in the order of 10_state.md R20. -/
def registerFile (s : State) : List Word :=
  [0, s.status, s.inLen, s.outLen, s.paramType.setWidth 32, s.paramLevel.setWidth 32,
    s.paramIndex.setWidth 32, s.paramUnk.setWidth 32, s.lcgState, s.lcgWord, s.faultInPos,
    s.faultOutPos, s.faultInfo, 0, 0, 0]

theorem readRegister_eq (s : State) (r : BitVec 4) :
    readRegister s r = (registerFile s).getD r.toNat 0 := by
  have hr := r.isLt
  unfold readRegister
  generalize r.toNat = n at hr
  interval_cases n <;> rfl

theorem readRegister_unused {s : State} {r : BitVec 4} (h : r = 0 ∨ 13 ≤ r.toNat) :
    readRegister s r = 0 := by
  rcases h with rfl | h
  · rfl
  · have hr := r.isLt
    rw [readRegister_eq]
    generalize r.toNat = n at h hr
    interval_cases n <;> rfl

/-- What a register reads as after `v` was written to it (10_state.md R20, R25). -/
def writtenValue (s : State) (r : BitVec 4) (v : Word) : Word :=
  if r = 2 ∨ r = 8 then v
  else if r = 4 ∨ r = 5 ∨ r = 6 ∨ r = 7 then v &&& 0xFFFF
  else readRegister s r

theorem setWidth_half_eq_and (v : Word) : (v.setWidth 16).setWidth 32 = v &&& 0xFFFF := by
  apply BitVec.eq_of_getLsbD_eq
  intro i hi
  have hmask : ∀ j < 32, (0xFFFF : Word).getLsbD j = decide (j < 16) := by decide
  simp only [BitVec.getLsbD_setWidth, BitVec.getLsbD_and, hmask i hi, hi, decide_true,
    Bool.true_and]
  exact Bool.and_comm _ _

theorem registerFile_writeRegister {s : State} {r : BitVec 4} (v : Word) (hr : r ≠ 0) :
    registerFile (writeRegister s r v) = (registerFile s).set r.toNat (writtenValue s r v) := by
  unfold writeRegister
  split
  case h_1 h => exact absurd (BitVec.eq_of_toNat_eq h) hr
  case h_2 h | h_7 h =>
    simp [registerFile, writtenValue, ← BitVec.toNat_inj, h]
  case h_3 h | h_4 h | h_5 h | h_6 h =>
    simp [registerFile, writtenValue, setWidth_half_eq_and, ← BitVec.toNat_inj, h]
  case h_8 _ h2 h4 h5 h6 h7 h8 =>
    have hwhole : ¬(r = 2 ∨ r = 8) := by rintro (rfl | rfl); exacts [h2 rfl, h8 rfl]
    have hparam : ¬(r = 4 ∨ r = 5 ∨ r = 6 ∨ r = 7) := by
      rintro (rfl | rfl | rfl | rfl); exacts [h4 rfl, h5 rfl, h6 rfl, h7 rfl]
    have hkeeps : writtenValue s r v = readRegister s r := by
      rw [writtenValue, if_neg hwhole, if_neg hparam]
    have hlen : r.toNat < (registerFile s).length := r.isLt
    rw [hkeeps, readRegister_eq, List.getD_eq_getElem _ _ hlen, List.set_getElem_self]

theorem readRegister_writeRegister {s : State} {r : BitVec 4} (v : Word) (hr : r ≠ 0)
    (q : BitVec 4) :
    readRegister (writeRegister s r v) q =
      if q = r then writtenValue s r v else readRegister s q := by
  have hlen : r.toNat < (registerFile s).length := r.isLt
  rw [readRegister_eq, registerFile_writeRegister v hr, readRegister_eq s q]
  by_cases hq : q = r
  · subst hq
    simp [List.getD_eq_getElem?_getD, hlen]
  · have hne : r.toNat ≠ q.toNat := fun h => hq (BitVec.eq_of_toNat_eq h.symm)
    simp [List.getD_eq_getElem?_getD, List.getElem?_set_ne hne, hq]

/-- A register write changes no field but the writable registers (20_memory.md R69). -/
theorem writeRegister_frame {s : State} {r : BitVec 4} (v : Word) (hr : r ≠ 0) :
    let t := writeRegister s r v
    t = { s with
      inLen := t.inLen, paramType := t.paramType, paramLevel := t.paramLevel
      paramIndex := t.paramIndex, paramUnk := t.paramUnk, lcgState := t.lcgState } := by
  unfold writeRegister
  split
  case h_1 h => exact absurd (BitVec.eq_of_toNat_eq h) hr
  all_goals rfl

/-! ### Moves while idle -/

theorem hostMove_idle {s : State} (h : statusBusy s.status = false) (m : HostMove) :
    hostMove m s = idleMove m s := by simp [hostMove, h]

theorem hostRead_some {b : Buffer} {a : Nat} {v : Byte} {s : State}
    (h : (s.buffer b).read a = some v) :
    hostRead b a s = .next { s with hostData := some (v.setWidth 32) } := by simp [hostRead, h]

theorem hostRead_none {b : Buffer} {a : Nat} {s : State} (h : (s.buffer b).read a = none) :
    hostRead b a s = .refused (.unwrittenByte b a) := by simp [hostRead, h]

section
variable {s : State} {a : Word}

theorem idleMove_writeIn (v : Byte) (h : a.toNat < s.cfg.inCap) :
    idleMove (.writeIn a v) s =
      .next { s with inBuf := Memory.write s.inBuf a.toNat v, hostData := none } := if_pos h

theorem idleMove_writeMeta (v : Byte) (h : a.toNat < 16) :
    idleMove (.writeMeta a v) s =
      .next { s with metaBuf := Memory.write s.metaBuf a.toNat v, hostData := none } := if_pos h

theorem idleMove_readIn (h : a.toNat < s.cfg.inCap) :
    idleMove (.readIn a) s = hostRead .inBuf a.toNat s := if_pos h

theorem idleMove_readMeta (h : a.toNat < 16) :
    idleMove (.readMeta a) s = hostRead .metaBuf a.toNat s := if_pos h

theorem idleMove_readOut (h : a.toNat < s.outLen.toNat) :
    idleMove (.readOut a) s = hostRead .outBuf a.toNat s := if_pos h

theorem idleMove_readOut_beyond (h : s.outLen.toNat ≤ a.toNat) :
    idleMove (.readOut a) s = .refused (.unwrittenByte .outBuf a.toNat) := if_neg (by omega)

theorem idleMove_in_beyond {v : Byte} {m : HostMove} (h : s.cfg.inCap ≤ a.toNat)
    (hm : m ∈ [HostMove.writeIn a v, .readIn a]) :
    idleMove m s = .fault (.noSuchAddress .inBuf a.toNat) := by
  simp only [List.mem_cons, List.not_mem_nil, or_false] at hm
  rcases hm with rfl | rfl <;> exact if_neg (by omega)

theorem idleMove_meta_beyond {v : Byte} {m : HostMove} (h : 16 ≤ a.toNat)
    (hm : m ∈ [HostMove.writeMeta a v, .readMeta a]) :
    idleMove m s = .fault (.noSuchAddress .metaBuf a.toNat) := by
  simp only [List.mem_cons, List.not_mem_nil, or_false] at hm
  rcases hm with rfl | rfl <;> exact if_neg (by omega)

end

/-! ### The obligations -/

/-- Settles O53, register by register through `registerFile`, and move by move. -/
theorem registerWindowReadsAndWrites : Obligations.RegisterWindowReadsAndWrites := by
  refine ⟨fun s r v hidle hr => ?_, fun s r hidle => hostMove_idle hidle _,
    fun s r h => readRegister_unused h, fun s => rfl, fun s a v hidle => ?_,
    fun s a v hidle => ?_, fun s a v hidle => ?_⟩
  · refine ⟨{ writeRegister s r v with hostData := none }, hostMove_idle hidle _, fun q => ?_, ?_⟩
    · have hread := readRegister_writeRegister (s := s) v hr q
      refine Eq.trans hread ?_
      by_cases hq : q = r
      · subst hq; simp [writtenValue]
      · simp [hq]
    · exact congrArg (fun t : State => { t with hostData := none }) (writeRegister_frame v hr)
  · simp only [hostMove_idle hidle]
    refine ⟨fun ha => ⟨_, idleMove_writeIn v ha, rfl, fun b => ?_⟩,
      fun ha => ⟨_, idleMove_writeMeta v ha, rfl, fun b => ?_⟩⟩ <;>
    simp only [Memory.read_write, eq_comm]
  · simp only [hostMove_idle hidle]
    exact ⟨fun ha hv => (idleMove_readOut ha).trans (hostRead_some (b := .outBuf) hv),
      fun ha hv => (idleMove_readIn ha).trans (hostRead_some (b := .inBuf) hv),
      fun ha hv => (idleMove_readMeta ha).trans (hostRead_some (b := .metaBuf) hv)⟩
  · simp only [hostMove_idle hidle]
    exact ⟨fun ha _ hm => idleMove_in_beyond ha hm, fun ha _ hm => idleMove_meta_beyond ha hm, rfl⟩

/-- Settles O52: every register of the window is 0, no buffer lists a byte, and the working
registers are read off `State.reset`. -/
theorem resetStateHasItsValues : Obligations.ResetStateHasItsValues := by
  refine ⟨fun r => ?_, fun a => ⟨rfl, rfl, rfl, rfl, rfl⟩,
    rfl, rfl, rfl, rfl, rfl, rfl, rfl, rfl, rfl, rfl, rfl, rfl⟩
  have hzero : registerFile State.reset = List.replicate 16 0 := rfl
  rw [readRegister_eq, hzero]
  exact List.getD_replicate 0 r.isLt

end Sys2Proof.Machine
end

section
/-! Reads of bytes that hold no value: how an operation is refused, first in a field, then in a loop
that takes one byte of input per pass. -/

namespace Sys2Proof.Machine

/-! ### Refused operations -/

/-- The operation stops at the byte `a` of the buffer `b`, which holds no value. -/
def RefusedAt {α : Type} (m : Engine α) (s : State) (b : Buffer) (a : Nat) : Prop :=
  ∃ t, m s = .error (.refuse (.unwrittenByte b a)) t

section
variable {α β : Type} {s s' : State} {b : Buffer} {a : Nat}

theorem RefusedAt.bind {m : Engine α} (h : RefusedAt m s b a) (f : α → Engine β) :
    RefusedAt (m >>= f) s b a := by
  obtain ⟨t, e⟩ := h
  exact ⟨t, Engine.bind_error e⟩

theorem RefusedAt.after {m : Engine α} {f : α → Engine β} {x : α} (e : m s = .ok x s')
    (h : RefusedAt (f x) s' b a) : RefusedAt (m >>= f) s b a := by
  obtain ⟨t, e'⟩ := h
  exact ⟨t, (Engine.bind_ok e).trans e'⟩

theorem RefusedAt.get {f : State → Engine β} (h : RefusedAt (f s) s b a) :
    RefusedAt (MonadState.get >>= f) s b a := h

theorem RefusedAt.check {c : Bool} {k : FaultKind} {n : Nat} {f : Unit → Engine β}
    (hc : c = false) (h : RefusedAt (f ()) s b a) : RefusedAt (raiseIf c k n >>= f) s b a := by
  unfold RefusedAt
  rwa [raiseIf_bind_false hc]

theorem RefusedAt.runBody {body : Engine Unit} (h : RefusedAt body s b a) (k : State → State) :
    runBody body k s = .refused (.unwrittenByte b a) := by
  obtain ⟨t, e⟩ := h
  exact runBody_refuse e

theorem RefusedAt.execJpkDecode (h : RefusedAt jpkDecodeCommand s b a) :
    execJpkDecode s = .refused (.unwrittenByte b a) := by
  obtain ⟨t, e⟩ := h
  simp [Machine.execJpkDecode, e]

end

/-! ### Fields -/

theorem memRead_none {b : Buffer} {a : Nat} {s : State} (h : (s.buffer b).read a = none) :
    memRead b a s = .error (.refuse (.unwrittenByte b a)) s := by simp [memRead, h]

theorem memRead_refused {b : Buffer} {a : Nat} {s : State} (h : (s.buffer b).read a = none) :
    RefusedAt (memRead b a) s b a := ⟨s, memRead_none h⟩

theorem HasBytes.memRead_ok {b : Buffer} {a n k : Nat} {s : State}
    (h : HasBytes (s.buffer b) a n) (hk : k < n) :
    memRead b (a + k) s = .ok (byteAt (s.buffer b) (a + k)) s := Machine.memRead_ok (h.read hk)

/-- `m` reads the `n` bytes at `a` one after the other: it answers `v` where all hold a value, and
is refused at the first that holds none. -/
structure ReadsField {α : Type} (m : Engine α) (s : State) (b : Buffer) (a n : Nat) (v : α) :
    Prop where
  answers : HasBytes (s.buffer b) a n → m s = .ok v s
  refused : ∀ k < n, HasBytes (s.buffer b) a k → (s.buffer b).read (a + k) = none →
    RefusedAt m s b (a + k)

theorem readsField_field16 (o : ByteOrder) (b : Buffer) (a : Nat) (s : State) :
    ReadsField (field16 o b a) s b a 2
      (join16 o (byteAt (s.buffer b) a) (byteAt (s.buffer b) (a + 1))) where
  answers := field16_ok
  refused k hk h hn := by
    unfold field16
    interval_cases k
    · exact (memRead_refused hn).bind _
    · exact .after (h.memRead_ok (k := 0) (by omega)) ((memRead_refused hn).bind _)

theorem readsField_field32 (o : ByteOrder) (b : Buffer) (a : Nat) (s : State) :
    ReadsField (field32 o b a) s b a 4
      (join32 o (byteAt (s.buffer b) a) (byteAt (s.buffer b) (a + 1))
        (byteAt (s.buffer b) (a + 2)) (byteAt (s.buffer b) (a + 3))) where
  answers := field32_ok
  refused k hk h hn := by
    have byte : ∀ j < k, memRead b (a + j) s = .ok (byteAt (s.buffer b) (a + j)) s :=
      fun j hj => h.memRead_ok hj
    unfold field32
    interval_cases k
    · exact (memRead_refused hn).bind _
    · exact .after (byte 0 (by omega)) ((memRead_refused hn).bind _)
    · exact .after (byte 0 (by omega)) (.after (byte 1 (by omega)) ((memRead_refused hn).bind _))
    · exact .after (byte 0 (by omega)) (.after (byte 1 (by omega))
        (.after (byte 2 (by omega)) ((memRead_refused hn).bind _)))

theorem readsField_inLE16 (a : Nat) (s : State) :
    ReadsField (inLE16 a) s .inBuf a 2 (le16At s.inBuf a) := readsField_field16 .little .inBuf a s

theorem readsField_inLE32 (a : Nat) (s : State) :
    ReadsField (inLE32 a) s .inBuf a 4 (le32At s.inBuf a) := readsField_field32 .little .inBuf a s

theorem readsField_h16 (b : Buffer) (a : Nat) (s : State) :
    ReadsField (h16 b a) s b a 2 (h16At s.cfg.hdrOrder (s.buffer b) a) where
  answers := h16_ok
  refused k hk h hn := (readsField_field16 s.cfg.hdrOrder b a s).refused k hk h hn

theorem readsField_h32 (b : Buffer) (a : Nat) (s : State) :
    ReadsField (h32 b a) s b a 4 (h32At s.cfg.hdrOrder (s.buffer b) a) where
  answers := h32_ok
  refused k hk h hn := (readsField_field32 s.cfg.hdrOrder b a s).refused k hk h hn

/-- A field read on the way to the byte `k` without value: either `k` is one of its bytes, or it
answers and the rest is what is refused. -/
theorem ReadsField.bind_refused {α β : Type} {m : Engine α} {f : α → Engine β} {s : State}
    {b : Buffer} {a n k : Nat} {v : α} (h : ReadsField m s b a n v) (ha : a ≤ k)
    (hb : ∀ j, a ≤ j → j < a + n → j < k → ((s.buffer b).read j).isSome)
    (hn : (s.buffer b).read k = none) (hgo : a + n ≤ k → RefusedAt (f v) s b k) :
    RefusedAt (m >>= f) s b k := by
  obtain ⟨d, rfl⟩ := Nat.exists_eq_add_of_le ha
  rcases Nat.lt_or_ge d n with hd | hd
  · exact (h.refused d hd (fun j hj => hb _ (by omega) (by omega) (by omega)) hn).bind f
  · exact .after (h.answers fun j hj => hb _ (by omega) (by omega) (by omega)) (hgo (by omega))

/-! ### Start checks that pass -/

theorem checkInCap_ok {s : State} (h : s.inLen.toNat ≤ s.cfg.inCap) : checkInCap s = .ok () s := by
  rw [checkInCap, Engine.get_bind, raiseIf_apply, if_neg (by simpa using h)]

theorem checkHeaderLen_ok {s : State} (h : 16 ≤ s.inLen.toNat) : checkHeaderLen s = .ok () s := by
  rw [checkHeaderLen, Engine.get_bind, raiseIf_apply, if_neg (by simpa using h)]

theorem checkOutCap_ok {n : Nat} {s : State} (h : n ≤ s.cfg.outCap) :
    checkOutCap n s = .ok () s := by
  rw [checkOutCap, Engine.get_bind, raiseIf_apply, if_neg (by simpa using h)]

theorem checkIndex_ok {t : LcgTab} {i : Half} {s : State} (h : i.toNat < lcgCount s.cfg t) :
    checkIndex t i s = .ok () s := by
  rw [checkIndex, Engine.get_bind, raiseIf_apply, if_neg (by simpa using h)]

/-! ### Input loops -/

/-- The parameters, the input and the output position are the same. -/
structure SameInput (s t : State) : Prop where
  cfg : t.cfg = s.cfg
  inLen : t.inLen = s.inLen
  inBuf : t.inBuf = s.inBuf
  outPos : t.outPos = s.outPos

/-- OUT has room for `k` more bytes, and `out_pos` can count them. -/
def Room (k : Nat) (s : State) : Prop :=
  (0 < k → s.outPos.toNat + k ≤ s.cfg.outCap) ∧ s.outPos.toNat + k < 2 ^ 32

theorem SameInput.trans {s t u : State} (h1 : SameInput s t) (h2 : SameInput t u) :
    SameInput s u :=
  ⟨h2.cfg.trans h1.cfg, h2.inLen.trans h1.inLen, h2.inBuf.trans h1.inBuf,
    h2.outPos.trans h1.outPos⟩

theorem Room.of_same {k : Nat} {s t : State} (h : Room k s) (hs : SameInput s t) : Room k t := by
  unfold Room
  rwa [hs.cfg, hs.outPos]

theorem Room.append {k : Nat} {s : State} (h : Room (k + 1) s) (v : Byte) :
    append v s = .ok () (s.pushOut v) ∧ Room k (s.pushOut v) := by
  obtain ⟨hcap, hfit⟩ := h
  have hpos : (s.pushOut v).outPos.toNat = s.outPos.toNat + 1 := outPos_succ (by omega)
  have hroom := hcap k.succ_pos
  refine ⟨append_ok (by omega), fun _ => ?_, ?_⟩
  · rw [hpos, State.pushOut_cfg]; omega
  · omega

theorem inByte_refused {s : State} (hl : s.inPos.toNat < s.inLen.toNat)
    (hn : Memory.read s.inBuf s.inPos.toNat = none) :
    RefusedAt inByte s .inBuf s.inPos.toNat := by
  rcases inByte_cases s with ⟨_, _, hs, _⟩ | ⟨he, _⟩ | ⟨_, _, e⟩
  · rw [hs] at hn; cases hn
  · omega
  · exact ⟨s, e⟩

/-- A loop of which every pass takes one byte of input and, where `Ready (k + 1)` holds, leaves
`Ready k`: what `k` passes need beyond their input. -/
structure InputLoop (loop : Nat → Engine Unit) (Ready : Nat → State → Prop) : Prop where
  stop : ∀ {n : Nat} {s : State} {b : Buffer} {a : Nat}, Ready 0 s → RefusedAt inByte s b a →
    RefusedAt (loop (n + 1)) s b a
  pass : ∀ {n k : Nat} {s : State} {c : Byte}, Ready (k + 1) s →
    inByte s = .ok c s.advanceIn →
    ∃ t, loop (n + 1) s = loop n t ∧ Ready k t ∧ t.inPos = s.inPos + 1 ∧ t.inLen = s.inLen ∧
      t.inBuf = s.inBuf

/-- The loop is refused at the first byte without value that it reaches. -/
theorem InputLoop.refused {loop : Nat → Engine Unit} {Ready : Nat → State → Prop}
    (h : InputLoop loop Ready) {n k : Nat} {s : State} (hr : Ready k s) (hk : k < n)
    (hl : s.inPos.toNat + k < s.inLen.toNat) (hb : HasBytes s.inBuf s.inPos.toNat k)
    (hn : Memory.read s.inBuf (s.inPos.toNat + k) = none) :
    RefusedAt (loop n) s .inBuf (s.inPos.toNat + k) := by
  induction k generalizing n s with
  | zero =>
    obtain ⟨n, rfl⟩ : ∃ m, n = m + 1 := ⟨n - 1, by omega⟩
    exact h.stop hr (inByte_refused hl hn)
  | succ k ih =>
    obtain ⟨n, rfl⟩ : ∃ m, n = m + 1 := ⟨n - 1, by omega⟩
    obtain ⟨t, e, hr', hpos, hlen, hbuf⟩ := h.pass (n := n) hr (inByte_has (by omega) hb)
    have hpos' : t.inPos.toNat = s.inPos.toNat + 1 := by rw [hpos, inPos_succ (by omega)]
    have haddr : s.inPos.toNat + (k + 1) = t.inPos.toNat + k := by omega
    unfold RefusedAt
    rw [e, haddr]
    refine ih hr' (by omega) (by rw [hlen]; omega) ?_ ?_
    · rw [hbuf, hpos']; exact hb.tail
    · rw [hbuf, ← haddr]; exact hn

theorem inputLoop_copyIn : InputLoop copyIn Room where
  stop _ h := h.bind _
  pass hr e := by
    obtain ⟨happ, hroom⟩ := Room.append (s := State.advanceIn _) hr _
    refine ⟨_, ?_, hroom, rfl, rfl, rfl⟩
    rw [copyIn, Engine.bind_ok e, Engine.bind_ok happ]

theorem srcByte_of_off {s : State} (h : s.hf.on = false) : srcByte s = inByte s := by
  unfold srcByte
  rw [Engine.get_bind, if_neg (by simp [h])]

/-- The data bytes of a RUN while the Huffman layer is off. -/
theorem inputLoop_runLoop : InputLoop runLoop fun k s => Room k s ∧ s.hf.on = false where
  stop hr h := by
    obtain ⟨t, e⟩ := h
    exact RefusedAt.bind ⟨t, (srcByte_of_off hr.2).trans e⟩ _
  pass hr e := by
    obtain ⟨happ, hroom⟩ := Room.append (s := State.advanceIn _) hr.1 _
    refine ⟨_, ?_, ⟨hroom, hr.2⟩, rfl, rfl, rfl⟩
    rw [runLoop, Engine.bind_ok ((srcByte_of_off hr.2).trans e), Engine.bind_ok happ]

/-- The keystream of the running cipher steps the entry `e`. -/
def Selected (e : LcgEntry) (s : State) : Prop :=
  (lcgTable s.cfg s.lcg.tab).entries[s.lcg.idx.toNat]? = some e

/-- Only the parameters, the table and the index select the entry. -/
theorem Selected.of_eq {e : LcgEntry} {s t : State} (h : Selected e s) (hcfg : t.cfg = s.cfg)
    (htab : t.lcg.tab = s.lcg.tab) (hidx : t.lcg.idx = s.lcg.idx) : Selected e t := by
  unfold Selected
  rwa [hcfg, htab, hidx]

/-- The state with the keystream word replaced. -/
def State.withKey (w : Word) (s : State) : State := { s with lcg := { s.lcg with s := w } }

theorem Selected.keyWord_ok {e : LcgEntry} {s : State} (h : Selected e s) :
    keyWord s = .ok (lcgStep e s.lcg.s) (s.withKey (lcgStep e s.lcg.s)) := Machine.keyWord_ok h

theorem Selected.withKey {e : LcgEntry} {s : State} (h : Selected e s) (w : Word) :
    Selected e (s.withKey w) := h.of_eq rfl rfl rfl

theorem Selected.withEcd {e : LcgEntry} {s : State} (h : Selected e s) (r : EcdState) :
    Selected e (s.withEcd r) := h.of_eq rfl rfl rfl

theorem SameInput.withKey (w : Word) (s : State) : SameInput s (s.withKey w) := ⟨rfl, rfl, rfl, rfl⟩

theorem SameInput.withEcd (r : EcdState) (s : State) : SameInput s (s.withEcd r) :=
  ⟨rfl, rfl, rfl, rfl⟩

/-- A decrypted byte steps the keystream and the ECD registers. -/
theorem ecdDecryptByte_ok {e : LcgEntry} {s : State} (h : Selected e s) (c : Byte) :
    ∃ p w r, ecdDecryptByte c s = .ok p ((s.withKey w).withEcd r) :=
  ⟨_, _, _, Engine.bind_ok h.keyWord_ok⟩

theorem ecdDecryptLoop_pass {e : LcgEntry} {n : Nat} {s : State} {c : Byte}
    (hin : inByte s = .ok c s.advanceIn) (hsel : Selected e s) :
    ∃ p t, ecdDecryptLoop (n + 1) s = (append p >>= fun _ => ecdDecryptLoop n) t ∧
      SameInput s t ∧ t.inPos = s.inPos + 1 ∧ Selected e t := by
  have hsel' : Selected e s.advanceIn := hsel.of_eq rfl rfl rfl
  obtain ⟨p, w, r, hbyte⟩ := ecdDecryptByte_ok hsel' c
  refine ⟨p, (s.advanceIn.withKey w).withEcd r, ?_, ⟨rfl, rfl, rfl, rfl⟩, rfl,
    (hsel'.withKey w).withEcd r⟩
  rw [ecdDecryptLoop, Engine.bind_ok hin, Engine.bind_ok hbyte]

theorem inputLoop_ecdDecrypt (e : LcgEntry) :
    InputLoop ecdDecryptLoop fun k s => Room k s ∧ Selected e s where
  stop _ h := h.bind _
  pass {n k s c} hr hin := by
    obtain ⟨hroom, hsel⟩ := hr
    obtain ⟨p, t, e, hsame, hpos, hsel'⟩ := ecdDecryptLoop_pass (n := n) hin hsel
    obtain ⟨happ, hroom'⟩ := (hroom.of_same hsame).append p
    refine ⟨t.pushOut p, ?_, ⟨hroom', hsel'.of_eq rfl rfl rfl⟩, hpos, hsame.inLen, hsame.inBuf⟩
    rw [e, Engine.bind_ok happ]

theorem exfDecryptByte_ok {s : State} (h : HasBytes s.exf.kb 0 32) (c : Byte) (i : Word) :
    ∃ v, exfDecryptByte c i s = .ok v s := by
  have hbase : keyBase s.cfg.keyIndexBase + 16 ≤ 0 + 32 := by
    cases s.cfg.keyIndexBase <;> simp [keyBase]
  have hview : keyView s = .ok (bytesAt s.exf.kb (keyBase s.cfg.keyIndexBase) 16) s :=
    keyBytes_ok (h.sub (Nat.zero_le _) hbase)
  exact ⟨_, Engine.bind_ok hview⟩

/-- The state after the payload loop has counted a byte. -/
def State.countExf (s : State) : State := { s with exf := { s.exf with i := s.exf.i + 1 } }

/-- A pass of the payload loop appends some byte, substituted or not, and counts it. -/
theorem exfLoop_pass {n : Nat} {s : State} {c : Byte} (hin : inByte s = .ok c s.advanceIn)
    (hkb : HasBytes s.exf.kb 0 32) :
    ∃ v, exfLoop (n + 1) s =
      (append v >>= fun _ => modify State.countExf >>= fun _ => exfLoop n) s.advanceIn := by
  rw [exfLoop, Engine.bind_ok hin, Engine.get_bind]
  split
  · obtain ⟨v, hv⟩ := exfDecryptByte_ok (s := s.advanceIn) hkb c s.exf.i
    exact ⟨v, Engine.bind_ok hv⟩
  · exact ⟨c, rfl⟩

theorem inputLoop_exf : InputLoop exfLoop fun k s => Room k s ∧ HasBytes s.exf.kb 0 32 where
  stop _ h := h.bind _
  pass {n k s c} hr hin := by
    obtain ⟨hroom, hkb⟩ := hr
    obtain ⟨v, e⟩ := exfLoop_pass (n := n) hin hkb
    obtain ⟨happ, hroom'⟩ := Room.append (s := s.advanceIn) hroom v
    refine ⟨(s.advanceIn.pushOut v).countExf, ?_, ⟨hroom', hkb⟩, rfl, rfl, rfl⟩
    rw [e, Engine.bind_ok happ, Engine.modify_bind]

end Sys2Proof.Machine
end

section
/-! Reads without value in the headers and bodies of the commands. -/

namespace Sys2Proof.Machine

/-! ### Headers -/

theorem jpkDecode_header_refused {s : State} {k : Nat} (hin : s.inLen.toNat ≤ s.cfg.inCap)
    (hlen : 16 ≤ s.inLen.toNat)
    (hk : FirstWithoutValue s.inBuf [0, 1, 2, 3, 6, 7, 8, 9, 10, 11, 12, 13, 14, 15] k)
    (hmagic : 4 ≤ k → le32At s.inBuf 0 = 0x1A524B4A) : RefusedAtIn .jpkDecode s k := by
  obtain ⟨hmem, hn, hb⟩ := hk
  simp only [List.mem_cons, List.not_mem_nil, or_false] at hmem hb
  refine RefusedAt.execJpkDecode ?_
  refine .after (checkInCap_ok hin) (.after (checkHeaderLen_ok hlen) ?_)
  refine (readsField_inLE32 0 s).bind_refused (by omega) (fun j _ _ => hb j (by omega)) hn
    fun h4 => .check (by rw [hmagic h4]; rfl) ?_
  refine (readsField_inLE16 6 s).bind_refused (by omega) (fun j _ _ => hb j (by omega)) hn
    fun h8 => ?_
  refine (readsField_inLE32 8 s).bind_refused (by omega) (fun j _ _ => hb j (by omega)) hn
    fun h12 => ?_
  refine (readsField_inLE32 12 s).bind_refused (by omega) (fun j _ _ => hb j (by omega)) hn
    fun h16 => by omega

theorem ecdDecrypt_header_refused {s : State} {k : Nat} (hin : s.inLen.toNat ≤ s.cfg.inCap)
    (hlen : 16 ≤ s.inLen.toNat)
    (hk : FirstWithoutValue s.inBuf [0, 1, 2, 3, 4, 5, 8, 9, 10, 11, 12, 13, 14, 15] k)
    (hmagic : 4 ≤ k → h32At s.cfg.hdrOrder s.inBuf 0 = 0x1A646365)
    (hindex : 6 ≤ k →
      (h16At s.cfg.hdrOrder s.inBuf 4).toNat < s.cfg.ecdLcgTable.entries.length)
    (hout : 12 ≤ k → (h32At s.cfg.hdrOrder s.inBuf 8).toNat ≤ s.cfg.outCap) :
    RefusedAtIn .ecdDecrypt s k := by
  obtain ⟨hmem, hn, hb⟩ := hk
  simp only [List.mem_cons, List.not_mem_nil, or_false] at hmem hb
  refine RefusedAt.runBody ?_ _
  refine .after (checkInCap_ok hin) (.after (checkHeaderLen_ok hlen) ?_)
  refine (readsField_h32 .inBuf 0 s).bind_refused (by omega) (fun j _ _ => hb j (by omega)) hn
    fun h4 => .check (by simp [State.buffer, hmagic h4, ecdMagic]) ?_
  refine (readsField_h16 .inBuf 4 s).bind_refused (by omega) (fun j _ _ => hb j (by omega)) hn
    fun h6 => .after (checkIndex_ok (hindex h6)) ?_
  refine (readsField_h32 .inBuf 8 s).bind_refused (by omega) (fun j _ _ => hb j (by omega)) hn
    fun h12 => .after (checkOutCap_ok (hout h12)) (.after (Engine.modify_apply _ _) ?_)
  exact (readsField_h32 .inBuf 12 _).bind_refused (by omega) (fun j _ _ => hb j (by omega)) hn
    fun h16 => by omega

theorem exfDecrypt_header_refused {s : State} {k : Nat} (hin : s.inLen.toNat ≤ s.cfg.inCap)
    (hlen : 16 ≤ s.inLen.toNat)
    (hk : FirstWithoutValue s.inBuf [0, 1, 2, 3, 4, 5, 12, 13, 14, 15] k)
    (hmagic : 4 ≤ k → h32At s.cfg.hdrOrder s.inBuf 0 = 0x1A667865)
    (hindex : 6 ≤ k →
      (h16At s.cfg.hdrOrder s.inBuf 4).toNat < s.cfg.exfLcgTable.entries.length ∧
        s.inLen.toNat ≤ s.cfg.outCap) :
    RefusedAtIn .exfDecrypt s k := by
  obtain ⟨hmem, hn, hb⟩ := hk
  simp only [List.mem_cons, List.not_mem_nil, or_false] at hmem hb
  refine RefusedAt.runBody ?_ _
  refine .after (checkInCap_ok hin) (.after (checkHeaderLen_ok hlen) ?_)
  refine (readsField_h32 .inBuf 0 s).bind_refused (by omega) (fun j _ _ => hb j (by omega)) hn
    fun h4 => .check (by simp [State.buffer, hmagic h4, exfMagic]) ?_
  refine (readsField_h16 .inBuf 4 s).bind_refused (by omega) (fun j _ _ => hb j (by omega)) hn
    fun h6 => .after (checkIndex_ok (hindex h6).1) (.get ?_)
  refine .after (checkOutCap_ok (hindex h6).2) (.after (Engine.modify_apply _ _) (.bind ?_ _))
  exact (readsField_h32 .inBuf 12 _).bind_refused (by omega) (fun j _ _ => hb j (by omega)) hn
    fun h16 => by omega

theorem ecdEncrypt_index_refused {s : State} {k : Nat} (hin : s.inLen.toNat ≤ s.cfg.inCap)
    (hk : FirstWithoutValue s.metaBuf [4, 5] k) :
    exec .ecdEncrypt s = .refused (.unwrittenByte .metaBuf k) := by
  obtain ⟨hmem, hn, hb⟩ := hk
  simp only [List.mem_cons, List.not_mem_nil, or_false] at hmem hb
  refine RefusedAt.runBody (.after (checkInCap_ok hin) ?_) _
  exact (readsField_h16 .metaBuf 4 s).bind_refused (by omega) (fun j _ _ => hb j (by omega)) hn
    fun h6 => by omega

theorem headerReadsRefused : HeaderReadsRefused :=
  ⟨fun _ _ hin hlen => ⟨jpkDecode_header_refused hin hlen, ecdDecrypt_header_refused hin hlen,
    exfDecrypt_header_refused hin hlen⟩, fun _ _ => ecdEncrypt_index_refused⟩

/-! ### The body of JPK_DECODE -/

/-- A header that passes every start check leads to the body, with `size` set. -/
theorem jpkDecodeCommand_ready {s : State} {ty : Half} {off size : Word}
    (h : JpkReady s ty off size) (hty : jpkType ty ≠ .reserved)
    (hrw : jpkType ty = .huffRw → s.cfg.type2Mode = .asType4) :
    jpkDecodeCommand s = jpkBody (jpkType ty) off size { s with size := size } := by
  obtain ⟨hin, hlen, hhead, hmagic, rfl, rfl, rfl, hoff, hoff', hsize⟩ := h
  have hmode : (jpkType (le16At s.inBuf 6) == .huffRw && s.cfg.type2Mode == .refuse) = false := by
    by_cases hr : jpkType (le16At s.inBuf 6) = .huffRw
    · simp [hrw hr]
    · simp [hr]
  rw [jpkDecodeCommand, Engine.bind_ok (checkInCap_ok hin), Engine.bind_ok (checkHeaderLen_ok hlen),
    Engine.bind_ok (inLE32_ok (hhead.sub (by omega) (by omega))),
    raiseIf_bind_false (by rw [hmagic]; rfl),
    Engine.bind_ok (inLE16_ok (hhead.sub (by omega) (by omega))),
    Engine.bind_ok (inLE32_ok (hhead.sub (by omega) (by omega))),
    Engine.bind_ok (inLE32_ok (hhead.sub (by omega) (by omega))),
    Engine.modify_bind, raiseIf_bind_false (by simp [hty]), Engine.get_bind,
    raiseIf_bind_false hmode, raiseIf_bind_false (by simp; omega)]
  exact Engine.bind_ok (checkOutCap_ok hsize)

theorem jpkDecode_body_refused {s : State} {ty : Half} {off size : Word} {a : Nat}
    (h : JpkReady s ty off size) (hty : jpkType ty ≠ .reserved)
    (hrw : jpkType ty = .huffRw → s.cfg.type2Mode = .asType4)
    (hbody : RefusedAt (jpkBody (jpkType ty) off size) { s with size := size } .inBuf a) :
    RefusedAtIn .jpkDecode s a := by
  obtain ⟨t, e⟩ := hbody
  exact RefusedAt.execJpkDecode ⟨t, (jpkDecodeCommand_ready h hty hrw).trans e⟩

/-- Two input bytes on the way to the byte without value: it is one of them, or `j` bytes behind
them. -/
theorem RefusedAt.twoBytes {β : Type} {f : Byte → Byte → Engine β} {k : Nat} {s u : State}
    (hl : s.inPos.toNat + k < s.inLen.toNat) (hb : HasBytes s.inBuf s.inPos.toNat k)
    (hn : Memory.read s.inBuf (s.inPos.toNat + k) = none) (hu : u = s.advanceIn.advanceIn)
    (hgo : ∀ j, k = j + 2 → u.inPos.toNat + j < u.inLen.toNat → HasBytes u.inBuf u.inPos.toNat j →
      Memory.read u.inBuf (u.inPos.toNat + j) = none →
      RefusedAt (f (byteAt s.inBuf s.inPos.toNat) (byteAt s.inBuf (s.inPos.toNat + 1))) u .inBuf
        (u.inPos.toNat + j)) :
    RefusedAt (inByte >>= fun lo => inByte >>= fun hi => f lo hi) s .inBuf
      (s.inPos.toNat + k) := by
  match k with
  | 0 => exact (inByte_refused hl hn).bind _
  | 1 =>
    have hpos : s.advanceIn.inPos.toNat = s.inPos.toNat + 1 := inPos_succ (by omega)
    rw [← hpos] at hl hn ⊢
    exact .after (inByte_has (n := 0) (by omega) hb) ((inByte_refused hl hn).bind _)
  | j + 2 =>
    have hpos : s.advanceIn.inPos.toNat = s.inPos.toNat + 1 := inPos_succ (by omega)
    have hlen : s.advanceIn.inPos.toNat + (j + 1) < s.advanceIn.inLen.toNat := by
      rw [hpos, State.advanceIn_inLen]; omega
    have hlo := inByte_has (n := j + 1) (s := s) (by omega) hb
    have hhi := inByte_has (n := j) (s := s.advanceIn) (by omega) (by rw [hpos]; exact hb.tail)
    have hpos' : u.inPos.toNat = s.inPos.toNat + 2 := by
      rw [hu, State.advanceIn_inPos, inPos_succ (by omega), hpos]
    have haddr : s.inPos.toNat + (j + 2) = u.inPos.toNat + j := by omega
    have hin : u.inLen = s.inLen ∧ u.inBuf = s.inBuf := by rw [hu]; exact ⟨rfl, rfl⟩
    obtain ⟨hul, hub⟩ := hin
    rw [hpos] at hhi
    rw [haddr] at hl hn ⊢
    refine .after hlo (.after hhi ?_)
    rw [← hu]
    exact hgo j rfl (by rw [hul]; exact hl) (by rw [hub]; exact hb.sub (by omega) (by omega))
      (by rw [hub]; exact hn)

theorem loadEntries_refused {n k : Nat} {s : State} (hk : k < 2 * n)
    (hl : s.inPos.toNat + k < s.inLen.toNat) (hb : HasBytes s.inBuf s.inPos.toNat k)
    (hn : Memory.read s.inBuf (s.inPos.toNat + k) = none) :
    RefusedAt (loadEntries n) s .inBuf (s.inPos.toNat + k) := by
  induction n generalizing k s with
  | zero => omega
  | succ n ih =>
    exact RefusedAt.twoBytes hl hb hn rfl fun j _ hl' hb' hn' =>
      .after (Engine.modify_apply _ _) (ih (s := State.pushEntry _ _) (by omega) hl' hb' hn')

/-- The table in front of a Huffman body (44_huffman.md R220): its length, then its entries. -/
theorem huffLoad_refused {k : Nat} {s : State}
    (hk : 2 ≤ k → k < 2 + 2 * (le16At s.inBuf s.inPos.toNat).toNat)
    (hl : s.inPos.toNat + k < s.inLen.toNat) (hb : HasBytes s.inBuf s.inPos.toNat k)
    (hn : Memory.read s.inBuf (s.inPos.toNat + k) = none) :
    RefusedAt huffLoad s .inBuf (s.inPos.toNat + k) := by
  refine RefusedAt.twoBytes hl hb hn rfl fun j hj hl' hb' hn' =>
    .after (Engine.modify_apply _ _) ?_
  have hcount : j < 2 * (le16At s.inBuf s.inPos.toNat).toNat := by
    have := hk (by omega)
    omega
  exact loadEntries_refused (s := { State.advanceIn _ with hf := _, ht := _ }) hcount hl' hb' hn'

/-- A command just started has room for all that its length check allows. -/
theorem Started.room {s : State} (h : Started s) {k : Nat} (hcap : k ≤ s.cfg.outCap)
    (hfit : k < 2 ^ 32) : Room k s := by
  obtain ⟨-, hout, -⟩ := h
  have hzero : s.outPos.toNat = 0 := by rw [hout]; rfl
  exact ⟨fun _ => by omega, by omega⟩

theorem jpkDecode_raw_refused {s : State} {off size : Word} {k : Nat} (hs : Started s)
    (h : JpkReady s 0 off size) (hl : off.toNat + k < s.inLen.toNat)
    (hb : HasBytes s.inBuf off.toNat k) (hn : Memory.read s.inBuf (off.toNat + k) = none)
    (hk : k < size.toNat) : RefusedAtIn .jpkDecode s (off.toNat + k) := by
  have hsize : size.toNat ≤ s.cfg.outCap := by
    obtain ⟨-, -, -, -, -, -, -, -, -, hsize⟩ := h
    exact hsize
  have hroom : Room k s := hs.room (by omega) (by have := size.isLt; omega)
  refine jpkDecode_body_refused h (by decide) (fun he => absurd he (by decide))
    (.after (Engine.modify_apply _ _) ?_)
  have hloop := inputLoop_copyIn.refused (s := State.withInPos off { s with size := size })
    (n := size.toNat) (k := k) (hroom.of_same ⟨rfl, rfl, rfl, rfl⟩) hk hl hb hn
  exact hloop.bind _

theorem jpkDecode_table_refused {s : State} {ty : Half} {off size : Word} {k : Nat}
    (h : JpkReady s ty off size) (hl : off.toNat + k < s.inLen.toNat)
    (hb : HasBytes s.inBuf off.toNat k) (hn : Memory.read s.inBuf (off.toNat + k) = none)
    (hty : ty = 4 ∨ (ty = 2 ∧ s.cfg.type2Mode = .asType4))
    (hk : 2 ≤ k → k < 2 + 2 * (le16At s.inBuf off.toNat).toNat) :
    RefusedAtIn .jpkDecode s (off.toNat + k) := by
  have hload := huffLoad_refused (s := State.withInPos off { s with size := size }) hk hl hb hn
  rcases hty with rfl | ⟨rfl, hmode⟩
  · exact jpkDecode_body_refused h (by decide) (fun he => absurd he (by decide))
      (.after (Engine.modify_apply _ _) (hload.bind _))
  · exact jpkDecode_body_refused h (by decide) (fun _ => hmode)
      (.after (Engine.modify_apply _ _) (hload.bind _))

end Sys2Proof.Machine
end

section
/-! Reads without value in the bodies of the ciphers and of JPK_ENCODE. -/

namespace Sys2Proof.Machine

theorem inH16_ok {a : Nat} {s : State} (h : HasBytes s.inBuf a 2) :
    h16 .inBuf a s = .ok (h16At s.cfg.hdrOrder s.inBuf a) s := h16_ok (b := .inBuf) h

theorem inH32_ok {a : Nat} {s : State} (h : HasBytes s.inBuf a 4) :
    h32 .inBuf a s = .ok (h32At s.cfg.hdrOrder s.inBuf a) s := h32_ok (b := .inBuf) h

/-! ### ECD -/

/-- The seed and the chain seed step the keystream once. -/
theorem ecdInit_ok {e : LcgEntry} {s : State} (h : Selected e s) (crc : Word) :
    ∃ w r, ecdInit crc s = .ok ⟨⟩ ((s.withKey w).withEcd r) := by
  have hkey := (h.withKey (ecdSeed crc)).keyWord_ok
  exact ⟨_, _, Engine.bind_ok hkey⟩

/-- An ECD file that passes every check leads to the payload loop. -/
theorem ecdDecryptCommand_ready {s : State} {e : LcgEntry}
    (h : CipherReady s 0x1A646365 s.cfg.ecdLcgTable e)
    (hout : (h32At s.cfg.hdrOrder s.inBuf 8).toNat ≤ s.cfg.outCap) :
    ∃ t, ecdDecryptCommand s = ecdDecryptLoop (h32At s.cfg.hdrOrder s.inBuf 8).toNat t ∧
      SameInput s t ∧ t.inPos = 16 ∧ Selected e t := by
  obtain ⟨hin, hlen, hhead, hmagic, hentry⟩ := h
  have hindex : (h16At s.cfg.hdrOrder s.inBuf 4).toNat < lcgCount s.cfg .ecd :=
    (List.getElem?_eq_some_iff.1 hentry).1
  let s1 : State := { s with lcg := { s.lcg with
    tab := .ecd, idx := h16At s.cfg.hdrOrder s.inBuf 4 } }
  have hselect : selectLcg .ecd (h16At s.cfg.hdrOrder s.inBuf 4) s = .ok ⟨⟩ s1 := rfl
  have hcrc : h32 .inBuf 12 s1 = .ok (h32At s.cfg.hdrOrder s.inBuf 12) s1 :=
    inH32_ok (hhead.sub (by omega) (by omega))
  have hsel : Selected e s1 := hentry
  obtain ⟨w, r, hinit⟩ := ecdInit_ok hsel (h32At s.cfg.hdrOrder s.inBuf 12)
  refine ⟨State.withInPos 16 ((s1.withKey w).withEcd r), ?_, ⟨rfl, rfl, rfl, rfl⟩, rfl,
    ((hsel.withKey w).withEcd r).of_eq rfl rfl rfl⟩
  rw [ecdDecryptCommand, Engine.bind_ok (checkInCap_ok hin),
    Engine.bind_ok (checkHeaderLen_ok hlen),
    Engine.bind_ok (inH32_ok (hhead.sub (by omega) (by omega))),
    raiseIf_bind_false (by simp [hmagic, ecdMagic]),
    Engine.bind_ok (inH16_ok (hhead.sub (by omega) (by omega))),
    Engine.bind_ok (checkIndex_ok hindex),
    Engine.bind_ok (inH32_ok (hhead.sub (by omega) (by omega))),
    Engine.bind_ok (checkOutCap_ok hout)]
  refine (Engine.bind_ok hselect).trans ?_
  rw [ecdDecryptBody, Engine.bind_ok hcrc, Engine.bind_ok hinit]
  rfl

theorem ecdDecrypt_body_refused {s : State} {e : LcgEntry} {k : Nat} (hs : Started s)
    (h : CipherReady s 0x1A646365 s.cfg.ecdLcgTable e)
    (hout : (h32At s.cfg.hdrOrder s.inBuf 8).toNat ≤ s.cfg.outCap)
    (hk : k < (h32At s.cfg.hdrOrder s.inBuf 8).toNat) (hl : 16 + k < s.inLen.toNat)
    (hb : HasBytes s.inBuf 16 k) (hn : Memory.read s.inBuf (16 + k) = none) :
    RefusedAtIn .ecdDecrypt s (16 + k) := by
  obtain ⟨t, et, hsame, hpos, hsel⟩ := ecdDecryptCommand_ready h hout
  have hroom : Room k t := by
    have := (h32At s.cfg.hdrOrder s.inBuf 8).isLt
    exact (hs.room (by omega) (by omega)).of_same hsame
  have hpos' : t.inPos.toNat = 16 := by rw [hpos]; rfl
  have hloop := (inputLoop_ecdDecrypt e).refused (s := t) (k := k) ⟨hroom, hsel⟩ hk
    (by rw [hpos', hsame.inLen]; exact hl) (by rw [hpos', hsame.inBuf]; exact hb)
    (by rw [hpos', hsame.inBuf]; exact hn)
  obtain ⟨u, eu⟩ := hloop
  rw [hpos'] at eu
  exact RefusedAt.runBody ⟨u, et.trans eu⟩ _

theorem inBytes_refused {a n k : Nat} {s : State} (hk : k < n) (hb : HasBytes s.inBuf a k)
    (hn : Memory.read s.inBuf (a + k) = none) : RefusedAt (inBytes a n) s .inBuf (a + k) := by
  induction n generalizing a k with
  | zero => omega
  | succ n ih =>
    match k with
    | 0 => exact (memRead_refused (b := .inBuf) hn).bind _
    | k + 1 =>
      rw [show a + (k + 1) = a + 1 + k by omega] at hn ⊢
      exact .after (HasBytes.memRead_ok (b := .inBuf) hb k.succ_pos)
        ((ih (by omega) hb.tail hn).bind _)

theorem ecdEncrypt_body_refused {s : State} {k : Nat} (hin : s.inLen.toNat ≤ s.cfg.inCap)
    (hk : k < s.inLen.toNat) (hb : HasBytes s.inBuf 0 k) (hn : Memory.read s.inBuf k = none)
    (hmeta : HasBytes s.metaBuf 4 2)
    (hindex : (h16At s.cfg.hdrOrder s.metaBuf 4).toNat < s.cfg.ecdLcgTable.entries.length)
    (hout : 16 + s.inLen.toNat ≤ s.cfg.outCap) : RefusedAtIn .ecdEncrypt s k := by
  have hbytes := inBytes_refused (s := { s with lcg := { s.lcg with
    tab := .ecd, idx := h16At s.cfg.hdrOrder s.metaBuf 4 } }) (a := 0) hk hb (by simpa using hn)
  rw [Nat.zero_add] at hbytes
  exact RefusedAt.runBody (.after (checkInCap_ok hin) (.after (h16_ok (b := .metaBuf) hmeta)
    (.after (checkIndex_ok hindex) (.get (.after (checkOutCap_ok hout)
      (.after (Engine.modify_apply _ _) (hbytes.bind _))))))) _

/-! ### EXF -/

theorem HasBytes.writeAll {m : Memory} {a : Nat} (h : HasBytes m 0 a) (bs : List Byte) :
    HasBytes (Memory.writeAll m a bs) 0 (a + bs.length) := by
  intro k hk
  rw [Memory.read_writeAll]
  split
  · rw [List.getElem?_eq_getElem (by omega)]; rfl
  · exact h k (by omega)

/-- The state with the key buffer replaced. -/
def State.withKb (kb : Memory) (s : State) : State := { s with exf := { s.exf with kb := kb } }

theorem Selected.withKb {e : LcgEntry} {s : State} (h : Selected e s) (kb : Memory) :
    Selected e (s.withKb kb) := h.of_eq rfl rfl rfl

theorem SameInput.withKb (kb : Memory) (s : State) : SameInput s (s.withKb kb) :=
  ⟨rfl, rfl, rfl, rfl⟩

theorem split32_length (o : ByteOrder) (v : Word) : (split32 o v).length = 4 := by
  cases o <;> rfl

/-- The rounds write four key bytes each behind those that stand there. -/
theorem exfRounds_ok {e : LcgEntry} {n a : Nat} {s : State} (seed : Word) (h : Selected e s)
    (hkb : HasBytes s.exf.kb 0 a) :
    ∃ t, exfRounds seed n a s = .ok () t ∧ SameInput s t ∧ HasBytes t.exf.kb 0 (a + 4 * n) := by
  induction n generalizing a s with
  | zero => exact ⟨s, rfl, ⟨rfl, rfl, rfl, rfl⟩, hkb⟩
  | succ n ih =>
    let bs := split32 s.cfg.keyByteOrder (lcgStep e s.lcg.s ^^^ seed)
    let s1 := (s.withKey (lcgStep e s.lcg.s)).withKb (Memory.writeAll s.exf.kb a bs)
    have hkb1 : HasBytes s1.exf.kb 0 (a + 4) := by
      have := hkb.writeAll bs
      rwa [split32_length] at this
    have hpass : exfRounds seed (n + 1) a s = exfRounds seed n (a + 4) s1 := by
      rw [exfRounds, Engine.bind_ok h.keyWord_ok]
      rfl
    obtain ⟨t, et, hsame, hhas⟩ := ih (s := s1) ((h.withKey _).withKb _) hkb1
    refine ⟨t, hpass.trans et, ((SameInput.withKey _ _).trans (.withKb _ _)).trans hsame, ?_⟩
    rwa [show a + 4 * (n + 1) = a + 4 + 4 * n by omega]

/-- The key derivation fills the key buffer. -/
theorem exfKey_ok {e : LcgEntry} {s : State} (h : Selected e s) (hseed : HasBytes s.inBuf 12 4) :
    ∃ t, exfKey s = .ok () t ∧ SameInput s t ∧ HasBytes t.exf.kb 0 32 := by
  let seed := h32At s.cfg.hdrOrder s.inBuf 12
  let s1 := (s.withKb (Memory.writeAll s.exf.kb 0 (List.replicate 16 0))).withKey seed
  have hkb1 : HasBytes s1.exf.kb 0 16 := HasBytes.writeAll (nofun : HasBytes s.exf.kb 0 0) _
  have hstart : exfKey s = exfRounds seed 4 16 s1 := by
    rw [exfKey, Engine.bind_ok (inH32_ok hseed)]
    rfl
  obtain ⟨t, et, hsame, hhas⟩ := exfRounds_ok (n := 4) (s := s1) seed ((h.withKb _).withKey _) hkb1
  exact ⟨t, hstart.trans et, ((SameInput.withKb _ _).trans (.withKey _ _)).trans hsame, hhas⟩

/-- The state with the payload count set. -/
def State.withCount (count : Word) (s : State) : State :=
  { s with exf := { s.exf with count := count } }

/-- The state in which the payload loop starts. -/
def State.startExf (s : State) : State := { s with exf := { s.exf with i := 0 } }

/-- An EXF file whose magic, index, length and seed pass leads to the copy of the header and the
payload loop. -/
theorem exfDecryptCommand_ready {s : State} (hin : s.inLen.toNat ≤ s.cfg.inCap)
    (hlen : 16 ≤ s.inLen.toNat) (hhead : HasBytes s.inBuf 0 6)
    (hmagic : h32At s.cfg.hdrOrder s.inBuf 0 = 0x1A667865)
    (hindex : (h16At s.cfg.hdrOrder s.inBuf 4).toNat < s.cfg.exfLcgTable.entries.length)
    (hout : s.inLen.toNat ≤ s.cfg.outCap) (hseed : HasBytes s.inBuf 12 4) :
    ∃ t, exfDecryptCommand s =
        (copyIn 16 >>= fun _ => modify State.startExf >>= fun _ =>
          exfLoop (s.inLen.toNat - 16)) t ∧
      SameInput s t ∧ t.inPos = 0 ∧ HasBytes t.exf.kb 0 32 := by
  let s1 : State := { s with lcg := { s.lcg with
    tab := .exf, idx := h16At s.cfg.hdrOrder s.inBuf 4 } }
  have hselect : selectLcg .exf (h16At s.cfg.hdrOrder s.inBuf 4) s = .ok ⟨⟩ s1 := rfl
  have hsel : Selected s.cfg.exfLcgTable.entries[(h16At s.cfg.hdrOrder s.inBuf 4).toNat] s1 :=
    List.getElem?_eq_getElem hindex
  obtain ⟨u, hkey, hsame, hkb⟩ := exfKey_ok hsel hseed
  let count := BitVec.ofNat 32 (exfCount u.cfg.countMode u.inLen.toNat)
  refine ⟨State.withInPos 0 (u.withCount count), ?_, ?_, rfl, hkb⟩
  case refine_2 =>
    have hselected : SameInput s s1 := ⟨rfl, rfl, rfl, rfl⟩
    exact (hselected.trans hsame).trans ⟨rfl, rfl, rfl, rfl⟩
  rw [exfDecryptCommand, Engine.bind_ok (checkInCap_ok hin),
    Engine.bind_ok (checkHeaderLen_ok hlen),
    Engine.bind_ok (inH32_ok (hhead.sub (by omega) (by omega))),
    raiseIf_bind_false (by simp [hmagic, exfMagic]),
    Engine.bind_ok (inH16_ok (hhead.sub (by omega) (by omega))),
    Engine.bind_ok (checkIndex_ok hindex), Engine.get_bind, Engine.bind_ok (checkOutCap_ok hout)]
  refine (Engine.bind_ok hselect).trans ?_
  rw [exfDecryptBody, Engine.bind_ok hkey, Engine.get_bind, ← hsame.inLen]
  rfl

end Sys2Proof.Machine
end

section
/-! Reads without value behind the header of a file, and the bodies of all commands together. -/

namespace Sys2Proof.Machine

/-! ### Appended bytes -/

theorem AppendResult.cfg {s t : State} {bs : List Byte} (h : AppendResult s t bs) :
    t.cfg = s.cfg := by rw [h.1]

theorem AppendResult.inPos {s t : State} {bs : List Byte} (h : AppendResult s t bs) :
    t.inPos = s.inPos := by rw [h.1]

theorem AppendResult.inLen {s t : State} {bs : List Byte} (h : AppendResult s t bs) :
    t.inLen = s.inLen := by rw [h.1]

theorem AppendResult.inBuf {s t : State} {bs : List Byte} (h : AppendResult s t bs) :
    t.inBuf = s.inBuf := by rw [h.1]

theorem AppendResult.exf {s t : State} {bs : List Byte} (h : AppendResult s t bs) :
    t.exf = s.exf := by rw [h.1]

theorem Room.appended {s t : State} {bs : List Byte} {k : Nat} (h : Room (bs.length + k) s)
    (ha : AppendResult s t bs) : Room k t := by
  obtain ⟨hcap, hfit⟩ := h
  have hpos := ha.outPos (by omega)
  refine ⟨fun hk => ?_, by omega⟩
  have := hcap (by omega)
  rw [ha.cfg]
  omega

/-! ### The payload of EXF -/

theorem exfDecrypt_body_refused {s : State} {k : Nat} (hs : Started s)
    (hin : s.inLen.toNat ≤ s.cfg.inCap) (hlen : 16 ≤ s.inLen.toNat)
    (hmagic : h32At s.cfg.hdrOrder s.inBuf 0 = 0x1A667865)
    (hindex : (h16At s.cfg.hdrOrder s.inBuf 4).toNat < s.cfg.exfLcgTable.entries.length)
    (hout : s.inLen.toNat ≤ s.cfg.outCap) (hseed : HasBytes s.inBuf 12 4) (h6 : 6 ≤ k)
    (hk : k < s.inLen.toNat) (hb : HasBytes s.inBuf 0 k) (hn : Memory.read s.inBuf k = none) :
    RefusedAtIn .exfDecrypt s k := by
  obtain ⟨t, et, hsame, hpos, hkb⟩ := exfDecryptCommand_ready hin hlen
    (hb.sub (Nat.le_refl 0) (by omega)) hmagic hindex hout hseed
  have hfit := s.inLen.isLt
  have hroom : ∀ n ≤ k, Room n t := fun n hn => (hs.room (by omega) (by omega)).of_same hsame
  have hpos0 : t.inPos.toNat = 0 := by rw [hpos]; rfl
  have hlt : t.inPos.toNat + k < t.inLen.toNat := by rw [hpos0, hsame.inLen]; omega
  have hbt : HasBytes t.inBuf t.inPos.toNat k := by rwa [hpos0, hsame.inBuf]
  have hnt : Memory.read t.inBuf (t.inPos.toNat + k) = none := by
    rwa [hpos0, Nat.zero_add, hsame.inBuf]
  suffices hbody : RefusedAt (copyIn 16 >>= fun _ => modify State.startExf >>= fun _ =>
      exfLoop (s.inLen.toNat - 16)) t .inBuf (t.inPos.toNat + k) by
    obtain ⟨u, eu⟩ := hbody
    rw [hpos0, Nat.zero_add] at eu
    exact RefusedAt.runBody ⟨u, et.trans eu⟩ _
  rcases Nat.lt_or_ge k 16 with h16 | h16
  · exact (inputLoop_copyIn.refused (hroom k (Nat.le_refl k)) h16 hlt hbt hnt).bind _
  · obtain ⟨hcap, hfit16⟩ := hroom 16 h16
    obtain ⟨u, eu, hu⟩ := copyIn_ok (n := 16) (by omega) (hcap (by omega)) hfit16
      (hbt.sub (Nat.le_refl _) (by omega))
    have hroom' : Room (k - 16) u := by
      refine Room.appended (s := { t with inPos := _ }) ?_ hu
      rw [bytesAt_length, show 16 + (k - 16) = k by omega]
      exact hroom k (Nat.le_refl k)
    have hupos : u.inPos.toNat = t.inPos.toNat + 16 := by
      rw [hu.inPos]
      exact toNat_add_ofNat (by omega)
    have haddr : t.inPos.toNat + k = u.inPos.toNat + (k - 16) := by omega
    have hulen : u.inLen = t.inLen := hu.inLen
    have hubuf : u.inBuf = t.inBuf := hu.inBuf
    rw [haddr] at hlt hnt ⊢
    refine .after eu (.after (Engine.modify_apply _ _) ?_)
    refine inputLoop_exf.refused (s := u.startExf) ⟨hroom'.of_same ⟨rfl, rfl, rfl, rfl⟩, ?_⟩
      (by omega) (by rw [← hulen] at hlt; exact hlt) ?_ (by rw [← hubuf] at hnt; exact hnt)
    · show HasBytes u.exf.kb 0 32
      rw [hu.exf]
      exact hkb
    · show HasBytes u.inBuf u.inPos.toNat (k - 16)
      rw [hubuf]
      exact hbt.sub (by omega) (by omega)

/-! ### The plaintext of JPK_ENCODE -/

theorem jpkHeaderBytes_length (unk ty : Half) (inLen : Word) :
    (jpkHeaderBytes unk ty inLen).length = 16 := rfl

/-- Every OUT has room for a header: a capacity is at least 16 (00_scope.md R6). -/
theorem jpkHeader_ok {s : State} (hs : Started s) :
    ∃ t, jpkHeader s = .ok () t ∧
      AppendResult s t (jpkHeaderBytes s.paramUnk s.paramType s.inLen) := by
  obtain ⟨hcap, hfit⟩ := hs.room (k := 16) (Nat.le_add_left ..) (by omega)
  exact appendAll_ok (by rw [jpkHeaderBytes_length]; exact hcap (by omega))
    (by rw [jpkHeaderBytes_length]; exact hfit)

theorem jpkEncode_raw_refused {s : State} {k : Nat} (hs : Started s)
    (hin : s.inLen.toNat ≤ s.cfg.inCap) (hk : k < s.inLen.toNat) (hb : HasBytes s.inBuf 0 k)
    (hn : Memory.read s.inBuf k = none) (hty : s.paramType = 0)
    (hout : 16 + s.inLen.toNat ≤ s.cfg.outCap) (hfit : 16 + s.inLen.toNat < 2 ^ 32) :
    RefusedAtIn .jpkEncode s k := by
  have hraw : jpkType s.paramType = .raw := by rw [hty]; rfl
  obtain ⟨t, et, ht⟩ := jpkHeader_ok hs
  have hroom : Room k t := Room.appended
    (by rw [jpkHeaderBytes_length]; exact hs.room (by omega) (by omega)) ht
  have hloop := inputLoop_copyIn.refused (s := State.withInPos 0 t) (n := s.inLen.toNat) (k := k)
    (hroom.of_same ⟨rfl, rfl, rfl, rfl⟩) hk
    (by show 0 + k < t.inLen.toNat; rw [ht.inLen]; omega)
    (by show HasBytes t.inBuf 0 k; rw [ht.inBuf]; exact hb)
    (by show Memory.read t.inBuf (0 + k) = none; rw [ht.inBuf, Nat.zero_add]; exact hn)
  have hzero : (State.withInPos 0 t).inPos.toNat + k = k := Nat.zero_add k
  rw [hzero] at hloop
  refine RefusedAt.runBody (.after (checkInCap_ok hin) (.get ?_)) _
  simp only [hraw]
  exact .check rfl (.check rfl (.check rfl (.after (checkOutCap_ok hout)
    (.after et (.after (Engine.modify_apply _ _) hloop)))))

theorem findMatch_zero (s : State) : findMatch 0 s = .ok (0, 0) s := by
  unfold findMatch
  rw [Engine.get_bind]
  exact congrFun (if_pos (Or.inl rfl)) s

/-- The encoder reads the first plaintext byte for the LIT that every stream begins with. -/
theorem lzEncode_refused {s : State} (hl : 0 < s.inLen.toNat)
    (hn : Memory.read s.inBuf 0 = none) : RefusedAt lzEncode s .inBuf 0 := by
  let s1 : State := { s with enc := { s.enc with pos := 0 } }
  have hstep : RefusedAt encodeStep s1 .inBuf 0 := by
    refine .get (.after (findMatch_zero s1) ?_)
    rw [if_pos (by decide)]
    exact (memRead_refused (b := .inBuf) (s := s1) hn).bind _
  have hloop : RefusedAt (encodeLoop s.inLen.toNat) s1 .inBuf 0 := by
    obtain ⟨n, hlen⟩ : ∃ n, s.inLen.toNat = n + 1 := ⟨s.inLen.toNat - 1, by omega⟩
    rw [hlen, encodeLoop]
    refine .get ?_
    rw [if_pos (show s1.enc.pos.toNat < s1.inLen.toNat from hl)]
    exact hstep.bind _
  exact .after (Engine.modify_apply _ _) (.get (hloop.bind _))

theorem jpkEncode_lz_refused {s : State} (hs : Started s) (hin : s.inLen.toNat ≤ s.cfg.inCap)
    (hl : 0 < s.inLen.toNat) (hn : Memory.read s.inBuf 0 = none) (hty : s.paramType = 3)
    (hlevel : s.paramLevel.toNat ≤ s.cfg.lzMaxLen) : RefusedAtIn .jpkEncode s 0 := by
  have hlz : jpkType s.paramType = .lz := by rw [hty]; rfl
  obtain ⟨t, et, ht⟩ := jpkHeader_ok hs
  refine RefusedAt.runBody (.after (checkInCap_ok hin) (.get ?_)) _
  simp only [hlz]
  exact .check rfl (.check rfl (.check (by simpa using hlevel) (.after et
    (lzEncode_refused (by rw [ht.inLen]; exact hl) (by rw [ht.inBuf]; exact hn)))))

/-! ### All bodies -/

theorem bodyReadsRefused : BodyReadsRefused := by
  refine ⟨fun s ty off size k hs h hl hb hn hty => ?_,
    fun s e k hs h hout hk hl hb hn => ecdDecrypt_body_refused hs h hout hk hl hb hn,
    fun s k hs hin hlen hmagic hindex hout hseed h6 hk hb hn =>
      exfDecrypt_body_refused hs hin hlen hmagic hindex hout hseed h6 hk hb hn,
    fun s k hs hin hk hb hn => ⟨jpkEncode_raw_refused hs hin hk hb hn, fun hty hlevel h0 => ?_,
      ecdEncrypt_body_refused hin hk hb hn⟩⟩
  · rcases hty with ⟨rfl, hk⟩ | ⟨hty, hk⟩
    · exact jpkDecode_raw_refused hs h hl hb hn hk
    · exact jpkDecode_table_refused h hl hb hn hty hk
  · subst h0
    exact jpkEncode_lz_refused hs hin hk hn hty hlevel

end Sys2Proof.Machine
end

section
/-! The fetch of a token in a type-3 decode follows the plain decoder on the bytes of IN that it has
before it, and the reads of a token that hold no value. -/

namespace Sys2Proof.Machine

/-! ### The engine as a reader of a byte stream -/

/-- The engine where the bytes of IN below `e` that it has not read are those of the stream. -/
def State.atSource (s : State) (e : Nat) (src : TokenSource) : State :=
  { s with bc := src.cursor, inPos := BitVec.ofNat 32 (e - src.bytes.length) }

/-- The stream is what is left of IN below `e`, and all of it holds values. -/
def Unread (s : State) (e : Nat) (src : TokenSource) : Prop :=
  ∃ a, a + src.bytes.length = e ∧ HasBytes s.inBuf a src.bytes.length ∧
    src.bytes = bytesAt s.inBuf a src.bytes.length

/-- With the Huffman layer off, `InByte()` stops with `x` once it reaches `e`. -/
structure StopsAt (s : State) (e : Nat) (x : Stop) : Prop where
  off : s.hf.on = false
  inside : e ≤ s.inLen.toNat
  stop : ∀ src : TokenSource, src.bytes = [] →
    inByte (s.atSource e src) = .error x (s.atSource e src)

/-- The engine operation `y` follows the stream reader `m`: it answers the same and stands where the
reader stands, and where the reader finds no byte it stops with `x`. -/
def Follows {α : Type} (s : State) (e : Nat) (x : Stop) (y : Engine α) (m : StreamReader α) :
    Prop :=
  ∀ src, Unread s e src →
    (∀ v src', m src = .ok v src' →
      y (s.atSource e src) = .ok v (s.atSource e src') ∧ Unread s e src') ∧
    ∀ r src', m src = .error r src' →
      y (s.atSource e src) = .error x (s.atSource e src') ∧ src'.bytes = []

section
variable {α β : Type} {s : State} {e : Nat} {x : Stop}

theorem follows_pure (v : α) : Follows s e x (pure v) (pure v) := by
  refine fun src hu => ⟨fun w src' h => ?_, fun r src' h => ?_⟩ <;> cases h
  exact ⟨rfl, hu⟩

theorem streamReader_bind_apply (m : StreamReader α) (f : α → StreamReader β) (src : TokenSource) :
    (m >>= f) src = match m src with
      | .ok a src' => f a src'
      | .error r src' => .error r src' := by
  show EStateM.bind m f src = _
  unfold EStateM.bind
  cases m src <;> rfl

theorem follows_bind {y : Engine α} {m : StreamReader α} {f : α → Engine β}
    {g : α → StreamReader β} (h : Follows s e x y m) (hf : ∀ v, Follows s e x (f v) (g v)) :
    Follows s e x (y >>= f) (m >>= g) := by
  intro src hu
  obtain ⟨hok, herr⟩ := h src hu
  rw [streamReader_bind_apply]
  cases hm : m src with
  | ok v src1 =>
    obtain ⟨hy, hu1⟩ := hok v src1 hm
    rw [Engine.bind_ok hy]
    exact hf v src1 hu1
  | error r src1 =>
    obtain ⟨hy, hnil⟩ := herr r src1 hm
    rw [Engine.bind_error hy]
    refine ⟨nofun, fun _ _ h => ?_⟩
    cases h
    exact ⟨rfl, hnil⟩

theorem follows_ite {c : Prop} [Decidable c] {y1 y2 : Engine α} {m1 m2 : StreamReader α}
    (h1 : Follows s e x y1 m1) (h2 : Follows s e x y2 m2) :
    Follows s e x (if c then y1 else y2) (if c then m1 else m2) := by
  split <;> assumption

theorem Unread.cons {c : BitCursor} {b : Byte} {bs : List Byte} (hu : Unread s e ⟨c, b :: bs⟩) :
    Unread s e ⟨c, bs⟩ ∧ bs.length + 1 ≤ e ∧
      Memory.read s.inBuf (e - (bs.length + 1)) = some b := by
  obtain ⟨a, ha, hb, hbytes⟩ := hu
  simp only [List.length_cons] at ha hb hbytes
  rw [bytesAt_succ, List.cons.injEq] at hbytes
  obtain ⟨rfl, hbytes⟩ := hbytes
  refine ⟨⟨a + 1, by simp only; omega, hb.tail, hbytes⟩, by omega, ?_⟩
  rw [show e - (bs.length + 1) = a by omega]
  exact hb.read (k := 0) (by omega)

theorem StopsAt.inByte_cons (h : StopsAt s e x) {c : BitCursor} {b : Byte} {bs : List Byte}
    (hu : Unread s e ⟨c, b :: bs⟩) :
    inByte (s.atSource e ⟨c, b :: bs⟩) = .ok b (s.atSource e ⟨c, bs⟩) := by
  obtain ⟨-, hlen, hread⟩ := hu.cons
  have hinside := h.inside
  have hfit := s.inLen.isLt
  have hpos : (s.atSource e ⟨c, b :: bs⟩).inPos.toNat = e - (bs.length + 1) :=
    Nat.mod_eq_of_lt (by simp only [List.length_cons]; omega)
  have hlt : (s.atSource e ⟨c, b :: bs⟩).inPos.toNat < s.inLen.toNat := by omega
  rw [inByte_ok hlt (by rw [hpos]; exact hread)]
  have hnext : BitVec.ofNat 32 (e - (bs.length + 1)) + 1 = BitVec.ofNat 32 (e - bs.length) := by
    rw [show e - bs.length = e - (bs.length + 1) + 1 by omega, BitVec.ofNat_add]
    rfl
  simp only [State.advanceIn, State.atSource, List.length_cons, hnext]

theorem StopsAt.follows_inByte (h : StopsAt s e x) : Follows s e x inByte streamByte := by
  rintro ⟨c, bytes⟩ hu
  cases bytes with
  | nil =>
    refine ⟨nofun, fun _ _ hm => ?_⟩
    cases hm
    exact ⟨h.stop _ rfl, rfl⟩
  | cons b bs =>
    refine ⟨fun _ _ hm => ?_, nofun⟩
    cases hm
    exact ⟨h.inByte_cons hu, hu.cons.1⟩

theorem StopsAt.follows_srcByte (h : StopsAt s e x) : Follows s e x srcByte streamByte := by
  intro src hu
  rw [srcByte_of_off (s := s.atSource e src) h.off]
  exact h.follows_inByte src hu

theorem lzBit_empty {s : State} (h : s.bc.rem = 0) :
    lzBit s = (srcByte >>= fun b => modify (State.withBc (BitCursor.refilled b)) >>= fun _ =>
      pure (BitCursor.firstBit b)) s := by
  unfold lzBit readBitOf
  rw [Engine.get_bind]
  exact congrFun (if_pos h) s

theorem lzBit_held {s : State} (h : s.bc.rem ≠ 0) :
    lzBit s = .ok s.bc.bit (State.withBc s.bc.advance s) := by
  unfold lzBit readBitOf
  rw [Engine.get_bind]
  exact congrFun (if_neg h) s

theorem StopsAt.follows_lzBit (h : StopsAt s e x) : Follows s e x lzBit streamBit := by
  rintro ⟨c, bytes⟩ hu
  by_cases hrem : c.rem = 0
  · have hsrc : srcByte (s.atSource e ⟨c, bytes⟩) = inByte (s.atSource e ⟨c, bytes⟩) :=
      srcByte_of_off h.off
    rw [lzBit_empty (s := s.atSource e ⟨c, bytes⟩) hrem]
    simp only [streamBit, hrem, if_true]
    cases bytes with
    | nil =>
      refine ⟨nofun, fun _ _ hm => ?_⟩
      cases hm
      exact ⟨Engine.bind_error (hsrc.trans (h.stop _ rfl)), rfl⟩
    | cons b bs =>
      refine ⟨fun _ _ hm => ?_, nofun⟩
      cases hm
      exact ⟨Engine.bind_ok (hsrc.trans (h.inByte_cons hu)), hu.cons.1⟩
  · rw [lzBit_held (s := s.atSource e ⟨c, bytes⟩) hrem]
    simp only [streamBit, hrem, if_false]
    refine ⟨fun _ _ hm => ?_, nofun⟩
    cases hm
    exact ⟨rfl, hu⟩

theorem StopsAt.follows_readBits (h : StopsAt s e x) (n v : Nat) :
    Follows s e x (readBitsWith lzBit n v) (readBitsWith streamBit n v) := by
  induction n generalizing v with
  | zero => exact follows_pure v
  | succ n ih => exact follows_bind h.follows_lzBit fun _ => ih _

/-- The fetch of a token is the decision tree of the plain decoder (42_lz_decode.md R162). -/
theorem StopsAt.follows_fetchToken (h : StopsAt s e x) :
    Follows s e x fetchToken (decodeTree streamBit streamByte) := by
  have hbit := h.follows_lzBit
  have hbyte := h.follows_srcByte
  unfold fetchToken decodeTree
  refine follows_bind hbit fun _ => follows_ite (follows_bind hbit fun _ => follows_ite ?_ ?_) ?_
  · refine follows_bind hbyte fun _ => follows_bind hbyte fun _ =>
      follows_ite (follows_pure _) (follows_bind hbit fun _ => follows_ite ?_ ?_)
    · exact follows_bind hbyte fun _ => follows_ite (follows_pure _) (follows_pure _)
    · exact follows_bind (h.follows_readBits _ _) fun _ => follows_pure _
  · exact follows_bind (h.follows_readBits _ _) fun _ => follows_bind hbyte fun _ => follows_pure _
  · exact follows_bind hbyte fun _ => follows_pure _

end

theorem decodeToken_eq_error {src : TokenSource} {r : DecodeError}
    (h : decodeToken src = .error r) :
    ∃ src', decodeTree streamBit streamByte src = .error r src' := by
  unfold decodeToken at h
  split at h <;> cases h
  exact ⟨_, ‹_›⟩

/-! ### The head of a token -/

/-- The bytes from `in_pos` on, as the stream the engine is about to read. -/
theorem atSource_start (s : State) (n : Nat) :
    s.atSource (s.inPos.toNat + n) ⟨s.bc, bytesAt s.inBuf s.inPos.toNat n⟩ = s := by
  simp [State.atSource, bytesAt_length]

theorem unread_start {s : State} {n : Nat} (c : BitCursor)
    (hb : HasBytes s.inBuf s.inPos.toNat n) :
    Unread s (s.inPos.toNat + n) ⟨c, bytesAt s.inBuf s.inPos.toNat n⟩ := by
  refine ⟨s.inPos.toNat, ?_, ?_, ?_⟩ <;> simp only [bytesAt_length]
  exact hb

/-- An address without value below IN_LEN is where the engine's reads are refused. -/
theorem stopsAt_unwritten {s : State} {e : Nat} (hoff : s.hf.on = false) (hl : e < s.inLen.toNat)
    (hn : Memory.read s.inBuf e = none) :
    StopsAt s e (.refuse (.unwrittenByte .inBuf e)) where
  off := hoff
  inside := by omega
  stop := by
    intro src hnil
    have hfit := s.inLen.isLt
    have hpos : (s.atSource e src).inPos.toNat = e := by
      simp only [State.atSource, hnil, List.length_nil, Nat.sub_zero]
      exact Nat.mod_eq_of_lt (by omega)
    rcases inByte_cases (s.atSource e src) with ⟨_, _, hs, _⟩ | ⟨he, _⟩ | ⟨_, _, h⟩
    · rw [hpos] at hs
      exact absurd (hs.symm.trans hn) (by simp)
    · rw [hpos] at he
      exact absurd he (Nat.not_le.2 hl)
    · rwa [hpos] at h

theorem decodeStep_fetch_refused {s t : State} {r : Refusal} (hroom : s.outPos.toNat < s.size.toNat)
    (h : fetchToken s.markToken = .error (.refuse r) t) : decodeStep s = .refused r := by
  simp [decodeStep, hroom, h]

theorem tokenHead_refused {s : State} {n : Nat} (hhost : s.host = []) (hphase : s.phase = .lzDecode)
    (hroom : s.outPos.toNat < s.size.toNat) (hoff : s.hf.on = false)
    (hl : s.inPos.toNat + n < s.inLen.toNat) (hb : HasBytes s.inBuf s.inPos.toNat n)
    (hn : Memory.read s.inBuf (s.inPos.toNat + n) = none)
    (hd : decodeToken ⟨s.bc, bytesAt s.inBuf s.inPos.toNat n⟩ = .error .streamEnded) :
    step s = .refused (.unwrittenByte .inBuf (s.inPos.toNat + n)) := by
  obtain ⟨src', htree⟩ := decodeToken_eq_error hd
  have hstops := stopsAt_unwritten (s := s.markToken) hoff hl hn
  have hunread : Unread s.markToken (s.inPos.toNat + n)
      ⟨s.bc, bytesAt s.inBuf s.inPos.toNat n⟩ := unread_start (s := s.markToken) s.bc hb
  obtain ⟨-, herr⟩ := hstops.follows_fetchToken _ hunread
  obtain ⟨hfetch, -⟩ := herr _ src' htree
  have hstart : s.markToken.atSource (s.inPos.toNat + n) ⟨s.bc, bytesAt s.inBuf s.inPos.toNat n⟩ =
      s.markToken := atSource_start s.markToken n
  rw [hstart] at hfetch
  have hdecode : step s = decodeStep s := by simp [step, hhost, engineStep, hphase]
  rw [hdecode]
  exact decodeStep_fetch_refused hroom hfetch

/-! ### The data of a RUN, and the source of a back-reference -/

theorem runData_refused {s : State} {count : BitVec 13} {k : Nat}
    (hsize : s.outPos.toNat + (count.toNat + 0x1B) ≤ s.size.toNat) (hoff : s.hf.on = false)
    (hk : k < count.toNat + 0x1B) (hcap : k = 0 ∨ s.outPos.toNat + k ≤ s.cfg.outCap)
    (hl : s.inPos.toNat + k < s.inLen.toNat) (hb : HasBytes s.inBuf s.inPos.toNat k)
    (hn : Memory.read s.inBuf (s.inPos.toNat + k) = none) :
    RefusedAtIn (.run count) s (s.inPos.toNat + k) := by
  have hfit := s.size.isLt
  have hroom : Room k s := ⟨fun _ => by omega, by omega⟩
  have hloop := inputLoop_runLoop.refused (n := runLength count) ⟨hroom, hoff⟩ hk hl hb hn
  exact RefusedAt.runBody (.get (.check (decide_eq_false (Nat.not_lt.2 hsize)) hloop)) id

/-- Every match token is a copy of its fields, and copies at least one byte. -/
theorem exec_match {i : Instr} {offset n : Nat} (h : matchFields i = some (offset, n)) (s : State) :
    exec i s = runToken (copyBack offset n) s ∧ 0 < n := by
  cases i <;> simp only [matchFields, Option.some.injEq, Prod.mk.injEq, reduceCtorEq] at h
  all_goals
    obtain ⟨rfl, rfl⟩ := h
    exact ⟨rfl, by omega⟩

theorem matchSource_refused {i : Instr} {offset n : Nat} {s : State}
    (h : matchFields i = some (offset, n)) (hback : offset + 1 ≤ s.outPos.toNat)
    (hsize : s.outPos.toNat + n ≤ s.size.toNat)
    (hn : Memory.read s.outBuf (s.outPos.toNat - (offset + 1)) = none) :
    exec i s = .refused (.unwrittenByte .outBuf (s.outPos.toNat - (offset + 1))) := by
  obtain ⟨hexec, hpos⟩ := exec_match h s
  obtain ⟨m, rfl⟩ : ∃ m, n = m + 1 := ⟨n - 1, by omega⟩
  have hloop : RefusedAt (copyLoop offset (m + 1)) s .outBuf (s.outPos.toNat - (offset + 1)) :=
    .get ((memRead_refused (b := .outBuf) hn).bind _)
  rw [hexec]
  exact RefusedAt.runBody (.get (.check (decide_eq_false (Nat.not_lt.2 hback))
    (.check (decide_eq_false (Nat.not_lt.2 hsize)) hloop))) id

theorem tokenReadsRefused : TokenReadsRefused :=
  ⟨fun _ _ hhost hphase hroom hoff hl hb hn hd =>
      tokenHead_refused hhost hphase hroom hoff hl hb hn hd,
    fun _ _ _ hsize hoff hk hcap hl hb hn => runData_refused hsize hoff hk hcap hl hb hn,
    fun _ _ _ _ h _ hback hsize hn => matchSource_refused h hback hsize hn⟩

/-! ### The obligation -/

/-- Settles O54: the reads of the HOST one by one, `MemRead` by its definition, and the reads of the
commands and tokens by the three parts that the statement names. -/
theorem readsWithoutValueAreRefused : Obligations.ReadsWithoutValueAreRefused := by
  refine ⟨fun s a hidle => ?_, fun b a s h => memRead_none h, headerReadsRefused, bodyReadsRefused,
    tokenReadsRefused⟩
  simp only [hostMove_idle hidle]
  refine ⟨fun h => ?_,
    fun ha hn => (idleMove_readIn ha).trans (hostRead_none (b := .inBuf) hn),
    fun ha hn => (idleMove_readMeta ha).trans (hostRead_none (b := .metaBuf) hn)⟩
  rcases Nat.lt_or_ge a.toNat s.outLen.toNat with hlt | hge
  · have hn : Memory.read s.outBuf a.toNat = none := h.resolve_left (Nat.not_le.2 hlt)
    exact (idleMove_readOut hlt).trans (hostRead_none (b := .outBuf) hn)
  · exact idleMove_readOut_beyond hge

end Sys2Proof.Machine
end

section
/-! What the engine never writes: its inputs in any step, and the registers of LCG_NEXT in any other
instruction. Whatever moves, the parameters stand. -/

namespace Sys2Proof.Machine

/-! ### Through the end of a body -/

/-- The inputs and the two registers of LCG_NEXT are the same: `Kept` without the fields that the
end of a body writes. -/
def InputsAndLcgKept (s t : State) : Prop :=
  InputsKept s t ∧ t.lcgState = s.lcgState ∧ t.lcgWord = s.lcgWord

section
variable {s s' t : State}

theorem InputsKept.refl (s : State) : InputsKept s s :=
  ⟨rfl, rfl, rfl, rfl, rfl, rfl, rfl, rfl, rfl, rfl⟩

theorem kept_markToken (s : State) : Kept s s.markToken :=
  ⟨.refl s, rfl, rfl, rfl, rfl, rfl, rfl, rfl, rfl, rfl⟩

theorem Kept.inputsAndLcg (h : Kept s t) : InputsAndLcgKept s t := by
  obtain ⟨hin, -, -, -, -, hstate, hword, -⟩ := h
  exact ⟨hin, hstate, hword⟩

theorem InputsAndLcgKept.startDecode (h : InputsAndLcgKept s s') :
    InputsAndLcgKept s s'.startDecode := h

theorem InputsAndLcgKept.endWithFault (h : InputsAndLcgKept s s') (k : FaultKind) (n : Nat) :
    InputsAndLcgKept s (endWithFault k n s') := by
  rcases endWithFault_cases k n s' with ⟨-, e⟩ | ⟨-, e⟩ <;> rw [e] <;> exact h

theorem InputsAndLcgKept.complete (h : InputsAndLcgKept s s') :
    InputsAndLcgKept s (complete s') := by
  rcases complete_cases s' with ⟨-, e⟩ | ⟨-, e⟩ <;> rw [e] <;> exact h

theorem InputsAndLcgKept.execEnds {i : Instr} (h : InputsAndLcgKept s s') (e : ExecEnds i s' t) :
    InputsAndLcgKept s t := by
  rcases e with ⟨-, rfl⟩ | ⟨-, rfl⟩ | ⟨-, rfl⟩ | ⟨f, n, rfl⟩
  · exact h
  · exact h.startDecode
  · exact h.complete
  · exact h.endWithFault f n

/-! ### Instructions and steps -/

theorem exec_inputsAndLcgKept {i : Instr} (hi : ∀ b, i ≠ .lcgNext b) (e : exec i s = .next t) :
    InputsAndLcgKept s t := by
  rcases exec_next kept_closed e with ⟨s', hk, hend⟩ | ⟨b, -, rfl, -⟩
  · exact hk.inputsAndLcg.execEnds hend
  · exact absurd rfl (hi b)

theorem engineStep_inputsKept (e : engineStep s = .next t) : InputsKept s t := by
  rcases engineStep_next kept_closed kept_markToken e with
    ⟨-, rfl⟩ | ⟨-, s', hk, hend⟩ | ⟨-, -, w, -, -, -, rfl⟩
  · exact .refl _
  · have h : InputsAndLcgKept s s' := hk.inputsAndLcg
    rcases hend with ⟨-, rfl⟩ | rfl | rfl | ⟨f, n, rfl⟩
    · exact h.1
    · exact h.startDecode.1
    · exact h.complete.1
    · exact (h.endWithFault f n).1
  · exact InputsKept.refl s

theorem SameCore.cfg (h : SameCore s t) : t.cfg = s.cfg := h.1

theorem InputsKept.cfg (h : InputsKept s t) : t.cfg = s.cfg := h.1

theorem HostEffect.cfg (h : HostEffect s t) : t.cfg = s.cfg := by
  cases h with
  | kept h => exact h.cfg
  | wroteIn _ _ _ h => exact h.cfg
  | wroteMeta _ _ _ h => exact h.cfg
  | started _ h => exact h.cfg
  | reset h => exact h.cfg

/-- Neither agent changes the parameters; a reset keeps them (70_reset_and_hazards.md R360). -/
theorem step_cfg (e : step s = .next t) : t.cfg = s.cfg := by
  unfold step at e
  split at e
  · exact (engineStep_inputsKept e).cfg
  · exact (engineStep_inputsKept e).cfg
  · exact (hostMove_effect e).cfg

end

/-! ### The obligation -/

/-- Settles O55: a body writes working registers, OUT and the key buffer only, with the two registers
of LCG_NEXT on top for that one, and no way to end a body writes an input. -/
theorem engineNeverWritesItsInputs : Obligations.EngineNeverWritesItsInputs :=
  ⟨fun _ _ e => engineStep_inputsKept e, fun _ _ _ e hi => (exec_inputsAndLcgKept hi e).2,
    fun _ _ e => step_cfg e⟩

end Sys2Proof.Machine
end

section
/-! The token stream: its items read one by one, the bytes the writer packs, and the decision tree
over both. -/

namespace Sys2Proof.Machine

/-! ### Items read from a stream -/

/-- The reader takes exactly the items `is` from the stream `src`, and stands at `t` after them. -/
def Reads (is : List Item) (src t : TokenSource) : Prop := readItems is src = .ok is t

section
variable {α β : Type} {src u t : TokenSource}

theorem streamReader_bind_ok {m : StreamReader α} {a : α} (h : m src = .ok a u)
    (f : α → StreamReader β) : (m >>= f) src = f a u := by rw [streamReader_bind_apply, h]

theorem streamReader_bind_eq_ok {m : StreamReader α} {f : α → StreamReader β} {b : β} :
    (m >>= f) src = .ok b t ↔ ∃ a u, m src = .ok a u ∧ f a u = .ok b t := by
  rw [streamReader_bind_apply]
  cases m src <;> simp

@[simp] theorem streamReader_pure_apply (a : α) : (pure a : StreamReader α) src = .ok a src := rfl

@[simp] theorem reads_nil : Reads [] src t ↔ src = t := by simp [Reads, readItems]

@[simp] theorem reads_flag {b : Bool} {is : List Item} :
    Reads (.flag b :: is) src t ↔ ∃ u, streamBit src = .ok b u ∧ Reads is u t := by
  simp only [Reads, readItems, streamReader_bind_eq_ok, streamReader_pure_apply,
    EStateM.Result.ok.injEq, List.cons.injEq, Item.flag.injEq]
  grind

@[simp] theorem reads_data {b : Byte} {is : List Item} :
    Reads (.data b :: is) src t ↔ ∃ u, streamByte src = .ok b u ∧ Reads is u t := by
  simp only [Reads, readItems, streamReader_bind_eq_ok, streamReader_pure_apply,
    EStateM.Result.ok.injEq, List.cons.injEq, Item.data.injEq]
  grind

theorem reads_append {is js : List Item} :
    Reads (is ++ js) src t ↔ ∃ u, Reads is src u ∧ Reads js u t := by
  induction is generalizing src with
  | nil => simp
  | cons i is ih =>
    cases i with
    | flag b => simp only [List.cons_append, reads_flag, ih]; grind
    | data b => simp only [List.cons_append, reads_data, ih]; grind

end

/-! ### Flag fields -/

@[simp] theorem flagField_zero (v : BitVec 0) : flagField v = [] := rfl

theorem flagField_cons {n : Nat} (b : Bool) (v : BitVec n) :
    flagField (v.cons b) = .flag b :: flagField v := by
  have hhigh : (v.cons b).getMsbD 0 = b := BitVec.msb_cons
  have hlow (k : Nat) : (v.cons b).getMsbD (k + 1) = v.getMsbD k := by
    simp only [BitVec.getMsbD_eq_getLsbD, BitVec.getLsbD_cons]
    grind
  simp [flagField, List.range_succ_eq_map, Function.comp_def, hhigh, hlow]

/-- `ReadBits` of a flag field gives its value (40_bitcursor.md R131). -/
theorem readBits_flagField {n : Nat} (v : BitVec n) (x : Nat) {src t : TokenSource}
    (h : Reads (flagField v) src t) :
    readBitsWith streamBit n x src = .ok (x * 2 ^ n + v.toNat) t := by
  induction n generalizing x src with
  | zero =>
    obtain rfl : src = t := by simpa using h
    simp [readBitsWith, BitVec.of_length_zero]
  | succ n ih =>
    obtain ⟨b, w, rfl⟩ : ∃ (b : Bool) (w : BitVec n), v = w.cons b :=
      ⟨v.msb, v.setWidth n, (BitVec.cons_msb_setWidth v).symm⟩
    rw [flagField_cons, reads_flag] at h
    obtain ⟨u, hbit, hrest⟩ := h
    rw [readBitsWith, streamReader_bind_ok hbit, ih w _ hrest, BitVec.toNat_cons']
    congr 1
    rw [Nat.shiftLeft_eq]
    ring

/-! ### The bytes of a long token (30_encoding.md R94) -/

theorem lenField_of_hi (lenField : BitVec 3) (high : BitVec 5) :
    (lenField ++ high).extractLsb' 5 3 = lenField := BitVec.extractLsb'_append_eq_left

theorem offset_of_hi_lo (lenField : BitVec 3) (offset : BitVec 13) :
    (lenField ++ offset.extractLsb' 8 5).extractLsb' 0 5 ++ offset.extractLsb' 0 8 = offset := by
  have hhigh : (lenField ++ offset.extractLsb' 8 5).extractLsb' 0 5 = offset.extractLsb' 8 5 :=
    BitVec.extractLsb'_append_eq_right
  rw [hhigh]
  exact BitVec.extractLsb'_append_extractLsb' (w := 5) (len := 8)

theorem longBytes_of_hi_lo (hi lo : Byte) :
    longBytes (hi.extractLsb' 5 3) (hi.extractLsb' 0 5 ++ lo) = [.data hi, .data lo] := by
  have hhigh : (hi.extractLsb' 0 5 ++ lo).extractLsb' 8 5 = hi.extractLsb' 0 5 :=
    BitVec.extractLsb'_append_eq_left
  have hlow : (hi.extractLsb' 0 5 ++ lo).extractLsb' 0 8 = lo :=
    BitVec.extractLsb'_append_eq_right
  have hjoin : hi.extractLsb' 5 3 ++ hi.extractLsb' 0 5 = hi :=
    BitVec.extractLsb'_append_extractLsb' (w := 3) (len := 5)
  rw [longBytes, hhigh, hlow, hjoin]

/-! ### The decision tree -/

/-- The decision tree behind the two data bytes of a long token (30_encoding.md R95 to R98). -/
def longTail (lenField : BitVec 3) (offset : BitVec 13) : StreamReader Instr := do
  if lenField ≠ 0 then pure (.long lenField offset)
  else if ← streamBit then
    let t ← streamByte
    if t = 0xFF then pure (.run offset) else pure (.longx8 offset t)
  else
    let x ← readBitsWith streamBit 4 0
    pure (.longx4 offset (BitVec.ofNat 4 x))

section
variable {src u t : TokenSource} {offset : BitVec 13}

theorem decodeTree_lit {b : Byte} (h : Reads (tokenItems (.lit b)) src t) :
    decodeTree streamBit streamByte src = .ok (.lit b) t := by
  simp only [tokenItems, reads_flag, reads_data, reads_nil] at h
  obtain ⟨_, hkind, _, hb, rfl⟩ := h
  rw [decodeTree, streamReader_bind_ok hkind, if_neg Bool.false_ne_true, streamReader_bind_ok hb]
  rfl

theorem decodeTree_short {l : BitVec 2} {o : Byte} (h : Reads (tokenItems (.short l o)) src t) :
    decodeTree streamBit streamByte src = .ok (.short l o) t := by
  simp only [tokenItems, reads_append, reads_flag, reads_data, reads_nil] at h
  obtain ⟨_, ⟨_, ⟨_, hmatch, _, hshort, rfl⟩, hl⟩, _, ho, rfl⟩ := h
  rw [decodeTree, streamReader_bind_ok hmatch, if_pos rfl, streamReader_bind_ok hshort,
    if_neg Bool.false_ne_true, streamReader_bind_ok (readBits_flagField l 0 hl),
    streamReader_bind_ok ho]
  simp

theorem decodeTree_longBytes {lenField : BitVec 3}
    (h : Reads ([.flag true, .flag true] ++ longBytes lenField offset) src u) :
    decodeTree streamBit streamByte src = longTail lenField offset u := by
  simp only [longBytes, reads_append, reads_flag, reads_data, reads_nil] at h
  obtain ⟨_, ⟨_, hmatch, _, hlong, rfl⟩, _, hhi, _, hlo, rfl⟩ := h
  rw [decodeTree, streamReader_bind_ok hmatch, if_pos rfl, streamReader_bind_ok hlong, if_pos rfl,
    streamReader_bind_ok hhi, streamReader_bind_ok hlo]
  simp only [lenField_of_hi, offset_of_hi_lo, longTail]

theorem longTail_length {lenField : BitVec 3} (h : lenField ≠ 0) :
    longTail lenField offset u = .ok (.long lenField offset) u := by
  rw [longTail, if_pos h]
  rfl

theorem longTail_longx4 {x : BitVec 4} (h : Reads ([.flag false] ++ flagField x) u t) :
    longTail 0 offset u = .ok (.longx4 offset x) t := by
  simp only [reads_append, reads_flag, reads_nil] at h
  obtain ⟨_, ⟨_, hkind, rfl⟩, hx⟩ := h
  rw [longTail, if_neg (by simp), streamReader_bind_ok hkind, if_neg Bool.false_ne_true,
    streamReader_bind_ok (readBits_flagField x 0 hx)]
  simp

theorem longTail_byte {e : Byte} (h : Reads [.flag true, .data e] u t) :
    longTail 0 offset u = .ok (if e = 0xFF then .run offset else .longx8 offset e) t := by
  simp only [reads_flag, reads_data, reads_nil] at h
  obtain ⟨_, hkind, _, he, rfl⟩ := h
  rw [longTail, if_neg (by simp), streamReader_bind_ok hkind, if_pos rfl, streamReader_bind_ok he]
  split <;> rfl

/-- The decoder reads a well-formed token from its items, at whatever cursor position they start
(30_encoding.md R91 to R98). -/
theorem decodeTree_of_reads {i : Instr} (htok : i.isToken = true) (hwf : i.wellFormed = true)
    (h : Reads (tokenItems i) src t) : decodeTree streamBit streamByte src = .ok i t := by
  cases i with
  | lit b => exact decodeTree_lit h
  | short l o => exact decodeTree_short h
  | long f offset => exact (decodeTree_longBytes h).trans (longTail_length (bne_iff_ne.1 hwf))
  | longx4 offset x =>
    rw [tokenItems, List.append_assoc, reads_append] at h
    obtain ⟨_, hhead, htail⟩ := h
    exact (decodeTree_longBytes hhead).trans (longTail_longx4 htail)
  | longx8 offset e =>
    obtain ⟨_, hhead, htail⟩ := reads_append.1 h
    rw [decodeTree_longBytes hhead, longTail_byte htail, if_neg (bne_iff_ne.1 hwf)]
  | run count =>
    obtain ⟨_, hhead, htail⟩ := reads_append.1 h
    rw [decodeTree_longBytes hhead, longTail_byte htail, if_pos rfl]
  | _ => cases htok

theorem decodeToken_of_reads {i : Instr} (htok : i.isToken = true) (hwf : i.wellFormed = true)
    (h : Reads (tokenItems i) src t) : decodeToken src = .ok (i, t) := by
  rw [decodeToken, decodeTree_of_reads htok hwf h]

end

/-! ### Packed items -/

/-- The reader takes exactly the items `is` from the stream `src` and uses it up. -/
def ReadsAll (is : List Item) (src : TokenSource) : Prop := ∃ t, Reads is src t ∧ t.bytes = []

theorem ReadsAll.flag {b : Bool} {is : List Item} {src u : TokenSource}
    (hbit : streamBit src = .ok b u) (h : ReadsAll is u) : ReadsAll (.flag b :: is) src := by
  obtain ⟨t, ht, hend⟩ := h
  exact ⟨t, reads_flag.2 ⟨u, hbit, ht⟩, hend⟩

theorem ReadsAll.data {b : Byte} {is : List Item} {src u : TokenSource}
    (hbyte : streamByte src = .ok b u) (h : ReadsAll is u) : ReadsAll (.data b :: is) src := by
  obtain ⟨t, ht, hend⟩ := h
  exact ⟨t, reads_data.2 ⟨u, hbyte, ht⟩, hend⟩

theorem streamBit_empty {cur b : Byte} {bs : List Byte} :
    streamBit ⟨⟨cur, 0⟩, b :: bs⟩ = .ok (b.getLsbD 7) ⟨⟨b, 7⟩, bs⟩ := rfl

theorem streamBit_held {cur : Byte} {rem : Fin 8} {bs : List Byte} (h : rem ≠ 0) :
    streamBit ⟨⟨cur, rem⟩, bs⟩ = .ok (cur.getLsbD (rem - 1)) ⟨⟨cur, rem - 1⟩, bs⟩ := by
  simp [streamBit, h, BitCursor.bit, BitCursor.advance]

/-- With room for `rem` more flag bits, the next one goes to bit `rem - 1`. -/
theorem getLsbD_placeFlag {flag : Byte} {rem : Nat} {b : Bool} (hpos : 0 < rem) (h8 : rem ≤ 8)
    (k : Nat) :
    (placeFlag flag (8 - rem) b).getLsbD k = (flag.getLsbD k || (decide (k = rem - 1) && b)) := by
  rw [placeFlag, show 7 - (8 - rem) = rem - 1 by omega, BitVec.getLsbD_or,
    BitVec.getLsbD_shiftLeft, BitVec.getLsbD_setWidth, BitVec.getLsbD_ofBool]
  congr 1
  grind

/-- A flag bit that finds the flag byte full is packed as the first of a fresh one. -/
theorem packItems_flag_full (b : Bool) (is : List Item) (flag : Byte) (pend : List Byte) :
    packItems (.flag b :: is) flag 8 pend =
      flag :: (pend ++ packItems (.flag b :: is) 0 0 []) := rfl

/-- Behind an open flag byte `flag` with room for `rem` more bits, the writer sends a flag byte that
keeps the bits placed before, then the data bytes that wait, then what the reader takes the items
from when `rem` bits of that flag byte are left (40_bitcursor.md R137). -/
theorem packItems_readsAll (is : List Item) (flag : Byte) (rem : Fin 8) (pend : List Byte)
    (hroom : ∀ k < rem.val, flag.getLsbD k = false) :
    ∃ sent rest, packItems is flag (8 - rem.val) pend = sent :: (pend ++ rest) ∧
      (∀ k, rem.val ≤ k → k < 8 → sent.getLsbD k = flag.getLsbD k) ∧
      ∀ cur, (rem ≠ 0 → cur = sent) → ReadsAll is ⟨⟨cur, rem⟩, rest⟩ := by
  induction is generalizing flag rem pend with
  | nil =>
    exact ⟨flag, [], by simp [packItems], fun _ _ _ => rfl, fun _ _ => ⟨_, reads_nil.2 rfl, rfl⟩⟩
  | cons i is ih =>
    cases i with
    | data b =>
      obtain ⟨sent, rest, hpack, hkept, hread⟩ := ih flag rem (pend ++ [b]) hroom
      exact ⟨sent, b :: rest, by simp [packItems, hpack], hkept,
        fun cur hcur => .data rfl (hread cur hcur)⟩
    | flag b =>
      by_cases hrem : rem = 0
      · subst hrem
        have hplace (k : Nat) : (placeFlag 0 0 b).getLsbD k = (decide (k = 7) && b) :=
          (getLsbD_placeFlag (rem := 8) (by omega) (by omega) k).trans (by simp)
        obtain ⟨sent, rest, hpack, hkept, hread⟩ := ih (placeFlag 0 0 b) 7 [] fun k hk => by
          rw [hplace, decide_eq_false (show k ≠ 7 from Nat.ne_of_lt hk), Bool.false_and]
        have hbit : sent.getLsbD 7 = b := by
          rw [hkept 7 le_rfl (by omega), hplace, decide_eq_true rfl, Bool.true_and]
        refine ⟨flag, sent :: rest, ?_, fun _ _ _ => rfl, fun cur _ => ?_⟩
        · exact (packItems_flag_full ..).trans (congrArg (fun bs => flag :: (pend ++ bs)) hpack)
        · rw [← hbit]
          exact .flag streamBit_empty (hread sent fun _ => rfl)
      · have hpos : 0 < rem.val := Fin.pos_iff_ne_zero.2 hrem
        have hlast : (rem - 1).val = rem.val - 1 := Fin.val_sub_one_of_ne_zero hrem
        have hplace := getLsbD_placeFlag (flag := flag) (b := b) hpos (by omega)
        obtain ⟨sent, rest, hpack, hkept, hread⟩ :=
          ih (placeFlag flag (8 - rem.val) b) (rem - 1) pend fun k hk => by
            simp [hplace, hroom k (by omega), show k ≠ rem.val - 1 by omega]
        have hbit : sent.getLsbD (rem.val - 1) = b := by
          simp [hkept _ hlast.le (by omega), hplace, hroom (rem.val - 1) (by omega)]
        refine ⟨sent, rest, ?_, fun k hk hk8 => ?_, fun cur hcur => ?_⟩
        · have hcnt : 8 - rem.val + 1 = 8 - (rem - 1).val := by omega
          rw [packItems, if_neg (by omega), hcnt, hpack]
        · simp [hkept k (by omega) hk8, hplace, show k ≠ rem.val - 1 by omega]
        · obtain rfl := hcur hrem
          rw [← hbit]
          exact .flag (streamBit_held hrem) (hread cur fun _ => rfl)

/-- Items that begin with a flag bit come back from the bytes the writer packs, which are used up
(40_bitcursor.md R137). -/
theorem packItems_flag_readsAll (b : Bool) (is : List Item) :
    ReadsAll (.flag b :: is) (.ofBytes (packItems (.flag b :: is) 0 0 [])) := by
  obtain ⟨sent, rest, hpack, -, hread⟩ := packItems_readsAll (.flag b :: is) 0 0 [] (by simp)
  have hrest : packItems (.flag b :: is) 0 0 [] = rest :=
    (List.cons.inj ((packItems_flag_full ..).symm.trans hpack)).2
  rw [hrest]
  exact hread 0 fun h => absurd rfl h

theorem encodeToken_readsAll {i : Instr} (h : i.isToken = true) :
    ReadsAll (tokenItems i) (.ofBytes (encodeToken i)) := by
  cases i with
  | lit | short | long | longx4 | longx8 | run => exact packItems_flag_readsAll _ _
  | _ => cases h

/-! ### The obligation -/

theorem decodeToken_encodeToken {i : Instr} (htok : i.isToken = true)
    (hwf : i.wellFormed = true) :
    ∃ src, decodeToken (.ofBytes (encodeToken i)) = .ok (i, src) ∧ src.bytes = [] := by
  obtain ⟨src, hreads, hend⟩ := encodeToken_readsAll htok
  exact ⟨src, decodeToken_of_reads htok hwf hreads, hend⟩

theorem decodeCommand_encodeCommand {i : Instr} {v : Word} (h : encodeCommand i = some v) :
    decodeCommand v = .ok i := by
  cases i with
  | lit | short | long | longx4 | longx8 | run => cases h
  | lcgNext tsel => cases h; cases tsel <;> decide
  | _ => cases h; decide

theorem encodeCommand_eq_none_iff {i : Instr} : encodeCommand i = none ↔ i.isToken = true := by
  cases i <;> simp [encodeCommand, Instr.isToken]

theorem decode_encode {i : Instr} (hwf : i.wellFormed = true) : decode (encode i) = .ok i := by
  cases hcode : encodeCommand i with
  | some v => simp only [encode, hcode, decode, decodeCommand_encodeCommand hcode]
  | none =>
    obtain ⟨src, htoken, -⟩ := decodeToken_encodeToken (encodeCommand_eq_none_iff.1 hcode) hwf
    simp only [encode, hcode, decode, htoken, Except.map]

/-- Settles O1: a command by its word, a token through its items, which the writer packs and the
reader gets back. -/
theorem decodeInvertsEncode : Obligations.DecodeInvertsEncode :=
  fun _ hwf => ⟨decode_encode hwf, fun htok => decodeToken_encodeToken htok hwf⟩

end Sys2Proof.Machine
end

section
/-! The token code is complete: a stream with enough bytes left always holds the items of a
well-formed token. -/

namespace Sys2Proof.Machine

/-! ### What a stream still supplies -/

/-- The stream has `bits` flag bits, with the flag bytes they take, and `bytes` data bytes besides,
in whatever order they are read. -/
def Supplies (bits bytes : Nat) (src : TokenSource) : Prop :=
  ∃ fresh, bits ≤ src.cursor.rem.val + 8 * fresh ∧ bytes + fresh ≤ src.bytes.length

theorem supplies_iff {bits bytes : Nat} {cur : Byte} {rem : Fin 8} {bs : List Byte} :
    Supplies bits bytes ⟨⟨cur, rem⟩, bs⟩ ↔
      ∃ fresh, bits ≤ rem.val + 8 * fresh ∧ bytes + fresh ≤ bs.length := Iff.rfl

section
variable {bits bytes : Nat} {src : TokenSource}

theorem Supplies.exists_byte (h : Supplies bits (bytes + 1) src) :
    ∃ b t, streamByte src = .ok b t ∧ Supplies bits bytes t := by
  obtain ⟨⟨cur, rem⟩, bs⟩ := src
  obtain ⟨fresh, hbits, hbytes⟩ := supplies_iff.1 h
  cases bs with
  | nil => rw [List.length_nil] at hbytes; omega
  | cons b bs =>
    rw [List.length_cons] at hbytes
    exact ⟨b, ⟨⟨cur, rem⟩, bs⟩, rfl, supplies_iff.2 ⟨fresh, hbits, by omega⟩⟩

theorem Supplies.exists_bit (h : Supplies (bits + 1) bytes src) :
    ∃ b t, streamBit src = .ok b t ∧ Supplies bits bytes t := by
  obtain ⟨⟨cur, rem⟩, bs⟩ := src
  obtain ⟨fresh, hbits, hbytes⟩ := supplies_iff.1 h
  by_cases hrem : rem = 0
  · subst hrem
    rw [Fin.val_zero] at hbits
    cases bs with
    | nil => rw [List.length_nil] at hbytes; omega
    | cons b bs =>
      rw [List.length_cons] at hbytes
      have hbits : bits ≤ 7 + 8 * (fresh - 1) := by omega
      exact ⟨_, _, streamBit_empty, supplies_iff.2 ⟨fresh - 1, hbits, by omega⟩⟩
  · have hlast : (rem - 1).val = rem.val - 1 := Fin.val_sub_one_of_ne_zero hrem
    exact ⟨_, _, streamBit_held hrem, supplies_iff.2 ⟨fresh, by omega, hbytes⟩⟩

theorem Supplies.exists_field {n : Nat} (h : Supplies (bits + n) bytes src) :
    ∃ (v : BitVec n) (t : TokenSource), Reads (flagField v) src t ∧ Supplies bits bytes t := by
  induction n generalizing src with
  | zero => exact ⟨0, src, by simp, h⟩
  | succ n ih =>
    obtain ⟨b, u, hbit, hu⟩ := h.exists_bit
    obtain ⟨v, t, hv, ht⟩ := ih hu
    exact ⟨v.cons b, t, by rw [flagField_cons]; exact reads_flag.2 ⟨u, hbit, hv⟩, ht⟩

/-- The two data bytes of a long token, whatever they are, hold its two fields. -/
theorem Supplies.exists_longData (h : Supplies bits (bytes + 2) src) :
    ∃ f offset t, Reads (longBytes f offset) src t ∧ Supplies bits bytes t := by
  obtain ⟨hi, u, hhi, hu⟩ := h.exists_byte
  obtain ⟨lo, t, hlo, ht⟩ := hu.exists_byte
  exact ⟨hi.extractLsb' 5 3, hi.extractLsb' 0 5 ++ lo, t,
    by simp [longBytes_of_hi_lo, hhi, hlo], ht⟩

/-! ### The items of a token -/

/-- Behind a long head whose length field is 0 stands a LONGX4, a LONGX8 or a RUN. -/
theorem Supplies.exists_longExtension {start : TokenSource} {offset : BitVec 13}
    (h : Supplies 5 1 src)
    (hhead : Reads ([.flag true, .flag true] ++ longBytes 0 offset) start src) :
    ∃ i t, i.isToken = true ∧ i.wellFormed = true ∧ Reads (tokenItems i) start t := by
  obtain ⟨kind, u, hkind, hu⟩ := h.exists_bit
  cases kind with
  | false =>
    obtain ⟨x, t, hx, -⟩ := hu.exists_field (bits := 0) (n := 4)
    exact ⟨.longx4 offset x, t, rfl, rfl,
      reads_append.2 ⟨u, reads_append.2 ⟨src, hhead, by simp [hkind]⟩, hx⟩⟩
  | true =>
    obtain ⟨e, t, he, -⟩ := hu.exists_byte
    have htail : Reads [.flag true, .data e] src t := by simp [hkind, he]
    by_cases hrun : e = 0xFF
    · subst hrun
      exact ⟨.run offset, t, rfl, rfl, reads_append.2 ⟨src, hhead, htail⟩⟩
    · exact ⟨.longx8 offset e, t, rfl, bne_iff_ne.2 hrun, reads_append.2 ⟨src, hhead, htail⟩⟩

/-- The longest heads take 7 flag bits, or 3 data bytes (30_encoding.md R96, R97). -/
theorem Supplies.exists_token (h : Supplies 7 3 src) :
    ∃ i t, i.isToken = true ∧ i.wellFormed = true ∧ Reads (tokenItems i) src t := by
  obtain ⟨isMatch, s1, h1, hs1⟩ := h.exists_bit
  cases isMatch with
  | false =>
    obtain ⟨b, t, hb, -⟩ := hs1.exists_byte
    exact ⟨.lit b, t, rfl, rfl, by simp [tokenItems, h1, hb]⟩
  | true =>
    obtain ⟨isLong, s2, h2, hs2⟩ := hs1.exists_bit
    have hhead : Reads [.flag true, .flag isLong] src s2 := by simp [h1, h2]
    cases isLong with
    | false =>
      obtain ⟨l, s3, hl, hs3⟩ := hs2.exists_field (bits := 3) (n := 2)
      obtain ⟨o, t, ho, -⟩ := hs3.exists_byte
      exact ⟨.short l o, t, rfl, rfl,
        reads_append.2 ⟨s3, reads_append.2 ⟨s2, hhead, hl⟩, by simp [ho]⟩⟩
    | true =>
      obtain ⟨f, offset, s3, hlong, hs3⟩ := hs2.exists_longData
      have hhead := reads_append.2 ⟨s2, hhead, hlong⟩
      by_cases hf : f = 0
      · subst hf
        exact hs3.exists_longExtension hhead
      · exact ⟨.long f offset, s3, rfl, bne_iff_ne.2 hf, hhead⟩

end

/-! ### The obligation -/

/-- Settles O9: a fourth byte pays for a refill of the cursor, and the three others for the data of
the longest token. -/
theorem tokenCodeIsComplete : Obligations.TokenCodeIsComplete := by
  intro src hlen
  have h : Supplies 7 3 src := ⟨1, by omega, hlen⟩
  obtain ⟨i, t, htok, hwf, hreads⟩ := h.exists_token
  exact ⟨i, t, decodeToken_of_reads htok hwf hreads, htok, hwf⟩

end Sys2Proof.Machine
end

section
/-! The CMD word: each command has one legal word, and every other word is illegal. -/

namespace Sys2Proof.Machine

/-! ### Legal words -/

/-- A word that matches the row of LCG_NEXT has one free bit, TSEL (30_encoding.md R107). -/
theorem lcgNext_word {v : Word} (h : v &&& 0xFFFFFEFF = 3) :
    encodeCommand (.lcgNext (v.getLsbD 8)) = some v := by
  have hsplit : v = v &&& 0xFFFFFEFF ||| v &&& BitVec.twoPow 32 8 := by
    rw [← BitVec.and_or_distrib_left]
    exact (BitVec.and_allOnes (x := v)).symm
  rw [BitVec.and_twoPow, h] at hsplit
  generalize v.getLsbD 8 = tsel at hsplit ⊢
  rw [hsplit]
  cases tsel <;> decide

/-- A word that decodes matches a row of the opcode map. -/
theorem exists_row_of_decodeCommand {v : Word} {i : Instr} (h : decodeCommand v = .ok i) :
    ∃ r ∈ commandRows, v &&& r.mask = r.pattern ∧ i = r.build v := by
  unfold decodeCommand at h
  split at h
  case h_1 r hfind =>
    cases h
    exact ⟨r, List.mem_of_find?_eq_some hfind, by simpa using List.find?_some hfind, rfl⟩
  case h_2 => cases h

theorem encodeCommand_of_decodeCommand {v : Word} {i : Instr} (h : decodeCommand v = .ok i) :
    encodeCommand i = some v := by
  obtain ⟨r, hrow, hmatch, rfl⟩ := exists_row_of_decodeCommand h
  have hfull : v = v &&& 0xFFFFFFFF := BitVec.and_allOnes.symm
  simp only [commandRows, List.mem_cons, List.not_mem_nil, or_false] at hrow
  rcases hrow with rfl | rfl | rfl | rfl | rfl | rfl | rfl
  case inr.inr.inl => exact lcgNext_word hmatch
  all_goals exact congrArg some (hfull.trans hmatch).symm

theorem decodeCommand_eq_ok_iff {v : Word} {i : Instr} :
    decodeCommand v = .ok i ↔ encodeCommand i = some v :=
  ⟨encodeCommand_of_decodeCommand, decodeCommand_encodeCommand⟩

/-- Settles O3, row by row of the opcode map. -/
theorem commandWordsHaveOneMeaning : Obligations.CommandWordsHaveOneMeaning :=
  fun _ _ => encodeCommand_of_decodeCommand

/-! ### Illegal words -/

/-- 30_encoding.md R108: the opcode is none of 0x01 to 0x07, a reserved bit is set, or TSEL is 1
where the command has none. -/
def IllegalWord (v : Word) : Prop :=
  v.extractLsb' 0 8 = 0 ∨ 8 ≤ (v.extractLsb' 0 8).toNat ∨ v.extractLsb' 9 23 ≠ 0 ∨
    (v.getLsbD 8 = true ∧ v.extractLsb' 0 8 ≠ 3)

/-- The CMD word with an opcode and TSEL, its reserved bits 0 (10_state.md R21). -/
def commandWord (op : Byte) (tsel : Bool) : Word :=
  BitVec.setWidth 32 (BitVec.ofBool tsel ++ op)

theorem eq_commandWord {v : Word} (h : v.extractLsb' 9 23 = 0) :
    v = commandWord (v.extractLsb' 0 8) (v.getLsbD 8) := by
  apply BitVec.eq_of_getLsbD_eq
  intro k hk
  have hhigh : (v.extractLsb' 9 23).getLsbD (k - 9) = false := h ▸ BitVec.getLsbD_zero
  rw [BitVec.getLsbD_extractLsb'] at hhigh
  simp only [commandWord, BitVec.getLsbD_setWidth, BitVec.getLsbD_append, BitVec.getLsbD_ofBool,
    BitVec.getLsbD_extractLsb']
  grind

theorem exists_encodeCommand {op : Byte} {tsel : Bool} (h0 : op ≠ 0) (h8 : op.toNat < 8)
    (ht : tsel = true → op = 3) : ∃ i, encodeCommand i = some (commandWord op tsel) := by
  by_cases h3 : op = 3
  · subst h3
    exact ⟨.lcgNext tsel, by cases tsel <;> decide⟩
  obtain rfl : tsel = false := Bool.eq_false_iff.2 fun h => h3 (ht h)
  have hop : op = 1 ∨ op = 2 ∨ op = 4 ∨ op = 5 ∨ op = 6 ∨ op = 7 := by bv_omega
  rcases hop with rfl | rfl | rfl | rfl | rfl | rfl
  · exact ⟨.jpkDecode, by decide⟩
  · exact ⟨.jpkEncode, by decide⟩
  · exact ⟨.ecdDecrypt, by decide⟩
  · exact ⟨.ecdEncrypt, by decide⟩
  · exact ⟨.exfDecrypt, by decide⟩
  · exact ⟨.exfEncrypt, by decide⟩

theorem not_illegalWord {v : Word} {i : Instr} (h : encodeCommand i = some v) :
    ¬ IllegalWord v := by
  unfold IllegalWord
  cases i with
  | lit | short | long | longx4 | longx8 | run => cases h
  | lcgNext tsel => cases h; cases tsel <;> decide
  | _ => cases h; decide

theorem decodeCommand_ok_iff_legal (v : Word) :
    (∃ i, decodeCommand v = .ok i) ↔ ¬ IllegalWord v := by
  simp only [decodeCommand_eq_ok_iff]
  refine ⟨fun ⟨i, hi⟩ => not_illegalWord hi, fun h => ?_⟩
  simp only [IllegalWord, not_or, not_le, not_not, not_and] at h
  obtain ⟨h0, h8, hreserved, htsel⟩ := h
  rw [eq_commandWord hreserved]
  exact exists_encodeCommand h0 h8 htsel

theorem dispatch_illegal {v : Word} (h : IllegalWord v) (s : State) :
    dispatch v s = .next (endWithFault .illegalCommand v.toNat s) := by
  unfold dispatch
  split
  · exact absurd h ((decodeCommand_ok_iff_legal v).1 ⟨_, ‹_›⟩)
  · rfl

/-- Settles O2: the legal words are the codes of the seven commands, and the fault of any other word
ends the command in the step that dispatches it. -/
theorem illegalCommandWordsFault : Obligations.IllegalCommandWordsFault := by
  refine ⟨decodeCommand_ok_iff_legal, fun s v hhost hphase hhc hv => ?_⟩
  have hstep : step s = .next (endWithFault .illegalCommand v.toNat s) := by
    rw [← dispatch_illegal hv s]
    simp [step, hhost, engineStep, hphase]
  have hfault := endWithFault_result (k := .illegalCommand) (kept_closed.refl s) hhc v.isLt
  rw [if_neg (by simp [hphase])] at hfault
  exact ⟨_, hstep, hfault⟩

/-! ### Words written out -/

theorem decode_of_encode {i : Instr} {c : Code} (hwf : i.wellFormed = true) (h : encode i = c) :
    decode c = .ok i := h ▸ decode_encode hwf

/-- Settles O4: each code is the one the encoder gives for its instruction. -/
theorem writtenWordsDecode : Obligations.WrittenWordsDecode := by
  refine ⟨decode_of_encode rfl ?_, decode_of_encode rfl ?_, decode_of_encode rfl ?_,
    decode_of_encode rfl ?_, decode_of_encode rfl ?_, decode_of_encode rfl ?_,
    decode_of_encode rfl ?_, decode_of_encode rfl ?_⟩ <;> decide

end Sys2Proof.Machine
end

section
/-! Match tokens: the token chosen for a match carries it, and its meaning is one copy. -/

namespace Sys2Proof.Machine

/-! ### The token chosen for a match (30_encoding.md R100) -/

/-- The token is well-formed and carries the match. -/
def Carries (i : Instr) (off len : Nat) : Prop :=
  i.wellFormed = true ∧ matchFields i = some (off, len)

section
variable {len off : Nat}

theorem matchToken_short (h : len ≤ 6 ∧ off ≤ 0xFF) :
    matchToken len off = .short (BitVec.ofNat 2 (len - 3)) (BitVec.ofNat 8 off) := if_pos h

theorem matchToken_long (hs : ¬ (len ≤ 6 ∧ off ≤ 0xFF)) (h9 : len ≤ 9) (hoff : off ≤ 0x1FFF) :
    matchToken len off = .long (BitVec.ofNat 3 (len - 2)) (BitVec.ofNat 13 off) := by
  rw [matchToken, if_neg hs, if_pos h9, matchOffset_of_lt (by omega)]

theorem matchToken_longx4 (h10 : 10 ≤ len) (h25 : len ≤ 25) (hoff : off ≤ 0x1FFF) :
    matchToken len off = .longx4 (BitVec.ofNat 13 off) (BitVec.ofNat 4 (len - 10)) := by
  rw [matchToken, if_neg (by omega), if_neg (by omega), if_pos h25, matchOffset_of_lt (by omega)]

theorem matchToken_longx8 (h26 : 26 ≤ len) (h280 : len ≤ 280) (hoff : off ≤ 0x1FFF) :
    matchToken len off = .longx8 (BitVec.ofNat 13 off) (BitVec.ofNat 8 (len - 0x1A)) := by
  rw [matchToken, if_neg (by omega), if_neg (by omega), if_neg (by omega),
    matchOffset_of_lt (by omega), matchExtension_of_lt (by omega)]

theorem carries_short (h3 : 3 ≤ len) (h : len ≤ 6 ∧ off ≤ 0xFF) :
    Carries (.short (BitVec.ofNat 2 (len - 3)) (BitVec.ofNat 8 off)) off len := by
  refine ⟨rfl, ?_⟩
  simp only [matchFields, BitVec.toNat_ofNat, Option.some.injEq, Prod.mk.injEq]
  omega

/-- A length of at least 3 keeps the field of a LONG from 0 (43_lz_encode.md R196). -/
theorem carries_long (h3 : 3 ≤ len) (h9 : len ≤ 9) (hoff : off ≤ 0x1FFF) :
    Carries (.long (BitVec.ofNat 3 (len - 2)) (BitVec.ofNat 13 off)) off len := by
  have hfield : (BitVec.ofNat 3 (len - 2)).toNat = len - 2 := Nat.mod_eq_of_lt (by omega)
  refine ⟨bne_iff_ne.2 fun h => ?_, ?_⟩
  · have hzero : 0 = len - 2 := (congrArg BitVec.toNat h).symm.trans hfield
    omega
  · simp only [matchFields, hfield, BitVec.toNat_ofNat, Option.some.injEq, Prod.mk.injEq]
    omega

theorem carries_longx4 (h10 : 10 ≤ len) (h25 : len ≤ 25) (hoff : off ≤ 0x1FFF) :
    Carries (.longx4 (BitVec.ofNat 13 off) (BitVec.ofNat 4 (len - 10))) off len := by
  refine ⟨rfl, ?_⟩
  simp only [matchFields, BitVec.toNat_ofNat, Option.some.injEq, Prod.mk.injEq]
  omega

/-- A length of at most 280 keeps the byte of a LONGX8 from 0xFF, which marks a RUN (43_lz_encode.md
R197, R198). -/
theorem carries_longx8 (h26 : 26 ≤ len) (h280 : len ≤ 280) (hoff : off ≤ 0x1FFF) :
    Carries (.longx8 (BitVec.ofNat 13 off) (BitVec.ofNat 8 (len - 0x1A))) off len := by
  have hfield : (BitVec.ofNat 8 (len - 0x1A)).toNat = len - 0x1A := Nat.mod_eq_of_lt (by omega)
  refine ⟨bne_iff_ne.2 fun h => ?_, ?_⟩
  · have hmark : 0xFF = len - 0x1A := (congrArg BitVec.toNat h).symm.trans hfield
    omega
  · simp only [matchFields, hfield, BitVec.toNat_ofNat, Option.some.injEq, Prod.mk.injEq]
    omega

theorem carries_matchToken (h3 : 3 ≤ len) (h280 : len ≤ 280) (hoff : off ≤ 0x1FFF) :
    Carries (matchToken len off) off len := by
  by_cases hs : len ≤ 6 ∧ off ≤ 0xFF
  · exact matchToken_short hs ▸ carries_short h3 hs
  rcases Nat.lt_or_ge 9 len with h9 | h9
  · rcases Nat.lt_or_ge 25 len with h25 | h25
    · exact matchToken_longx8 h25 h280 hoff ▸ carries_longx8 h25 h280 hoff
    · exact matchToken_longx4 h9 h25 hoff ▸ carries_longx4 h9 h25 hoff
  · exact matchToken_long hs h9 hoff ▸ carries_long h3 h9 hoff

end

/-- Settles O8: in each form the rules name, the fields hold the length and the offset field. -/
theorem matchTokenCarriesMatch : Obligations.MatchTokenCarriesMatch := by
  intro len off h3 h280 hoff
  obtain ⟨hwf, hfields⟩ := carries_matchToken h3 h280 hoff
  exact ⟨hwf, hfields, fun hs => ⟨_, _, matchToken_short hs⟩,
    fun h9 hs => ⟨_, _, matchToken_long hs h9 hoff⟩,
    fun h10 h25 => ⟨_, _, matchToken_longx4 h10 h25 hoff⟩,
    fun h26 => ⟨_, _, matchToken_longx8 h26 h280 hoff⟩⟩

/-! ### The meaning of a match token (42_lz_decode.md R161) -/

theorem copyBack_ok {offset n : Nat} {s : State} (h : CopyReady s offset n) :
    ∃ t, copyBack offset n s = .ok () t ∧ CopyResult s t offset n := by
  obtain ⟨hback, hsize, hcap, hbytes⟩ := h
  have hfit := s.size.isLt
  obtain ⟨t, hloop, ht⟩ := copyLoop_ok (n := n) hback (by omega) (by omega) hbytes
  refine ⟨t, ?_, ht⟩
  rw [copyBack, Engine.get_bind, raiseIf_bind_false (decide_eq_false (Nat.not_lt.2 hback)),
    raiseIf_bind_false (decide_eq_false (Nat.not_lt.2 hsize)), hloop]

/-- Settles O12: every match token is one copy of its two fields, whose checks pass where the copy
stays inside the output and `size`. -/
theorem matchTokensCopyBack : Obligations.MatchTokensCopyBack := by
  intro i offset n s hi _ hready
  obtain ⟨t, hcopy, ht⟩ := copyBack_ok hready
  obtain ⟨hexec, -⟩ := exec_match hi s
  exact ⟨t, hexec.trans (runBody_ok hcopy), ht⟩

end Sys2Proof.Machine
end

section
/-! The bit writer: it appends exactly the packed bytes of its items, which the reader gets back,
and few data bytes ever wait behind an open flag byte. -/

namespace Sys2Proof.Machine

/-- Settles O5: the reader refills exactly where the writer opened a flag byte. -/
theorem packedItemsReadBack : Obligations.PackedItemsReadBack := packItems_flag_readsAll

/-! ### The bytes the writer appends (40_bitcursor.md R135) -/

/-- An append takes no notice of what the writer holds. -/
theorem AppendResult.withEnc {s t : State} {bs : List Byte} (h : AppendResult s t bs)
    (e : Encoder) : AppendResult { s with enc := e } { t with enc := e } bs := by
  obtain ⟨hstate, hnew, hold⟩ := h
  exact ⟨congrArg (fun u : State => { u with enc := e }) hstate, hnew, hold⟩

/-- The open flag byte and the bytes that wait behind it are among the bytes still to go out. -/
theorem pend_length_lt_packItems (is : List Item) (flag : Byte) (cnt : Nat) (pend : List Byte) :
    pend.length < (packItems is flag cnt pend).length := by
  induction is generalizing flag cnt pend with
  | nil => exact Nat.lt_succ_self _
  | cons i is ih =>
    cases i with
    | data b =>
      have hrest := ih flag cnt (pend ++ [b])
      rw [List.length_append, List.length_singleton] at hrest
      exact Nat.lt_of_succ_lt hrest
    | flag b =>
      rw [packItems]
      split
      · simp only [List.length_append, List.length_cons]
        omega
      · exact ih _ _ _

theorem emitItems_cons_bind {i : Item} {is : List Item} {s t : State}
    (h : emitItem i s = .ok () t) (k : Engine Unit) :
    (emitItems (i :: is) >>= fun _ => k) s = (emitItems is >>= fun _ => k) t := by
  rw [emitItems, bind_assoc, Engine.bind_ok h]

theorem finish_of_open {s : State} (h : s.enc.isOpen = true) : finish s = flush s := by
  rw [finish, Engine.get_bind, if_pos h]

/-- From an open writer with room, the items and `Finish` append the packed bytes behind what the
writer already holds. -/
theorem emitItems_finish_ok (is : List Item) {s : State} (hopen : s.enc.isOpen = true)
    (hroom : s.outPos.toNat + (packItems is s.enc.flag s.enc.cnt s.enc.pend).length ≤ s.cfg.outCap)
    (hfit : s.outPos.toNat + (packItems is s.enc.flag s.enc.cnt s.enc.pend).length < 2 ^ 32) :
    ∃ t, (emitItems is >>= fun _ => finish) s = .ok () t ∧ t.enc.isOpen = false ∧
      AppendResult { s with enc := t.enc } t (packItems is s.enc.flag s.enc.cnt s.enc.pend) := by
  have hwaits := pend_length_lt_packItems is s.enc.flag s.enc.cnt s.enc.pend
  induction is generalizing s with
  | nil =>
    obtain ⟨t, hflush, henc, hout⟩ := flush_ok (s := s) (by omega) (by omega)
    exact ⟨t, (finish_of_open hopen).trans hflush, by rw [henc], hout⟩
  | cons i is ih =>
    obtain ⟨u, sent, hemit, huopen, -, hsent, hpack⟩ :=
      emitItem_ok hopen i (by omega) (by omega)
    rw [hpack, List.length_append] at hroom hfit
    have hpos : u.outPos.toNat = s.outPos.toNat + sent.length := hsent.outPos (by simp only; omega)
    have hcfg : u.cfg = s.cfg := by rw [hsent.1]
    obtain ⟨t, hrest, hclosed, hout⟩ := ih huopen (by rw [hpos, hcfg]; omega)
      (by rw [hpos]; omega) (pend_length_lt_packItems ..)
    refine ⟨t, (emitItems_cons_bind hemit _).trans hrest, hclosed, ?_⟩
    rw [hpack]
    exact (hsent.withEnc t.enc).trans hout (by simp only; omega)

/-- Settles O6: the first flag bit opens the writer on a fresh flag byte, and from there on the
packed bytes go out. -/
theorem writerAppendsPackedItems : Obligations.WriterAppendsPackedItems := by
  intro s b is hclosed hroom hfit
  obtain ⟨t, hrest, htclosed, hout⟩ := emitItems_finish_ok is
    (s := { s with enc := ⟨s.enc.pos, placeFlag 0 0 b, 1, true, []⟩ }) rfl hroom hfit
  exact ⟨t, (emitItems_cons_bind (emitItem_first hclosed b) _).trans hrest, htclosed, hout⟩

/-! ### The bytes that wait (40_bitcursor.md R136)

Every flag bit placed in the open flag byte pays for one data byte behind it, and one more byte is
free. So a flag bit leaves credit for one more byte than before it, or for two in a fresh flag byte,
and a data byte takes one. Every token pays for its own data bytes, wherever its flag bits fall. -/

/-- A writer that may take `k` more data bytes before the bytes that wait outnumber the flag bits
placed by more than one. -/
def HasCredit (k : Nat) (s : State) : Prop := s.enc.pend.length + k ≤ s.enc.cnt.val + 1

/-- The items find the credit for each of their data bytes, from credit `k` on, even where each flag
bit begins a fresh flag byte. -/
def Covered : Nat → List Item → Prop
  | _, [] => True
  | k, .flag _ :: is => Covered (min (k + 1) 2) is
  | 0, .data _ :: _ => False
  | k + 1, .data _ :: is => Covered k is

theorem Covered.mono {is : List Item} {j k : Nat} (h : Covered j is) (hjk : j ≤ k) :
    Covered k is := by
  induction is generalizing j k with
  | nil => trivial
  | cons i is ih =>
    cases i with
    | flag b => exact ih (j := min (j + 1) 2) h (by omega)
    | data b =>
      obtain _ | j := j
      · exact h.elim
      obtain _ | k := k
      · omega
      exact ih (j := j) h (by omega)

theorem Covered.append {is js : List Item} {k : Nat} (his : Covered k is) (hjs : Covered 0 js) :
    Covered k (is ++ js) := by
  induction is generalizing k with
  | nil => exact hjs.mono (Nat.zero_le k)
  | cons i is ih =>
    cases i with
    | flag b => exact ih (k := min (k + 1) 2) his
    | data b =>
      obtain _ | k := k
      · exact his.elim
      exact ih (k := k) his

theorem Covered.take {is : List Item} {k : Nat} (h : Covered k is) (n : Nat) :
    Covered k (is.take n) := by
  induction is generalizing k n with
  | nil => rwa [List.take_nil]
  | cons i is ih =>
    obtain _ | n := n
    · trivial
    cases i with
    | flag b => exact ih (k := min (k + 1) 2) h n
    | data b =>
      obtain _ | k := k
      · exact h.elim
      exact ih (k := k) h n

/-- Two data bytes in a row stand behind two flag bits, and any other data byte stands behind a flag
bit. -/
theorem covered_tokenItems (i : Instr) : Covered 0 (tokenItems i) := by
  cases i <;> simp [tokenItems, longBytes, flagField, List.range_succ, Covered]

theorem covered_flatMap_tokenItems (ts : List Instr) : Covered 0 (ts.flatMap tokenItems) := by
  induction ts with
  | nil => trivial
  | cons i ts ih => exact (covered_tokenItems i).append ih

theorem flush_closes {s t : State} (h : flush s = .ok () t) : t.enc.isOpen = false := by
  rw [flush, Engine.get_bind, Engine.bind_eq_ok] at h
  obtain ⟨_, _, -, h⟩ := h
  obtain ⟨_, _, -, h⟩ := Engine.bind_eq_ok.1 h
  rw [Engine.modify_apply] at h
  cases h
  rfl

/-- Everything `EmitBit(b)` can do: it places the bit in the open flag byte, or in a fresh one
behind which nothing waits. -/
theorem emitBit_cases {b : Bool} {s t : State} (h : emitBit b s = .ok () t) :
    (t.enc.cnt.val = s.enc.cnt.val + 1 ∧ t.enc.pend = s.enc.pend) ∨
      (t.enc.cnt.val = 1 ∧ t.enc.pend = []) := by
  have hfresh {u : State} (hu : u.enc.isOpen = false) :
      (u.openFlag.placeBit b).enc = ⟨u.enc.pos, placeFlag 0 0 b, 1, true, []⟩ := by
    rw [State.openFlag, if_neg (by simp [hu])]
    rfl
  rw [emitBit, Engine.get_bind] at h
  by_cases hfull : (s.enc.isOpen && s.enc.cnt == 8) = true
  · simp only [hfull, if_true] at h
    obtain ⟨_, u, hflush, h⟩ := Engine.bind_eq_ok.1 h
    rw [Engine.modify_apply] at h
    cases h
    exact .inr (by rw [hfresh (flush_closes hflush)]; exact ⟨rfl, rfl⟩)
  · simp only [hfull] at h
    obtain rfl : s.openFlag.placeBit b = t := by cases h; rfl
    cases hopen : s.enc.isOpen with
    | false => exact .inr (by rw [hfresh hopen]; exact ⟨rfl, rfl⟩)
    | true =>
      have hroom : s.enc.cnt ≠ 8 := by simpa [hopen] using hfull
      have hlt : s.enc.cnt < Fin.last 8 := Fin.lt_last_iff_ne_last.2 hroom
      rw [State.openFlag, if_pos hopen]
      exact .inl ⟨Fin.val_add_one_of_lt hlt, rfl⟩

theorem HasCredit.flag {k : Nat} {b : Bool} {s t : State} (hs : HasCredit k s)
    (h : emitItem (.flag b) s = .ok () t) : HasCredit (min (k + 1) 2) t := by
  unfold HasCredit at hs ⊢
  rcases emitBit_cases h with ⟨hcnt, hpend⟩ | ⟨hcnt, hpend⟩
  · rw [hcnt, hpend]
    omega
  · rw [hcnt, hpend, List.length_nil]
    omega

theorem HasCredit.data {k : Nat} {v : Byte} {s t : State} (hs : HasCredit (k + 1) s)
    (h : emitItem (.data v) s = .ok () t) : HasCredit k t := by
  cases h
  simp only [HasCredit, List.length_append, List.length_singleton] at hs ⊢
  omega

/-- Covered items leave a writer with credit within its bound. -/
theorem HasCredit.emitItems {is : List Item} {k : Nat} {s t : State} (hs : HasCredit k s)
    (his : Covered k is) (h : emitItems is s = .ok () t) : HasCredit 0 t := by
  induction is generalizing k s with
  | nil =>
    cases h
    exact (Nat.le_add_right _ k).trans hs
  | cons i is ih =>
    obtain ⟨⟨⟩, u, hi, hrest⟩ := Engine.bind_eq_ok.1 h
    cases i with
    | flag b => exact ih (hs.flag hi) his hrest
    | data v =>
      obtain _ | k := k
      · exact his.elim
      exact ih (hs.data hi) his hrest

/-- Settles O7: what waits outnumbers the flag bits of the open byte by at most one, and these are
at most eight. -/
theorem pendingBytesNeverAboveNine : Obligations.PendingBytesNeverAboveNine := by
  intro ts n s t _ hpend hemit
  have hstart : HasCredit 0 s := by simp [HasCredit, hpend]
  have hcredit : HasCredit 0 t :=
    hstart.emitItems ((covered_flatMap_tokenItems ts).take n) hemit
  have hcnt := t.enc.cnt.isLt
  unfold HasCredit at hcredit
  omega

end Sys2Proof.Machine
end

section
/-! The read cursors: a refilled cursor returns the bits of its byte, most significant first. -/

namespace Sys2Proof.Machine

/-! ### One bit -/

/-- `get` and `put` name a part of the state that holds one cursor. -/
structure IsCursor (get : State → BitCursor) (put : BitCursor → State → State) : Prop where
  get_put : ∀ c s, get (put c s) = c
  put_put : ∀ c d s, put c (put d s) = put c s

theorem isCursor_bc : IsCursor (fun s => s.bc) State.withBc := ⟨fun _ _ => rfl, fun _ _ _ => rfl⟩

theorem isCursor_huff : IsCursor (fun s => s.hf.cursor) State.withHfCursor :=
  ⟨fun _ _ => rfl, fun _ _ _ => rfl⟩

section
variable {get : State → BitCursor} {put : BitCursor → State → State} {src : Engine Byte}
  {s s' : State}

theorem readBitOf_refill {b : Byte} (hempty : (get s).rem = 0) (hsrc : src s = .ok b s') :
    readBitOf get put src s = .ok (BitCursor.firstBit b) (put (BitCursor.refilled b) s') := by
  rw [readBitOf, Engine.get_bind]
  simp only [hempty, if_true]
  rw [Engine.bind_ok hsrc]
  rfl

theorem readBitOf_stop {e : Stop} (hempty : (get s).rem = 0) (hsrc : src s = .error e s') :
    readBitOf get put src s = .error e s' := by
  rw [readBitOf, Engine.get_bind]
  simp only [hempty, if_true]
  exact Engine.bind_error hsrc

theorem readBitOf_held (hheld : (get s).rem ≠ 0) :
    readBitOf get put src s = .ok (get s).bit (put (get s).advance s) := by
  rw [readBitOf, Engine.get_bind]
  simp only [hheld, if_false]
  rfl

/-! ### The bits of one byte (40_bitcursor.md R130, R131) -/

/-- A bit read first stands on top of the bits of the byte below it. -/
theorem readValue_step (b : Byte) (n v : Nat) :
    (v * 2 + (b.getLsbD n).toNat) * 2 ^ n + b.toNat % 2 ^ n =
      v * 2 ^ (n + 1) + b.toNat % 2 ^ (n + 1) := by
  rw [BitVec.getLsbD, Nat.toNat_testBit, Nat.mod_pow_succ]
  ring

/-- A field read from the `n` bits a cursor still holds is their value. -/
theorem readBits_held (hc : IsCursor get put) (b : Byte) (n v : Nat) (hn : n < 8) :
    readBitsWith (readBitOf get put src) n v (put ⟨b, ⟨n, hn⟩⟩ s) =
      .ok (v * 2 ^ n + b.toNat % 2 ^ n) (put ⟨b, 0⟩ s) := by
  induction n generalizing v with
  | zero => simp [readBitsWith, Nat.mod_one]
  | succ n ih =>
    have hheld : (get (put ⟨b, ⟨n + 1, hn⟩⟩ s)).rem ≠ 0 := by
      rw [hc.get_put]
      exact Fin.ne_of_val_ne n.succ_ne_zero
    have hnext : BitCursor.advance ⟨b, ⟨n + 1, hn⟩⟩ = ⟨b, ⟨n, by omega⟩⟩ :=
      congrArg (BitCursor.mk b)
        (Fin.ext (Fin.val_sub_one_of_ne_zero (Fin.ne_of_val_ne n.succ_ne_zero)))
    rw [readBitsWith, Engine.bind_ok (readBitOf_held hheld), hc.get_put, hc.put_put, hnext, ih]
    exact congrArg (EStateM.Result.ok · _) (readValue_step b n v)

/-- Eight bits from an empty cursor are the byte it is refilled with. -/
theorem readBits_refill (hc : IsCursor get put) {b : Byte} (hempty : (get s).rem = 0)
    (hsrc : src s = .ok b s') :
    readBitsWith (readBitOf get put src) 8 0 s = .ok b.toNat (put ⟨b, 0⟩ s') := by
  rw [readBitsWith, Engine.bind_ok (readBitOf_refill hempty hsrc)]
  refine (readBits_held hc b 7 _ (by omega)).trans ?_
  have hvalue : 0 * 2 ^ 8 + b.toNat % 2 ^ 8 = b.toNat := by
    rw [Nat.zero_mul, Nat.zero_add, Nat.mod_eq_of_lt b.isLt]
  exact congrArg (EStateM.Result.ok · _) ((readValue_step b 7 0).trans hvalue)

end

/-- Settles O10: both cursors are read alike, and they differ in the source of a refill. -/
theorem flagByteReadsMsbFirst : Obligations.FlagByteReadsMsbFirst := by
  refine ⟨fun s b hoff hempty hleft hread => ?_, fun s s' b hempty hsrc => ?_,
    fun s b hempty hleft hread => ?_, fun s hend => ⟨fun hempty => ?_, fun hoff hempty => ?_⟩⟩
  · exact readBits_refill isCursor_bc hempty ((srcByte_of_off hoff).trans (inByte_ok hleft hread))
  · exact readBits_refill isCursor_bc hempty hsrc
  · exact readBits_refill isCursor_huff hempty (inByte_ok hleft hread)
  · exact readBitOf_stop hempty (inByte_end hend)
  · exact readBitOf_stop hempty ((srcByte_of_off hoff).trans (inByte_end hend))

end Sys2Proof.Machine
end

section
/-! The LCG keystream: one step as arithmetic mod 2^32, and `k` steps at once. -/

namespace Sys2Proof.Machine

/-- One step is the recurrence of 41_lcg.md R150 on the numbers the words stand for. -/
theorem lcgStep_toNat (e : LcgEntry) (s : Word) :
    (lcgStep e s).toNat =
      (s.toNat * e.multiplier.toNat + e.increment.toNat) % 2 ^ 32 := by
  rw [lcgStep, BitVec.toNat_add, BitVec.toNat_mul, Nat.mod_add_mod]

/-- The geometric sum of R154, a sum over a list here, grows at its low end: a step multiplies every
increment added so far and adds one more. -/
theorem sum_range_pow_succ (m k : Nat) :
    ((List.range (k + 1)).map fun j => m ^ j).sum =
      m * ((List.range k).map fun j => m ^ j).sum + 1 := by
  have list_sum_eq (n : Nat) :
      ((List.range n).map fun j => m ^ j).sum = ∑ j ∈ Finset.range n, m ^ j := rfl
  rw [list_sum_eq, list_sum_eq, geom_sum_succ]

/-- Settles O35, by induction on the number of steps: the reduction after the earlier steps is
absorbed by that of the last one. -/
theorem lcgStepsHaveClosedForm : Obligations.LcgStepsHaveClosedForm := by
  intro e s0 k
  induction k with
  | zero => simp [Nat.mod_eq_of_lt s0.isLt]
  | succ k ih =>
    rw [Function.iterate_succ_apply', lcgStep_toNat, ih, sum_range_pow_succ]
    refine (((Nat.mod_modEq _ _).mul_right _).add_right _).trans (congrArg (· % 2 ^ 32) ?_)
    ring

end Sys2Proof.Machine
end

section
/-! The meaning of single tokens: what LIT and RUN append, what an offset field of 0 repeats, and the
faults of a token, which all end the decode in the same way. -/

namespace Sys2Proof.Machine

/-! ### Appends (42_lz_decode.md R163, R168, R169) -/

/-- Settles O11: LIT is one append, which has room and whose new position fits 32 bits. -/
theorem litAppendsItsByte : Obligations.LitAppendsItsByte := by
  intro b s hleft hroom
  have hfit := s.size.isLt
  exact ⟨s.pushOut b, runBody_ok (append_ok hroom), .push (by omega)⟩

/-- Settles O13, by induction on the byte: with offset field 0 each new byte equals the one just
before it. -/
theorem offsetZeroRepeatsLastByte : Obligations.OffsetZeroRepeatsLastByte := by
  intro i n s hi hwf hready
  obtain ⟨t, hexec, -, hcopied, hold⟩ := matchTokensCopyBack i 0 n s hi hwf hready
  have hback : 0 + 1 ≤ s.outPos.toNat := hready.1
  refine ⟨t, hexec, fun k hk => ?_⟩
  have hprev := hcopied k hk
  induction k with
  | zero => exact hprev.trans (hold _ (by omega))
  | succ k ih => exact hprev.trans (ih (by omega) (hcopied k (by omega)))

/-- With the Huffman layer off the data bytes of a RUN are copied from IN (40_bitcursor.md R134). -/
theorem runLoop_of_off (n : Nat) {s : State} (hoff : s.hf.on = false) :
    runLoop n s = copyIn n s := by
  induction n generalizing s with
  | zero => rfl
  | succ n ih =>
    rw [runLoop, copyIn, Engine.bind_apply, Engine.bind_apply, srcByte_of_off hoff]
    rcases inByte_cases s with ⟨b, -, -, hin⟩ | ⟨-, hin⟩ | ⟨-, -, hin⟩
    · rcases append_cases b s.advanceIn with ⟨-, happ⟩ | ⟨-, happ⟩
      · simp only [hin, Engine.bind_ok happ]
        exact ih hoff
      · simp only [hin, Engine.bind_error happ]
    · simp only [hin]
    · simp only [hin]

theorem runBytes_of_fits {n : Nat} {s : State} (hsize : s.outPos.toNat + n ≤ s.size.toNat) :
    runBytes n s = runLoop n s := by
  rw [runBytes, Engine.get_bind, raiseIf_bind_false (decide_eq_false (Nat.not_lt.2 hsize))]

theorem exec_run (count : BitVec 13) (s : State) :
    exec (.run count) s = runToken (runBytes (count.toNat + 0x1B)) s := rfl

/-! ### Faults of a running decode (60_exceptions.md R324) -/

/-- What reads and appends leave alone while a token runs: `tok_out` with all that `Kept` lists. -/
def TokenKept (s t : State) : Prop := Kept s t ∧ t.tokOut = s.tokOut

theorem tokenKept_closed : Engine.Closed TokenKept where
  refl s := ⟨kept_closed.refl s, rfl⟩
  trans := fun s t u ⟨h1, e1⟩ ⟨h2, e2⟩ => ⟨kept_closed.trans s t u h1 h2, e2.trans e1⟩
  work := fun _ _ _ _ _ _ _ _ _ _ _ => ⟨kept_closed.work _ _ _ _ _ _ _ _ _ _ _, rfl⟩
  push := fun s v h => ⟨kept_closed.push s v h, rfl⟩
  key := fun s a bs h => ⟨kept_closed.key s a bs h, rfl⟩

/-- A fault raised inside a token ends the decode, with FAULT_OUT_POS at the token's start. -/
theorem TokenKept.faultResult {s s' : State} (h : TokenKept s s') {f : FaultKind} {info : Nat}
    (hphase : s.phase = .lzDecode) (hc : s.hc.isSet = false) (hinfo : info < 2 ^ 32) :
    FaultResult s (endWithFault f info s') f.code info s'.inPos s.tokOut := by
  obtain ⟨hkept, htok⟩ := h
  have hphase' : s'.phase = .lzDecode := by
    obtain ⟨-, hph, -⟩ := hkept
    rw [hph, hphase]
  simpa only [hphase', if_true, htok] using endWithFault_result (k := f) hkept hc hinfo

theorem runToken_faultResult {body : Engine Unit} {s s' : State} {f : FaultKind} {info : Nat}
    (hbody : body.Preserves TokenKept) (hphase : s.phase = .lzDecode) (hc : s.hc.isSet = false)
    (hinfo : info < 2 ^ 32) (h : body s = .error (.raise f info) s') :
    ∃ t, runToken body s = .next t ∧ FaultResult s t f.code info s'.inPos s.tokOut :=
  ⟨_, runBody_raise h, (hbody.error h).faultResult hphase hc hinfo⟩

theorem copyBack_underflow {offset n : Nat} {s : State} (h : s.outPos.toNat < offset + 1) :
    copyBack offset n s = .error (.raise .backrefUnderflow offset) s := by
  rw [copyBack, Engine.get_bind, raiseIf_bind_true (decide_eq_true h)]

theorem copyBack_overrun {offset n : Nat} {s : State} (hback : offset + 1 ≤ s.outPos.toNat)
    (h : s.size.toNat < s.outPos.toNat + n) :
    copyBack offset n s = .error (.raise .outputOverrun n) s := by
  rw [copyBack, Engine.get_bind, raiseIf_bind_false (decide_eq_false (Nat.not_lt.2 hback)),
    raiseIf_bind_true (decide_eq_true h)]

theorem runBytes_overrun {n : Nat} {s : State} (h : s.size.toNat < s.outPos.toNat + n) :
    runBytes n s = .error (.raise .outputOverrun n) s := by
  rw [runBytes, Engine.get_bind, raiseIf_bind_true (decide_eq_true h)]

/-- The fields of a match token fit FAULT_INFO. -/
theorem matchFields_lt {i : Instr} {offset n : Nat} (h : matchFields i = some (offset, n)) :
    offset < 2 ^ 32 ∧ n < 2 ^ 32 := by
  cases i <;> simp only [matchFields, Option.some.injEq, Prod.mk.injEq, reduceCtorEq] at h
  all_goals
    obtain ⟨rfl, rfl⟩ := h
    omega

/-- Settles O14: both checks of the copy come before its first byte, so the state that faults is the
one the token began in. -/
theorem matchTokensFaultOutsideOutput : Obligations.MatchTokensFaultOutsideOutput := by
  intro i offset n s hi _ hphase hc
  obtain ⟨hoffset, hn⟩ := matchFields_lt hi
  rw [(exec_match hi s).1]
  have hbody := tokenKept_closed.copyBack offset n
  exact ⟨fun h => runToken_faultResult hbody hphase hc hoffset (copyBack_underflow h),
    fun hback h => runToken_faultResult hbody hphase hc hn (copyBack_overrun hback h)⟩

/-- Settles O16: the check is the first thing a RUN does. -/
theorem runOverrunFaultsBeforeReading : Obligations.RunOverrunFaultsBeforeReading := by
  intro count s hphase hc h
  have hcount := count.isLt
  exact runToken_faultResult (tokenKept_closed.runBytes _) hphase hc (by omega) (runBytes_overrun h)

/-! ### The head of a token in a type-3 decode (42_lz_decode.md R162) -/

/-- A stream without bytes left stands at IN_LEN. -/
theorem atSource_inPos_of_nil {s : State} {src : TokenSource} (h : src.bytes = []) :
    (s.atSource s.inLen.toNat src).inPos = s.inLen := by simp [State.atSource, h]

/-- IN_LEN is where the engine's reads are truncated (40_bitcursor.md R133). -/
theorem stopsAt_inLen {s : State} (hoff : s.hf.on = false) :
    StopsAt s s.inLen.toNat (.raise .truncated s.inLen.toNat) where
  off := hoff
  inside := Nat.le_refl _
  stop := by
    intro src hnil
    have hpos := atSource_inPos_of_nil (s := s) hnil
    rw [inByte_end (by rw [hpos]; exact Nat.le_refl _), hpos]

/-- A stream with `k` bytes left stands `k` bytes before IN_LEN. -/
theorem atSource_inLen {s : State} {src : TokenSource} (h : Unread s s.inLen.toNat src) :
    s.atSource s.inLen.toNat src =
      { s with bc := src.cursor, inPos := s.inLen - BitVec.ofNat 32 src.bytes.length } := by
  obtain ⟨a, hlen, -⟩ := h
  have hpos : BitVec.ofNat 32 (s.inLen.toNat - src.bytes.length) =
      s.inLen - BitVec.ofNat 32 src.bytes.length := by
    bv_omega
  rw [State.atSource, hpos]

theorem step_of_decode {s : State} (hhost : s.host = []) (hphase : s.phase = .lzDecode) :
    step s = decodeStep s := by simp [step, hhost, engineStep, hphase]

/-- The engine's fetch follows the plain decoder on all of IN that is not read yet. -/
theorem fetchToken_follows {s : State} (hoff : s.hf.on = false)
    (hin : s.inPos.toNat ≤ s.inLen.toNat)
    (hbytes : HasBytes s.inBuf s.inPos.toNat (s.inLen.toNat - s.inPos.toNat)) :
    (∀ i src, decodeTree streamBit streamByte s.tokenSource = .ok i src →
      fetchToken s = .ok i (s.atSource s.inLen.toNat src) ∧ Unread s s.inLen.toNat src) ∧
    ∀ r src, decodeTree streamBit streamByte s.tokenSource = .error r src →
      fetchToken s = .error (.raise .truncated s.inLen.toNat) (s.atSource s.inLen.toNat src) ∧
        src.bytes = [] := by
  have hend : s.inPos.toNat + (s.inLen.toNat - s.inPos.toNat) = s.inLen.toNat := by omega
  have hstart : s.atSource s.inLen.toNat s.tokenSource = s := by
    simpa only [hend, State.tokenSource] using atSource_start s (s.inLen.toNat - s.inPos.toNat)
  have hunread : Unread s s.inLen.toNat s.tokenSource := by
    simpa only [hend, State.tokenSource] using unread_start s.bc hbytes
  simpa only [hstart] using (stopsAt_inLen hoff).follows_fetchToken _ hunread

theorem decodeToken_eq_ok {src src' : TokenSource} {i : Instr}
    (h : decodeToken src = .ok (i, src')) : decodeTree streamBit streamByte src = .ok i src' := by
  unfold decodeToken at h
  split at h <;> cases h
  assumption

theorem decodeStep_fetched {s t : State} {i : Instr} (hroom : s.outPos.toNat < s.size.toNat)
    (h : fetchToken s.markToken = .ok i t) : decodeStep s = exec i t := by
  simp [decodeStep, hroom, h]

theorem decodeStep_fetch_raised {s t : State} {f : FaultKind} {info : Nat}
    (hroom : s.outPos.toNat < s.size.toNat)
    (h : fetchToken s.markToken = .error (.raise f info) t) :
    decodeStep s = .next (endWithFault f info t) := by
  simp [decodeStep, hroom, h]

/-- Settles O18: the fetch follows the plain decoder, and its stop at IN_LEN is a fault inside the
token that `tok_out` was just marked for. -/
theorem stepFetchesTokenFromInput : Obligations.StepFetchesTokenFromInput := by
  intro s hhost hphase hroom hoff hin hbytes
  obtain ⟨hok, hended⟩ := fetchToken_follows (s := s.markToken) hoff hin hbytes
  rw [step_of_decode hhost hphase]
  refine ⟨fun i src hd => ?_, fun hd hc => ?_⟩
  · obtain ⟨hfetch, hunread⟩ := hok i src (decodeToken_eq_ok hd)
    rw [decodeStep_fetched hroom hfetch]
    exact congrArg (exec i) (atSource_inLen hunread)
  · obtain ⟨src, htree⟩ := decodeToken_eq_error hd
    obtain ⟨hfetch, hnil⟩ := hended _ src htree
    have hfault := (tokenKept_closed.fetchToken.error hfetch).faultResult (f := .truncated) hphase hc
      s.inLen.isLt
    rw [atSource_inPos_of_nil hnil] at hfault
    exact ⟨_, decodeStep_fetch_raised hroom hfetch, hfault⟩

/-! ### The end of a decode (47_commands.md R281) -/

theorem decodeStep_finished {s : State} (h : s.size.toNat ≤ s.outPos.toNat) :
    decodeStep s = .next (complete s) := if_neg (Nat.not_lt.2 h)

/-- Settles O46: the step completes, and without a conflict that is `publish`. -/
theorem finishedDecodePublishes : Obligations.FinishedDecodePublishes := by
  intro s hhost hphase hdone hc
  refine ⟨publish s, ?_, statusReads_statusWord .., fun a => Memory.read_below .., rfl⟩
  rw [step_of_decode hhost hphase, decodeStep_finished hdone, complete, if_neg (by simp [hc])]

end Sys2Proof.Machine
end

section
/-! The reads of a decode, by `SrcByte()` and `ReadBit(bc)`: they move `in_pos` and the two cursors and
nothing else, take no notice of OUT, and where the input holds values and the table is loaded they are
never refused. -/

namespace Sys2Proof.Machine

/-! ### Where the reads stand -/

/-- What a read can move: `in_pos`, the flag-bit cursor and the Huffman cursor. -/
structure Cursors where
  inPos : Word
  flag : BitCursor
  huff : BitCursor

/-- The state with its reads at `c`, and with an OUT and an `out_pos` of its own. -/
def State.placed (s : State) (c : Cursors) (buf : Memory) (pos : Word) : State :=
  { s with
    inPos := c.inPos, bc := c.flag, hf := { s.hf with cursor := c.huff }
    outBuf := buf, outPos := pos }

/-- The state with its reads at `c`. -/
def State.readAt (s : State) (c : Cursors) : State := s.placed c s.outBuf s.outPos

/-- The whole input holds values, and the Huffman table is loaded if the layer is on. -/
def Readable (s : State) : Prop :=
  HasBytes s.inBuf 0 s.inLen.toNat ∧ (s.hf.on = true → s.ht.length = s.hf.len.toNat)

/-! ### Read operations -/

/-- With the reads at `c`, `m` answers or stops in the same way whatever OUT holds, and moves the
cursors only; in a readable state its stop is a fault. -/
def ReadsAt {α : Type} (s : State) (m : Engine α) (c : Cursors) : Prop :=
  (∃ a d, ∀ buf pos, m (s.placed c buf pos) = .ok a (s.placed d buf pos)) ∨
  ∃ e d, (∀ buf pos, m (s.placed c buf pos) = .error e (s.placed d buf pos)) ∧
    ∀ r, e = .refuse r → ¬ Readable s

/-- `m` is such a read from wherever the reads stand. -/
def ReadsFrom {α : Type} (s : State) (m : Engine α) : Prop := ∀ c, ReadsAt s m c

section
variable {α β : Type} {s : State}

theorem ReadsAt.answers {m : Engine α} {c d : Cursors} {a : α}
    (h : ∀ buf pos, m (s.placed c buf pos) = .ok a (s.placed d buf pos)) : ReadsAt s m c :=
  .inl ⟨a, d, h⟩

theorem ReadsAt.raises {m : Engine α} {c d : Cursors} {f : FaultKind} {info : Nat}
    (h : ∀ buf pos, m (s.placed c buf pos) = .error (.raise f info) (s.placed d buf pos)) :
    ReadsAt s m c :=
  .inr ⟨.raise f info, d, h, fun _ => nofun⟩

theorem ReadsAt.refuses {m : Engine α} {c d : Cursors} {r : Refusal} (hr : ¬ Readable s)
    (h : ∀ buf pos, m (s.placed c buf pos) = .error (.refuse r) (s.placed d buf pos)) :
    ReadsAt s m c :=
  .inr ⟨.refuse r, d, h, fun _ _ => hr⟩

theorem readsFrom_pure (a : α) : ReadsFrom s (pure a) := fun _ => .answers fun _ _ => rfl

theorem readsFrom_raise (f : FaultKind) (info : Nat) : ReadsFrom s (raise f info : Engine α) :=
  fun _ => .raises fun _ _ => rfl

theorem readsFrom_bind {m : Engine α} {f : α → Engine β} (hm : ReadsFrom s m)
    (hf : ∀ a, ReadsFrom s (f a)) : ReadsFrom s (m >>= f) := by
  intro c
  rcases hm c with ⟨a, d, ha⟩ | ⟨e, d, he, hr⟩
  · rcases hf a d with ⟨b, d', hb⟩ | ⟨e, d', he, hr⟩
    · exact .answers fun buf pos => (Engine.bind_ok (ha buf pos)).trans (hb buf pos)
    · exact .inr ⟨e, d', fun buf pos => (Engine.bind_ok (ha buf pos)).trans (he buf pos), hr⟩
  · exact .inr ⟨e, d, fun buf pos => Engine.bind_error (he buf pos), hr⟩

theorem readsFrom_ite {p : Prop} [Decidable p] {m n : Engine α} (hm : ReadsFrom s m)
    (hn : ReadsFrom s n) : ReadsFrom s (if p then m else n) := by
  split <;> assumption

/-- What a read takes from the state, OUT and `out_pos` do not change. -/
theorem readsFrom_get {f : State → Engine α}
    (hsame : ∀ c buf pos, f (s.placed c buf pos) = f (s.readAt c))
    (hf : ∀ c, ReadsFrom s (f (s.readAt c))) : ReadsFrom s (get >>= f) := by
  intro c
  have heq : ∀ buf pos,
      (get >>= f) (s.placed c buf pos) = f (s.readAt c) (s.placed c buf pos) := by
    intro buf pos
    rw [Engine.get_bind, hsame]
  simpa only [ReadsAt, heq] using hf c c

theorem readsFrom_raiseIf_bind {p : Prop} [Decidable p] (k : FaultKind) (info : Nat)
    {f : Unit → Engine α} (hf : ¬ p → ReadsFrom s (f ())) :
    ReadsFrom s (raiseIf (decide p) k info >>= f) := by
  by_cases h : p
  · exact fun _ => .raises fun _ _ => raiseIf_bind_true (decide_eq_true h) ..
  · intro c
    simpa only [ReadsAt, raiseIf_bind_false (decide_eq_false h)] using hf h c

theorem readsFrom_inByte : ReadsFrom s inByte := by
  intro c
  rcases Nat.lt_or_ge c.inPos.toNat s.inLen.toNat with hlt | hge
  · cases hb : Memory.read s.inBuf c.inPos.toNat with
    | some b =>
      exact .answers (d := { c with inPos := c.inPos + 1 }) fun buf pos =>
        inByte_ok (s := s.placed c buf pos) hlt hb
    | none =>
      refine .refuses (r := .unwrittenByte .inBuf c.inPos.toNat) (d := c) (fun hready => ?_)
        fun buf pos => ?_
      · have hsome := hready.1 _ hlt
        rw [Nat.zero_add, hb] at hsome
        cases hsome
      · rcases inByte_cases (s.placed c buf pos) with ⟨_, -, hsome, -⟩ | ⟨hend, -⟩ | ⟨-, -, h⟩
        · exact absurd (hsome.symm.trans hb) (by simp)
        · exact absurd hend (Nat.not_le.2 hlt)
        · exact h
  · exact .raises (info := c.inPos.toNat) (d := c) fun buf pos =>
      inByte_end (s := s.placed c buf pos) hge

/-- A bit read through the cursor that `get` and `put` name, whose place among the cursors `sel` and
`upd` name, from a byte source that is a read. -/
theorem readsFrom_readBit {get : State → BitCursor} {put : BitCursor → State → State}
    {src : Engine Byte} {sel : Cursors → BitCursor} {upd : BitCursor → Cursors → Cursors}
    (hget : ∀ c buf pos, get (s.placed c buf pos) = sel c)
    (hput : ∀ b c buf pos, put b (s.placed c buf pos) = s.placed (upd b c) buf pos)
    (hsrc : ReadsFrom s src) : ReadsFrom s (readBitOf get put src) := by
  intro c
  by_cases hempty : (sel c).rem = 0
  · have hempty' : ∀ buf pos, (get (s.placed c buf pos)).rem = 0 := fun _ _ => by rwa [hget]
    rcases hsrc c with ⟨b, d, hb⟩ | ⟨e, d, he, hr⟩
    · exact .answers fun buf pos =>
        (readBitOf_refill (hempty' buf pos) (hb buf pos)).trans (by rw [hput])
    · exact .inr ⟨e, d, fun buf pos => readBitOf_stop (hempty' buf pos) (he buf pos), hr⟩
  · refine .answers (a := (sel c).bit) (d := upd (sel c).advance c) fun buf pos => ?_
    rw [readBitOf_held (by rwa [hget]), hget, hput]

theorem readsFrom_huffBit : ReadsFrom s huffBit :=
  readsFrom_readBit (sel := Cursors.huff) (upd := fun b c => { c with huff := b })
    (fun _ _ _ => rfl) (fun _ _ _ _ => rfl) readsFrom_inByte

/-- An entry below `hf.len` holds a value once the table is loaded. -/
theorem readsFrom_huffEntry (hon : s.hf.on = true) {k : Nat} (hk : k < s.hf.len.toNat) :
    ReadsFrom s (huffEntry k) := by
  intro c
  cases hv : s.ht[k]? with
  | some v =>
    exact .answers (a := v.toInt) (d := c) fun buf pos => by simp [huffEntry, State.placed, hv]
  | none =>
    refine .refuses (r := .unwrittenEntry k) (d := c) (fun hready => ?_) fun buf pos => by
      simp [huffEntry, State.placed, hv]
    have hloaded := hready.2 hon
    have hshort := List.getElem?_eq_none_iff.1 hv
    omega

/-- The range check of 44_huffman.md R223 comes before the entry is read. -/
theorem readsFrom_huffWalk (hon : s.hf.on = true) (fuel : Nat) (node : Int) :
    ReadsFrom s (huffWalk fuel node) := by
  induction fuel generalizing node with
  | zero =>
    exact readsFrom_ite (readsFrom_pure _)
      (readsFrom_get (fun _ _ _ => rfl) fun _ => readsFrom_raise _ _)
  | succ fuel ih =>
    exact readsFrom_ite (readsFrom_pure _) (readsFrom_bind readsFrom_huffBit fun bit =>
      readsFrom_get (fun _ _ _ => rfl) fun _ => readsFrom_raiseIf_bind _ _ fun hk =>
        readsFrom_bind (readsFrom_huffEntry hon (Nat.not_le.1 hk)) ih)

theorem readsFrom_srcByte : ReadsFrom s srcByte := by
  refine readsFrom_get (fun _ _ _ => rfl) fun c => ?_
  split
  next hon => exact readsFrom_get (fun _ _ _ => rfl) fun _ => readsFrom_huffWalk hon _ _
  next => exact readsFrom_inByte

theorem readsFrom_lzBit : ReadsFrom s lzBit :=
  readsFrom_readBit (sel := Cursors.flag) (upd := fun b c => { c with flag := b })
    (fun _ _ _ => rfl) (fun _ _ _ _ => rfl) readsFrom_srcByte

theorem readsFrom_readBits (n v : Nat) : ReadsFrom s (readBitsWith lzBit n v) := by
  induction n generalizing v with
  | zero => exact readsFrom_pure v
  | succ n ih => exact readsFrom_bind readsFrom_lzBit fun _ => ih _

theorem readsFrom_fetchToken : ReadsFrom s fetchToken := by
  have hbit : ReadsFrom s lzBit := readsFrom_lzBit
  have hbyte : ReadsFrom s srcByte := readsFrom_srcByte
  unfold fetchToken decodeTree
  refine readsFrom_bind hbit fun _ => readsFrom_ite
    (readsFrom_bind hbit fun _ => readsFrom_ite ?_ ?_) ?_
  · refine readsFrom_bind hbyte fun _ => readsFrom_bind hbyte fun _ =>
      readsFrom_ite (readsFrom_pure _) (readsFrom_bind hbit fun _ => readsFrom_ite ?_ ?_)
    · exact readsFrom_bind hbyte fun _ => readsFrom_ite (readsFrom_pure _) (readsFrom_pure _)
    · exact readsFrom_bind (readsFrom_readBits _ _) fun _ => readsFrom_pure _
  · exact readsFrom_bind (readsFrom_readBits _ _) fun _ => readsFrom_bind hbyte fun _ =>
      readsFrom_pure _
  · exact readsFrom_bind hbyte fun _ => readsFrom_pure _

theorem readsFrom_srcBytes (n : Nat) : ReadsFrom s (srcBytes n) := by
  induction n with
  | zero => exact readsFrom_pure _
  | succ n ih =>
    exact readsFrom_bind readsFrom_srcByte fun _ => readsFrom_bind ih fun _ => readsFrom_pure _

/-! ### What a read leaves -/

/-- Everything a read can do. -/
theorem ReadsFrom.cases {m : Engine α} (h : ReadsFrom s m) :
    (∃ a d, m s = .ok a (s.readAt d)) ∨ (∃ f info d, m s = .error (.raise f info) (s.readAt d)) ∨
    ∃ r d, m s = .error (.refuse r) (s.readAt d) ∧ ¬ Readable s := by
  rcases h ⟨s.inPos, s.bc, s.hf.cursor⟩ with ⟨a, d, ha⟩ | ⟨e, d, he, hr⟩
  · exact .inl ⟨a, d, ha s.outBuf s.outPos⟩
  · cases e with
    | raise f info => exact .inr (.inl ⟨f, info, d, he s.outBuf s.outPos⟩)
    | refuse r => exact .inr (.inr ⟨r, d, he s.outBuf s.outPos, hr r rfl⟩)

/-- A read that answers does so behind a further byte of output too. -/
theorem ReadsFrom.ok {m : Engine α} (h : ReadsFrom s m) {a : α} {t : State} (e : m s = .ok a t) :
    (∃ d, t = s.readAt d) ∧ ∀ v, m (s.pushOut v) = .ok a (t.pushOut v) := by
  rcases h ⟨s.inPos, s.bc, s.hf.cursor⟩ with ⟨b, d, hb⟩ | ⟨_, d, he, -⟩
  · cases e.symm.trans (hb s.outBuf s.outPos)
    exact ⟨⟨d, rfl⟩, fun v => hb (s.pushOut v).outBuf (s.pushOut v).outPos⟩
  · cases e.symm.trans (he s.outBuf s.outPos)

/-- A read that stops does so behind a further byte of output too. -/
theorem ReadsFrom.error {m : Engine α} (h : ReadsFrom s m) {x : Stop} {t : State}
    (e : m s = .error x t) : ∀ v, m (s.pushOut v) = .error x (t.pushOut v) := by
  rcases h ⟨s.inPos, s.bc, s.hf.cursor⟩ with ⟨_, d, hb⟩ | ⟨y, d, he, -⟩
  · cases e.symm.trans (hb s.outBuf s.outPos)
  · cases e.symm.trans (he s.outBuf s.outPos)
    exact fun v => he (s.pushOut v).outBuf (s.pushOut v).outPos

end

end Sys2Proof.Machine
end

section
/-! Everything a token of a running decode can do, and with it the whole decode: it appends until
`size` bytes are made or a fault ends it. -/

namespace Sys2Proof.Machine

/-! ### The data bytes of a RUN (42_lz_decode.md R168) -/

/-- The reads of a RUN's data answer the same whether or not the earlier bytes were appended. -/
theorem runLoop_ok {n : Nat} {s s' : State} {bs : List Byte} (hroom : Room n s)
    (h : srcBytes n s = .ok bs s') :
    ∃ t, runLoop n s = .ok () t ∧ bs.length = n ∧ AppendResult s' t bs := by
  induction n generalizing s s' bs with
  | zero =>
    cases h
    exact ⟨s, rfl, rfl, .nil s⟩
  | succ n ih =>
    obtain ⟨b, s1, hb, h⟩ := Engine.bind_eq_ok.1 h
    obtain ⟨cs, s2, hcs, h⟩ := Engine.bind_eq_ok.1 h
    cases h
    obtain ⟨⟨d, rfl⟩, -⟩ := readsFrom_srcByte.ok hb
    obtain ⟨⟨d', rfl⟩, hpush⟩ := (readsFrom_srcBytes n).ok hcs
    obtain ⟨happ, hroom'⟩ := Room.append (s := s.readAt d) hroom b
    obtain ⟨t, hrun, rfl, hout⟩ := ih hroom' (hpush b)
    have hfit : s.outPos.toNat + (cs.length + 1) < 2 ^ 32 := hroom.2
    have hpushed : AppendResult (s.readAt d') ((s.readAt d').pushOut b) [b] :=
      .push (show s.outPos.toNat + 1 < 2 ^ 32 by omega)
    refine ⟨t, ?_, rfl, hpushed.trans hout (show s.outPos.toNat + 1 + cs.length < 2 ^ 32 by omega)⟩
    rw [runLoop, Engine.bind_ok hb, Engine.bind_ok happ, hrun]

theorem runLoop_error {n : Nat} {s s' : State} {e : Stop} (hroom : Room n s)
    (h : srcBytes n s = .error e s') : ∃ t, runLoop n s = .error e t ∧ t.inPos = s'.inPos := by
  induction n generalizing s s' with
  | zero => cases h
  | succ n ih =>
    rcases Engine.bind_eq_error.1 h with hb | ⟨b, s1, hb, h⟩
    · exact ⟨s', Engine.bind_error hb, rfl⟩
    · have hcs : srcBytes n s1 = .error e s' := by
        rcases Engine.bind_eq_error.1 h with hcs | ⟨_, _, -, h⟩
        · exact hcs
        · cases h
      obtain ⟨⟨d, rfl⟩, -⟩ := readsFrom_srcByte.ok hb
      obtain ⟨happ, hroom'⟩ := Room.append (s := s.readAt d) hroom b
      obtain ⟨t, hrun, hpos⟩ := ih hroom' ((readsFrom_srcBytes n).error hcs b)
      refine ⟨t, ?_, hpos⟩
      rw [runLoop, Engine.bind_ok hb, Engine.bind_ok happ, hrun]

/-- Settles O15: behind its check a RUN is its loop, which follows `srcBytes`, and with the Huffman
layer off copies from IN. -/
theorem runAppendsItsDataBytes : Obligations.RunAppendsItsDataBytes := by
  intro count s hsize hcap
  have hfit := s.size.isLt
  have hroom : Room (count.toNat + 0x1B) s := ⟨fun _ => by omega, by omega⟩
  have hbody := runBytes_of_fits hsize
  have hkept := tokenKept_closed.runBytes (count.toNat + 0x1B)
  rw [exec_run]
  refine ⟨fun bs s' h => ?_, fun hoff hin hbytes => ?_, fun hphase hc =>
    ⟨fun f info s' hinfo h => ?_, fun hoff hin hend hbytes => ?_⟩⟩
  · obtain ⟨t, hrun, hlen, hout⟩ := runLoop_ok hroom h
    exact ⟨t, runBody_ok (hbody.trans hrun), hlen, hout⟩
  · obtain ⟨t, hcopy, hout⟩ := copyIn_ok hin (by omega) (by omega) hbytes
    exact ⟨t, runBody_ok ((hbody.trans (runLoop_of_off _ hoff)).trans hcopy), hout⟩
  · obtain ⟨t, hrun, hpos⟩ := runLoop_error hroom h
    rw [← hpos]
    exact runToken_faultResult hkept hphase hc hinfo (hbody.trans hrun)
  · obtain ⟨t, hcopy, hout⟩ := copyIn_truncated hin hend (by omega) (by omega) hbytes
    have hfault := runToken_faultResult hkept hphase hc s.inLen.isLt
      ((hbody.trans (runLoop_of_off _ hoff)).trans hcopy)
    rwa [hout.inPos] at hfault

/-! ### What a token can do -/

/-- Every byte that a token can read holds a value: those of the input and of the output so far, and
the entries of the Huffman table. -/
def Sourced (s : State) : Prop := Readable s ∧ HasBytes s.outBuf 0 s.outPos.toNat

/-- `t` is `s` with its reads moved on and `n` bytes appended, which `out_pos` can count. -/
def Extended (n : Nat) (s t : State) : Prop :=
  s.outPos.toNat + n < 2 ^ 32 ∧ ∃ d bs, bs.length = n ∧ AppendResult (s.readAt d) t bs

/-- What a token's body leaves from `s`: `n` bytes appended, or a fault raised, or a refusal, for which
some byte or entry lacks its value. -/
inductive TokenOutcome (n : Nat) (s : State) : EStateM.Result Stop State Unit → Prop where
  | done {t : State} (h : Extended n s t) : TokenOutcome n s (.ok () t)
  | raised {f : FaultKind} {info : Nat} {t : State} : TokenOutcome n s (.error (.raise f info) t)
  | refused {r : Refusal} {t : State} (h : ¬ Sourced s) : TokenOutcome n s (.error (.refuse r) t)

section
variable {s t : State} {n : Nat}

theorem Extended.refl (s : State) : Extended 0 s s :=
  ⟨s.outPos.isLt, ⟨s.inPos, s.bc, s.hf.cursor⟩, [], rfl, .nil s⟩

/-- An append before the rest of a token's appends. -/
theorem Extended.push {v : Byte} (hfit : s.outPos.toNat + (n + 1) < 2 ^ 32)
    (h : Extended n (s.pushOut v) t) : Extended (n + 1) s t := by
  obtain ⟨-, d, bs, rfl, hout⟩ := h
  have hpush : AppendResult (s.readAt d) ((s.readAt d).pushOut v) [v] :=
    .push (show s.outPos.toNat + 1 < 2 ^ 32 by omega)
  exact ⟨hfit, d, v :: bs, rfl,
    hpush.trans hout (show s.outPos.toNat + 1 + bs.length < 2 ^ 32 by omega)⟩

theorem Sourced.pushOut (v : Byte) (h : Sourced s) : Sourced (s.pushOut v) :=
  ⟨h.1, hasBytes_pushOut v h.2⟩

theorem TokenOutcome.of_pushOut {v : Byte} {res : EStateM.Result Stop State Unit}
    (hfit : s.outPos.toNat + (n + 1) < 2 ^ 32) (h : TokenOutcome n (s.pushOut v) res) :
    TokenOutcome (n + 1) s res := by
  cases h with
  | done h => exact .done (h.push hfit)
  | raised => exact .raised
  | refused h => exact .refused (mt (.pushOut v) h)

theorem TokenOutcome.append_bind {v : Byte} {m : Engine Unit}
    (hfit : s.outPos.toNat + (n + 1) < 2 ^ 32)
    (h : TokenOutcome n (s.pushOut v) (m (s.pushOut v))) :
    TokenOutcome (n + 1) s ((append v >>= fun _ => m) s) := by
  rcases append_cases v s with ⟨-, happ⟩ | ⟨-, happ⟩
  · rw [Engine.bind_ok happ]
    exact h.of_pushOut hfit
  · rw [Engine.bind_error happ]
    exact .raised

theorem TokenOutcome.of_readAt {d : Cursors} {res : EStateM.Result Stop State Unit}
    (h : TokenOutcome n (s.readAt d) res) : TokenOutcome n s res := by
  cases h with
  | done h => exact .done h
  | raised => exact .raised
  | refused h => exact .refused h

theorem append_outcome (v : Byte) (hfit : s.outPos.toNat + 1 < 2 ^ 32) :
    TokenOutcome 1 s (append v s) := by
  rw [← bind_pure (append v)]
  exact .append_bind hfit (.done (.refl _))

theorem runLoop_outcome (hfit : s.outPos.toNat + n < 2 ^ 32) :
    TokenOutcome n s (runLoop n s) := by
  induction n generalizing s with
  | zero => exact .done (.refl s)
  | succ n ih =>
    rw [runLoop]
    rcases readsFrom_srcByte.cases with ⟨b, d, hb⟩ | ⟨f, info, d, hb⟩ | ⟨r, d, hb, hr⟩
    · have hpos : ((s.readAt d).pushOut b).outPos.toNat = s.outPos.toNat + 1 :=
        outPos_succ (show s.outPos.toNat + 1 < 2 ^ 32 by omega)
      rw [Engine.bind_ok hb]
      exact .of_readAt (.append_bind hfit (ih (by omega)))
    · rw [Engine.bind_error hb]
      exact .raised
    · rw [Engine.bind_error hb]
      exact .refused fun hs => hr hs.1

theorem runBytes_outcome (n : Nat) (s : State) : TokenOutcome n s (runBytes n s) := by
  have hfit := s.size.isLt
  rcases Nat.lt_or_ge s.size.toNat (s.outPos.toNat + n) with hover | hsize
  · rw [runBytes_overrun hover]
    exact .raised
  · rw [runBytes_of_fits hsize]
    exact runLoop_outcome (by omega)

/-- A copy reads behind `out_pos`, where the output holds values. -/
theorem copyLoop_outcome {offset : Nat} (hback : offset + 1 ≤ s.outPos.toNat)
    (hfit : s.outPos.toNat + n < 2 ^ 32) : TokenOutcome n s (copyLoop offset n s) := by
  induction n generalizing s with
  | zero => exact .done (.refl s)
  | succ n ih =>
    rw [copyLoop, Engine.get_bind]
    rcases memRead_cases .outBuf (copySource s.outPos.toNat offset) s with ⟨v, -, hv⟩ | ⟨hn, hv⟩
    · have hpos : (s.pushOut v).outPos.toNat = s.outPos.toNat + 1 := outPos_succ (by omega)
      rw [Engine.bind_ok hv]
      exact .append_bind hfit (ih (by omega) (by omega))
    · rw [Engine.bind_error hv]
      refine .refused fun hs => ?_
      have hsome := hs.2 (copySource s.outPos.toNat offset) (by unfold copySource; omega)
      rw [Nat.zero_add, show Memory.read s.outBuf _ = none from hn] at hsome
      cases hsome

theorem copyBack_outcome (offset n : Nat) (s : State) :
    TokenOutcome n s (copyBack offset n s) := by
  have hfit := s.size.isLt
  rcases Nat.lt_or_ge s.outPos.toNat (offset + 1) with hunder | hback
  · rw [copyBack_underflow hunder]
    exact .raised
  rcases Nat.lt_or_ge s.size.toNat (s.outPos.toNat + n) with hover | hsize
  · rw [copyBack_overrun hback hover]
    exact .raised
  · rw [copyBack, Engine.get_bind, raiseIf_bind_false (decide_eq_false (Nat.not_lt.2 hback)),
      raiseIf_bind_false (decide_eq_false (Nat.not_lt.2 hsize))]
    exact copyLoop_outcome hback (by omega)

/-- Every token's body appends at least one byte where it answers. -/
theorem token_outcome {i : Instr} (htok : i.isToken = true)
    (hleft : s.outPos.toNat < s.size.toNat) :
    ∃ body n, exec i s = runToken body s ∧ 0 < n ∧ TokenOutcome n s (body s) := by
  have hfit := s.size.isLt
  have copy : ∀ {offset n : Nat}, matchFields i = some (offset, n) →
      ∃ body n, exec i s = runToken body s ∧ 0 < n ∧ TokenOutcome n s (body s) := by
    intro offset n h
    obtain ⟨hexec, hn⟩ := exec_match h s
    exact ⟨_, n, hexec, hn, copyBack_outcome offset n s⟩
  cases i with
  | lit b => exact ⟨append b, 1, rfl, Nat.one_pos, append_outcome b (by omega)⟩
  | short l o => exact copy rfl
  | long lenField offset => exact copy rfl
  | longx4 offset x => exact copy rfl
  | longx8 offset e => exact copy rfl
  | run count => exact ⟨_, _, exec_run count s, Nat.succ_pos _, runBytes_outcome _ s⟩
  | _ => cases htok

/-! ### What a step of a running decode can do -/

theorem endWithFault_phase (f : FaultKind) (info : Nat) (s : State) :
    (endWithFault f info s).phase = .idle := by
  rcases endWithFault_cases f info s with ⟨-, h⟩ | ⟨-, h⟩ <;> rw [h, State.takeFault_phase]

theorem complete_phase (s : State) : (complete s).phase = .idle := by
  rcases complete_cases s with ⟨-, h⟩ | ⟨-, h⟩ <;> rw [h]
  · exact State.publish_phase s
  · exact State.takeFault_phase ..

/-- The end of a step in a running decode: the decode goes on with at least one byte more, or it is
over, or the step is refused. -/
inductive StepOutcome (s : State) : Host.Outcome State Fault Refusal → Prop where
  | goesOn {n : Nat} {t : State} (hn : 0 < n) (h : Extended n s t) : StepOutcome s (.next t)
  | ended {t : State} (h : t.phase = .idle) : StepOutcome s (.next t)
  | refused {r : Refusal} (h : ¬ Sourced s) : StepOutcome s (.refused r)

theorem exec_token_outcome {i : Instr} (htok : i.isToken = true)
    (hleft : s.outPos.toNat < s.size.toNat) : StepOutcome s (exec i s) := by
  obtain ⟨body, n, hexec, hn, hout⟩ := token_outcome htok hleft
  rw [hexec, runToken]
  generalize hb : body s = res at hout
  cases hout with
  | done h => exact runBody_ok hb ▸ .goesOn hn h
  | raised => exact runBody_raise hb ▸ .ended (endWithFault_phase ..)
  | refused h => exact runBody_refuse hb ▸ .refused h

theorem StepOutcome.of_readAt {d : Cursors} {res : Host.Outcome State Fault Refusal}
    (h : StepOutcome (s.readAt d) res) : StepOutcome s res := by
  cases h with
  | goesOn hn h => exact .goesOn hn h
  | ended h => exact .ended h
  | refused h => exact .refused h

theorem decodeStep_outcome (hleft : s.outPos.toNat < s.size.toNat) :
    StepOutcome s.markToken (decodeStep s) := by
  rcases (readsFrom_fetchToken (s := s.markToken)).cases with
    ⟨i, d, hi⟩ | ⟨f, info, d, hf⟩ | ⟨r, d, hr, hs⟩
  · obtain ⟨htok, -⟩ := decodeTree_token hi
    rw [decodeStep_fetched hleft hi]
    exact .of_readAt (exec_token_outcome htok hleft)
  · rw [decodeStep_fetch_raised hleft hf]
    exact .ended (endWithFault_phase ..)
  · rw [decodeStep_fetch_refused hleft hr]
    exact .refused fun h => hs h.1

/-! ### What an extended state keeps -/

theorem Extended.outPos (h : Extended n s t) : t.outPos.toNat = s.outPos.toNat + n := by
  obtain ⟨hfit, d, bs, rfl, hout⟩ := h
  exact hout.outPos hfit

theorem Extended.read_old (h : Extended n s t) {a : Nat} (ha : a < s.outPos.toNat) :
    Memory.read t.outBuf a = Memory.read s.outBuf a := by
  obtain ⟨-, d, bs, -, -, -, hold⟩ := h
  exact hold a (.inl ha)

theorem Extended.frame (h : Extended n s t) :
    t.size = s.size ∧ t.phase = s.phase ∧ t.host = s.host := by
  obtain ⟨-, d, bs, -, hstate, -⟩ := h
  rw [hstate]
  exact ⟨rfl, rfl, rfl⟩

theorem Extended.readable (h : Extended n s t) (hs : Readable s) : Readable t := by
  obtain ⟨-, d, bs, -, hstate, -⟩ := h
  rw [hstate]
  exact hs

theorem Extended.sourced (h : Extended n s t) (hs : Sourced s) : Sourced t := by
  refine ⟨h.readable hs.1, fun k hk => ?_⟩
  rw [h.outPos] at hk
  rcases Nat.lt_or_ge k s.outPos.toNat with hlt | hge
  · rw [Nat.zero_add, h.read_old hlt]
    simpa only [Nat.zero_add] using hs.2 k hlt
  · obtain ⟨-, d, bs, rfl, -, hnew, -⟩ := h
    have hread := hnew (k - s.outPos.toNat) (by omega)
    rw [show 0 + k = (s.readAt d).outPos.toNat + (k - s.outPos.toNat) from
      show 0 + k = s.outPos.toNat + (k - s.outPos.toNat) by omega, hread]
    rfl

end

/-! ### The obligations -/

/-- Settles O20: a step after which the decode still runs is one that extended its output. -/
theorem decodeOnlyAppends : Obligations.DecodeOnlyAppends := by
  intro s t hphase e hphase'
  have hstep : decodeStep s = .next t := by simpa only [engineStep, hphase] using e
  have not_ended : t.phase ≠ .idle := by simp [hphase']
  rcases Nat.lt_or_ge s.outPos.toNat s.size.toNat with hleft | hdone
  · have hout := decodeStep_outcome hleft
    rw [hstep] at hout
    cases hout with
    | goesOn hn h =>
      have hpos : t.outPos.toNat = s.outPos.toNat + _ := h.outPos
      exact ⟨by omega, fun a ha => h.read_old ha⟩
    | ended h => exact absurd h not_ended
  · cases hstep.symm.trans (decodeStep_finished hdone)
    exact absurd (complete_phase s) not_ended

theorem run_succ {s t : State} (h : step s = .next t) (k : Nat) :
    Sys2Proof.core.run (k + 1) s = Sys2Proof.core.run k t := by
  simp [Host.Core.run, Sys2Proof.core, h]

theorem ends_in_one_step {s t : State} (h : step s = .next t) (ht : t.phase = .idle) (m : Nat) :
    ∃ k ≤ m + 1, ∃ u : State, Sys2Proof.core.run k s = .next u ∧ u.phase = .idle :=
  ⟨1, by omega, t, (run_succ h 0).trans rfl, ht⟩

/-- By induction on the output left to make: each step makes some of it or is the last. -/
theorem decode_ends (s : State) (hhost : s.host = []) (hphase : s.phase = .lzDecode)
    (hs : Sourced s) :
    ∃ k ≤ s.size.toNat - s.outPos.toNat + 1, ∃ t : State,
      Sys2Proof.core.run k s = .next t ∧ t.phase = .idle := by
  induction hm : s.size.toNat - s.outPos.toNat using Nat.strong_induction_on generalizing s with
  | _ m ih =>
  have hstep := step_of_decode hhost hphase
  rcases Nat.lt_or_ge s.outPos.toNat s.size.toNat with hleft | hdone
  · have hout := decodeStep_outcome hleft
    rw [← hstep] at hout
    generalize he : step s = res at hout
    cases hout with
    | @goesOn n t hn h =>
      have hpos : t.outPos.toNat = s.outPos.toNat + n := h.outPos
      obtain ⟨hsize, hphase', hhost'⟩ :
        t.size = s.size ∧ t.phase = s.phase ∧ t.host = s.host := h.frame
      obtain ⟨k, hk, u, hrun, hu⟩ := ih (t.size.toNat - t.outPos.toNat) (by rw [hsize]; omega) t
        (hhost'.trans hhost) (hphase'.trans hphase) (h.sourced hs) rfl
      exact ⟨k + 1, by rw [hsize] at hk; omega, u, (run_succ he k).trans hrun, hu⟩
    | ended h => exact ends_in_one_step he h m
    | refused h => exact absurd hs h
  · exact ends_in_one_step (hstep.trans (decodeStep_finished hdone)) (complete_phase s) m

/-- Settles O19: the premises say that every byte and entry which the decode can read holds a
value. -/
theorem decodeEndsWithinSizeTokens : Obligations.DecodeEndsWithinSizeTokens :=
  fun s hhost hphase hin hout _ htable => decode_ends s hhost hphase ⟨⟨hin, htable⟩, hout⟩

end Sys2Proof.Machine
end

section
/-! `FindMatch` (43_lz_encode.md R191, R192): it reads the plaintext and nothing else, and its
answer is the longest match in the window, the first of several in scan order. -/

namespace Sys2Proof.Machine

/-! ### Reads of the plaintext -/

/-- All that `FindMatch` looks at is the same. -/
structure SameText (s u : State) : Prop where
  cfg : u.cfg = s.cfg
  level : u.paramLevel = s.paramLevel
  inLen : u.inLen = s.inLen
  inBuf : u.inBuf = s.inBuf

/-- Everything an operation can do that only reads the plaintext of `s`: it answers as `P` says, or
is refused, for which some plaintext byte lacks its value; and it does the same wherever the
plaintext is that of `s`. -/
inductive TextRead {α : Type} (s : State) (m : Engine α) (P : α → Prop) : Prop where
  | answers {a : α} (h : P a) (e : ∀ u, SameText s u → m u = .ok a u)
  | refused (h : ¬ HasBytes s.inBuf 0 s.inLen.toNat)
      (e : ∀ u, SameText s u → ∃ r, m u = .error (.refuse r) u)

section
variable {α β : Type} {s u : State} {P : α → Prop} {Q : β → Prop}

theorem SameText.refl (s : State) : SameText s s := ⟨rfl, rfl, rfl, rfl⟩

theorem TextRead.pure {a : α} (h : P a) : TextRead s (Pure.pure a) P := .answers h fun _ _ => rfl

theorem TextRead.bind {m : Engine α} {f : α → Engine β} (hm : TextRead s m P)
    (hf : ∀ a, P a → TextRead s (f a) Q) : TextRead s (m >>= f) Q := by
  cases hm with
  | @answers a h e =>
    cases hf a h with
    | answers hb eb => exact .answers hb fun u hu => (Engine.bind_ok (e u hu)).trans (eb u hu)
    | refused hb eb =>
      refine .refused hb fun u hu => ?_
      rw [Engine.bind_ok (e u hu)]
      exact eb u hu
  | refused h e =>
    refine .refused h fun u hu => ?_
    obtain ⟨r, er⟩ := e u hu
    exact ⟨r, Engine.bind_error er⟩

theorem textRead_memRead {a : Nat} (ha : a < s.inLen.toNat) :
    TextRead s (memRead .inBuf a) fun v => Memory.read s.inBuf a = some v := by
  have same {u : State} (hu : SameText s u) : (u.buffer .inBuf).read a = Memory.read s.inBuf a :=
    congrArg (Memory.read · a) hu.inBuf
  cases hv : Memory.read s.inBuf a with
  | some v => exact .answers rfl fun u hu => memRead_ok ((same hu).trans hv)
  | none =>
    refine .refused (fun hb => ?_) fun u hu => ⟨_, memRead_none ((same hu).trans hv)⟩
    simpa [hv] using hb a ha

theorem TextRead.imp {P' : α → Prop} {m : Engine α} (h : TextRead s m P) (hp : ∀ a, P a → P' a) :
    TextRead s m P' := by
  cases h with
  | answers h e => exact .answers (hp _ h) e
  | refused h e => exact .refused h e

theorem TextRead.congr {m n : Engine α} (hmn : ∀ u, SameText s u → m u = n u)
    (h : TextRead s m P) : TextRead s n P := by
  cases h with
  | answers h e => exact .answers h fun u hu => (hmn u hu).symm.trans (e u hu)
  | refused h e => exact .refused h fun u hu => hmn u hu ▸ e u hu

theorem TextRead.of_hasBytes {m : Engine α} (h : TextRead s m P)
    (hb : HasBytes s.inBuf 0 s.inLen.toNat) :
    ∃ a, P a ∧ ∀ u, SameText s u → m u = .ok a u := by
  cases h with
  | answers h e => exact ⟨_, h, e⟩
  | refused h _ => exact absurd hb h

/-- What answered once is what is answered wherever the plaintext is the same. -/
theorem TextRead.ok {m : Engine α} (h : TextRead s m P) {a : α} (e : m s = .ok a u) :
    u = s ∧ P a ∧ ∀ v, SameText s v → m v = .ok a v := by
  cases h with
  | answers h e' =>
    cases (e' s (.refl s)).symm.trans e
    exact ⟨rfl, h, e'⟩
  | refused _ e' =>
    obtain ⟨r, er⟩ := e' s (.refl s)
    cases er.symm.trans e

end

/-! ### The length of one match (43_lz_encode.md R191) -/

/-- The `n` bytes at `pos` are those at `p`. -/
def Agrees (m : Memory) (pos p n : Nat) : Prop := ∀ k < n, byteAt m (pos + k) = byteAt m (p + k)

/-- `l` is how far the bytes at `pos`, which have been read, agree with those at `p`, counted up to
`nlen`. -/
structure IsMatchLen (s : State) (pos p nlen l : Nat) : Prop where
  le : l ≤ nlen
  reads : HasBytes s.inBuf pos l
  agrees : Agrees s.inBuf pos p l
  longest : ∀ n ≤ nlen, Agrees s.inBuf pos p n → n ≤ l

section
variable {s : State} {pos p q nlen n l : Nat} {o : ScanOrder}

theorem Agrees.succ {m : Memory} (h : Agrees m pos p l)
    (hnext : byteAt m (pos + l) = byteAt m (p + l)) : Agrees m pos p (l + 1) := by
  intro k hk
  rcases Nat.lt_succ_iff_lt_or_eq.1 hk with hlt | rfl
  · exact h k hlt
  · exact hnext

theorem byteAt_of_read {m : Memory} {a : Nat} {v : Byte} (h : Memory.read m a = some v) :
    byteAt m a = v := by simp [byteAt, h]

theorem HasBytes.succ {m : Memory} {a : Nat} (h : HasBytes m a n)
    (hnext : (Memory.read m (a + n)).isSome) : HasBytes m a (n + 1) := by
  intro k hk
  rcases Nat.lt_succ_iff_lt_or_eq.1 hk with hlt | rfl
  · exact h k hlt
  · exact hnext

theorem textRead_matchLen (hp : p < pos) (hend : pos + nlen ≤ s.inLen.toNat) (fuel : Nat)
    (hfuel : l + fuel = nlen) (hreads : HasBytes s.inBuf pos l) (hagrees : Agrees s.inBuf pos p l) :
    TextRead s (matchLen pos p fuel l) (IsMatchLen s pos p nlen) := by
  induction fuel generalizing l with
  | zero =>
    obtain rfl : l = nlen := hfuel
    exact .pure ⟨Nat.le_refl l, hreads, hagrees, fun _ hn _ => hn⟩
  | succ fuel ih =>
    refine (textRead_memRead (by omega)).bind fun x hx =>
      (textRead_memRead (by omega)).bind fun y hy => ?_
    split
    case isTrue heq =>
      exact ih (by omega) (hreads.succ (by rw [hx]; rfl))
        (hagrees.succ (by rw [byteAt_of_read hx, byteAt_of_read hy, heq]))
    case isFalse hne =>
      refine .pure ⟨by omega, hreads, hagrees, fun n _ hn => Nat.not_lt.1 fun hlt => hne ?_⟩
      rw [← byteAt_of_read hx, ← byteAt_of_read hy, hn l hlt]

/-! ### The scan over the candidates -/

/-- `r` is a match of the bytes at `pos` with those at `p`. -/
structure IsMatch (s : State) (pos p nlen : Nat) (r : Nat × Nat) : Prop where
  offset : r.2 = pos - p - 1
  three_le : 3 ≤ r.1
  le : r.1 ≤ nlen
  reads : HasBytes s.inBuf pos r.1
  agrees : Agrees s.inBuf pos p r.1

/-- `r` is what the scan of `ps` makes of `best`: no match with a candidate is longer, and where it
is not `best` it is a longer match, with a candidate before which none matches as far. -/
structure ScanResult (s : State) (pos nlen : Nat) (ps : List Nat) (best r : Nat × Nat) : Prop where
  longest : ∀ p ∈ ps, ∀ n, 3 ≤ n → n ≤ nlen → Agrees s.inBuf pos p n → n ≤ r.1
  first : r = best ∨ best.1 < r.1 ∧ ∃ before p after, ps = before ++ p :: after ∧
    IsMatch s pos p nlen r ∧ ∀ q ∈ before, ¬ Agrees s.inBuf pos q r.1

theorem ScanResult.best_le {ps : List Nat} {best r : Nat × Nat}
    (h : ScanResult s pos nlen ps best r) : best.1 ≤ r.1 := by
  rcases h.first with rfl | ⟨hlt, -⟩
  · exact Nat.le_refl _
  · exact Nat.le_of_lt hlt

/-- A candidate whose match replaces the best one. -/
theorem ScanResult.of_longer {ps : List Nat} {best r : Nat × Nat} (hl : IsMatchLen s pos p nlen l)
    (h3 : 3 ≤ l) (hbest : best.1 < l) (h : ScanResult s pos nlen ps (l, pos - p - 1) r) :
    ScanResult s pos nlen (p :: ps) best r := by
  have hle : l ≤ r.1 := h.best_le
  refine ⟨fun q hq n hn3 hn hagree => ?_, .inr ⟨by omega, ?_⟩⟩
  · rcases List.mem_cons.1 hq with rfl | hq
    · exact (hl.longest n hn hagree).trans hle
    · exact h.longest q hq n hn3 hn hagree
  · rcases h.first with rfl | ⟨hlt, before, p', after, rfl, hmatch, hbefore⟩
    · exact ⟨[], p, ps, rfl, ⟨rfl, h3, hl.le, hl.reads, hl.agrees⟩, nofun⟩
    · refine ⟨p :: before, p', after, rfl, hmatch, fun q hq hagree => ?_⟩
      rcases List.mem_cons.1 hq with rfl | hq
      · exact absurd (hl.longest _ hmatch.le hagree) (Nat.not_le.2 hlt)
      · exact hbefore q hq hagree

/-- A candidate whose match leaves the best one as it is. -/
theorem ScanResult.of_not_longer {ps : List Nat} {best r : Nat × Nat}
    (hl : IsMatchLen s pos p nlen l) (hnot : ¬ (3 ≤ l ∧ best.1 < l))
    (h : ScanResult s pos nlen ps best r) : ScanResult s pos nlen (p :: ps) best r := by
  have hbest := h.best_le
  refine ⟨fun q hq n hn3 hn hagree => ?_, ?_⟩
  · rcases List.mem_cons.1 hq with rfl | hq
    · have := hl.longest n hn hagree
      omega
    · exact h.longest q hq n hn3 hn hagree
  · refine h.first.imp_right fun ⟨hlt, before, p', after, hps, hmatch, hbefore⟩ =>
      ⟨hlt, p :: before, p', after, by rw [hps, List.cons_append], hmatch, fun q hq hagree => ?_⟩
    rcases List.mem_cons.1 hq with rfl | hq
    · have h3 := hmatch.three_le
      have := hl.longest _ hmatch.le hagree
      omega
    · exact hbefore q hq hagree

/-- A match of the longest length allowed ends the scan. -/
theorem ScanResult.of_limit {ps : List Nat} {best : Nat × Nat}
    (hl : IsMatchLen s pos p nlen nlen) (h3 : 3 ≤ nlen) (hbest : best.1 < nlen) :
    ScanResult s pos nlen (p :: ps) best (nlen, pos - p - 1) :=
  ⟨fun _ _ _ _ hn _ => hn, .inr ⟨hbest, [], p, ps, rfl,
    ⟨rfl, h3, hl.le, hl.reads, hl.agrees⟩, nofun⟩⟩

theorem textRead_scanMatches (hend : pos + nlen ≤ s.inLen.toNat) (ps : List Nat)
    (hps : ∀ p ∈ ps, p < pos) (best : Nat × Nat) :
    TextRead s (scanMatches pos nlen ps best) (ScanResult s pos nlen ps best) := by
  induction ps generalizing best with
  | nil => exact .pure ⟨nofun, .inl rfl⟩
  | cons p ps ih =>
    have hrest := ih fun q hq => hps q (List.mem_cons_of_mem p hq)
    refine (textRead_matchLen (hps p List.mem_cons_self) hend nlen (Nat.zero_add nlen) nofun
      nofun).bind fun l hl => ?_
    split
    case isTrue hlonger =>
      obtain ⟨h3, hbest⟩ := hlonger
      split
      case isTrue heq =>
        subst heq
        exact .pure (.of_limit hl h3 hbest)
      case isFalse =>
        exact (hrest _).imp fun _ => .of_longer hl h3 hbest
    case isFalse hnot =>
      exact (hrest _).imp fun _ => .of_not_longer hl hnot

/-! ### The order of the candidates (43_lz_encode.md R192) -/

/-- The candidate `p` is scanned before `q`. -/
def Earlier (o : ScanOrder) (p q : Nat) : Prop :=
  match o with
  | .farFirst => p < q
  | .nearFirst => q < p

theorem mem_candidates : q ∈ candidates o l pos ↔ l ≤ q ∧ q < pos := by
  cases o <;> simp only [candidates, List.mem_reverse, List.mem_range'_1] <;> omega

theorem candidates_pairwise (o : ScanOrder) (l pos : Nat) :
    (candidates o l pos).Pairwise (Earlier o) := by
  cases o with
  | farFirst => exact List.pairwise_lt_range' ..
  | nearFirst => exact List.pairwise_reverse.2 (List.pairwise_lt_range' ..)

/-! ### The match found -/

/-- The longest length allowed at `pos`. -/
def matchLimit (s : State) (pos : Nat) : Nat := min s.paramLevel.toNat (s.inLen.toNat - pos)

/-- `p` is in the window of `pos`. -/
def InWindow (s : State) (pos p : Nat) : Prop := pos - min pos s.cfg.lzWindow ≤ p ∧ p < pos

/-- `r` is the longest match at `pos`, the first in scan order, or of length 0 where there is none.
-/
structure IsGreedy (s : State) (pos : Nat) (r : Nat × Nat) : Prop where
  longest : ∀ p, InWindow s pos p → ∀ n, 3 ≤ n → n ≤ matchLimit s pos →
    Agrees s.inBuf pos p n → n ≤ r.1
  first : r.1 = 0 ∨ ∃ p, InWindow s pos p ∧ IsMatch s pos p (matchLimit s pos) r ∧
    ∀ q, InWindow s pos q → Agrees s.inBuf pos q r.1 → q = p ∨ Earlier s.cfg.scanOrder p q

theorem isGreedy_of_no_room (h : pos = 0 ∨ matchLimit s pos < 3) : IsGreedy s pos (0, 0) := by
  refine ⟨fun p hp n h3 hn _ => ?_, .inl rfl⟩
  have := hp.2
  omega

theorem ScanResult.isGreedy {r : Nat × Nat}
    (h : ScanResult s pos (matchLimit s pos)
      (candidates s.cfg.scanOrder (pos - min pos s.cfg.lzWindow) pos) (0, 0) r) :
    IsGreedy s pos r := by
  refine ⟨fun p hp => h.longest p (mem_candidates.2 hp), ?_⟩
  rcases h.first with rfl | ⟨-, before, p, after, hps, hmatch, hbefore⟩
  · exact .inl rfl
  · have hmem {q : Nat} : InWindow s pos q ↔ q ∈ before ++ p :: after := by
      rw [← hps]
      exact mem_candidates.symm
    have hsorted := candidates_pairwise s.cfg.scanOrder (pos - min pos s.cfg.lzWindow) pos
    rw [hps] at hsorted
    obtain ⟨-, htail, -⟩ := List.pairwise_append.1 hsorted
    obtain ⟨hafter, -⟩ := List.pairwise_cons.1 htail
    refine .inr ⟨p, hmem.2 (by simp), hmatch, fun q hq hagree => ?_⟩
    rcases List.mem_append.1 (hmem.1 hq) with hq | hq
    · exact absurd hagree (hbefore q hq)
    · exact (List.mem_cons.1 hq).imp_right (hafter q)

/-- Everything `FindMatch` can do. -/
theorem textRead_findMatch (hpos : pos ≤ s.inLen.toNat) :
    TextRead s (findMatch pos) (IsGreedy s pos) := by
  have hrun {u : State} (hu : SameText s u) :
      findMatch pos u = (if pos = 0 ∨ matchLimit s pos < 3 then pure (0, 0)
        else scanMatches pos (matchLimit s pos)
          (candidates s.cfg.scanOrder (pos - min pos s.cfg.lzWindow) pos) (0, 0)) u := by
    rw [findMatch, Engine.get_bind, hu.cfg, hu.level, hu.inLen, matchLimit]
  have hlimit : matchLimit s pos ≤ s.inLen.toNat - pos := Nat.min_le_right ..
  refine TextRead.congr (fun u hu => (hrun hu).symm) ?_
  split
  case isTrue h => exact .pure (isGreedy_of_no_room h)
  case isFalse =>
    exact (textRead_scanMatches (by omega) _ (fun p hp => (mem_candidates.1 hp).2) _).imp
      fun _ => ScanResult.isGreedy

end

/-! ### The obligation -/

/-- A distance of at most the window, as the position it reaches back to. -/
theorem inWindow_sub {s : State} {pos d : Nat} (h1 : 1 ≤ d) (hd : d ≤ min pos s.cfg.lzWindow) :
    InWindow s pos (pos - d) := by
  unfold InWindow
  omega

/-- Settles O33: the scan keeps the longest match so far, and of equally long ones the first. -/
theorem findMatchIsGreedy : Obligations.FindMatchIsGreedy := by
  intro s pos hpos hbytes
  obtain ⟨⟨len, off⟩, hgreedy, hrun⟩ :=
    (textRead_findMatch (Nat.le_of_lt hpos)).of_hasBytes hbytes
  refine ⟨len, off, hrun s (.refl s), ?_,
    fun d n h1 hd h3 hn => hgreedy.longest _ (inWindow_sub h1 hd) n h3 hn,
    fun d hlen h1 hd hagree => ?_⟩
  · refine hgreedy.first.imp_right fun ⟨p, hp, hmatch, _⟩ => ?_
    obtain ⟨hoff, h3, hle, -, hagree⟩ := hmatch
    obtain ⟨hlo, hlt⟩ := hp
    obtain rfl : off = pos - p - 1 := hoff
    have hback : pos - (pos - p - 1 + 1) = p := by omega
    exact ⟨h3, hle, by omega, by simpa only [hback, Agrees] using hagree⟩
  · rcases hgreedy.first with h0 | ⟨p, hp, hmatch, hfirst⟩
    · exact absurd h0 hlen
    · have hoff : off = pos - p - 1 := hmatch.offset
      have hlt := hp.2
      have horder := hfirst _ (inWindow_sub h1 hd) hagree
      cases ho : s.cfg.scanOrder <;> simp only [ho, Earlier] at horder ⊢ <;> omega

end Sys2Proof.Machine
end

section
/-! The greedy main loop (43_lz_encode.md R193) as steps, each a token and the number of plaintext
bytes it covers; how many bytes the tokens pack into (R200). -/

namespace Sys2Proof.Machine

/-! ### One pass of the main loop -/

/-- The token that the main loop emits at `pos`, and how many bytes it covers: a LIT where
`FindMatch` finds nothing, else the token of its match. -/
inductive GreedyStep (s : State) (pos : Nat) : Instr → Nat → Prop where
  | lit {r : Nat × Nat} (hrun : ∀ u, SameText s u → findMatch pos u = .ok r u) (hnone : r.1 < 3) :
    GreedyStep s pos (.lit (byteAt s.inBuf pos)) 1
  | copy {r : Nat × Nat} {p : Nat} (hrun : ∀ u, SameText s u → findMatch pos u = .ok r u)
    (hp : InWindow s pos p) (hmatch : IsMatch s pos p (matchLimit s pos) r) :
    GreedyStep s pos (matchToken r.1 r.2) r.1

section
variable {s : State} {pos n : Nat} {i : Instr} {ts : List Instr}

/-- What `FindMatch` answers is a step of the main loop. -/
theorem IsGreedy.step {r : Nat × Nat} (h : IsGreedy s pos r)
    (hrun : ∀ u, SameText s u → findMatch pos u = .ok r u) :
    (r.1 < 3 ∧ GreedyStep s pos (.lit (byteAt s.inBuf pos)) 1) ∨
      (3 ≤ r.1 ∧ HasBytes s.inBuf pos r.1 ∧ GreedyStep s pos (matchToken r.1 r.2) r.1) := by
  rcases h.first with h0 | ⟨p, hp, hmatch, -⟩
  · have hnone : r.1 < 3 := by omega
    exact .inl ⟨hnone, .lit hrun hnone⟩
  · exact .inr ⟨hmatch.three_le, hmatch.reads, .copy hrun hp hmatch⟩

/-- Each step moves on, and stays inside the plaintext. -/
theorem GreedyStep.bounds (h : GreedyStep s pos i n) (hpos : pos < s.inLen.toNat) :
    1 ≤ n ∧ pos + n ≤ s.inLen.toNat := by
  cases h with
  | lit => omega
  | copy _ _ hmatch =>
    have h3 := hmatch.three_le
    have hle : _ ≤ s.inLen.toNat - pos := hmatch.le.trans (Nat.min_le_right ..)
    omega

theorem greedyTokens_cons : GreedyTokens s pos (i :: ts) ↔
    pos < s.inLen.toNat ∧ ∃ n, GreedyStep s pos i n ∧ GreedyTokens s (pos + n) ts := by
  constructor
  · rintro ⟨hpos, len, off, hfind, hcase⟩
    obtain ⟨-, hgreedy, hrun⟩ := (textRead_findMatch (Nat.le_of_lt hpos)).ok hfind
    refine ⟨hpos, ?_⟩
    rcases hgreedy.step hrun with ⟨hnone, hstep⟩ | ⟨h3, -, hstep⟩
    · rcases hcase with ⟨-, rfl, hrest⟩ | ⟨h3, -⟩
      · exact ⟨1, hstep, hrest⟩
      · exact absurd hnone (Nat.not_lt.2 h3)
    · rcases hcase with ⟨hnone, -⟩ | ⟨-, -, rfl, hrest⟩
      · exact absurd hnone (Nat.not_lt.2 h3)
      · exact ⟨len, hstep, hrest⟩
  · rintro ⟨hpos, n, hstep, hrest⟩
    refine ⟨hpos, ?_⟩
    cases hstep with
    | @lit r hrun hnone => exact ⟨r.1, r.2, hrun s (.refl s), .inl ⟨hnone, rfl, hrest⟩⟩
    | @copy r p hrun hp hmatch =>
      have hback : r.2 + 1 ≤ pos := by
        rw [hmatch.offset]
        have := hp.2
        omega
      exact ⟨r.1, r.2, hrun s (.refl s), .inr ⟨hmatch.three_le, hback, rfl, hrest⟩⟩

/-! ### The whole plaintext -/

theorem exists_greedyStep (hbytes : HasBytes s.inBuf 0 s.inLen.toNat) (hpos : pos < s.inLen.toNat) :
    ∃ i n, GreedyStep s pos i n := by
  obtain ⟨r, hgreedy, hrun⟩ := (textRead_findMatch (Nat.le_of_lt hpos)).of_hasBytes hbytes
  rcases hgreedy.step hrun with ⟨-, hstep⟩ | ⟨-, -, hstep⟩
  · exact ⟨_, _, hstep⟩
  · exact ⟨_, _, hstep⟩

/-- By induction on the plaintext left: each step takes some of it. -/
theorem exists_greedyTokens (hbytes : HasBytes s.inBuf 0 s.inLen.toNat)
    (hpos : pos ≤ s.inLen.toNat) : ∃ ts, GreedyTokens s pos ts := by
  induction hm : s.inLen.toNat - pos using Nat.strong_induction_on generalizing pos with
  | _ m ih =>
  rcases Nat.lt_or_eq_of_le hpos with hlt | heq
  · obtain ⟨i, n, hstep⟩ := exists_greedyStep hbytes hlt
    obtain ⟨hn, hend⟩ := hstep.bounds hlt
    obtain ⟨ts, hts⟩ := ih (s.inLen.toNat - (pos + n)) (by omega) hend rfl
    exact ⟨i :: ts, greedyTokens_cons.2 ⟨hlt, n, hstep, hts⟩⟩
  · exact ⟨[], heq⟩

/-! ### The packed length (43_lz_encode.md R200) -/

/-- What an item takes of the packed stream, in bits. -/
def itemCost : Item → Nat
  | .flag _ => 1
  | .data _ => 8

/-- What items take of the packed stream, in bits. -/
def itemsCost (is : List Item) : Nat := (is.map itemCost).sum

theorem itemsCost_cons (i : Item) (is : List Item) :
    itemsCost (i :: is) = itemCost i + itemsCost is := List.sum_cons ..

theorem itemsCost_append (is js : List Item) :
    itemsCost (is ++ js) = itemsCost is + itemsCost js := by simp [itemsCost]

/-- Only the last flag byte may have unused bits. -/
theorem packItems_length_le (is : List Item) (flag : Byte) {cnt : Nat} (pend : List Byte)
    (hcnt : 1 ≤ cnt) :
    8 * (packItems is flag cnt pend).length ≤ itemsCost is + 8 * pend.length + cnt + 7 := by
  induction is generalizing flag cnt pend with
  | nil =>
    rw [packItems, List.length_cons]
    omega
  | cons i is ih =>
    rw [itemsCost_cons]
    cases i with
    | data b =>
      have hrest := ih flag (pend ++ [b]) hcnt
      rw [List.length_append, List.length_singleton] at hrest
      simp only [packItems, itemCost]
      omega
    | flag b =>
      simp only [packItems, itemCost]
      split
      · have hrest := ih (placeFlag 0 0 b) [] (Nat.le_refl 1)
        simp only [List.length_append, List.length_cons, List.length_nil] at hrest ⊢
        omega
      · have hrest := ih (placeFlag flag cnt b) (cnt := cnt + 1) pend (by omega)
        omega

theorem packItems_flag_length_le (b : Bool) (is : List Item) :
    8 * (packItems (.flag b :: is) 0 0 []).length ≤ itemsCost (.flag b :: is) + 7 := by
  have hrest := packItems_length_le is (placeFlag 0 0 b) [] (Nat.le_refl 1)
  rw [itemsCost_cons]
  simp only [List.length_nil] at hrest
  simp only [packItems, itemCost]
  exact hrest.trans (by omega)

/-- A token's items begin with a flag bit. -/
theorem tokenItems_eq_flag_cons (h : i.isToken = true) : ∃ b is, tokenItems i = .flag b :: is := by
  cases i with
  | lit | short | long | longx4 | longx8 | run => exact ⟨_, _, rfl⟩
  | _ => cases h

theorem itemsCost_tokenItems_le (i : Instr) : itemsCost (tokenItems i) ≤ 27 := by
  cases i <;> simp [itemsCost, tokenItems, longBytes, flagField, List.range_succ, itemCost]

theorem matchToken_isToken (len off : Nat) : (matchToken len off).isToken = true := by
  unfold matchToken
  split_ifs <;> rfl

theorem GreedyStep.isToken (h : GreedyStep s pos i n) : i.isToken = true := by
  cases h with
  | lit => rfl
  | copy => exact matchToken_isToken ..

/-- A LIT takes 9 bits for its byte, and a match no more than 27 bits for at least 3 bytes. -/
theorem GreedyStep.cost_le (h : GreedyStep s pos i n) : itemsCost (tokenItems i) ≤ 9 * n := by
  cases h with
  | lit => exact Nat.le_refl 9
  | copy _ _ hmatch =>
    have h3 := hmatch.three_le
    exact (itemsCost_tokenItems_le _).trans (by omega)

theorem GreedyTokens.cost_le (h : GreedyTokens s pos ts) :
    itemsCost (ts.flatMap tokenItems) + 9 * pos ≤ 9 * s.inLen.toNat := by
  induction ts generalizing pos with
  | nil =>
    obtain rfl : pos = s.inLen.toNat := h
    exact Nat.le_of_eq (Nat.zero_add _)
  | cons i ts ih =>
    obtain ⟨-, n, hstep, hrest⟩ := greedyTokens_cons.1 h
    have hcost := hstep.cost_le
    have hcosts := ih hrest
    rw [List.flatMap_cons, itemsCost_append]
    omega

/-- The body of a greedy sequence is empty, or the packed bytes of items that begin with a flag
bit. -/
theorem GreedyTokens.pack_cases (h : GreedyTokens s pos ts) :
    (ts.flatMap tokenItems = [] ∧ packTokens ts = []) ∨
      ∃ b is, ts.flatMap tokenItems = .flag b :: is ∧
        packTokens ts = packItems (.flag b :: is) 0 0 [] := by
  cases ts with
  | nil => exact .inl ⟨rfl, rfl⟩
  | cons i ts =>
    obtain ⟨-, n, hstep, -⟩ := greedyTokens_cons.1 h
    obtain ⟨b, is, hitems⟩ := tokenItems_eq_flag_cons hstep.isToken
    have hflat : (i :: ts).flatMap tokenItems = .flag b :: (is ++ ts.flatMap tokenItems) := by
      rw [List.flatMap_cons, hitems, List.cons_append]
    refine .inr ⟨b, _, hflat, ?_⟩
    rw [← hflat]
    rfl

/-- The expansion limit (43_lz_encode.md R200). -/
theorem GreedyTokens.pack_length_le (h : GreedyTokens s 0 ts) :
    (packTokens ts).length ≤ s.inLen.toNat + (s.inLen.toNat + 7) / 8 := by
  have hcost := h.cost_le
  rcases h.pack_cases with ⟨-, hpack⟩ | ⟨b, is, hitems, hpack⟩
  · rw [hpack]
    exact Nat.zero_le _
  · have hlen := packItems_flag_length_le b is
    rw [hitems] at hcost
    rw [hpack]
    omega

end

end Sys2Proof.Machine
end

section
/-! The LZ encoder's writer: where OUT is too small for its bytes, and what it makes of `e.pos`,
which is nothing. -/

namespace Sys2Proof.Machine

/-! ### Appends that do not fit (20_memory.md R66) -/

/-- The operation stops at the append that does not fit OUT, which is full by then. -/
def FillsOut {α : Type} (m : Engine α) (s : State) : Prop :=
  ∃ t, m s = .error (.raise .bufferCapacity (s.cfg.outCap + 1)) t ∧ t.inPos = s.inPos ∧
    t.outPos.toNat = s.cfg.outCap

section
variable {α β : Type} {s t : State}

theorem FillsOut.bind {m : Engine α} (h : FillsOut m s) (f : α → Engine β) :
    FillsOut (m >>= f) s := by
  obtain ⟨t, e, hend⟩ := h
  exact ⟨t, Engine.bind_error e, hend⟩

/-- A run that goes on in a state with the same OUT capacity and input position. -/
theorem FillsOut.of_eq {m n : Engine α} (h : FillsOut m t) (e : n s = m t) (hcfg : t.cfg = s.cfg)
    (hin : t.inPos = s.inPos) : FillsOut n s := by
  obtain ⟨u, eu, hu⟩ := h
  rw [hcfg, hin] at hu
  exact ⟨u, by rw [e, eu, hcfg], hu⟩

theorem append_full {v : Byte} (h : s.cfg.outCap ≤ s.outPos.toNat) :
    append v s = .error (.raise .bufferCapacity (s.cfg.outCap + 1)) s := by
  rcases append_cases v s with ⟨hlt, -⟩ | ⟨-, e⟩
  · omega
  · exact e

theorem appendAll_fillsOut {bs : List Byte} (hpos : s.outPos.toNat ≤ s.cfg.outCap)
    (hcap : s.cfg.outCap < 2 ^ 32) (hover : s.cfg.outCap < s.outPos.toNat + bs.length) :
    FillsOut (appendAll bs) s := by
  induction bs generalizing s with
  | nil => simp only [List.length_nil] at hover; omega
  | cons b bs ih =>
    rw [List.length_cons] at hover
    rcases Nat.lt_or_eq_of_le hpos with hlt | heq
    · have hnext : (s.pushOut b).outPos.toNat = s.outPos.toNat + 1 := outPos_succ (by omega)
      have hrest := ih (s := s.pushOut b) (by rw [hnext]; exact hlt) hcap
        (by rw [hnext, State.pushOut_cfg]; omega)
      exact hrest.of_eq (Engine.bind_ok (append_ok hlt)) rfl rfl
    · exact ⟨s, Engine.bind_error (append_full heq.ge), rfl, heq⟩

/-! ### The writer in an OUT that is too small -/

theorem flush_fillsOut (hpos : s.outPos.toNat ≤ s.cfg.outCap) (hcap : s.cfg.outCap < 2 ^ 32)
    (hover : s.cfg.outCap < s.outPos.toNat + (s.enc.pend.length + 1)) : FillsOut flush s := by
  have hall := (appendAll_fillsOut (bs := s.enc.flag :: s.enc.pend) hpos hcap hover).bind
    fun _ => modify fun s => { s with enc := { s.enc with isOpen := false, pend := [] } }
  exact hall.of_eq (by rw [flush, Engine.get_bind, appendAll, bind_assoc]) rfl rfl

theorem emitItem_flag_room {b : Bool} (hopen : s.enc.isOpen = true) (hcnt : s.enc.cnt ≠ 8) :
    emitItem (.flag b) s = .ok () (s.placeBit b) := by
  have hplaced : s.openFlag = s := if_pos hopen
  rw [emitItem, emitBit, Engine.get_bind, if_neg (by simp [hcnt])]
  exact congrArg (fun u : State => EStateM.Result.ok () (u.placeBit b)) hplaced

theorem emitItem_flag_full {b : Bool} (hopen : s.enc.isOpen = true) (hcnt : s.enc.cnt = 8) :
    emitItem (.flag b) s = (flush >>= fun _ => modify fun s => s.openFlag.placeBit b) s := by
  rw [emitItem, emitBit, Engine.get_bind, if_pos (by simp [hopen, hcnt])]

/-- The writer on a fresh flag byte that holds the bit `b`. -/
def State.freshFlag (b : Bool) (s : State) : State :=
  { s with enc := ⟨s.enc.pos, placeFlag 0 0 b, 1, true, []⟩ }

theorem placeBit_openFlag_of_closed {b : Bool} (h : s.enc.isOpen = false) :
    s.openFlag.placeBit b = s.freshFlag b := by
  rw [State.openFlag, if_neg (by simp [h])]
  rfl

/-- A flag bit that finds the flag byte full sends it, and begins a fresh one. -/
theorem emitItem_flag_flushes {b : Bool} (hopen : s.enc.isOpen = true) (hcnt : s.enc.cnt = 8)
    (hroom : s.outPos.toNat + (s.enc.pend.length + 1) ≤ s.cfg.outCap)
    (hcap : s.cfg.outCap < 2 ^ 32) :
    ∃ t : State, emitItem (.flag b) s = .ok () (t.freshFlag b) ∧ t.cfg = s.cfg ∧ t.inPos = s.inPos ∧
      t.outPos.toNat = s.outPos.toNat + (s.enc.pend.length + 1) := by
  obtain ⟨t, hflush, henc, hsent⟩ := flush_ok (s := s) (by omega) (by omega)
  refine ⟨t, ?_, hsent.cfg, hsent.inPos,
    hsent.outPos (show s.outPos.toNat + (s.enc.pend.length + 1) < 2 ^ 32 by omega)⟩
  rw [emitItem_flag_full hopen hcnt, Engine.bind_ok hflush, Engine.modify_apply,
    placeBit_openFlag_of_closed (by rw [henc])]

/-- From an open writer without room for all that is still to go out, an append does not fit. -/
theorem emitItems_finish_fillsOut (is : List Item) (hopen : s.enc.isOpen = true)
    (hpos : s.outPos.toNat ≤ s.cfg.outCap) (hcap : s.cfg.outCap < 2 ^ 32)
    (hover : s.cfg.outCap <
      s.outPos.toNat + (packItems is s.enc.flag s.enc.cnt s.enc.pend).length) :
    FillsOut (emitItems is >>= fun _ => finish) s := by
  induction is generalizing s with
  | nil => exact (flush_fillsOut hpos hcap hover).of_eq (finish_of_open hopen) rfl rfl
  | cons i is ih =>
    have goOn {t : State} (e : emitItem i s = .ok () t)
        (h : FillsOut (emitItems is >>= fun _ => finish) t) (hcfg : t.cfg = s.cfg)
        (hin : t.inPos = s.inPos) : FillsOut (emitItems (i :: is) >>= fun _ => finish) s :=
      h.of_eq (emitItems_cons_bind e _) hcfg hin
    cases i with
    | data v => exact goOn rfl (ih (s := { s with enc := _ }) hopen hpos hcap hover) rfl rfl
    | flag b =>
      rw [packItems] at hover
      split at hover
      case isTrue hfull =>
        have hcnt : s.enc.cnt = 8 := Fin.ext hfull
        simp only [List.length_append, List.length_cons] at hover
        rcases Nat.lt_or_ge s.cfg.outCap (s.outPos.toNat + (s.enc.pend.length + 1)) with
          hshort | hroom
        · rw [emitItems, bind_assoc]
          have hflush := (flush_fillsOut hpos hcap hshort).bind
            fun _ => modify fun s => s.openFlag.placeBit b
          exact (hflush.of_eq (emitItem_flag_full hopen hcnt) rfl rfl).bind _
        · obtain ⟨t, hemit, hcfg, hin, hend⟩ :=
            emitItem_flag_flushes (b := b) hopen hcnt hroom hcap
          rw [← Nat.add_assoc, ← hend, ← hcfg] at hover
          rw [← hend, ← hcfg] at hroom
          rw [← hcfg] at hcap
          exact goOn hemit (ih (s := t.freshFlag b) rfl hroom hcap hover) hcfg hin
      case isFalse hfull =>
        have hcnt : s.enc.cnt ≠ 8 := fun h => hfull (congrArg Fin.val h)
        have hnext : (s.enc.cnt + 1).val = s.enc.cnt.val + 1 :=
          Fin.val_add_one_of_lt (Fin.lt_last_iff_ne_last.2 hcnt)
        refine goOn (emitItem_flag_room hopen hcnt) (ih hopen hpos hcap ?_) rfl rfl
        show s.cfg.outCap < s.outPos.toNat +
          (packItems is (placeFlag s.enc.flag s.enc.cnt b) (s.enc.cnt + 1).val s.enc.pend).length
        rw [hnext]
        exact hover

/-- From a closed writer, the packed bytes of items that begin with a flag bit do not fit. -/
theorem emitItems_flag_finish_fillsOut {b : Bool} {is : List Item} (hclosed : s.enc.isOpen = false)
    (hpos : s.outPos.toNat ≤ s.cfg.outCap) (hcap : s.cfg.outCap < 2 ^ 32)
    (hover : s.cfg.outCap < s.outPos.toNat + (packItems (.flag b :: is) 0 0 []).length) :
    FillsOut (emitItems (.flag b :: is) >>= fun _ => finish) s := by
  have hrest : FillsOut (emitItems is >>= fun _ => finish) (s.freshFlag b) :=
    emitItems_finish_fillsOut is rfl hpos hcap hover
  exact hrest.of_eq (emitItems_cons_bind (emitItem_first hclosed b) _) rfl rfl

end

/-! ### The writer and `e.pos` -/

/-- The state with the encoder's position replaced. -/
def State.encAt (p : Word) (s : State) : State := { s with enc := { s.enc with pos := p } }

/-- A result with the encoder's position replaced. -/
def resultAt {α : Type} (p : Word) : EStateM.Result Stop State α → EStateM.Result Stop State α
  | .ok a t => .ok a (t.encAt p)
  | .error e t => .error e (t.encAt p)

/-- The operation takes no notice of the encoder's position and leaves it alone. -/
def PosBlind {α : Type} (m : Engine α) : Prop := ∀ p s, m (s.encAt p) = resultAt p (m s)

section
variable {α β : Type} {s t : State}

theorem resultAt_resultAt (p q : Word) (r : EStateM.Result Stop State α) :
    resultAt p (resultAt q r) = resultAt p r := by cases r <;> rfl

theorem posBlind_pure (a : α) : PosBlind (pure a) := fun _ _ => rfl

theorem posBlind_modify {g : State → State} (h : ∀ p s, g (s.encAt p) = (g s).encAt p) :
    PosBlind (modify g : Engine PUnit) := fun p s => congrArg (EStateM.Result.ok _) (h p s)

theorem PosBlind.bind {m : Engine α} {f : α → Engine β} (hm : PosBlind m)
    (hf : ∀ a, PosBlind (f a)) : PosBlind (m >>= f) := by
  intro p s
  cases h : m s with
  | ok a t => rw [Engine.bind_ok ((hm p s).trans (congrArg _ h)), Engine.bind_ok h, hf a p t]
  | error e t => rw [Engine.bind_error ((hm p s).trans (congrArg _ h)), Engine.bind_error h]; rfl

/-- A `get` whose state is used without the encoder's position. -/
theorem posBlind_get {f : State → Engine β} (hf : ∀ s, PosBlind (f s))
    (hsame : ∀ p s, f (s.encAt p) = f s) : PosBlind (get >>= f) := by
  intro p s
  rw [Engine.get_bind, Engine.get_bind, hsame, hf]

theorem posBlind_append (v : Byte) : PosBlind (append v) := by
  intro p s
  rcases append_cases v s with ⟨hroom, e⟩ | ⟨hfull, e⟩ <;> rw [e]
  · exact append_ok hroom
  · exact append_full hfull

theorem posBlind_appendAll (bs : List Byte) : PosBlind (appendAll bs) := by
  induction bs with
  | nil => exact posBlind_pure _
  | cons b bs ih => exact (posBlind_append b).bind fun _ => ih

theorem posBlind_flush : PosBlind flush :=
  posBlind_get (fun _ => (posBlind_append _).bind fun _ => (posBlind_appendAll _).bind fun _ =>
    posBlind_modify fun _ _ => rfl) fun _ _ => rfl

theorem openFlag_encAt (p : Word) (s : State) : (s.encAt p).openFlag = s.openFlag.encAt p := by
  unfold State.openFlag
  cases h : s.enc.isOpen <;> simp [State.encAt, h]

theorem posBlind_emitItem (i : Item) : PosBlind (emitItem i) := by
  cases i with
  | data v => exact posBlind_modify fun _ _ => rfl
  | flag b =>
    have hplace : PosBlind (modify fun s => s.openFlag.placeBit b : Engine PUnit) :=
      posBlind_modify fun p s => congrArg (State.placeBit b) (openFlag_encAt p s)
    refine posBlind_get (fun s => ?_) fun _ _ => rfl
    dsimp only
    split
    · exact posBlind_flush.bind fun _ => hplace
    · exact hplace

theorem posBlind_emitItems (is : List Item) : PosBlind (emitItems is) := by
  induction is with
  | nil => exact posBlind_pure _
  | cons i is ih => exact (posBlind_emitItem i).bind fun _ => ih

theorem posBlind_finish : PosBlind finish := by
  refine posBlind_get (fun s => ?_) fun _ _ => rfl
  split
  · exact posBlind_flush
  · exact posBlind_pure _

theorem posBlind_emitItems_finish (is : List Item) :
    PosBlind (emitItems is >>= fun _ => finish) :=
  (posBlind_emitItems is).bind fun _ => posBlind_finish

theorem PosBlind.pos {m : Engine α} (h : PosBlind m) {a : α} (e : m s = .ok a t) :
    t.enc.pos = s.enc.pos := by
  have hself : m s = resultAt s.enc.pos (m s) := h s.enc.pos s
  rw [e] at hself
  simp only [resultAt, EStateM.Result.ok.injEq, true_and] at hself
  rw [hself]
  rfl

end

end Sys2Proof.Machine
end

section
/-! JPK_ENCODE of type 3: the main loop writes the packed bytes of its greedy tokens, and reads
every plaintext byte on the way. -/

namespace Sys2Proof.Machine

/-! ### The main loop (43_lz_encode.md R193) -/

theorem sameText_closed : Engine.Closed SameText where
  refl := .refl
  trans := fun _ _ _ h1 h2 => ⟨h2.cfg.trans h1.cfg, h2.level.trans h1.level,
    h2.inLen.trans h1.inLen, h2.inBuf.trans h1.inBuf⟩
  work := fun _ _ _ _ _ _ _ _ _ _ _ => ⟨rfl, rfl, rfl, rfl⟩
  push := fun _ _ _ => ⟨rfl, rfl, rfl, rfl⟩
  key := fun _ _ _ _ => ⟨rfl, rfl, rfl, rfl⟩

theorem Engine.bind_congr {α β : Type} {m n : Engine α} {s : State} (h : m s = n s)
    (f : α → Engine β) : (m >>= f) s = (n >>= f) s := by
  rw [Engine.bind_apply, Engine.bind_apply, h]

theorem emitItems_append (is js : List Item) :
    emitItems (is ++ js) = emitItems is >>= fun _ => emitItems js := by
  induction is with
  | nil => rfl
  | cons i is ih => rw [List.cons_append, emitItems, emitItems, ih, bind_assoc]

section
variable {s u t : State} {pos fuel n : Nat} {i : Instr} {ts : List Instr}

theorem encodeLoop_succ (h : u.enc.pos.toNat < u.inLen.toNat) :
    encodeLoop (fuel + 1) u = (encodeStep >>= fun _ => encodeLoop fuel) u := by
  rw [encodeLoop, Engine.get_bind, if_pos h]

theorem encodeLoop_end (h : u.inLen.toNat ≤ u.enc.pos.toNat) : encodeLoop fuel u = .ok () u := by
  cases fuel with
  | zero => rfl
  | succ fuel => rw [encodeLoop, Engine.get_bind, if_neg (Nat.not_lt.2 h)]; rfl

/-- A pass of the main loop emits the token of its greedy step and moves on. -/
theorem GreedyStep.encodeStep_eq (h : GreedyStep s pos i n)
    (hbytes : HasBytes s.inBuf 0 s.inLen.toNat) (hpos : pos < s.inLen.toNat) (htext : SameText s u)
    (hu : u.enc.pos.toNat = pos) :
    encodeStep u = (emitItems (tokenItems i) >>= fun _ => modify (State.advanceEnc n)) u := by
  rw [encodeStep, Engine.get_bind, hu]
  cases h with
  | lit hrun hnone =>
    have hread : Memory.read u.inBuf pos = some (byteAt s.inBuf pos) := by
      rw [htext.inBuf]
      simpa only [Nat.zero_add] using hbytes.read hpos
    rw [Engine.bind_ok (hrun u htext), if_pos hnone,
      Engine.bind_ok (memRead_ok (b := .inBuf) hread)]
    rfl
  | copy hrun _ hmatch =>
    rw [Engine.bind_ok (hrun u htext), if_neg (Nat.not_lt.2 hmatch.three_le)]
    rfl

/-- The main loop from `pos` on, and `Finish`, are the writes of the greedy tokens' items; they
differ in `e.pos` only, which no write looks at. -/
theorem GreedyTokens.encodeLoop_eq (h : GreedyTokens s pos ts)
    (hbytes : HasBytes s.inBuf 0 s.inLen.toNat) (htext : SameText s u)
    (hu : u.enc.pos.toNat = pos) (hfuel : s.inLen.toNat - pos ≤ fuel) :
    ∃ p, (encodeLoop fuel >>= fun _ => finish) u =
      resultAt p ((emitItems (ts.flatMap tokenItems) >>= fun _ => finish) u) := by
  induction ts generalizing pos u fuel with
  | nil =>
    have hend : u.inLen.toNat ≤ u.enc.pos.toNat := by
      rw [hu, htext.inLen]
      exact Nat.le_of_eq h.symm
    refine ⟨u.enc.pos, (Engine.bind_ok (encodeLoop_end hend)).trans ?_⟩
    exact posBlind_finish u.enc.pos u
  | cons i ts ih =>
    obtain ⟨hpos, n, hstep, hrest⟩ := greedyTokens_cons.1 h
    obtain ⟨hn, hend⟩ := hstep.bounds hpos
    obtain ⟨fuel, rfl⟩ : ∃ k, fuel = k + 1 := ⟨fuel - 1, by omega⟩
    have hloop : (encodeLoop (fuel + 1) >>= fun _ => finish) u =
        (emitItems (tokenItems i) >>= fun _ => modify (State.advanceEnc n) >>= fun _ =>
          (encodeLoop fuel >>= fun _ => finish)) u := by
      rw [Engine.bind_congr (encodeLoop_succ (by rw [hu, htext.inLen]; exact hpos)), bind_assoc,
        Engine.bind_congr (hstep.encodeStep_eq hbytes hpos htext hu), bind_assoc]
    have hwrites : emitItems ((i :: ts).flatMap tokenItems) >>= (fun _ => finish) =
        emitItems (tokenItems i) >>= fun _ =>
          (emitItems (ts.flatMap tokenItems) >>= fun _ => finish) := by
      rw [List.flatMap_cons, emitItems_append, bind_assoc]
    rw [hloop, hwrites]
    cases he : emitItems (tokenItems i) u with
    | error e t =>
      rw [Engine.bind_error he, Engine.bind_error he]
      exact ⟨t.enc.pos, rfl⟩
    | ok _ t =>
      rw [Engine.bind_ok he, Engine.bind_ok he, Engine.modify_bind]
      have htext' := sameText_closed.trans _ _ _ htext ((sameText_closed.emitItems _).ok he)
      have hfit := s.inLen.isLt
      have hadv : (t.advanceEnc n).enc.pos.toNat = pos + n := by
        show (t.enc.pos + BitVec.ofNat 32 n).toNat = pos + n
        rw [(posBlind_emitItems _).pos he, toNat_add_ofNat (by omega), hu]
      obtain ⟨p, hp⟩ := ih (u := t.advanceEnc n) (fuel := fuel) hrest
        ⟨htext'.cfg, htext'.level, htext'.inLen, htext'.inBuf⟩ hadv (by omega)
      have hblind := posBlind_emitItems_finish (ts.flatMap tokenItems)
        (t.enc.pos + BitVec.ofNat 32 n) t
      exact ⟨p, hp.trans ((congrArg (resultAt p) hblind).trans (resultAt_resultAt ..))⟩

/-- `LzEncode()` writes the items of the greedy tokens. -/
theorem GreedyTokens.lzEncode_eq (h : GreedyTokens s 0 ts)
    (hbytes : HasBytes s.inBuf 0 s.inLen.toNat) (htext : SameText s u) :
    ∃ p, lzEncode u =
      resultAt p ((emitItems (ts.flatMap tokenItems) >>= fun _ => finish) u) := by
  obtain ⟨p, hp⟩ := h.encodeLoop_eq (u := u.encAt 0) (fuel := u.inLen.toNat) hbytes
    ⟨htext.cfg, htext.level, htext.inLen, htext.inBuf⟩ rfl (by rw [htext.inLen]; omega)
  rw [posBlind_emitItems_finish _ 0 u, resultAt_resultAt] at hp
  exact ⟨p, hp⟩

/-- Where OUT has room, `LzEncode()` appends the packed tokens. -/
theorem GreedyTokens.lzEncode_ok (h : GreedyTokens s 0 ts)
    (hbytes : HasBytes s.inBuf 0 s.inLen.toNat) (htext : SameText s u)
    (hclosed : u.enc.isOpen = false)
    (hroom : u.outPos.toNat + (packTokens ts).length ≤ u.cfg.outCap)
    (hfit : u.outPos.toNat + (packTokens ts).length < 2 ^ 32) :
    ∃ t, lzEncode u = .ok () t ∧ AppendResult { u with enc := t.enc } t (packTokens ts) := by
  obtain ⟨p, hp⟩ := h.lzEncode_eq hbytes htext
  obtain ⟨t, hwrite, hout⟩ : ∃ t,
      (emitItems (ts.flatMap tokenItems) >>= fun _ => finish) u = .ok () t ∧
        AppendResult { u with enc := t.enc } t (packTokens ts) := by
    rcases h.pack_cases with ⟨hitems, hpack⟩ | ⟨b, is, hitems, hpack⟩
    · rw [hitems, hpack]
      refine ⟨u, ?_, .nil u⟩
      show finish u = .ok () u
      rw [finish, Engine.get_bind, if_neg (by simp [hclosed])]
      rfl
    · rw [hitems, hpack]
      rw [hpack] at hroom hfit
      obtain ⟨t, hwrite, -, hout⟩ := writerAppendsPackedItems u b is hclosed hroom hfit
      exact ⟨t, hwrite, hout⟩
  exact ⟨t.encAt p, by rw [hp, hwrite]; rfl, hout.withEnc _⟩

/-- Where OUT has no room, an append of `LzEncode()` does not fit. -/
theorem GreedyTokens.lzEncode_fillsOut (h : GreedyTokens s 0 ts)
    (hbytes : HasBytes s.inBuf 0 s.inLen.toNat) (htext : SameText s u)
    (hclosed : u.enc.isOpen = false) (hpos : u.outPos.toNat ≤ u.cfg.outCap)
    (hcap : u.cfg.outCap < 2 ^ 32)
    (hover : u.cfg.outCap < u.outPos.toNat + (packTokens ts).length) : FillsOut lzEncode u := by
  obtain ⟨p, hp⟩ := h.lzEncode_eq hbytes htext
  rcases h.pack_cases with ⟨-, hpack⟩ | ⟨b, is, hitems, hpack⟩
  · rw [hpack, List.length_nil] at hover
    omega
  · rw [hpack] at hover
    obtain ⟨t, hwrite, hend⟩ := emitItems_flag_finish_fillsOut hclosed hpos hcap hover
    rw [hitems, hwrite] at hp
    exact ⟨t.encAt p, hp, hend⟩

/-! ### What a run that answers has read -/

theorem HasBytes.append {m : Memory} {a k : Nat} (h : HasBytes m a n) (h' : HasBytes m (a + n) k) :
    HasBytes m a (n + k) := by
  intro j hj
  rcases Nat.lt_or_ge j n with hlt | hge
  · exact h j hlt
  · have hread := h' (j - n) (by omega)
    rwa [show a + n + (j - n) = a + j by omega] at hread

/-- A pass of the main loop from `u` to `t` that moved on by `n` bytes, which it has read. -/
structure PassReads (u t : State) (n : Nat) : Prop where
  one_le : 1 ≤ n
  inside : u.enc.pos.toNat + n ≤ u.inLen.toNat
  reads : HasBytes u.inBuf u.enc.pos.toNat n
  text : SameText u t
  pos : t.enc.pos.toNat = u.enc.pos.toNat + n

/-- A greedy step whose bytes were read, with its token emitted. -/
theorem GreedyStep.passReads (h : GreedyStep u u.enc.pos.toNat i n)
    (hpos : u.enc.pos.toNat < u.inLen.toNat) (hreads : HasBytes u.inBuf u.enc.pos.toNat n)
    (hrun : (emitToken i >>= fun _ => modify (State.advanceEnc n)) u = .ok () t) :
    PassReads u t n := by
  have hfit := u.inLen.isLt
  obtain ⟨hn, hend⟩ := h.bounds hpos
  obtain ⟨_, v, hemit, hrun⟩ := Engine.bind_eq_ok.1 hrun
  cases hrun
  have htext := (sameText_closed.emitItems _).ok hemit
  refine ⟨hn, hend, hreads, ⟨htext.cfg, htext.level, htext.inLen, htext.inBuf⟩, ?_⟩
  show (v.enc.pos + BitVec.ofNat 32 n).toNat = _
  rw [(posBlind_emitItems _).pos hemit, toNat_add_ofNat (by omega)]

/-- A byte that was read holds a value. -/
theorem memRead_eq_ok {b : Byte} {a : Nat} (h : memRead .inBuf a u = .ok b t) :
    t = u ∧ Memory.read u.inBuf a = some b := by
  rcases memRead_cases .inBuf a u with ⟨v, hv, e⟩ | ⟨-, e⟩
  · cases e.symm.trans h
    exact ⟨rfl, hv⟩
  · cases e.symm.trans h

/-- A pass that answers has read the bytes it moves on by. -/
theorem encodeStep_reads (h : encodeStep u = .ok () t) (hpos : u.enc.pos.toNat < u.inLen.toNat) :
    ∃ n, PassReads u t n := by
  rw [encodeStep, Engine.get_bind] at h
  obtain ⟨r, u', hfind, h⟩ := Engine.bind_eq_ok.1 h
  obtain ⟨rfl, hgreedy, hrun⟩ := (textRead_findMatch (Nat.le_of_lt hpos)).ok hfind
  rcases hgreedy.step hrun with ⟨hnone, hstep⟩ | ⟨h3, hreads, hstep⟩
  · rw [if_pos hnone] at h
    obtain ⟨b, v, hread, hlit⟩ := Engine.bind_eq_ok.1 h
    obtain ⟨rfl, hv⟩ := memRead_eq_ok hread
    rw [← byteAt_of_read hv] at hlit
    exact ⟨1, hstep.passReads hpos (HasBytes.succ nofun (Option.isSome_of_mem hv)) hlit⟩
  · rw [if_neg (Nat.not_lt.2 h3)] at h
    exact ⟨r.1, hstep.passReads hpos hreads h⟩

/-- A main loop that answers has read all of the plaintext before it. -/
theorem encodeLoop_reads (h : encodeLoop fuel u = .ok () t)
    (hfuel : u.inLen.toNat - u.enc.pos.toNat ≤ fuel) :
    HasBytes u.inBuf u.enc.pos.toNat (u.inLen.toNat - u.enc.pos.toNat) := by
  induction fuel generalizing u with
  | zero =>
    intro k hk
    omega
  | succ fuel ih =>
    rcases Nat.lt_or_ge u.enc.pos.toNat u.inLen.toNat with hpos | hend
    · rw [encodeLoop_succ hpos] at h
      obtain ⟨_, v, hstep, h⟩ := Engine.bind_eq_ok.1 h
      obtain ⟨n, hn, hend, hreads, htext, hv⟩ := encodeStep_reads hstep hpos
      have hrest := ih h (by rw [htext.inLen, hv]; omega)
      rw [htext.inBuf, htext.inLen, hv] at hrest
      have hall := hreads.append hrest
      rwa [show n + (u.inLen.toNat - (u.enc.pos.toNat + n)) = u.inLen.toNat - u.enc.pos.toNat by
        omega] at hall
    · intro k hk
      omega

theorem lzEncode_reads (h : lzEncode u = .ok () t) : HasBytes u.inBuf 0 u.inLen.toNat := by
  obtain ⟨_, _, hloop, -⟩ : ∃ a v, encodeLoop u.inLen.toNat (u.encAt 0) = .ok a v ∧ _ :=
    Engine.bind_eq_ok.1 h
  exact encodeLoop_reads hloop (Nat.sub_le ..)

/-! ### The command (47_commands.md R287) -/

/-- JPK_ENCODE of type 3: the checks that apply to it, then header and body. -/
theorem jpkEncodeCommand_lz (hty : s.paramType = 3) :
    jpkEncodeCommand s =
      if s.cfg.inCap < s.inLen.toNat then .error (.raise .bufferCapacity s.inLen.toNat) s
      else if s.cfg.lzMaxLen < s.paramLevel.toNat then
        .error (.raise .paramRange s.paramLevel.toNat) s
      else (jpkHeader >>= fun _ => lzEncode) s := by
  have hlz : jpkType s.paramType = .lz := by rw [hty]; rfl
  rw [jpkEncodeCommand, checkInCap_bind, Engine.get_bind]
  simp only [hlz]
  rw [raiseIf_bind_false (by rfl), raiseIf_bind_false (by rfl), raiseIf_bind]
  simp only [beq_self_eq_true, Bool.true_and, decide_eq_true_eq]
  rfl

theorem jpkEncodeCommand_lz_ready (hty : s.paramType = 3) (hin : s.inLen.toNat ≤ s.cfg.inCap)
    (hlevel : s.paramLevel.toNat ≤ s.cfg.lzMaxLen) :
    jpkEncodeCommand s = (jpkHeader >>= fun _ => lzEncode) s := by
  rw [jpkEncodeCommand_lz hty, if_neg (Nat.not_lt.2 hin), if_neg (Nat.not_lt.2 hlevel)]

theorem jpkHeaderBytes_eq (unk ty : Half) (inLen : Word) :
    jpkHeaderBytes unk ty inLen = jpkFileHeader unk ty inLen := rfl

/-- The header appended, and what the body needs of the state it leaves. -/
theorem jpkHeader_written (hs : Started s) :
    ∃ u, jpkHeader s = .ok () u ∧ u.enc = s.enc ∧ SameText s u ∧ u.inPos = s.inPos ∧
      u.outPos.toNat = 16 ∧ AppendResult s u (jpkFileHeader s.paramUnk s.paramType s.inLen) := by
  obtain ⟨u, hhead, hout⟩ := jpkHeader_ok hs
  obtain ⟨-, hzero, -⟩ := hs
  rw [jpkHeaderBytes_eq] at hout
  have hpos := hout.outPos (by rw [hzero]; exact (by decide : 0 + 16 < 2 ^ 32))
  rw [hzero] at hpos
  exact ⟨u, hhead, by rw [hout.1], ⟨hout.cfg, by rw [hout.1], hout.inLen, hout.inBuf⟩, hout.inPos,
    hpos, hout⟩

theorem complete_of_no_conflict (hc : s.hc.isSet = false) : complete s = publish s :=
  if_neg (by simp [hc])

/-- With room in OUT, JPK_ENCODE of type 3 completes with header and packed tokens. -/
theorem GreedyTokens.jpkEncode_completes (h : GreedyTokens s 0 ts) (hs : Started s)
    (hty : s.paramType = 3) (hlevel : s.paramLevel.toNat ≤ s.cfg.lzMaxLen)
    (hin : s.inLen.toNat ≤ s.cfg.inCap) (hbytes : HasBytes s.inBuf 0 s.inLen.toNat)
    (hroom : 16 + (packTokens ts).length ≤ s.cfg.outCap)
    (hfit : 16 + (packTokens ts).length < 2 ^ 32) :
    ∃ t, exec .jpkEncode s = .next t ∧
      CompleteResult s t (jpkFileHeader s.paramUnk 3 s.inLen ++ packTokens ts) ∧
      t = { s with
        enc := t.enc, outPos := t.outPos, outLen := t.outLen, outBuf := t.outBuf,
        status := t.status, phase := .idle } := by
  obtain ⟨u, hhead, henc, htext, -, hpos, hheader⟩ := jpkHeader_written hs
  obtain ⟨-, hzero, hc, hclosed, -⟩ := hs
  obtain ⟨v, hbody, hpacked⟩ := h.lzEncode_ok hbytes htext (by rw [henc]; exact hclosed)
    (by rw [hpos, htext.cfg]; exact hroom) (by rw [hpos]; exact hfit)
  have hrun : jpkEncodeCommand s = .ok () v := by
    rw [jpkEncodeCommand_lz_ready hty hin hlevel, Engine.bind_ok hhead, hbody]
  have hkept : Kept s v := kept_closed.jpkEncode.ok hrun
  have hconflict : v.hc.isSet = false := by
    obtain ⟨-, -, -, -, hhc, -⟩ := hkept
    rw [hhc, hc]
  have hout := (hheader.withEnc v.enc).trans hpacked
    (by rw [show ({ s with enc := v.enc } : State).outPos = 0 from hzero]; exact hfit)
  refine ⟨complete v, runBody_ok hrun, ?_, ?_⟩
  · rw [← hty]
    exact complete_result hkept hc hout hzero (by rw [List.length_append]; exact hfit)
  · rw [complete_of_no_conflict hconflict, publish, hout.1]

/-- Without room in OUT, JPK_ENCODE of type 3 takes the fault of the append that does not fit. -/
theorem GreedyTokens.jpkEncode_faults (h : GreedyTokens s 0 ts) (hs : Started s)
    (hty : s.paramType = 3) (hlevel : s.paramLevel.toNat ≤ s.cfg.lzMaxLen)
    (hin : s.inLen.toNat ≤ s.cfg.inCap) (hbytes : HasBytes s.inBuf 0 s.inLen.toNat)
    (hover : s.cfg.outCap < 16 + (packTokens ts).length) (hcap : s.cfg.outCap + 1 < 2 ^ 32) :
    ∃ t, exec .jpkEncode s = .next t ∧
      FaultResult s t 0x16 (s.cfg.outCap + 1) 0 (BitVec.ofNat 32 s.cfg.outCap) := by
  obtain ⟨u, hhead, henc, htext, hinPos, hpos, -⟩ := jpkHeader_written hs
  obtain ⟨hinZero, -, hc, hclosed, v, hphase⟩ := hs
  have hcfg := htext.cfg
  obtain ⟨w, hbody, hend, hfull⟩ := h.lzEncode_fillsOut hbytes htext (by rw [henc]; exact hclosed)
    (by rw [hpos, hcfg]; exact Nat.le_add_left ..) (by rw [hcfg]; omega)
    (by rw [hpos, hcfg]; exact hover)
  rw [hcfg] at hbody hfull
  have hrun : jpkEncodeCommand s = .error (.raise .bufferCapacity (s.cfg.outCap + 1)) w := by
    rw [jpkEncodeCommand_lz_ready hty hin hlevel, Engine.bind_ok hhead, hbody]
  have hkept : Kept s w := kept_closed.jpkEncode.error hrun
  have hwphase : w.phase ≠ .lzDecode := by
    obtain ⟨-, hph, -⟩ := hkept
    rw [hph, hphase]
    nofun
  have hresult := endWithFault_result (k := .bufferCapacity) hkept hc hcap
  rw [if_neg hwphase, hend, hinPos, hinZero, BitVec.eq_of_toNat_eq (y := BitVec.ofNat 32 _)
    (hfull.trans (Nat.mod_eq_of_lt (by omega)).symm)] at hresult
  exact ⟨_, runBody_raise hrun, hresult⟩

end

/-! ### The obligation -/

/-- Settles O29: the greedy tokens exist where the plaintext holds values, and the command writes
them. -/
theorem jpkEncodeLzCompletes : Obligations.JpkEncodeLzCompletes := by
  intro s hs hty hlevel hin hbytes
  obtain ⟨ts, hts⟩ := exists_greedyTokens hbytes (Nat.zero_le _)
  exact ⟨ts, hts, hts.pack_length_le, hts.jpkEncode_completes hs hty hlevel hin hbytes,
    hts.jpkEncode_faults hs hty hlevel hin hbytes⟩

end Sys2Proof.Machine
end

section
/-! What the greedy tokens stand for: applied to an empty output they give the plaintext
(43_lz_encode.md R198, R199). -/

namespace Sys2Proof.Machine

/-! ### Tokens on a plain list -/

theorem applyToken_of_matchFields {i : Instr} {off n : Nat} (h : matchFields i = some (off, n))
    (out : List Byte) : applyToken out i = extendBack off n out := by
  cases i with
  | lit => cases h
  | _ => simp only [applyToken, h]

theorem bytesAt_succ_last (m : Memory) (n : Nat) :
    bytesAt m 0 (n + 1) = bytesAt m 0 n ++ [byteAt m n] := by
  rw [bytesAt_add, Nat.zero_add]
  rfl

theorem getD_bytesAt {m : Memory} {n k : Nat} (h : k < n) :
    (bytesAt m 0 n).getD k 0 = byteAt m k := by
  simp [bytesAt, h]

/-- Copying back over bytes that agree with those `off + 1` before them gives those bytes. -/
theorem extendBack_bytesAt {m : Memory} {off pos n : Nat} (hback : off + 1 ≤ pos)
    (h : Agrees m pos (pos - (off + 1)) n) :
    extendBack off n (bytesAt m 0 pos) = bytesAt m 0 (pos + n) := by
  induction n generalizing pos with
  | zero => rfl
  | succ n ih =>
    have hfirst : byteAt m pos = byteAt m (pos - (off + 1)) := h 0 (Nat.succ_pos n)
    have hrest : Agrees m (pos + 1) (pos + 1 - (off + 1)) n := fun k hk => by
      have hnext := h (k + 1) (Nat.succ_lt_succ hk)
      rwa [show pos + (k + 1) = pos + 1 + k by omega,
        show pos - (off + 1) + (k + 1) = pos + 1 - (off + 1) + k by omega] at hnext
    rw [extendBack, bytesAt_length, getD_bytesAt (by omega), ← hfirst, ← bytesAt_succ_last,
      ih (by omega) hrest, show pos + 1 + n = pos + (n + 1) by omega]

/-! ### Greedy tokens that a code can express -/

/-- The matches of the encoder have a code (43_lz_encode.md R196, R197). -/
def Expressible (s : State) : Prop := s.cfg.lzWindow ≤ 0x2000 ∧ s.paramLevel.toNat ≤ 280

section
variable {s : State} {pos n off len : Nat} {i : Instr} {ts before rest : List Instr}

/-- A step is a LIT, or the token of a match inside the output before it. -/
theorem GreedyStep.cases_of_expressible (h : GreedyStep s pos i n) (hs : Expressible s) :
    (i = .lit (byteAt s.inBuf pos) ∧ n = 1) ∨
      ∃ off, Carries i off n ∧ off + 1 ≤ pos ∧ Agrees s.inBuf pos (pos - (off + 1)) n := by
  cases h with
  | lit => exact .inl ⟨rfl, rfl⟩
  | @copy r p _ hp hmatch =>
    obtain ⟨hwindow, hlevel⟩ := hs
    obtain ⟨hlo, hlt⟩ := hp
    have hoff := hmatch.offset
    have hlimit : r.1 ≤ s.paramLevel.toNat := hmatch.le.trans (Nat.min_le_left ..)
    refine .inr ⟨r.2, carries_matchToken hmatch.three_le (by omega) (by omega), by omega, ?_⟩
    rw [show pos - (r.2 + 1) = p by omega]
    exact hmatch.agrees

theorem GreedyStep.wellFormed (h : GreedyStep s pos i n) (hs : Expressible s) :
    i.wellFormed = true ∧ ∀ c, i ≠ .run c := by
  rcases h.cases_of_expressible hs with ⟨rfl, -⟩ | ⟨off, ⟨hwf, hfields⟩, -⟩
  · exact ⟨rfl, nofun⟩
  · refine ⟨hwf, fun c hc => ?_⟩
    rw [hc] at hfields
    cases hfields

theorem GreedyStep.back_le (h : GreedyStep s pos i n) (hs : Expressible s)
    (hi : matchFields i = some (off, len)) : off + 1 ≤ pos := by
  rcases h.cases_of_expressible hs with ⟨rfl, -⟩ | ⟨off', ⟨-, hfields⟩, hback, -⟩
  · cases hi
  · cases hfields.symm.trans hi
    exact hback

theorem GreedyStep.applyToken_eq (h : GreedyStep s pos i n) (hs : Expressible s) :
    applyToken (bytesAt s.inBuf 0 pos) i = bytesAt s.inBuf 0 (pos + n) := by
  rcases h.cases_of_expressible hs with ⟨rfl, rfl⟩ | ⟨off, ⟨-, hfields⟩, hback, hagree⟩
  · exact (bytesAt_succ_last ..).symm
  · rw [applyToken_of_matchFields hfields, extendBack_bytesAt hback hagree]

/-- The tokens up to any point of a greedy sequence stand for the plaintext up to some position,
from which the rest is greedy. -/
theorem GreedyTokens.split (h : GreedyTokens s pos (before ++ rest)) (hs : Expressible s) :
    ∃ q, GreedyTokens s q rest ∧
      before.foldl applyToken (bytesAt s.inBuf 0 pos) = bytesAt s.inBuf 0 q := by
  induction before generalizing pos with
  | nil => exact ⟨pos, h, rfl⟩
  | cons i before ih =>
    obtain ⟨-, n, hstep, hrest⟩ := greedyTokens_cons.1 h
    obtain ⟨q, hq, hfold⟩ := ih hrest
    refine ⟨q, hq, ?_⟩
    rw [List.foldl_cons, hstep.applyToken_eq hs, hfold]

theorem GreedyTokens.foldl_applyToken (h : GreedyTokens s 0 ts) (hs : Expressible s) :
    ts.foldl applyToken [] = bytesAt s.inBuf 0 s.inLen.toNat := by
  rw [← List.append_nil ts] at h
  obtain ⟨q, hq, hfold⟩ := h.split hs
  obtain rfl : q = s.inLen.toNat := hq
  exact hfold

/-- Every token of a greedy sequence is a step of the main loop, behind the plaintext that the
tokens before it stand for. -/
theorem GreedyTokens.step_at (h : GreedyTokens s 0 (before ++ i :: rest)) (hs : Expressible s) :
    ∃ n, GreedyStep s (before.foldl applyToken []).length i n := by
  obtain ⟨q, hq, hfold⟩ := h.split hs
  obtain ⟨-, n, hstep, -⟩ := greedyTokens_cons.1 hq
  refine ⟨n, ?_⟩
  rw [show ([] : List Byte) = bytesAt s.inBuf 0 0 from rfl, hfold, bytesAt_length]
  exact hstep

end

/-! ### A command that is done -/

section
variable {s t : State}

theorem statusDone_of_reads {w : Word} {b d e : Bool} {c l : Byte} (h : StatusReads w b d e c l) :
    statusDone w = d := by
  obtain ⟨-, hd, -⟩ := h
  exact hd

theorem endWithFault_not_done (f : FaultKind) (info : Nat) (s : State) :
    statusDone (endWithFault f info s).status = false := by
  rcases endWithFault_cases f info s with ⟨-, e⟩ | ⟨-, e⟩ <;> rw [e]
  · exact statusDone_of_reads (statusReads_statusWord ..)
  · exact statusDone_of_reads (statusReads_statusWord ..)

/-- The body of a command that is done has answered. -/
theorem runCommand_done {body : Engine Unit} (h : runCommand body s = .next t)
    (hdone : statusDone t.status = true) : ∃ u, body s = .ok () u := by
  rcases runBody_cases body complete s with ⟨u, hu, -⟩ | ⟨f, info, u, -, e⟩ | ⟨r, u, -, e⟩
  · exact ⟨u, hu⟩
  · cases e.symm.trans h
    rw [endWithFault_not_done] at hdone
    cases hdone
  · cases e.symm.trans h

/-- JPK_ENCODE of type 3 is done only where its checks hold and the plaintext holds values. -/
theorem jpkEncode_lz_done (hs : Started s) (hty : s.paramType = 3) (h : exec .jpkEncode s = .next t)
    (hdone : statusDone t.status = true) :
    s.inLen.toNat ≤ s.cfg.inCap ∧ s.paramLevel.toNat ≤ s.cfg.lzMaxLen ∧
      HasBytes s.inBuf 0 s.inLen.toNat := by
  obtain ⟨u, hrun⟩ := runCommand_done h hdone
  rw [jpkEncodeCommand_lz hty] at hrun
  split_ifs at hrun with hin hlevel
  obtain ⟨v, hhead, -, htext, -⟩ := jpkHeader_written hs
  rw [Engine.bind_ok hhead] at hrun
  have hreads := lzEncode_reads hrun
  rw [htext.inBuf, htext.inLen] at hreads
  exact ⟨Nat.not_lt.1 hin, Nat.not_lt.1 hlevel, hreads⟩

/-- A done JPK_ENCODE of type 3 has written the packed tokens of any greedy sequence. -/
theorem GreedyTokens.jpkEncode_done {ts : List Instr} (hts : GreedyTokens s 0 ts) (hs : Started s)
    (hty : s.paramType = 3) (h : exec .jpkEncode s = .next t) (hdone : statusDone t.status = true)
    (hfit : 16 + (packTokens ts).length < 2 ^ 32) :
    CompleteResult s t (jpkFileHeader s.paramUnk 3 s.inLen ++ packTokens ts) := by
  obtain ⟨hin, hlevel, hbytes⟩ := jpkEncode_lz_done hs hty h hdone
  rcases Nat.lt_or_ge s.cfg.outCap (16 + (packTokens ts).length) with hover | hroom
  · obtain ⟨t', ht', hfault⟩ :=
      hts.jpkEncode_faults hs hty hlevel hin hbytes hover (by omega)
    cases ht'.symm.trans h
    obtain ⟨-, -, -, -, -, hstatus, -⟩ := hfault
    rw [statusDone_of_reads hstatus] at hdone
    cases hdone
  · obtain ⟨t', ht', hresult, -⟩ :=
      hts.jpkEncode_completes hs hty hlevel hin hbytes hroom hfit
    cases ht'.symm.trans h
    exact hresult

end

/-! ### The obligation -/

/-- Settles O30: by induction on the tokens each stands for the bytes it covers, and a command that
is done has read all of them. -/
theorem jpkEncodeLzBodyStandsForPlaintext : Obligations.JpkEncodeLzBodyStandsForPlaintext := by
  intro s t hs hty hwindow hmax h hdone
  obtain ⟨hin, hlevel, hbytes⟩ := jpkEncode_lz_done hs hty h hdone
  have hcodes : Expressible s := ⟨hwindow, hlevel.trans hmax⟩
  obtain ⟨ts, hts⟩ := exists_greedyTokens hbytes (Nat.zero_le _)
  refine ⟨ts, hts, fun i hi => ?_, fun before rest i off len hsplit hfields => ?_,
    hts.foldl_applyToken hcodes, hts.jpkEncode_done hs hty h hdone⟩
  · obtain ⟨before, rest, rfl⟩ := List.append_of_mem hi
    obtain ⟨n, hstep⟩ := hts.step_at hcodes
    exact ⟨hstep.isToken, hstep.wellFormed hcodes⟩
  · rw [hsplit] at hts
    obtain ⟨n, hstep⟩ := hts.step_at hcodes
    exact hstep.back_le hcodes hfields

end Sys2Proof.Machine
end

section
/-! The JPK file: its header read back from the bytes that JPK_ENCODE wrote, and the raw body both
ways (47_commands.md R284 to R288). -/

namespace Sys2Proof.Machine

/-! ### A buffer that holds a list -/

section
variable {m : Memory} {bs cs : List Byte}

theorem Holds.byteAt (h : Holds m bs) (a : Nat) : byteAt m a = bs[a]?.getD 0 := by
  rw [Machine.byteAt, h a]

theorem Holds.hasBytes (h : Holds m bs) : HasBytes m 0 bs.length := by
  intro k hk
  rw [Nat.zero_add, h k, List.getElem?_eq_getElem hk]
  rfl

/-- Behind the bytes `bs` stand the bytes `cs`. -/
theorem Holds.bytesAt_behind (h : Holds m (bs ++ cs)) :
    bytesAt m bs.length cs.length = cs := by
  refine List.ext_getElem (bytesAt_length ..) fun k hk hk' => ?_
  simp only [bytesAt, List.getElem_map, List.getElem_range, h.byteAt,
    List.getElem?_append_right (Nat.le_add_right ..), Nat.add_sub_cancel_left,
    List.getElem?_eq_getElem hk', Option.getD_some]

end

/-! ### The header (30_encoding.md R102) -/

theorem half_of_bytes (v : Half) : v.extractLsb' 8 8 ++ v.extractLsb' 0 8 = v :=
  BitVec.extractLsb'_append_extractLsb' (w := 8) (len := 8)

theorem word_of_bytes (v : Word) :
    v.extractLsb' 24 8 ++ v.extractLsb' 16 8 ++ v.extractLsb' 8 8 ++ v.extractLsb' 0 8 = v := by
  refine BitVec.eq_of_getLsbD_eq fun k hk => ?_
  simp only [BitVec.getLsbD_append, BitVec.getLsbD_extractLsb']
  grind

theorem jpkFileHeader_length (unk ty : Half) (size : Word) :
    (jpkFileHeader unk ty size).length = 16 := rfl

section
variable {s t u : State} {unk ty : Half} {size : Word} {body : List Byte}

/-- A file that begins with a header of JPK_ENCODE passes the start checks of JPK_DECODE, and its
body begins at 16. -/
theorem jpkReady_of_holds (h : Holds u.inBuf (jpkFileHeader unk ty size ++ body))
    (hlen : u.inLen.toNat = 16 + body.length) (hin : u.inLen.toNat ≤ u.cfg.inCap)
    (hsize : size.toNat ≤ u.cfg.outCap) : JpkReady u ty 16 size := by
  have hbytes := h.hasBytes
  rw [List.length_append, jpkFileHeader_length] at hbytes
  refine ⟨hin, by omega, hbytes.sub (Nat.le_refl 0) (by omega), ?_, ?_, ?_, ?_, Nat.le_refl 16,
    by rw [hlen]; exact Nat.le_add_right .., hsize⟩
  · simp only [le32At, h.byteAt]
    exact (by decide :
      ((0x1A : Byte) ++ (0x52 : Byte) ++ (0x4B : Byte) ++ (0x4A : Byte)) = (0x1A524B4A : Word))
  · simp only [le16At, h.byteAt]
    exact half_of_bytes ty
  · simp only [le32At, h.byteAt]
    exact (by decide : ((0 : Byte) ++ (0 : Byte) ++ (0 : Byte) ++ (0x10 : Byte)) = (0x10 : Word))
  · simp only [le32At, h.byteAt]
    exact word_of_bytes size

/-! ### The raw body encoded -/

/-- JPK_ENCODE of type 0: the checks that apply to it, then header and plaintext. -/
theorem jpkEncodeCommand_raw (hty : s.paramType = 0) :
    jpkEncodeCommand s =
      if s.cfg.inCap < s.inLen.toNat then .error (.raise .bufferCapacity s.inLen.toNat) s
      else if s.cfg.outCap < 16 + s.inLen.toNat then
        .error (.raise .bufferCapacity (16 + s.inLen.toNat)) s
      else (jpkHeader >>= fun _ => modify (State.withInPos 0) >>= fun _ =>
        copyIn s.inLen.toNat) s := by
  have hraw : jpkType s.paramType = .raw := by rw [hty]; rfl
  rw [jpkEncodeCommand, checkInCap_bind, Engine.get_bind]
  simp only [hraw]
  rw [raiseIf_bind_false (by rfl), raiseIf_bind_false (by rfl), raiseIf_bind_false (by rfl),
    if_pos (c := (JpkType.raw == JpkType.raw) = true) rfl, checkOutCap_bind]
  rfl

theorem AppendResult.withInPos {bs : List Byte} (h : AppendResult s t bs) (v : Word) :
    AppendResult (s.withInPos v) (t.withInPos v) bs := by
  obtain ⟨hstate, hnew, hold⟩ := h
  exact ⟨congrArg (State.withInPos v) hstate, hnew, hold⟩

/-- With room in OUT, JPK_ENCODE of type 0 completes with header and plaintext. -/
theorem jpkEncode_raw_completes (hs : Started s) (hty : s.paramType = 0)
    (hin : s.inLen.toNat ≤ s.cfg.inCap) (hroom : 16 + s.inLen.toNat ≤ s.cfg.outCap)
    (hfit : 16 + s.inLen.toNat < 2 ^ 32) (hbytes : HasBytes s.inBuf 0 s.inLen.toNat) :
    ∃ t, exec .jpkEncode s = .next t ∧ CompleteResult s t
      (jpkFileHeader s.paramUnk 0 s.inLen ++ bytesAt s.inBuf 0 s.inLen.toNat) := by
  obtain ⟨u, hhead, -, htext, -, hpos, hheader⟩ := jpkHeader_written hs
  obtain ⟨-, hzero, hc, -⟩ := hs
  obtain ⟨v, hcopy, hcopied⟩ := copyIn_ok (s := u.withInPos 0) (n := s.inLen.toNat)
    (by show 0 + _ ≤ u.inLen.toNat; rw [htext.inLen, Nat.zero_add])
    (by show u.outPos.toNat + _ ≤ u.cfg.outCap; rw [hpos, htext.cfg]; exact hroom)
    (by show u.outPos.toNat + _ < 2 ^ 32; rw [hpos]; exact hfit)
    (by show HasBytes u.inBuf 0 _; rw [htext.inBuf]; exact hbytes)
  have hbody : AppendResult (u.withInPos (0 + BitVec.ofNat 32 s.inLen.toNat)) v
      (bytesAt s.inBuf 0 s.inLen.toNat) := by
    rw [← htext.inBuf]
    exact hcopied
  have hrun : jpkEncodeCommand s = .ok () v := by
    rw [jpkEncodeCommand_raw hty, if_neg (Nat.not_lt.2 hin), if_neg (Nat.not_lt.2 hroom),
      Engine.bind_ok hhead, Engine.modify_bind, hcopy]
  have hout := (hheader.withInPos _).trans hbody (by
    rw [State.withInPos_outPos, hzero, bytesAt_length]
    exact hfit)
  refine ⟨complete v, runBody_ok hrun, ?_⟩
  rw [← hty]
  exact complete_result (kept_closed.jpkEncode.ok hrun) hc hout hzero
    (by rw [List.length_append, bytesAt_length]; exact hfit)

/-- Where some byte has no value, there is a first one. -/
theorem exists_first_unwritten {m : Memory} {n : Nat} (h : ¬ HasBytes m 0 n) :
    ∃ k < n, HasBytes m 0 k ∧ Memory.read m k = none := by
  induction n with
  | zero => exact absurd nofun h
  | succ n ih =>
    by_cases hn : HasBytes m 0 n
    · refine ⟨n, Nat.lt_succ_self n, hn, Option.not_isSome_iff_eq_none.1 fun hlast => h ?_⟩
      exact hn.succ (by rwa [Nat.zero_add])
    · obtain ⟨k, hk, hfirst⟩ := ih hn
      exact ⟨k, Nat.lt_succ_of_lt hk, hfirst⟩

/-- A done JPK_ENCODE of type 0 has written header and plaintext. -/
theorem jpkEncode_raw_done (hs : Started s) (hty : s.paramType = 0)
    (hfit : 16 + s.inLen.toNat < 2 ^ 32) (h : exec .jpkEncode s = .next t)
    (hdone : statusDone t.status = true) :
    CompleteResult s t
      (jpkFileHeader s.paramUnk 0 s.inLen ++ bytesAt s.inBuf 0 s.inLen.toNat) := by
  obtain ⟨u, hrun⟩ := runCommand_done h hdone
  rw [jpkEncodeCommand_raw hty] at hrun
  split_ifs at hrun with hin hroom
  have hbytes : HasBytes s.inBuf 0 s.inLen.toNat := by
    by_contra hnot
    obtain ⟨k, hk, hb, hn⟩ := exists_first_unwritten hnot
    have hrefused := jpkEncode_raw_refused hs (Nat.not_lt.1 hin) hk hb hn hty (Nat.not_lt.1 hroom)
      hfit
    cases h.symm.trans hrefused
  obtain ⟨t', ht', hresult⟩ :=
    jpkEncode_raw_completes hs hty (Nat.not_lt.1 hin) (Nat.not_lt.1 hroom) hfit hbytes
  cases ht'.symm.trans h
  exact hresult

/-! ### The raw body decoded -/

/-- JPK_DECODE of type 0 copies the body, where it has all of it. -/
theorem jpkDecode_raw_completes {off : Word} (hs : Started s) (h : JpkReady s 0 off size)
    (hend : off.toNat + size.toNat ≤ s.inLen.toNat)
    (hbytes : HasBytes s.inBuf off.toNat size.toNat) :
    ∃ t, exec .jpkDecode s = .next t ∧ t.inPos = off + size ∧
      CompleteResult s t (bytesAt s.inBuf off.toNat size.toNat) := by
  have hcap : size.toNat ≤ s.cfg.outCap := by
    obtain ⟨-, -, -, -, -, -, -, -, -, hcap⟩ := h
    exact hcap
  have hfit := size.isLt
  obtain ⟨-, hzero, hc, -⟩ := hs
  have hpos : s.outPos.toNat = 0 := by rw [hzero]; rfl
  obtain ⟨t, hcopy, hout⟩ := copyIn_ok (s := State.withInPos off { s with size := size })
    (n := size.toNat) hend (by show s.outPos.toNat + _ ≤ _; rw [hpos, Nat.zero_add]; exact hcap)
    (by show s.outPos.toNat + _ < _; rw [hpos, Nat.zero_add]; exact hfit) hbytes
  have hrun : jpkDecodeCommand s = .ok false t := by
    rw [jpkDecodeCommand_ready h (by decide) (fun he => absurd he (by decide))]
    exact (Engine.bind_ok hcopy).trans rfl
  have hkept : Kept s t := kept_closed.jpkDecode.ok hrun
  have hconflict : t.hc.isSet = false := by
    obtain ⟨-, -, -, -, hhc, -⟩ := hkept
    rw [hhc, hc]
  refine ⟨complete t, ?_, ?_,
    complete_result hkept hc hout hzero (by rw [bytesAt_length]; exact hfit)⟩
  · show execJpkDecode s = _
    simp only [execJpkDecode, hrun]
  · rw [complete_of_no_conflict hconflict, State.publish_inPos, hout.inPos]
    show off + BitVec.ofNat 32 size.toNat = off + size
    rw [BitVec.ofNat_toNat, BitVec.setWidth_eq]

end

end Sys2Proof.Machine
end

section
/-! JPK_DECODE of what JPK_ENCODE wrote (43_lz_encode.md R199): the decode runs the greedy tokens
one by one, and after each its output is the plaintext that the encoder had covered. -/

namespace Sys2Proof.Machine

/-! ### A running decode of packed items -/

/-- `w` is the decode that runs from `u`, with `pos` bytes of the plaintext of `s` made and the
items `is` still to be read, which use up the input. -/
structure Decoding (u s : State) (pos : Nat) (is : List Item) (w : State) : Prop where
  kept : Kept u w
  off : w.hf.on = false
  size : w.size = s.inLen
  outPos : w.outPos = BitVec.ofNat 32 pos
  made : ∀ a < pos, Memory.read w.outBuf a = some (byteAt s.inBuf a)
  inside : w.inPos.toNat ≤ w.inLen.toNat
  unread : HasBytes w.inBuf w.inPos.toNat (w.inLen.toNat - w.inPos.toNat)
  stream : ReadsAll is w.tokenSource

/-- A state from which a decode of the plaintext of `s` can run. -/
structure CanDecode (u s : State) : Prop where
  phase : u.phase = .lzDecode
  host : u.host = []
  conflict : u.hc.isSet = false
  cap : s.inLen.toNat ≤ u.cfg.outCap

theorem Unread.tokenSource {s : State} {src : TokenSource} (h : Unread s s.inLen.toNat src) :
    (s.atSource s.inLen.toNat src).tokenSource = src ∧
      (s.atSource s.inLen.toNat src).inPos.toNat ≤ s.inLen.toNat ∧
      HasBytes s.inBuf (s.atSource s.inLen.toNat src).inPos.toNat
        (s.inLen.toNat - (s.atSource s.inLen.toNat src).inPos.toNat) := by
  obtain ⟨a, hend, hb, hbytes⟩ := h
  have hfit := s.inLen.isLt
  have hpos : (s.atSource s.inLen.toNat src).inPos.toNat = a := by
    show (s.inLen.toNat - src.bytes.length) % 2 ^ 32 = a
    rw [Nat.mod_eq_of_lt (by omega)]
    omega
  have hleft : s.inLen.toNat - a = src.bytes.length := by omega
  rw [State.tokenSource, hpos]
  refine ⟨?_, by omega, by rw [hleft]; exact hb⟩
  show (⟨src.cursor, bytesAt s.inBuf a (s.inLen.toNat - a)⟩ : TokenSource) = src
  rw [hleft, ← hbytes]

theorem kept_atSource (s : State) (e : Nat) (src : TokenSource) : Kept s (s.atSource e src) :=
  kept_closed.work s _ s.size _ s.hf s.ht s.enc s.lcg s.ecd s.exf.i s.exf.count

section
variable {u s w t : State} {pos n : Nat} {i : Instr} {is : List Item} {ts : List Instr}

theorem Decoding.outPos_toNat (h : Decoding u s pos is w) (hpos : pos ≤ s.inLen.toNat) :
    w.outPos.toNat = pos := by
  have hfit := s.inLen.isLt
  rw [h.outPos]
  exact Nat.mod_eq_of_lt (by omega)

/-- The host list, the phase and the absence of a conflict, which a running decode keeps. -/
theorem Decoding.running (h : Decoding u s pos is w) (hu : CanDecode u s) :
    w.host = [] ∧ w.phase = .lzDecode ∧ w.hc.isSet = false ∧ w.cfg = u.cfg := by
  obtain ⟨⟨hcfg, -, -, -, -, -, -, -, hhost, -⟩, hphase, -, -, hhc, -⟩ := h.kept
  exact ⟨hhost.trans hu.host, hphase.trans hu.phase, by rw [hhc, hu.conflict], hcfg⟩

/-- The step of a running decode reads the next token's items and executes the token. -/
theorem Decoding.fetch (h : Decoding u s pos (tokenItems i ++ is) w) (hu : CanDecode u s)
    (htok : i.isToken = true) (hwf : i.wellFormed = true) (hpos : pos < s.inLen.toNat) :
    ∃ v, step w = exec i v ∧ Decoding u s pos is v := by
  obtain ⟨hhost, hphase, -, -⟩ := h.running hu
  obtain ⟨t, hreads, hend⟩ := h.stream
  obtain ⟨src, hhead, hrest⟩ := reads_append.1 hreads
  have hleft : w.outPos.toNat < w.size.toNat := by
    rw [h.outPos_toNat (Nat.le_of_lt hpos), h.size]
    exact hpos
  obtain ⟨hok, -⟩ := fetchToken_follows (s := w.markToken) h.off h.inside h.unread
  obtain ⟨hfetch, hunread⟩ := hok i src (decodeTree_of_reads htok hwf hhead)
  obtain ⟨hsource, hinside, hbytes⟩ := hunread.tokenSource
  refine ⟨_, (step_of_decode hhost hphase).trans (decodeStep_fetched hleft hfetch), ?_⟩
  exact {
    kept := kept_closed.trans _ _ _ (kept_closed.trans _ _ _ h.kept (kept_markToken w))
      (kept_atSource ..)
    off := h.off
    size := h.size
    outPos := h.outPos
    made := h.made
    inside := hinside
    unread := hbytes
    stream := ⟨t, by rw [hsource]; exact hrest, hend⟩ }

/-- A decode whose output was extended by bytes of the plaintext. -/
theorem Decoding.extend (h : Decoding u s pos is w)
    (ht : t = { w with outBuf := t.outBuf, outPos := w.outPos + BitVec.ofNat 32 n })
    (hmade : ∀ a < pos + n, Memory.read t.outBuf a = some (byteAt s.inBuf a)) :
    Decoding u s (pos + n) is t := by
  have hnext : w.outPos + BitVec.ofNat 32 n = BitVec.ofNat 32 (pos + n) := by
    rw [h.outPos, BitVec.ofNat_add]
  rw [ht]
  exact {
    kept := h.kept
    off := h.off
    size := h.size
    outPos := hnext
    made := hmade
    inside := h.inside
    unread := h.unread
    stream := h.stream }

/-- A LIT of the next plaintext byte. -/
theorem Decoding.exec_lit (h : Decoding u s pos is w) (hu : CanDecode u s)
    (hpos : pos < s.inLen.toNat) :
    ∃ t, exec (.lit (byteAt s.inBuf pos)) w = .next t ∧ Decoding u s (pos + 1) is t := by
  obtain ⟨-, -, -, hcfg⟩ := h.running hu
  have hout := h.outPos_toNat (Nat.le_of_lt hpos)
  have hcap := hu.cap
  obtain ⟨t, hexec, ht, hnew, hold⟩ := litAppendsItsByte (byteAt s.inBuf pos) w
    (by rw [hout, h.size]; exact hpos) (by rw [hout, hcfg]; omega)
  rw [hout] at hnew hold
  refine ⟨t, hexec, h.extend ht fun a ha => ?_⟩
  rcases Nat.lt_succ_iff_lt_or_eq.1 ha with hlt | rfl
  · rw [hold a (.inl hlt), h.made a hlt]
  · exact hnew 0 Nat.one_pos

/-- A match whose bytes agree with those before them: each byte copied is the plaintext's, by
induction on its address. -/
theorem Decoding.exec_copy {off : Nat} (h : Decoding u s pos is w) (hu : CanDecode u s)
    (hi : Carries i off n) (hback : off + 1 ≤ pos) (hend : pos + n ≤ s.inLen.toNat)
    (hagree : Agrees s.inBuf pos (pos - (off + 1)) n) :
    ∃ t, exec i w = .next t ∧ Decoding u s (pos + n) is t := by
  obtain ⟨-, -, -, hcfg⟩ := h.running hu
  obtain ⟨hwf, hfields⟩ := hi
  have hout := h.outPos_toNat (by omega)
  have hready : CopyReady w off n := by
    refine ⟨by omega, by rw [hout, h.size]; exact hend, by rw [h.size, hcfg]; exact hu.cap, ?_⟩
    intro k hk
    rw [hout] at hk
    rw [Nat.zero_add, h.made k hk]
    rfl
  obtain ⟨t, hexec, ht, hcopied, hold⟩ := matchTokensCopyBack i off n w hfields hwf hready
  rw [hout] at hcopied hold
  refine ⟨t, hexec, h.extend ht fun a => ?_⟩
  induction a using Nat.strong_induction_on with
  | _ a ih =>
  intro ha
  rcases Nat.lt_or_ge a pos with hlt | hge
  · rw [hold a (.inl hlt), h.made a hlt]
  · obtain ⟨k, rfl⟩ := Nat.exists_eq_add_of_le hge
    have hsource : pos - (off + 1) + k = pos + k - (off + 1) := by omega
    rw [hcopied k (by omega), ih _ (by omega) (by omega), hagree k (by omega), hsource]

/-- One token of a greedy sequence, decoded. -/
theorem Decoding.step_greedy (h : Decoding u s pos (tokenItems i ++ is) w) (hu : CanDecode u s)
    (hcodes : Expressible s) (hpos : pos < s.inLen.toNat) (hstep : GreedyStep s pos i n) :
    ∃ t, step w = .next t ∧ Decoding u s (pos + n) is t := by
  obtain ⟨-, hend⟩ := hstep.bounds hpos
  obtain ⟨hwf, -⟩ := hstep.wellFormed hcodes
  obtain ⟨v, hfetch, hv⟩ := h.fetch hu hstep.isToken hwf hpos
  rw [hfetch]
  rcases hstep.cases_of_expressible hcodes with ⟨rfl, rfl⟩ | ⟨off, hi, hback, hagree⟩
  · exact hv.exec_lit hu hpos
  · exact hv.exec_copy hu hi hback hend hagree

/-- The last step: all of the plaintext is made, and all of the input is read. -/
theorem Decoding.finish (h : Decoding u s s.inLen.toNat [] w) (hu : CanDecode u s) :
    ∃ v, step w = .next v ∧ v.inPos = u.inLen ∧
      CompleteResult u v (bytesAt s.inBuf 0 s.inLen.toNat) := by
  obtain ⟨hhost, hphase, hconflict, -⟩ := h.running hu
  have hout := h.outPos_toNat (Nat.le_refl _)
  have hend : w.inPos = w.inLen := by
    obtain ⟨t, hreads, hnil⟩ := h.stream
    rw [← reads_nil.1 hreads] at hnil
    have hlen := congrArg List.length hnil
    rw [State.tokenSource, bytesAt_length, List.length_nil] at hlen
    have hinside := h.inside
    exact BitVec.eq_of_toNat_eq (by omega)
  have hmade : AppendResult { w with outPos := 0 } w (bytesAt s.inBuf 0 s.inLen.toNat) := by
    refine ⟨?_, fun k hk => ?_, fun a _ => rfl⟩
    · have hpos : w.outPos = 0 + BitVec.ofNat 32 (bytesAt s.inBuf 0 s.inLen.toNat).length := by
        rw [h.outPos, bytesAt_length]
        exact (BitVec.zero_add _).symm
      rw [← hpos]
    · rw [bytesAt_length] at hk
      show Memory.read w.outBuf (0 + k) = _
      rw [Nat.zero_add, h.made k hk]
      simp [bytesAt]
  refine ⟨complete w, (step_of_decode hhost hphase).trans
    (decodeStep_finished (by rw [hout, h.size])), ?_,
    complete_result h.kept hu.conflict hmade rfl (by rw [bytesAt_length]; exact s.inLen.isLt)⟩
  rw [complete_of_no_conflict hconflict, State.publish_inPos, hend]
  obtain ⟨⟨-, hlen, -⟩, -⟩ := h.kept
  exact hlen

/-- The whole decode, by induction on the tokens. -/
theorem Decoding.runs (h : Decoding u s pos (ts.flatMap tokenItems) w) (hu : CanDecode u s)
    (hcodes : Expressible s) (hts : GreedyTokens s pos ts) :
    ∃ (k : Nat) (v : State), Sys2Proof.core.run k w = .next v ∧ v.inPos = u.inLen ∧
      CompleteResult u v (bytesAt s.inBuf 0 s.inLen.toNat) := by
  induction ts generalizing pos w with
  | nil =>
    obtain rfl : pos = s.inLen.toNat := hts
    obtain ⟨v, hstep, hv⟩ := h.finish hu
    exact ⟨1, v, (run_succ hstep 0).trans rfl, hv⟩
  | cons i ts ih =>
    obtain ⟨hpos, n, hgreedy, hrest⟩ := greedyTokens_cons.1 hts
    obtain ⟨t, hstep, ht⟩ := Decoding.step_greedy h hu hcodes hpos hgreedy
    obtain ⟨k, v, hrun, hv⟩ := ih ht hrest
    exact ⟨k + 1, v, (run_succ hstep k).trans hrun, hv⟩

/-! ### The start of the decode -/

/-- JPK_DECODE of type 3 leaves the decode running at the body. -/
theorem jpkDecode_lz_starts {off size : Word} (h : JpkReady u 3 off size) :
    exec .jpkDecode u = .next { u with
      size := size, inPos := off, hf := { u.hf with on := false }, phase := .lzDecode } := by
  have hrun : jpkDecodeCommand u = .ok true { u with
      size := size, inPos := off, hf := { u.hf with on := false } } := by
    rw [jpkDecodeCommand_ready h (by decide) (fun he => absurd he (by decide))]
    rfl
  show execJpkDecode u = _
  simp only [execJpkDecode, hrun]
  rfl

/-- The reader gets the items of a greedy sequence back from their packed bytes. -/
theorem GreedyTokens.readsAll (h : GreedyTokens s pos ts) :
    ReadsAll (ts.flatMap tokenItems) (.ofBytes (packTokens ts)) := by
  rcases h.pack_cases with ⟨hitems, hpack⟩ | ⟨b, is, hitems, hpack⟩
  · rw [hitems, hpack]
    exact ⟨_, reads_nil.2 rfl, rfl⟩
  · rw [hitems, hpack]
    exact packItems_flag_readsAll b is

theorem step_of_jpkDecode (hhost : u.host = []) (hphase : u.phase = .dispatch 1) :
    step u = exec .jpkDecode u := by
  have hengine : step u = engineStep u := by simp only [step, hhost]
  rw [hengine, engineStep, hphase]
  rfl

/-- A decode of a type-3 file that begins with its header runs to the plaintext. -/
theorem GreedyTokens.jpkDecode_runs {unk : Half} (hts : GreedyTokens s 0 ts)
    (hcodes : Expressible s) (hs : Started u) (hphase : u.phase = .dispatch 1) (hhost : u.host = [])
    (hbc : u.bc = ⟨0, 0⟩) (hfile : Holds u.inBuf (jpkFileHeader unk 3 s.inLen ++ packTokens ts))
    (hlen : u.inLen.toNat = 16 + (packTokens ts).length) (hin : u.inLen.toNat ≤ u.cfg.inCap)
    (hcap : s.inLen.toNat ≤ u.cfg.outCap) :
    ∃ (k : Nat) (v : State), Sys2Proof.core.run k u = .next v ∧ v.inPos = u.inLen ∧
      CompleteResult u v (bytesAt s.inBuf 0 s.inLen.toNat) := by
  obtain ⟨-, hout, hc, -⟩ := hs
  have hbytes := hfile.hasBytes
  rw [List.length_append, jpkFileHeader_length] at hbytes
  have hbody : u.inLen.toNat - 16 = (packTokens ts).length := by omega
  have hstart : Decoding { u with phase := .lzDecode } s 0 (ts.flatMap tokenItems) { u with
      size := s.inLen, inPos := 16, hf := { u.hf with on := false }, phase := .lzDecode } := {
    kept := kept_closed.work { u with phase := .lzDecode } 16 s.inLen u.bc _ u.ht u.enc u.lcg u.ecd
      u.exf.i u.exf.count
    off := rfl
    size := rfl
    outPos := hout
    made := nofun
    inside := by show 16 ≤ u.inLen.toNat; omega
    unread := by
      show HasBytes u.inBuf 16 (u.inLen.toNat - 16)
      exact hbytes.sub (Nat.zero_le _) (by omega)
    stream := by
      show ReadsAll _ ⟨u.bc, bytesAt u.inBuf 16 (u.inLen.toNat - 16)⟩
      rw [hbc, hbody, ← jpkFileHeader_length unk 3 s.inLen, hfile.bytesAt_behind]
      exact hts.readsAll }
  obtain ⟨k, v, hrun, hv⟩ := hstart.runs ⟨rfl, hhost, hc, hcap⟩ hcodes hts
  have hstep := (step_of_jpkDecode hhost hphase).trans
    (jpkDecode_lz_starts (jpkReady_of_holds hfile hlen hin hcap))
  exact ⟨k + 1, v, (run_succ hstep k).trans hrun, hv⟩

/-- A decode of a type-0 file that begins with its header copies its body. -/
theorem jpkDecode_raw_runs {unk : Half} {body : List Byte} {size : Word} (hs : Started u)
    (hphase : u.phase = .dispatch 1) (hhost : u.host = [])
    (hfile : Holds u.inBuf (jpkFileHeader unk 0 size ++ body)) (hsize : body.length = size.toNat)
    (hlen : u.inLen.toNat = 16 + body.length) (hin : u.inLen.toNat ≤ u.cfg.inCap)
    (hcap : size.toNat ≤ u.cfg.outCap) :
    ∃ (k : Nat) (v : State), Sys2Proof.core.run k u = .next v ∧ v.inPos = u.inLen ∧
      CompleteResult u v body := by
  have hbytes := hfile.hasBytes
  rw [List.length_append, jpkFileHeader_length] at hbytes
  have hbehind : bytesAt u.inBuf 16 size.toNat = body := by
    rw [← hsize]
    exact hfile.bytesAt_behind
  obtain ⟨v, hexec, hpos, hv⟩ := jpkDecode_raw_completes hs (jpkReady_of_holds hfile hlen hin hcap)
    (by show 16 + size.toNat ≤ _; omega) (hbytes.sub (Nat.zero_le _) (by show 16 + _ ≤ _; omega))
  rw [show (16 : Word).toNat = 16 from rfl, hbehind] at hv
  have hall : (16 : Word) + size = u.inLen := by
    bv_omega
  exact ⟨1, v, (run_succ ((step_of_jpkDecode hhost hphase).trans hexec) 0).trans rfl,
    hpos.trans hall, hv⟩

end

/-! ### The obligation -/

theorem CompleteResult.file {s t : State} {file : List Byte} (h : CompleteResult s t file)
    (hfit : file.length < 2 ^ 32) : t.outLen.toNat = file.length ∧ Holds t.outBuf file := by
  obtain ⟨hlen, hholds, -⟩ := h
  exact ⟨by rw [hlen]; exact Nat.mod_eq_of_lt hfit, hholds⟩

/-- Settles O31: what a done JPK_ENCODE wrote is the file, and a decode of it runs its body. -/
theorem jpkDecodeInvertsEncode : Obligations.JpkDecodeInvertsEncode := by
  intro s t u file hfile hfit hwindow hmax hs h hdone hu hphase hhost hbc hcfg hinLen hinBuf
    hin hcap
  rcases hfile with ⟨hty, rfl⟩ | ⟨hty, ts, hts, rfl⟩
  all_goals
    have hlen := hfit
    rw [List.length_append, jpkFileHeader_length] at hlen
  · rw [bytesAt_length] at hlen
    obtain ⟨houtLen, hholds⟩ := (jpkEncode_raw_done hs hty hlen h hdone).file hfit
    rw [← hinLen, List.length_append, jpkFileHeader_length] at houtLen
    rw [← hinBuf] at hholds
    exact jpkDecode_raw_runs hu hphase hhost hholds (bytesAt_length ..) houtLen hin hcap
  · obtain ⟨houtLen, hholds⟩ := (hts.jpkEncode_done hs hty h hdone hlen).file hfit
    rw [← hinLen, List.length_append, jpkFileHeader_length] at houtLen
    rw [← hinBuf] at hholds
    obtain ⟨-, hlevel, -⟩ := jpkEncode_lz_done hs hty h hdone
    exact hts.jpkDecode_runs ⟨hwindow, hlevel.trans hmax⟩ hu hphase hhost hbc hholds houtLen hin
      hcap

end Sys2Proof.Machine
end

section
/-! The Huffman walk: what one pass does, clause by clause, and that the data bits that are left
bound the number of passes. -/

namespace Sys2Proof.Machine

/-! ### The data bits that are left -/

/-- An empty cursor that is refilled has seven bits left of eight. -/
theorem huffBitsLeft_refill {s : State} (b : Byte) (hempty : s.hf.cursor.rem = 0)
    (hleft : s.inPos.toNat < s.inLen.toNat) :
    (State.withHfCursor (BitCursor.refilled b) s.advanceIn).huffBitsLeft + 1 = s.huffBitsLeft := by
  have hnext := inPos_succ hleft
  have hrefilled : (BitCursor.refilled b).rem.val = 7 := rfl
  simp only [State.huffBitsLeft, State.withHfCursor_hf, State.withHfCursor_inLen,
    State.withHfCursor_inPos, State.advanceIn_inLen, State.advanceIn_inPos, hnext, hrefilled,
    hempty, Fin.val_zero]
  omega

/-- A cursor that still holds bits has one less after it returned one. -/
theorem huffBitsLeft_advance {s : State} (hheld : s.hf.cursor.rem ≠ 0) :
    (State.withHfCursor s.hf.cursor.advance s).huffBitsLeft + 1 = s.huffBitsLeft := by
  have hpos : 0 < s.hf.cursor.rem.val := Fin.pos_iff_ne_zero.2 hheld
  have hadvance : s.hf.cursor.advance.rem.val = s.hf.cursor.rem.val - 1 :=
    Fin.val_sub_one_of_ne_zero hheld
  simp only [State.huffBitsLeft, State.withHfCursor_hf, State.withHfCursor_inLen,
    State.withHfCursor_inPos, hadvance]
  omega

/-- A data bit that is read is one of those that were left. -/
theorem huffBitsLeft_of_huffBit {s t : State} {bit : Bool} (h : huffBit s = .ok bit t) :
    t.huffBitsLeft + 1 = s.huffBitsLeft := by
  by_cases hempty : s.hf.cursor.rem = 0
  · rcases inByte_cases s with ⟨b, hleft, -, hin⟩ | ⟨-, hin⟩ | ⟨-, -, hin⟩
    · cases h.symm.trans (readBitOf_refill hempty hin)
      exact huffBitsLeft_refill b hempty hleft
    · cases h.symm.trans (readBitOf_stop hempty hin)
    · cases h.symm.trans (readBitOf_stop hempty hin)
  · cases h.symm.trans (readBitOf_held hempty)
    exact huffBitsLeft_advance hempty

/-- With no data bit left the read of one is truncated (44_huffman.md R227). -/
theorem huffBit_end {s : State} (h : s.huffBitsLeft = 0) :
    huffBit s = .error (.raise .truncated s.inPos.toNat) s := by
  obtain ⟨hrem, hbytes⟩ := Nat.add_eq_zero_iff.1 h
  exact readBitOf_stop (Fin.ext hrem) (inByte_end (by omega))

/-! ### One pass of the walk (44_huffman.md R222 to R224) -/

section
variable {fuel k : Nat} {node : Int} {s t : State} {bit : Bool}

theorem huffWalk_leaf (hleaf : node < 0x100) :
    huffWalk fuel node s = .ok (BitVec.ofInt 8 node) s := by
  cases fuel <;> rw [huffWalk, if_pos hleaf] <;> rfl

theorem huffWalk_zero (hnode : 0x100 ≤ node) :
    huffWalk 0 node s = .error (.raise .truncated s.inPos.toNat) s := by
  rw [huffWalk, if_neg (Int.not_lt.2 hnode)]
  rfl

theorem huffWalk_stop {e : Stop} (hnode : 0x100 ≤ node) (hbit : huffBit s = .error e t) :
    huffWalk (fuel + 1) node s = .error e t := by
  rw [huffWalk, if_neg (Int.not_lt.2 hnode), Engine.bind_error hbit]

/-- Behind its data bit a pass checks the child index, then reads the entry. -/
theorem huffWalk_bit (hnode : 0x100 ≤ node) (hbit : huffBit s = .ok bit t) :
    huffWalk (fuel + 1) node s =
      (raiseIf (decide (t.hf.len.toNat ≤ childIndex node bit)) .huffmanIndexRange
          (childIndex node bit) >>=
        fun _ => huffEntry (childIndex node bit) >>= huffWalk fuel) t := by
  rw [huffWalk, if_neg (Int.not_lt.2 hnode), Engine.bind_ok hbit, Engine.get_bind]

theorem huffWalk_outside (hnode : 0x100 ≤ node) (hbit : huffBit s = .ok bit t)
    (hout : t.hf.len.toNat ≤ childIndex node bit) :
    huffWalk (fuel + 1) node s =
      .error (.raise .huffmanIndexRange (childIndex node bit)) t := by
  rw [huffWalk_bit hnode hbit, raiseIf_bind_true (decide_eq_true hout)]

theorem huffEntry_loaded {v : Half} (hv : s.ht[k]? = some v) : huffEntry k s = .ok v.toInt s := by
  simp only [huffEntry, hv]

theorem huffEntry_unwritten (hv : s.ht[k]? = none) :
    huffEntry k s = .error (.refuse (.unwrittenEntry k)) s := by
  simp only [huffEntry, hv]

theorem huffWalk_entry {v : Half} (hnode : 0x100 ≤ node) (hbit : huffBit s = .ok bit t)
    (hin : childIndex node bit < t.hf.len.toNat) (hv : t.ht[childIndex node bit]? = some v) :
    huffWalk (fuel + 1) node s = huffWalk fuel v.toInt t := by
  rw [huffWalk_bit hnode hbit, raiseIf_bind_false (decide_eq_false (Nat.not_le.2 hin)),
    Engine.bind_ok (huffEntry_loaded hv)]

theorem huffWalk_unwritten (hnode : 0x100 ≤ node) (hbit : huffBit s = .ok bit t)
    (hin : childIndex node bit < t.hf.len.toNat) (hv : t.ht[childIndex node bit]? = none) :
    huffWalk (fuel + 1) node s = .error (.refuse (.unwrittenEntry (childIndex node bit))) t := by
  rw [huffWalk_bit hnode hbit, raiseIf_bind_false (decide_eq_false (Nat.not_le.2 hin)),
    Engine.bind_error (huffEntry_unwritten hv)]

/-- The child index of an internal node, in the integers. -/
theorem childIndex_eq (hnode : 0x100 ≤ node) (hk : (k : Int) = node * 2 - 0x200 + bit.toNat) :
    childIndex node bit = k := by
  unfold childIndex
  omega

/-! ### The bound on the passes (44_huffman.md R227) -/

/-- Passes beyond the data bits that are left make no difference: each pass that goes on has taken
one of them, and without one the walk stops alike whether a pass is left or none. -/
theorem huffWalk_add (extra : Nat) (hleft : s.huffBitsLeft ≤ fuel) :
    huffWalk (fuel + extra) node s = huffWalk fuel node s := by
  induction fuel generalizing node s with
  | zero =>
    rcases lt_or_ge node 0x100 with hleaf | hnode
    · rw [huffWalk_leaf hleaf, huffWalk_leaf hleaf]
    · cases extra with
      | zero => rfl
      | succ extra =>
        rw [Nat.zero_add, huffWalk_zero hnode,
          huffWalk_stop hnode (huffBit_end (Nat.le_zero.1 hleft))]
  | succ fuel ih =>
    rw [Nat.add_right_comm]
    rcases lt_or_ge node 0x100 with hleaf | hnode
    · rw [huffWalk_leaf hleaf, huffWalk_leaf hleaf]
    cases hbit : huffBit s with
    | error e t => rw [huffWalk_stop hnode hbit, huffWalk_stop hnode hbit]
    | ok bit t =>
      have hfewer := huffBitsLeft_of_huffBit hbit
      rcases Nat.lt_or_ge (childIndex node bit) t.hf.len.toNat with hin | hout
      · cases hv : t.ht[childIndex node bit]? with
        | some v =>
          rw [huffWalk_entry hnode hbit hin hv, huffWalk_entry hnode hbit hin hv]
          exact ih (by omega)
        | none =>
          rw [huffWalk_unwritten hnode hbit hin hv, huffWalk_unwritten hnode hbit hin hv]
      · rw [huffWalk_outside hnode hbit hout, huffWalk_outside hnode hbit hout]

end

/-- Settles O22: the bits left are a number of passes that suffices. -/
theorem huffWalkNeedsOnlyTheBitsLeft : Obligations.HuffWalkNeedsOnlyTheBitsLeft :=
  fun _ _ extra => huffWalk_add extra (Nat.le_refl _)

/-! ### The bytes of the layer -/

theorem huffByte_eq_walk (s : State) :
    huffByte s = huffWalk s.huffBitsLeft (s.hf.len.toNat : Int) s := rfl

/-- Settles O21: the root is itself a leaf. -/
theorem leafRootDecodesConstant : Obligations.LeafRootDecodesConstant := by
  intro s hroot
  rw [huffByte_eq_walk, huffWalk_leaf (by omega), BitVec.ofInt_natCast, BitVec.ofNat_toNat]

theorem srcByte_of_on {s : State} (h : s.hf.on = true) : srcByte s = huffByte s := by
  unfold srcByte
  rw [Engine.get_bind, if_pos h]

/-- Settles O23: the clauses of one pass, with the child index as an integer. -/
theorem huffWalkTakesOneBitPerNode : Obligations.HuffWalkTakesOneBitPerNode := by
  refine ⟨fun s => ⟨srcByte_of_on, srcByte_of_off⟩, fun s extra => ?_,
    fun fuel node s t e hnode hbit => huffWalk_stop hnode hbit,
    fun fuel node s hleaf => huffWalk_leaf hleaf,
    fun fuel node s t bit hnode hbit idx hidx => ?_⟩
  · rw [huffByte_eq_walk, huffWalk_add extra (Nat.le_refl _)]
  · obtain rfl := childIndex_eq hnode hidx
    exact ⟨huffWalk_outside hnode hbit, fun v hin hv => huffWalk_entry hnode hbit hin hv,
      huffWalk_unwritten hnode hbit⟩

end Sys2Proof.Machine
end

section
/-! The Huffman table that JPK_DECODE loads: the state it leaves where the table is whole, and the
fault where the input ends inside it. -/

namespace Sys2Proof.Machine

/-! ### A table that is whole -/

section
variable {β : Type} {s : State} {n : Nat}

/-- Two bytes taken below IN_LEN move `in_pos` without wrapping. -/
theorem inPos_advance_twice (h : s.inPos.toNat + 2 ≤ s.inLen.toNat) :
    s.advanceIn.advanceIn.inPos.toNat = s.inPos.toNat + 2 := by
  have hfirst : s.advanceIn.inPos.toNat = s.inPos.toNat + 1 := inPos_succ (by omega)
  have hsecond : s.advanceIn.advanceIn.inPos.toNat = s.advanceIn.inPos.toNat + 1 :=
    inPos_succ (by rw [hfirst, State.advanceIn_inLen]; omega)
  rw [hsecond, hfirst]

theorem twoBytes_ok {f : Byte → Byte → Engine β} (h : s.inPos.toNat + 2 ≤ s.inLen.toNat)
    (hb : HasBytes s.inBuf s.inPos.toNat 2) :
    (inByte >>= fun lo => inByte >>= fun hi => f lo hi) s =
      f (byteAt s.inBuf s.inPos.toNat) (byteAt s.inBuf (s.inPos.toNat + 1))
        s.advanceIn.advanceIn := by
  have hpos : s.advanceIn.inPos.toNat = s.inPos.toNat + 1 := inPos_succ (by omega)
  have hhi := inByte_has (n := 0) (s := s.advanceIn) (by rw [hpos, State.advanceIn_inLen]; omega)
    (by rw [hpos]; exact hb.tail)
  rw [hpos] at hhi
  rw [Engine.bind_ok (inByte_has (n := 1) h hb), Engine.bind_ok hhi, State.advanceIn_inBuf]

/-- `HuffLoad()` (44_huffman.md R220) of a table that the input holds. -/
theorem huffLoad_ok (hn : n = (le16At s.inBuf s.inPos.toNat).toNat)
    (h : s.inPos.toNat + (2 + 2 * n) ≤ s.inLen.toNat)
    (hb : HasBytes s.inBuf s.inPos.toNat (2 + 2 * n)) :
    huffLoad s = .ok () { s with
      inPos := s.inPos + BitVec.ofNat 32 (2 + 2 * n)
      hf := { s.hf with len := le16At s.inBuf s.inPos.toNat }
      ht := (List.range n).map fun k => le16At s.inBuf (s.inPos.toNat + 2 + 2 * k) } := by
  have hpos := inPos_advance_twice (s := s) (by omega)
  have hload := loadEntries_ok (n := n) (s := { s.advanceIn.advanceIn with
      hf := { s.hf with len := le16At s.inBuf s.inPos.toNat }, ht := [] })
    (by show s.advanceIn.advanceIn.inPos.toNat + _ ≤ s.inLen.toNat; rw [hpos]; omega)
    (by
      show HasBytes s.inBuf s.advanceIn.advanceIn.inPos.toNat _
      rw [hpos]
      exact hb.sub (by omega) (by omega))
  have hend : s.advanceIn.advanceIn.inPos + BitVec.ofNat 32 (2 * n) =
      s.inPos + BitVec.ofNat 32 (2 + 2 * n) := by
    rw [State.advanceIn_inPos, State.advanceIn_inPos, add_one_add_ofNat, add_one_add_ofNat]
    congr 2
    omega
  rw [huffLoad, twoBytes_ok (by omega) (hb.sub (by omega) (by omega)), Engine.modify_bind]
  subst hn
  refine hload.trans ?_
  simp only [hend, hpos, List.nil_append]
  rfl

end

/-! ### A table that the input ends in -/

/-- The operation is truncated at the end of the input, before it has appended anything. -/
def CutShort {α : Type} (m : Engine α) (s : State) : Prop :=
  ∃ t, m s = .error (.raise .truncated s.inLen.toNat) t ∧ t.inPos = s.inLen ∧
    t.outPos = s.outPos

/-- The input from `in_pos` on holds values up to its end. -/
def RestHolds (s : State) : Prop :=
  s.inPos.toNat ≤ s.inLen.toNat ∧
    HasBytes s.inBuf s.inPos.toNat (s.inLen.toNat - s.inPos.toNat)

section
variable {α β : Type} {s t : State}

theorem CutShort.bind {m : Engine α} (h : CutShort m s) (f : α → Engine β) :
    CutShort (m >>= f) s := by
  obtain ⟨t, e, hend⟩ := h
  exact ⟨t, Engine.bind_error e, hend⟩

theorem CutShort.after {m : Engine α} {f : α → Engine β} {x : α} (e : m s = .ok x t)
    (hin : t.inLen = s.inLen) (hout : t.outPos = s.outPos) (h : CutShort (f x) t) :
    CutShort (m >>= f) s := by
  obtain ⟨u, e', hend⟩ := h
  rw [hin, hout] at hend
  exact ⟨u, by rw [Engine.bind_ok e, e', hin], hend⟩

/-- A byte on the way to the end of the input: the end is here, or behind the byte. -/
theorem CutShort.byte {f : Byte → Engine β} (h : RestHolds s)
    (hgo : s.inPos.toNat < s.inLen.toNat → RestHolds s.advanceIn →
      CutShort (f (byteAt s.inBuf s.inPos.toNat)) s.advanceIn) : CutShort (inByte >>= f) s := by
  obtain ⟨hin, hb⟩ := h
  rcases Nat.lt_or_eq_of_le hin with hlt | heq
  · have hpos : s.advanceIn.inPos.toNat = s.inPos.toNat + 1 := inPos_succ hlt
    have hread : inByte s = .ok (byteAt s.inBuf s.inPos.toNat) s.advanceIn :=
      inByte_has (n := 0) hlt (hb.sub (Nat.le_refl _) (by omega))
    refine .after hread rfl rfl (hgo hlt ⟨?_, ?_⟩)
    · rw [hpos, State.advanceIn_inLen]
      exact hlt
    · rw [hpos, State.advanceIn_inLen, State.advanceIn_inBuf]
      exact hb.sub (by omega) (by omega)
  · have hend : s.inPos = s.inLen := BitVec.eq_of_toNat_eq heq
    have hstop := inByte_end (s := s) heq.ge
    rw [heq] at hstop
    exact .bind ⟨s, hstop, hend, rfl⟩ f

/-- Two bytes on the way to the end of the input. -/
theorem CutShort.twoBytes {f : Byte → Byte → Engine β} (h : RestHolds s)
    (hgo : s.advanceIn.advanceIn.inPos.toNat = s.inPos.toNat + 2 →
      RestHolds s.advanceIn.advanceIn →
      CutShort (f (byteAt s.inBuf s.inPos.toNat) (byteAt s.inBuf (s.inPos.toNat + 1)))
        s.advanceIn.advanceIn) :
    CutShort (inByte >>= fun lo => inByte >>= fun hi => f lo hi) s := by
  refine .byte h fun hlo hrest => .byte hrest fun hhi hrest' => ?_
  have hpos : s.advanceIn.inPos.toNat = s.inPos.toNat + 1 := inPos_succ hlo
  rw [hpos, State.advanceIn_inLen] at hhi
  rw [hpos, State.advanceIn_inBuf]
  exact hgo (inPos_advance_twice hhi) hrest'

theorem loadEntries_cutShort {n : Nat} (h : RestHolds s)
    (hn : s.inLen.toNat < s.inPos.toNat + 2 * n) : CutShort (loadEntries n) s := by
  induction n generalizing s with
  | zero =>
    obtain ⟨hin, -⟩ := h
    omega
  | succ n ih =>
    refine .twoBytes h fun hpos hrest => .after (Engine.modify_apply _ _) rfl rfl ?_
    refine ih (s := State.pushEntry _ _) hrest ?_
    show s.inLen.toNat < s.advanceIn.advanceIn.inPos.toNat + _
    omega

theorem huffLoad_cutShort (h : RestHolds s)
    (hn : s.inLen.toNat < s.inPos.toNat + 2 + 2 * (le16At s.inBuf s.inPos.toNat).toNat) :
    CutShort huffLoad s := by
  refine .twoBytes h fun hpos hrest => .after (Engine.modify_apply _ _) rfl rfl ?_
  refine loadEntries_cutShort (s := { State.advanceIn _ with hf := _, ht := _ }) hrest ?_
  show s.inLen.toNat < s.advanceIn.advanceIn.inPos.toNat + _
  rw [hpos]
  exact hn

end

/-! ### JPK_DECODE -/

section
variable {s t : State} {ty : Half} {off size : Word}

theorem execJpkDecode_raise {f : FaultKind} {info : Nat}
    (h : jpkDecodeCommand s = .error (.raise f info) t) :
    exec .jpkDecode s = .next (endWithFault f info t) := by
  show execJpkDecode s = _
  simp only [execJpkDecode, h]

/-- Both Huffman types load their table, then set up the layer (47_commands.md R285). -/
theorem jpkDecodeCommand_huff (h : JpkReady s ty off size)
    (hty : ty = 4 ∨ (ty = 2 ∧ s.cfg.type2Mode = .asType4)) :
    jpkDecodeCommand s = (huffLoad >>= fun _ => huffSetup >>= fun _ => pure true)
      (State.withInPos off { s with size := size }) := by
  rcases hty with rfl | ⟨rfl, hmode⟩
  · rw [jpkDecodeCommand_ready h (by decide) (fun he => absurd he (by decide))]
    rfl
  · rw [jpkDecodeCommand_ready h (by decide) (fun _ => hmode)]
    rfl

theorem jpkDecode_huff_starts {len : Half} (h : JpkReady s ty off size)
    (hty : ty = 4 ∨ (ty = 2 ∧ s.cfg.type2Mode = .asType4))
    (hlen : len = le16At s.inBuf off.toNat)
    (hend : off.toNat + 2 + 2 * len.toNat ≤ s.inLen.toNat)
    (hb : HasBytes s.inBuf off.toNat (2 + 2 * len.toNat)) :
    exec .jpkDecode s = .next { s with
      size := size
      inPos := BitVec.ofNat 32 (off.toNat + 2 + 2 * len.toNat)
      hf := ⟨true, len, ⟨0, 0⟩⟩
      ht := (List.range len.toNat).map fun k => le16At s.inBuf (off.toNat + 2 + 2 * k)
      phase := .lzDecode } := by
  subst hlen
  have hload := huffLoad_ok (s := State.withInPos off { s with size := size })
    (n := (le16At s.inBuf off.toNat).toNat) rfl (by show off.toNat + _ ≤ s.inLen.toNat; omega) hb
  have hpos : off + BitVec.ofNat 32 (2 + 2 * (le16At s.inBuf off.toNat).toNat) =
      BitVec.ofNat 32 (off.toNat + 2 + 2 * (le16At s.inBuf off.toNat).toNat) := by
    rw [Nat.add_assoc, BitVec.ofNat_add off.toNat, BitVec.ofNat_toNat, BitVec.setWidth_eq]
  have hrun := (jpkDecodeCommand_huff h hty).trans (Engine.bind_ok hload)
  rw [← hpos]
  show execJpkDecode s = _
  simp only [execJpkDecode, hrun]
  rfl

theorem jpkDecode_huff_truncated (hs : Started s) (h : JpkReady s ty off size)
    (hty : ty = 4 ∨ (ty = 2 ∧ s.cfg.type2Mode = .asType4))
    (hend : s.inLen.toNat < off.toNat + 2 + 2 * (le16At s.inBuf off.toNat).toNat)
    (hb : HasBytes s.inBuf off.toNat (s.inLen.toNat - off.toNat)) :
    ∃ t, exec .jpkDecode s = .next t ∧ FaultResult s t 0x02 s.inLen.toNat s.inLen 0 := by
  have hin : off.toNat ≤ s.inLen.toNat := by
    obtain ⟨-, -, -, -, -, -, -, -, hin, -⟩ := h
    exact hin
  obtain ⟨-, hzero, hc, -, v, hphase⟩ := hs
  obtain ⟨t, hload, hpos, hout⟩ :=
    (huffLoad_cutShort (s := State.withInPos off { s with size := size }) ⟨hin, hb⟩ hend).bind
      fun _ => huffSetup >>= fun _ => pure true
  have hrun := (jpkDecodeCommand_huff h hty).trans hload
  have hkept : Kept s t := kept_closed.jpkDecode.error hrun
  have hidle : t.phase ≠ .lzDecode := by
    obtain ⟨-, hsame, -⟩ := hkept
    rw [hsame, hphase]
    nofun
  have hfault := endWithFault_result (k := .truncated) hkept hc s.inLen.isLt
  rw [if_neg hidle, hpos, hout] at hfault
  refine ⟨_, execJpkDecode_raise hrun, ?_⟩
  rw [← hzero]
  exact hfault

end

/-- Settles O24: the entries are loaded behind their count, or the input ends on the way. -/
theorem jpkDecodeLoadsHuffmanTable : Obligations.JpkDecodeLoadsHuffmanTable :=
  fun _ _ _ _ hs h hty =>
    ⟨jpkDecode_huff_starts h hty rfl, jpkDecode_huff_truncated hs h hty⟩

end Sys2Proof.Machine
end

section
/-! The ECD network nibble by nibble (45_ecd.md R242, R245): its low nibbles follow a linear
recurrence over the keystream word, so that decryption takes off what encryption folded in. -/

namespace Sys2Proof.Machine

/-! ### Nibbles -/

/-- The low nibble of a word or an accumulator, the only part of it that reaches the output. -/
def lowNibble {n : Nat} (b : BitVec n) : BitVec 4 := b.extractLsb' 0 4

/-- The high nibble of a byte. -/
def highNibble (b : Byte) : BitVec 4 := b.extractLsb' 4 4

@[simp] theorem lowNibble_xor {n : Nat} (a b : BitVec n) :
    lowNibble (a ^^^ b) = lowNibble a ^^^ lowNibble b := BitVec.extractLsb'_xor

@[simp] theorem highNibble_xor (a b : Byte) :
    highNibble (a ^^^ b) = highNibble a ^^^ highNibble b := BitVec.extractLsb'_xor

@[simp] theorem lowNibble_zero {n : Nat} : lowNibble (0 : BitVec n) = 0 := BitVec.extractLsb'_zero

@[simp] theorem lowNibble_setWidth {n m : Nat} (b : BitVec n) (hm : 4 ≤ m) :
    lowNibble (b.setWidth m) = lowNibble b := by
  refine BitVec.eq_of_getLsbD_eq fun i hi => ?_
  simp [lowNibble, hi, show i < m by omega]

theorem lowNibble_ushiftRight {n : Nat} (b : BitVec n) (k : Nat) :
    lowNibble (b >>> k) = b.extractLsb' k 4 := by
  refine BitVec.eq_of_getLsbD_eq fun i hi => ?_
  simp [lowNibble, hi]

/-- A byte is its two nibbles. -/
theorem byte_ext {a b : Byte} (hlow : lowNibble a = lowNibble b)
    (hhigh : highNibble a = highNibble b) : a = b := by
  have hjoin (c : Byte) : highNibble c ++ lowNibble c = c :=
    BitVec.extractLsb'_append_extractLsb' (w := 4) (len := 4)
  rw [← hjoin a, ← hjoin b, hlow, hhigh]

@[simp] theorem lowNibble_ecdJoin (a b : Byte) : lowNibble (ecdJoin a b) = lowNibble b := by
  refine BitVec.eq_of_getLsbD_eq fun i hi => ?_
  interval_cases i <;> simp [lowNibble, ecdJoin]

@[simp] theorem highNibble_ecdJoin (a b : Byte) : highNibble (ecdJoin a b) = lowNibble a := by
  refine BitVec.eq_of_getLsbD_eq fun i hi => ?_
  interval_cases i <;> simp [lowNibble, highNibble, ecdJoin]

@[simp] theorem lowNibble_ecdFold (d a b : Byte) :
    lowNibble (ecdFold d a b) = lowNibble d ^^^ lowNibble b := by
  refine BitVec.eq_of_getLsbD_eq fun i hi => ?_
  interval_cases i <;> simp [lowNibble, ecdFold]

@[simp] theorem highNibble_ecdFold (d a b : Byte) :
    highNibble (ecdFold d a b) =
      highNibble d ^^^ lowNibble a ^^^ (lowNibble d ^^^ lowNibble b) := by
  refine BitVec.eq_of_getLsbD_eq fun i hi => ?_
  interval_cases i <;> simp [lowNibble, highNibble, ecdFold]

/-! ### The recurrence -/

/-- Round `j` of the recurrence (45_ecd.md R245): `(a, b) <- (b, a ^ b ^ k_j)`. -/
def nibbleRound (xp : Word) (p : BitVec 4 × BitVec 4) (j : Nat) : BitVec 4 × BitVec 4 :=
  (p.2, p.1 ^^^ p.2 ^^^ xp.extractLsb' (4 * j) 4)

/-- The first `k` rounds from the nibbles `p`. -/
def nibbleRounds (xp : Word) (k : Nat) (p : BitVec 4 × BitVec 4) : BitVec 4 × BitVec 4 :=
  (List.range k).foldl (nibbleRound xp) p

/-- What the keystream word alone leaves in the two accumulators. -/
def ecdKey (xp : Word) : BitVec 4 × BitVec 4 := nibbleRounds xp 8 (0, 0)

/-- A round without a key (45_ecd.md R245). -/
def freeRound (p : BitVec 4 × BitVec 4) : BitVec 4 × BitVec 4 := (p.2, p.1 ^^^ p.2)

/-- The low nibbles of both accumulators. -/
def accNibbles (r : EcdState) : BitVec 4 × BitVec 4 := (lowNibble r.r11, lowNibble r.r12)

section
variable (x : Byte) (xp : Word) (p : BitVec 4 × BitVec 4) (k : Nat) (r : EcdState)

theorem nibbleRounds_succ :
    nibbleRounds xp (k + 1) p = nibbleRound xp (nibbleRounds xp k p) k := by
  rw [nibbleRounds, List.range_succ, List.foldl_append]
  rfl

/-- One round of the network is one of the recurrence, keyed with the low nibble of the pad. -/
theorem accNibbles_ecdRound :
    accNibbles (ecdRound r) =
      (lowNibble r.r12, lowNibble r.r11 ^^^ lowNibble r.r12 ^^^ lowNibble r.xorpad) := by
  refine Prod.ext rfl ?_
  show lowNibble ((r.r12.setWidth 32 ^^^ (r.xorpad ^^^ r.r11.setWidth 32)).setWidth 8) = _
  simp only [lowNibble_setWidth, lowNibble_xor, Nat.reduceLeDiff]
  ac_rfl

/-- After `k` rounds the pad has lost `k` nibbles, and the accumulators are those of the
recurrence over the pad at the start. -/
theorem ecdRound_iterate :
    (ecdRound^[k] r).xorpad = r.xorpad >>> (4 * k) ∧
      accNibbles (ecdRound^[k] r) = nibbleRounds r.xorpad k (accNibbles r) := by
  induction k with
  | zero => exact ⟨(BitVec.ushiftRight_zero _).symm, rfl⟩
  | succ k ih =>
    obtain ⟨hpad, hnib⟩ := ih
    rw [Function.iterate_succ_apply', nibbleRounds_succ, ← hnib, accNibbles_ecdRound, hpad,
      lowNibble_ushiftRight]
    refine ⟨?_, rfl⟩
    show (ecdRound^[k] r).xorpad >>> 4 = _
    rw [hpad, ← BitVec.shiftRight_add]
    rfl

/-- The recurrence is linear: the start nibbles go round on their own, beside the key. -/
theorem nibbleRounds_eq :
    nibbleRounds xp k p =
      ((nibbleRounds xp k (0, 0)).1 ^^^ (freeRound^[k] p).1,
        (nibbleRounds xp k (0, 0)).2 ^^^ (freeRound^[k] p).2) := by
  induction k with
  | zero => simp [nibbleRounds]
  | succ k ih =>
    rw [nibbleRounds_succ, ih, nibbleRounds_succ, Function.iterate_succ_apply']
    refine Prod.ext rfl ?_
    simp only [nibbleRound, freeRound]
    ac_rfl

/-- Without a key 8 rounds act as 2: the period is 3. -/
theorem freeRound_eight : freeRound^[8] p = (p.1 ^^^ p.2, p.1) := by
  have hperiod (q : BitVec 4 × BitVec 4) : freeRound^[3] q = q := by
    refine Prod.ext ?_ ?_
    · show q.2 ^^^ (q.1 ^^^ q.2) = q.1
      rw [BitVec.xor_comm, xor_cancel_right]
    · show q.1 ^^^ q.2 ^^^ (q.2 ^^^ (q.1 ^^^ q.2)) = q.2
      rw [BitVec.xor_comm, xor_cancel_right]
  have htwo : freeRound^[2] p = (p.1 ^^^ p.2, p.1) := by
    refine Prod.ext rfl ?_
    show p.2 ^^^ (p.1 ^^^ p.2) = p.1
    rw [BitVec.xor_comm, xor_cancel_right]
  rw [Function.iterate_add_apply freeRound 3 5, hperiod, Function.iterate_add_apply freeRound 3 2,
    hperiod, htwo]

/-- The low nibbles that the network leaves (45_ecd.md R245), whatever its registers held. -/
theorem accNibbles_ecdDiffuse :
    accNibbles (ecdDiffuse x xp r) =
      ((ecdKey xp).1 ^^^ (lowNibble x ^^^ highNibble x), (ecdKey xp).2 ^^^ lowNibble x) := by
  obtain ⟨-, hnib⟩ := ecdRound_iterate 8 { r with r11 := x, r12 := x >>> 4, xorpad := xp }
  rw [ecdDiffuse, hnib, nibbleRounds_eq, freeRound_eight]
  simp only [accNibbles, lowNibble_ushiftRight]
  rfl

/-- The byte that the network over `x` joins. -/
def ecdOut (x : Byte) (xp : Word) (r : EcdState) : Byte :=
  ecdJoin (ecdDiffuse x xp r).r11 (ecdDiffuse x xp r).r12

theorem lowNibble_ecdOut :
    lowNibble (ecdOut x xp r) = lowNibble x ^^^ (ecdKey xp).2 := by
  have hnib := congrArg Prod.snd (accNibbles_ecdDiffuse x xp r)
  rw [ecdOut, lowNibble_ecdJoin, BitVec.xor_comm]
  exact hnib

theorem highNibble_ecdOut :
    highNibble (ecdOut x xp r) = lowNibble x ^^^ highNibble x ^^^ (ecdKey xp).1 := by
  have hnib := congrArg Prod.fst (accNibbles_ecdDiffuse x xp r)
  rw [ecdOut, highNibble_ecdJoin, BitVec.xor_comm]
  exact hnib

theorem accNibbles_ecdDiffuse_zero : accNibbles (ecdDiffuse 0 xp r) = ecdKey xp := by
  rw [accNibbles_ecdDiffuse]
  exact Prod.ext (xor_zero _) (xor_zero _)

/-- Decryption undoes the chain and runs the network (45_ecd.md R243). -/
theorem ecdDecryptStep_chain (c : Byte) :
    (ecdDecryptStep c xp r).chain = ecdOut (c ^^^ r.chain) xp r := rfl

/-- The network takes the folded keystream off again (45_ecd.md R246). -/
theorem ecdOut_ecdFold (d : Byte) (r' : EcdState) :
    ecdOut (ecdFold d (ecdDiffuse 0 xp r).r11 (ecdDiffuse 0 xp r).r12) xp r' = d := by
  have hkey := accNibbles_ecdDiffuse_zero xp r
  have ha : lowNibble (ecdDiffuse 0 xp r).r11 = (ecdKey xp).1 := congrArg Prod.fst hkey
  have hb : lowNibble (ecdDiffuse 0 xp r).r12 = (ecdKey xp).2 := congrArg Prod.snd hkey
  refine byte_ext ?_ ?_
  · rw [lowNibble_ecdOut, lowNibble_ecdFold, hb, xor_cancel_right]
  · rw [highNibble_ecdOut, lowNibble_ecdFold, highNibble_ecdFold, ha, hb]
    rw [BitVec.xor_comm (lowNibble d ^^^ (ecdKey xp).2), xor_cancel_right, xor_cancel_right]

end

/-! ### The obligations -/

/-- Settles O36: the recurrence is linear, and its nibbles from `x` and from the key are XORed. -/
theorem ecdNetworkClosedForm : Obligations.EcdNetworkClosedForm := by
  intro x xp r
  have hkey := accNibbles_ecdDiffuse_zero xp r
  refine ⟨congrArg Prod.fst hkey, congrArg Prod.snd hkey, lowNibble_ecdOut x xp r,
    highNibble_ecdOut x xp r, ?_⟩
  rw [ecdDecryptStep_chain, xor_cancel_right]
  rfl

/-- Settles O37: the chain byte cancels, and the network takes the keystream off. -/
theorem ecdByteDecryptInvertsEncrypt : Obligations.EcdByteDecryptInvertsEncrypt := by
  intro d xp r r' hchain
  refine ⟨?_, rfl⟩
  rw [ecdDecryptStep_chain, hchain, ecdCipherByte, xor_cancel_right, ecdOut_ecdFold]

end Sys2Proof.Machine
end

section
/-! The byte loops of ECD (45_ecd.md R244, R248). Both take a byte of input, step the keystream and
the registers and append a byte, so what a loop leaves is said once for the two of them. -/

namespace Sys2Proof.Machine

/-! ### Registers and keystream -/

/-- Of the registers the network finds only the chain byte stays (45_ecd.md R242). -/
theorem ecdDiffuse_congr {r r' : EcdState} (h : r.chain = r'.chain) (x : Byte) (xp : Word) :
    ecdDiffuse x xp r = ecdDiffuse x xp r' := by
  have hfirst : ecdRound { r with r11 := x, r12 := x >>> 4, xorpad := xp } =
      ecdRound { r' with r11 := x, r12 := x >>> 4, xorpad := xp } := by simp [ecdRound, h]
  exact congrArg ecdRound^[7] hfirst

/-- The halves swapped by shifts (45_ecd.md R240) are those put together the other way round. -/
theorem ecdSeed_eq (crc : Word) :
    ecdSeed crc = (crc.extractLsb' 0 16 ++ crc.extractLsb' 16 16) ||| 1 := by
  refine congrArg (· ||| 1) (BitVec.eq_of_getLsbD_eq fun i hi => ?_)
  simp only [BitVec.getLsbD_or, BitVec.getLsbD_shiftLeft, BitVec.getLsbD_ushiftRight,
    BitVec.getLsbD_append, BitVec.getLsbD_extractLsb']
  grind

theorem Selected.advanceIn {e : LcgEntry} {s : State} (h : Selected e s) :
    Selected e s.advanceIn := h.of_eq rfl rfl rfl

theorem SameInput.advanceIn (s : State) : SameInput s s.advanceIn := ⟨rfl, rfl, rfl, rfl⟩

/-- The state with the input cursor and the registers of a running cipher replaced. -/
def State.cipherAt (p : Word) (l : LcgState) (r : EcdState) (s : State) : State :=
  { s with inPos := p, lcg := l, ecd := r }

/-- The registers after the chain seed (45_ecd.md R241). -/
def ecdStart (e : LcgEntry) (crc p : Word) (s : State) : State :=
  s.cipherAt p { s.lcg with s := ecdFirstWord e crc }
    { s.ecd with chain := (ecdFirstWord e crc).setWidth 8 }

theorem ecdInit_bind {e : LcgEntry} {s : State} (h : Selected e s) (crc p : Word)
    (m : Engine Unit) :
    (ecdInit crc >>= fun _ => modify (State.withInPos p) >>= fun _ => m) s =
      m (ecdStart e crc p s) := by
  have hkey := (h.withKey (ecdSeed crc)).keyWord_ok
  have hinit : ecdInit crc s = .ok ⟨⟩ ((s.withKey (lcgStep e (ecdSeed crc))).withEcd
      { s.ecd with chain := (lcgStep e (ecdSeed crc)).setWidth 8 }) := Engine.bind_ok hkey
  rw [Engine.bind_ok hinit, ecdSeed_eq]
  rfl

/-- The state after one pass of a loop: a byte read, the keystream stepped to `w`, the registers to
`r`, and the byte `v` appended. -/
def State.cipherPass (w : Word) (r : EcdState) (v : Byte) (s : State) : State :=
  ((s.advanceIn.withKey w).withEcd r).pushOut v

theorem State.cipherPass_inPos (s : State) (w : Word) (r : EcdState) (v : Byte) :
    (s.cipherPass w r v).inPos = s.inPos + 1 := by
  rw [State.cipherPass, State.pushOut_inPos, State.withEcd_inPos]
  rfl

theorem State.cipherPass_cipherAt (s : State) (w p : Word) (l : LcgState) (r q : EcdState)
    (v : Byte) : (s.cipherPass w r v).cipherAt p l q = (s.cipherAt p l q).pushOut v := rfl

/-- Before its append a pass has left the input and the output position. -/
theorem SameInput.stepped (w : Word) (r : EcdState) (s : State) :
    SameInput s ((s.advanceIn.withKey w).withEcd r) :=
  (SameInput.advanceIn s).trans ((SameInput.withKey w _).trans (SameInput.withEcd r _))

theorem State.cipherPass_inLen (s : State) (w : Word) (r : EcdState) (v : Byte) :
    (s.cipherPass w r v).inLen = s.inLen := by
  rw [State.cipherPass, State.pushOut_inLen, (SameInput.stepped w r s).inLen]

theorem State.cipherPass_inBuf (s : State) (w : Word) (r : EcdState) (v : Byte) :
    (s.cipherPass w r v).inBuf = s.inBuf := by
  rw [State.cipherPass, State.pushOut_inBuf, (SameInput.stepped w r s).inBuf]

theorem Selected.cipherPass {e : LcgEntry} {s : State} (h : Selected e s) (w : Word) (r : EcdState)
    (v : Byte) : Selected e (s.cipherPass w r v) :=
  ((h.advanceIn.withKey w).withEcd r).of_eq rfl rfl rfl

theorem AppendResult.cipherAt {s t : State} {bs : List Byte} (h : AppendResult s t bs) (p : Word)
    (l : LcgState) (r : EcdState) : AppendResult (s.cipherAt p l r) (t.cipherAt p l r) bs := by
  obtain ⟨hstate, hnew, hold⟩ := h
  exact ⟨congrArg (State.cipherAt p l r) hstate, hnew, hold⟩

/-! ### A loop over bytes -/

/-- The loop of a cipher whose byte step gives `out` and leaves the registers `next`, and its
reference on plain lists. -/
structure CipherLoop (loop : Nat → Engine Unit)
    (list : LcgEntry → Word → EcdState → List Byte → List Byte)
    (out : Byte → Word → EcdState → Byte) (next : Byte → Word → EcdState → EcdState) :
    Prop where
  done : ∀ s, loop 0 s = .ok () s
  stop : ∀ {n : Nat} {s t : State} {x : Stop}, inByte s = .error x t →
    loop (n + 1) s = .error x t
  pass : ∀ {e : LcgEntry} {n : Nat} {s : State} {c : Byte}, Selected e s →
    inByte s = .ok c s.advanceIn →
    loop (n + 1) s = (append (out c (lcgStep e s.lcg.s) s.ecd) >>= fun _ => loop n)
      ((s.advanceIn.withKey (lcgStep e s.lcg.s)).withEcd (next c (lcgStep e s.lcg.s) s.ecd))
  nil : ∀ {e : LcgEntry} {w : Word} {r : EcdState}, list e w r [] = []
  cons : ∀ {e : LcgEntry} {w : Word} {r : EcdState} {c : Byte} {cs : List Byte},
    list e w r (c :: cs) =
      out c (lcgStep e w) r :: list e (lcgStep e w) (next c (lcgStep e w) r) cs
  chained : ∀ {r r' : EcdState} {c : Byte} {w : Word}, r.chain = r'.chain →
    out c w r = out c w r' ∧ next c w r = next c w r'

theorem cipherLoop_decrypt : CipherLoop ecdDecryptLoop ecdDecryptList
    (fun c w r => (ecdDecryptStep c w r).chain) ecdDecryptStep where
  done _ := rfl
  stop h := Engine.bind_error h
  pass {e n s c} hsel hin := by
    have hkey := hsel.advanceIn.keyWord_ok
    rw [ecdDecryptLoop, Engine.bind_ok hin]
    exact Engine.bind_ok (Engine.bind_ok hkey)
  nil := rfl
  cons := rfl
  chained {r r' c w} h := by
    have hstep : ecdDecryptStep c w r = ecdDecryptStep c w r' := by
      simp only [ecdDecryptStep, h, ecdDiffuse_congr h]
    exact ⟨congrArg EcdState.chain hstep, hstep⟩

theorem cipherLoop_encrypt : CipherLoop ecdEncryptLoop ecdEncryptList
    ecdCipherByte ecdEncryptStep where
  done _ := rfl
  stop h := Engine.bind_error h
  pass {e n s c} hsel hin := by
    have hkey := hsel.advanceIn.keyWord_ok
    rw [ecdEncryptLoop, Engine.bind_ok hin]
    exact Engine.bind_ok (Engine.bind_ok hkey)
  nil := rfl
  cons := rfl
  chained h := by
    refine ⟨?_, ?_⟩
    · rw [ecdCipherByte, ecdCipherByte, h, ecdDiffuse_congr h]
    · rw [ecdEncryptStep, ecdEncryptStep, ecdDiffuse_congr h]

section
variable {loop : Nat → Engine Unit} {list : LcgEntry → Word → EcdState → List Byte → List Byte}
  {out : Byte → Word → EcdState → Byte} {next : Byte → Word → EcdState → EcdState}
  {e : LcgEntry} {w : Word} {r r' : EcdState} {cs : List Byte} {s : State} {k n : Nat}

theorem CipherLoop.length (h : CipherLoop loop list out next) :
    (list e w r cs).length = cs.length := by
  induction cs generalizing w r with
  | nil => rw [h.nil]
  | cons c cs ih => rw [h.cons, List.length_cons, ih, List.length_cons]

/-- Of the registers it begins with only the chain byte tells. -/
theorem CipherLoop.congr (h : CipherLoop loop list out next) (hr : r.chain = r'.chain) :
    list e w r cs = list e w r' cs := by
  cases cs with
  | nil => rw [h.nil, h.nil]
  | cons c cs =>
    obtain ⟨hout, hnext⟩ := h.chained (c := c) (w := lcgStep e w) hr
    rw [h.cons, h.cons, hout, hnext]

/-- One pass, where IN holds a byte and OUT has the room. -/
theorem CipherLoop.pass_ok (h : CipherLoop loop list out next) (hsel : Selected e s)
    (hroom : Room (k + 1) s) (hin : s.inPos.toNat + (k + 1) ≤ s.inLen.toNat)
    (hb : HasBytes s.inBuf s.inPos.toNat (k + 1)) :
    let w := lcgStep e s.lcg.s
    let c := byteAt s.inBuf s.inPos.toNat
    let t := s.cipherPass w (next c w s.ecd) (out c w s.ecd)
    (∀ n, loop (n + 1) s = loop n t) ∧ Room k t := by
  intro w c t
  obtain ⟨happ, hroom'⟩ :=
    (hroom.of_same (.stepped w (next c w s.ecd) s)).append (out c w s.ecd)
  exact ⟨fun n => (h.pass hsel (inByte_has hin hb)).trans (Engine.bind_ok happ), hroom'⟩

/-- The first `k` passes of a loop, where IN holds the bytes and OUT has the room. -/
theorem CipherLoop.passes (h : CipherLoop loop list out next) (hsel : Selected e s)
    (hroom : Room k s) (hin : s.inPos.toNat + k ≤ s.inLen.toNat)
    (hb : HasBytes s.inBuf s.inPos.toNat k) :
    ∃ t, (∀ n, loop (n + k) s = loop n t) ∧
      AppendResult (s.cipherAt (s.inPos + BitVec.ofNat 32 k) t.lcg t.ecd) t
        (list e s.lcg.s s.ecd (bytesAt s.inBuf s.inPos.toNat k)) := by
  induction k generalizing s with
  | zero =>
    refine ⟨s, fun _ => rfl, ?_⟩
    rw [BitVec.add_zero, show bytesAt s.inBuf s.inPos.toNat 0 = [] from rfl, h.nil]
    exact .nil s
  | succ k ih =>
    obtain ⟨hpass, hroom'⟩ := h.pass_ok hsel hroom hin hb
    rw [bytesAt_succ, h.cons, ← add_one_add_ofNat]
    generalize lcgStep e s.lcg.s = w at hpass hroom' ⊢
    generalize byteAt s.inBuf s.inPos.toNat = c at hpass hroom' ⊢
    generalize out c w s.ecd = v at hpass hroom' ⊢
    generalize next c w s.ecd = r at hpass hroom' ⊢
    have hpos : (s.cipherPass w r v).inPos.toNat = s.inPos.toNat + 1 := by
      rw [State.cipherPass_inPos, inPos_succ (by omega)]
    obtain ⟨t, hrun, hout⟩ := ih (hsel.cipherPass w r v) hroom'
      (by rw [hpos, State.cipherPass_inLen]; omega)
      (by rw [hpos, State.cipherPass_inBuf]; exact hb.tail)
    rw [hpos, State.cipherPass_inBuf, State.cipherPass_cipherAt, State.cipherPass_inPos] at hout
    refine ⟨t, fun n => (hpass (n + k)).trans (hrun n), ?_⟩
    obtain ⟨-, hfit⟩ := hroom
    have hpush := AppendResult.push (b := v)
      (s := s.cipherAt (s.inPos + 1 + BitVec.ofNat 32 k) t.lcg t.ecd)
      (by show s.outPos.toNat + 1 < 2 ^ 32; omega)
    refine hpush.trans (cs := list e w r _) hout ?_
    show s.outPos.toNat + 1 + _ < 2 ^ 32
    rw [h.length, bytesAt_length]
    omega

/-- A loop that IN holds all bytes of. -/
theorem CipherLoop.completes (h : CipherLoop loop list out next) (hsel : Selected e s)
    (hroom : Room n s) (hin : s.inPos.toNat + n ≤ s.inLen.toNat)
    (hb : HasBytes s.inBuf s.inPos.toNat n) :
    ∃ t, loop n s = .ok () t ∧
      AppendResult (s.cipherAt (s.inPos + BitVec.ofNat 32 n) t.lcg t.ecd) t
        (list e s.lcg.s s.ecd (bytesAt s.inBuf s.inPos.toNat n)) := by
  obtain ⟨t, hrun, hout⟩ := h.passes hsel hroom hin hb
  refine ⟨t, ?_, hout⟩
  have hall := hrun 0
  rw [Nat.zero_add] at hall
  rw [hall, h.done]

/-- A loop that the input ends in. -/
theorem CipherLoop.truncated (h : CipherLoop loop list out next) (hsel : Selected e s)
    (hroom : Room k s) (hk : s.inPos.toNat + k = s.inLen.toNat) (hn : k < n)
    (hb : HasBytes s.inBuf s.inPos.toNat k) :
    ∃ t, loop n s = .error (.raise .truncated s.inLen.toNat) t ∧ t.inPos = s.inLen ∧
      t.outPos = s.outPos + BitVec.ofNat 32 k := by
  obtain ⟨t, hrun, hout⟩ := h.passes hsel hroom (by omega) hb
  have hpos : t.inPos = s.inLen := by
    rw [hout.inPos]
    refine BitVec.eq_of_toNat_eq ((toNat_add_ofNat ?_).trans hk)
    rw [hk]
    exact s.inLen.isLt
  have hlen : t.inLen = s.inLen := hout.inLen
  have hend : inByte t = .error (.raise .truncated s.inLen.toNat) t := by
    rw [inByte_end (by rw [hpos, hlen]), hpos]
  refine ⟨t, ?_, hpos, ?_⟩
  · rw [show n = n - k - 1 + 1 + k by omega, hrun, h.stop hend]
  · rw [hout.1, h.length, bytesAt_length]
    rfl

end

end Sys2Proof.Machine
end

section
/-! The two ECD commands (47_commands.md R290, R291): the state they start their loop in, and what
they leave. -/

namespace Sys2Proof.Machine

/-! ### A cipher between its chain seed and its end -/

/-- The registers that the reference forms begin with (45_ecd.md R241). -/
def ecdFresh (w : Word) : EcdState := ⟨w.setWidth 8, 0, 0, 0, 0⟩

section
variable {loop : Nat → Engine Unit} {list : LcgEntry → Word → EcdState → List Byte → List Byte}
  {out : Byte → Word → EcdState → Byte} {next : Byte → Word → EcdState → EcdState}
  {e : LcgEntry} {s t u : State} {bs : List Byte} {crc p : Word} {n : Nat}

theorem Selected.ecdStart (h : Selected e u) : Selected e (ecdStart e crc p u) :=
  h.of_eq rfl rfl rfl

theorem SameInput.ecdStart : SameInput u (ecdStart e crc p u) := ⟨rfl, rfl, rfl, rfl⟩

/-- The loop behind the chain seed leaves what its reference gives from fresh registers. -/
theorem CipherLoop.completes_from_start (h : CipherLoop loop list out next) (hsel : Selected e u)
    (hroom : Room n u) (hin : p.toNat + n ≤ u.inLen.toNat) (hb : HasBytes u.inBuf p.toNat n) :
    ∃ t, loop n (ecdStart e crc p u) = .ok () t ∧
      AppendResult (u.cipherAt (p + BitVec.ofNat 32 n) t.lcg t.ecd) t
        (list e (ecdFirstWord e crc) (ecdFresh (ecdFirstWord e crc))
          (bytesAt u.inBuf p.toNat n)) := by
  obtain ⟨t, hrun, hout⟩ := h.completes (s := ecdStart e crc p u) hsel.ecdStart
    (hroom.of_same .ecdStart) hin hb
  refine ⟨t, hrun, ?_⟩
  rw [← h.congr (r := (ecdStart e crc p u).ecd) (r' := ecdFresh (ecdFirstWord e crc)) rfl]
  exact hout

/-- A command whose body answered completes with what the body appended. -/
theorem runCommand_cipher_completes {body : Engine Unit} (hs : Started s)
    (hrun : body s = .ok () t) (hkept : Kept s t)
    (hout : AppendResult (s.cipherAt p t.lcg t.ecd) t bs) (hfit : bs.length < 2 ^ 32) :
    ∃ v, runCommand body s = .next v ∧ CompleteResult s v bs ∧
      v = { s with
        inPos := p, outPos := v.outPos, lcg := v.lcg, ecd := v.ecd, outLen := v.outLen,
        outBuf := v.outBuf, status := v.status, phase := .idle } := by
  obtain ⟨-, hzero, hc, -⟩ := hs
  have hconflict : t.hc.isSet = false := by
    obtain ⟨-, -, -, -, hhc, -⟩ := hkept
    rw [hhc, hc]
  refine ⟨complete t, runBody_ok hrun, complete_result hkept hc hout hzero hfit, ?_⟩
  rw [complete_of_no_conflict hconflict, publish, hout.1]
  rfl

/-! ### ECD_DECRYPT -/

/-- A header that passes every check leads to the payload loop. -/
theorem ecdDecryptCommand_starts (h : CipherReady s 0x1A646365 s.cfg.ecdLcgTable e)
    (hout : (h32At s.cfg.hdrOrder s.inBuf 8).toNat ≤ s.cfg.outCap) :
    ∃ l, Selected e { s with lcg := l } ∧
      ecdDecryptCommand s = ecdDecryptLoop (h32At s.cfg.hdrOrder s.inBuf 8).toNat
        (ecdStart e (h32At s.cfg.hdrOrder s.inBuf 12) 16 { s with lcg := l }) := by
  obtain ⟨hin, hlen, hhead, hmagic, hentry⟩ := h
  have hindex : (h16At s.cfg.hdrOrder s.inBuf 4).toNat < lcgCount s.cfg .ecd :=
    (List.getElem?_eq_some_iff.1 hentry).1
  let u : State := { s with lcg := { s.lcg with
    tab := .ecd, idx := h16At s.cfg.hdrOrder s.inBuf 4 } }
  have hselect : selectLcg .ecd (h16At s.cfg.hdrOrder s.inBuf 4) s = .ok ⟨⟩ u := rfl
  have hcrc : h32 .inBuf 12 u = .ok (h32At s.cfg.hdrOrder s.inBuf 12) u :=
    inH32_ok (hhead.sub (by omega) (by omega))
  have hsel : Selected e u := hentry
  refine ⟨u.lcg, hsel, ?_⟩
  rw [ecdDecryptCommand, Engine.bind_ok (checkInCap_ok hin),
    Engine.bind_ok (checkHeaderLen_ok hlen),
    Engine.bind_ok (inH32_ok (hhead.sub (by omega) (by omega))),
    raiseIf_bind_false (by simp [hmagic, ecdMagic]),
    Engine.bind_ok (inH16_ok (hhead.sub (by omega) (by omega))),
    Engine.bind_ok (checkIndex_ok hindex),
    Engine.bind_ok (inH32_ok (hhead.sub (by omega) (by omega))),
    Engine.bind_ok (checkOutCap_ok hout), Engine.bind_ok hselect]
  exact (Engine.bind_ok hcrc).trans (ecdInit_bind hsel _ _ _)

theorem ecdPlain_length (e : LcgEntry) (crc : Word) (cs : List Byte) :
    (ecdPlain e crc cs).length = cs.length := cipherLoop_decrypt.length

/-- ECD_DECRYPT completes where IN holds the whole payload. -/
theorem ecdDecrypt_completes (hs : Started s) (h : CipherReady s 0x1A646365 s.cfg.ecdLcgTable e)
    (hn : n = (h32At s.cfg.hdrOrder s.inBuf 8).toNat) (hcap : n ≤ s.cfg.outCap)
    (hend : 16 + n ≤ s.inLen.toNat) (hb : HasBytes s.inBuf 16 n) :
    ∃ t, exec .ecdDecrypt s = .next t ∧
      CompleteResult s t (ecdPlain e (h32At s.cfg.hdrOrder s.inBuf 12) (bytesAt s.inBuf 16 n)) ∧
      t = { s with
        inPos := BitVec.ofNat 32 (16 + n), outPos := t.outPos, lcg := t.lcg, ecd := t.ecd,
        outLen := t.outLen, outBuf := t.outBuf, status := t.status, phase := .idle } := by
  subst hn
  have hfit := (h32At s.cfg.hdrOrder s.inBuf 8).isLt
  obtain ⟨l, hsel, hstart⟩ := ecdDecryptCommand_starts h hcap
  obtain ⟨t, hloop, hout⟩ := cipherLoop_decrypt.completes_from_start (p := 16)
    (crc := h32At s.cfg.hdrOrder s.inBuf 12) hsel
    ((hs.room hcap hfit).of_same ⟨rfl, rfl, rfl, rfl⟩) hend hb
  have hrun := hstart.trans hloop
  rw [BitVec.ofNat_add]
  refine runCommand_cipher_completes hs hrun (kept_closed.ecdDecrypt.ok hrun) hout ?_
  rw [ecdPlain_length, bytesAt_length]
  exact hfit

/-- ECD_DECRYPT faults at the end of an input that is shorter than its header says. -/
theorem ecdDecrypt_truncated (hs : Started s) (h : CipherReady s 0x1A646365 s.cfg.ecdLcgTable e)
    (hn : n = (h32At s.cfg.hdrOrder s.inBuf 8).toNat) (hcap : n ≤ s.cfg.outCap)
    (hend : s.inLen.toNat < 16 + n) (hb : HasBytes s.inBuf 16 (s.inLen.toNat - 16)) :
    ∃ t, exec .ecdDecrypt s = .next t ∧
      FaultResult s t 0x02 s.inLen.toNat s.inLen (s.inLen - 16) := by
  subst hn
  obtain ⟨l, hsel, hstart⟩ := ecdDecryptCommand_starts h hcap
  have hlen : 16 ≤ s.inLen.toNat := by
    obtain ⟨-, hlen, -⟩ := h
    exact hlen
  have hfit := s.inLen.isLt
  obtain ⟨t, hloop, hin, hout⟩ := cipherLoop_decrypt.truncated
    (s := ecdStart e (h32At s.cfg.hdrOrder s.inBuf 12) 16 { s with lcg := l })
    (k := s.inLen.toNat - 16) (n := (h32At s.cfg.hdrOrder s.inBuf 8).toNat) hsel.ecdStart
    ((hs.room (by omega) (by omega)).of_same ⟨rfl, rfl, rfl, rfl⟩)
    (Nat.add_sub_of_le hlen) (by omega) hb
  have hrun := hstart.trans hloop
  have hkept : Kept s t := kept_closed.ecdDecrypt.error hrun
  obtain ⟨-, hzero, hc, -, v, hphase⟩ := hs
  have hidle : t.phase ≠ .lzDecode := by
    obtain ⟨-, hsame, -⟩ := hkept
    rw [hsame, hphase]
    nofun
  have hpos : t.outPos = s.inLen - 16 := by
    refine hout.trans ?_
    show s.outPos + _ = _
    rw [hzero]
    bv_omega
  have hfault := endWithFault_result (k := .truncated) hkept hc hfit
  rw [if_neg hidle, hin, hpos] at hfault
  exact ⟨_, runBody_raise hrun, hfault⟩

/-! ### ECD_ENCRYPT -/

theorem ecdFileHeader_length (o : ByteOrder) (m4 m5 : Byte) (len crc : Word) :
    (ecdFileHeader o m4 m5 len crc).length = 16 := by
  simp [ecdFileHeader, split32_length]

theorem ecdCipher_length (e : LcgEntry) (crc : Word) (ds : List Byte) :
    (ecdCipher e crc ds).length = ds.length := cipherLoop_encrypt.length

theorem ecdFile_length (o : ByteOrder) (m4 m5 : Byte) (len crc : Word) (e : LcgEntry)
    (ds : List Byte) :
    (ecdFileHeader o m4 m5 len crc ++ ecdCipher e crc ds).length = 16 + ds.length := by
  rw [List.length_append, ecdFileHeader_length, ecdCipher_length]

/-- The header appended to an empty OUT (45_ecd.md R247). -/
theorem ecdHeader_ok (hzero : s.outPos = 0) (hmeta : HasBytes s.metaBuf 4 2) (crc : Word) :
    ∃ t, ecdHeader crc s = .ok () t ∧ AppendResult s t
      (ecdFileHeader s.cfg.hdrOrder (byteAt s.metaBuf 4) (byteAt s.metaBuf 5) s.inLen crc) := by
  have hlen := ecdFileHeader_length s.cfg.hdrOrder (byteAt s.metaBuf 4) (byteAt s.metaBuf 5)
    s.inLen crc
  have hpos : s.outPos.toNat = 0 := by rw [hzero]; rfl
  obtain ⟨t, hrun, hout⟩ := appendAll_ok (s := s)
    (bs := ecdFileHeader s.cfg.hdrOrder (byteAt s.metaBuf 4) (byteAt s.metaBuf 5) s.inLen crc)
    (by rw [hlen, hpos]; exact Nat.le_add_left ..) (by omega)
  refine ⟨t, ?_, hout⟩
  have h4 := HasBytes.memRead_ok (b := .metaBuf) (s := s) (k := 0) hmeta (by omega)
  have h5 := HasBytes.memRead_ok (b := .metaBuf) (s := s) (k := 1) hmeta (by omega)
  rw [ecdHeader, Engine.get_bind, Engine.bind_ok h4, Engine.bind_ok h5, ← hrun, ecdFileHeader]
  simp only [List.append_assoc, List.cons_append, List.nil_append]
  rfl

theorem metaH16_ok {a : Nat} (h : HasBytes s.metaBuf a 2) :
    h16 .metaBuf a s = .ok (h16At s.cfg.hdrOrder s.metaBuf a) s := h16_ok (b := .metaBuf) h

/-- With an index inside the table and room in OUT the header is written, and the payload loop
begins. -/
theorem ecdEncryptCommand_starts (hs : Started s) (hin : s.inLen.toNat ≤ s.cfg.inCap)
    (hmeta : HasBytes s.metaBuf 4 2)
    (hentry : s.cfg.ecdLcgTable.entries[(h16At s.cfg.hdrOrder s.metaBuf 4).toNat]? = some e)
    (hcap : 16 + s.inLen.toNat ≤ s.cfg.outCap) (hb : HasBytes s.inBuf 0 s.inLen.toNat)
    (hcrc : crc = crc32 s.cfg.crc (bytesAt s.inBuf 0 s.inLen.toNat)) :
    ∃ l u, Selected e u ∧ AppendResult { s with lcg := l } u
        (ecdFileHeader s.cfg.hdrOrder (byteAt s.metaBuf 4) (byteAt s.metaBuf 5) s.inLen crc) ∧
      ecdEncryptCommand s = ecdEncryptLoop s.inLen.toNat (ecdStart e crc 0 u) := by
  have hindex : (h16At s.cfg.hdrOrder s.metaBuf 4).toNat < lcgCount s.cfg .ecd :=
    (List.getElem?_eq_some_iff.1 hentry).1
  let s1 : State := { s with lcg := { s.lcg with
    tab := .ecd, idx := h16At s.cfg.hdrOrder s.metaBuf 4 } }
  have hselect : selectLcg .ecd (h16At s.cfg.hdrOrder s.metaBuf 4) s = .ok ⟨⟩ s1 := rfl
  have hread : inBytes 0 s.inLen.toNat s1 = .ok (bytesAt s.inBuf 0 s.inLen.toNat) s1 :=
    inBytes_ok hb
  have hsel : Selected e s1 := hentry
  obtain ⟨-, hzero, -⟩ := hs
  obtain ⟨u, hhead, hheader⟩ := ecdHeader_ok (s := s1) hzero hmeta crc
  have hlcg : u.lcg = s1.lcg := by rw [hheader.1]
  have hsel' : Selected e u := hsel.of_eq hheader.cfg (by rw [hlcg]) (by rw [hlcg])
  refine ⟨s1.lcg, u, hsel', hheader, ?_⟩
  rw [ecdEncryptCommand, Engine.bind_ok (checkInCap_ok hin),
    Engine.bind_ok (metaH16_ok hmeta), Engine.bind_ok (checkIndex_ok hindex),
    Engine.get_bind, Engine.bind_ok (checkOutCap_ok hcap), Engine.bind_ok hselect,
    Engine.bind_ok hread, ← hcrc, Engine.bind_ok hhead]
  exact ecdInit_bind hsel' _ _ _

/-- With room in OUT, ECD_ENCRYPT completes with header and ciphertext. -/
theorem ecdEncrypt_completes (hs : Started s) (hin : s.inLen.toNat ≤ s.cfg.inCap)
    (hmeta : HasBytes s.metaBuf 4 2)
    (hentry : s.cfg.ecdLcgTable.entries[(h16At s.cfg.hdrOrder s.metaBuf 4).toNat]? = some e)
    (hcap : 16 + s.inLen.toNat ≤ s.cfg.outCap) (hfit : 16 + s.inLen.toNat < 2 ^ 32)
    (hb : HasBytes s.inBuf 0 s.inLen.toNat)
    (hcrc : crc = crc32 s.cfg.crc (bytesAt s.inBuf 0 s.inLen.toNat)) :
    ∃ t, exec .ecdEncrypt s = .next t ∧
      CompleteResult s t
        (ecdFileHeader s.cfg.hdrOrder (byteAt s.metaBuf 4) (byteAt s.metaBuf 5) s.inLen crc ++
          ecdCipher e crc (bytesAt s.inBuf 0 s.inLen.toNat)) ∧
      t = { s with
        inPos := s.inLen, outPos := t.outPos, lcg := t.lcg, ecd := t.ecd, outLen := t.outLen,
        outBuf := t.outBuf, status := t.status, phase := .idle } := by
  obtain ⟨l, u, hsel, hheader, hstart⟩ :=
    ecdEncryptCommand_starts hs hin hmeta hentry hcap hb hcrc
  have hroom : Room s.inLen.toNat u := by
    refine Room.appended (s := { s with lcg := l }) ?_ hheader
    rw [ecdFileHeader_length]
    exact (hs.room hcap hfit).of_same ⟨rfl, rfl, rfl, rfl⟩
  have hbuf : u.inBuf = s.inBuf := hheader.inBuf
  have hlen : u.inLen = s.inLen := hheader.inLen
  obtain ⟨t, hloop, hout⟩ := cipherLoop_encrypt.completes_from_start (p := 0) (crc := crc) hsel
    hroom (by rw [hlen]; exact Nat.le_of_eq (Nat.zero_add _)) (by rw [hbuf]; exact hb)
  have hend : 0 + BitVec.ofNat 32 s.inLen.toNat = s.inLen := by simp
  rw [hbuf, hend] at hout
  have hrun := hstart.trans hloop
  have hzero : s.outPos.toNat = 0 := by
    obtain ⟨-, hzero, -⟩ := hs
    rw [hzero]
    rfl
  refine runCommand_cipher_completes hs hrun (kept_closed.ecdEncrypt.ok hrun)
    ((hheader.cipherAt s.inLen t.lcg t.ecd).trans hout ?_) ?_
  · show s.outPos.toNat + _ + (ecdCipher e crc _).length < 2 ^ 32
    rw [hzero, ecdFileHeader_length, ecdCipher_length, bytesAt_length]
    omega
  · rw [ecdFile_length, bytesAt_length]
    exact hfit

end

/-! ### The obligations -/

/-- The check value of CRC-32/ISO-HDLC (93_implementation_defined.md Part 2). -/
theorem crc32_check_value :
    crc32 .isoHdlc [0x31, 0x32, 0x33, 0x34, 0x35, 0x36, 0x37, 0x38, 0x39] = 0xCBF43926 := by
  simp [crc32, crc32IsoHdlc, crcByte, crcBit]

/-- Settles O38: the loop of both outcomes is the reference decryption, as far as the input goes. -/
theorem ecdDecryptWritesPlaintext : Obligations.EcdDecryptWritesPlaintext := by
  intro s e hs h n hcap
  exact ⟨ecdDecrypt_completes hs h rfl hcap, ecdDecrypt_truncated hs h rfl hcap⟩

/-- Settles O39: header and loop append one behind the other. -/
theorem ecdEncryptWritesFile : Obligations.EcdEncryptWritesFile :=
  ⟨crc32_check_value, fun _ _ hs hin hmeta hentry hcap hfit hb =>
    ecdEncrypt_completes hs hin hmeta hentry hcap hfit hb rfl⟩

end Sys2Proof.Machine
end

section
/-! ECD_DECRYPT of what ECD_ENCRYPT wrote (45_ecd.md R249). -/

namespace Sys2Proof.Machine

/-! ### The bytes -/

/-- Byte by byte, from the same chain byte on (45_ecd.md R249). -/
theorem ecdDecryptList_ecdEncryptList (e : LcgEntry) {w : Word} {r r' : EcdState}
    {ds : List Byte} (h : r'.chain = r.chain) :
    ecdDecryptList e w r' (ecdEncryptList e w r ds) = ds := by
  induction ds generalizing w r r' with
  | nil => rfl
  | cons d ds ih =>
    obtain ⟨hbyte, hchain⟩ := ecdByteDecryptInvertsEncrypt d (lcgStep e w) r r' h
    rw [ecdEncryptList, ecdDecryptList, hbyte, ih (hbyte.trans hchain.symm)]

theorem ecdPlain_ecdCipher (e : LcgEntry) (crc : Word) (ds : List Byte) :
    ecdPlain e crc (ecdCipher e crc ds) = ds := ecdDecryptList_ecdEncryptList e rfl

/-! ### The file -/

section
variable {s t : State} {e : LcgEntry} {m : Memory} {body plain : List Byte} {o : ByteOrder}
  {m4 m5 : Byte} {size crc : Word}

/-- The fields of a file that begins with a header of ECD_ENCRYPT (45_ecd.md R247). -/
theorem ecdFileHeader_fields (h : Holds m (ecdFileHeader o m4 m5 size crc ++ body)) :
    h32At o m 0 = 0x1A646365 ∧ byteAt m 4 = m4 ∧ byteAt m 5 = m5 ∧ h32At o m 8 = size ∧
      h32At o m 12 = crc := by
  cases o
  all_goals
    simp only [h32At, le32At, h.byteAt]
    exact ⟨word_of_bytes _, rfl, rfl, word_of_bytes _, word_of_bytes _⟩

theorem h16At_eq_join16 (o : ByteOrder) (m : Memory) (a : Nat) :
    h16At o m a = join16 o (byteAt m a) (byteAt m (a + 1)) := by
  cases o <;> rfl

/-- A file that ECD_ENCRYPT wrote decrypts to its plaintext. -/
theorem ecdDecrypt_file_completes (hs : Started s)
    (hfile : Holds s.inBuf
      (ecdFileHeader s.cfg.hdrOrder m4 m5 size crc ++ ecdCipher e crc plain))
    (hsize : plain.length = size.toNat) (hlen : s.inLen.toNat = 16 + plain.length)
    (hin : s.inLen.toNat ≤ s.cfg.inCap) (hcap : plain.length ≤ s.cfg.outCap)
    (hentry : s.cfg.ecdLcgTable.entries[(join16 s.cfg.hdrOrder m4 m5).toNat]? = some e) :
    ∃ t, exec .ecdDecrypt s = .next t ∧ CompleteResult s t plain := by
  have hbytes := hfile.hasBytes
  rw [ecdFile_length] at hbytes
  obtain ⟨hmagic, h4, h5, hn, hcrc⟩ := ecdFileHeader_fields hfile
  have hready : CipherReady s 0x1A646365 s.cfg.ecdLcgTable e := by
    refine ⟨hin, by omega, hbytes.sub (Nat.le_refl 0) (by omega), hmagic, ?_⟩
    rw [h16At_eq_join16, h4, h5]
    exact hentry
  obtain ⟨t, hexec, ht, -⟩ := ecdDecrypt_completes hs hready (n := plain.length)
    (by rw [hn, hsize]) hcap (by omega) (hbytes.sub (Nat.zero_le _) (by omega))
  have hbehind := hfile.bytesAt_behind
  rw [ecdFileHeader_length, ecdCipher_length] at hbehind
  rw [hcrc, hbehind, ecdPlain_ecdCipher] at ht
  exact ⟨t, hexec, ht⟩

/-- An ECD_ENCRYPT that is not refused has read its index. -/
theorem ecdEncrypt_hasIndex (hin : s.inLen.toNat ≤ s.cfg.inCap)
    (h : exec .ecdEncrypt s = .next t) : HasBytes s.metaBuf 4 2 := by
  have hnone (k : Nat) : ¬ FirstWithoutValue s.metaBuf [4, 5] k := fun hk => by
    cases h.symm.trans (ecdEncrypt_index_refused hin hk)
  have h4 : (Memory.read s.metaBuf 4).isSome := by
    by_contra h4
    exact hnone 4 ⟨by simp, by simpa using h4, by simp⟩
  have h5 : (Memory.read s.metaBuf 5).isSome := by
    by_contra h5
    exact hnone 5 ⟨by simp, by simpa using h5, by simp [h4]⟩
  intro k hk
  interval_cases k
  · exact h4
  · exact h5

/-- An ECD_ENCRYPT that is done has passed its checks and read META and the plaintext. -/
theorem ecdEncrypt_done (h : exec .ecdEncrypt s = .next t) (hdone : statusDone t.status = true) :
    s.inLen.toNat ≤ s.cfg.inCap ∧ HasBytes s.metaBuf 4 2 ∧
      (∃ e, s.cfg.ecdLcgTable.entries[(h16At s.cfg.hdrOrder s.metaBuf 4).toNat]? = some e) ∧
      16 + s.inLen.toNat ≤ s.cfg.outCap ∧ HasBytes s.inBuf 0 s.inLen.toNat := by
  obtain ⟨u, hrun⟩ := runCommand_done h hdone
  rw [ecdEncryptCommand, checkInCap_bind] at hrun
  split_ifs at hrun with hin
  have hmeta := ecdEncrypt_hasIndex (Nat.not_lt.1 hin) h
  rw [Engine.bind_ok (metaH16_ok hmeta), checkIndex_bind] at hrun
  split_ifs at hrun with hindex
  rw [Engine.get_bind, checkOutCap_bind] at hrun
  split_ifs at hrun with hcap
  refine ⟨Nat.not_lt.1 hin, hmeta, ⟨_, List.getElem?_eq_getElem (Nat.not_le.1 hindex)⟩,
    Nat.not_lt.1 hcap, ?_⟩
  by_contra hnot
  obtain ⟨k, hk, hb, hn⟩ := exists_first_unwritten hnot
  cases h.symm.trans (ecdEncrypt_body_refused (Nat.not_lt.1 hin) hk hb hn hmeta
    (Nat.not_le.1 hindex) (Nat.not_lt.1 hcap))

end

/-! ### The obligation -/

/-- Settles O40: a done ECD_ENCRYPT wrote its file, whose header passes the checks of ECD_DECRYPT
and whose payload decrypts to the plaintext. -/
theorem ecdDecryptInvertsEncrypt : Obligations.EcdDecryptInvertsEncrypt := by
  intro s t u hfit hs h hdone hu hcfg hinLen hinBuf hin
  obtain ⟨hsin, hmeta, ⟨e, hentry⟩, hcap, hb⟩ := ecdEncrypt_done h hdone
  obtain ⟨t', ht', hresult, -⟩ := ecdEncrypt_completes hs hsin hmeta hentry hcap hfit hb rfl
  cases ht'.symm.trans h
  have hlen := bytesAt_length s.inBuf 0 s.inLen.toNat
  obtain ⟨houtLen, hholds⟩ := hresult.file (by rw [ecdFile_length, hlen]; exact hfit)
  rw [ecdFile_length, ← hinLen] at houtLen
  rw [← hinBuf, ← hcfg] at hholds
  rw [← hcfg, h16At_eq_join16] at hentry
  exact ecdDecrypt_file_completes hu hholds hlen houtLen hin (by rw [hlen, hcfg]; omega) hentry

end Sys2Proof.Machine
end

section
/-! The key of EXF (46_exf.md R260, R261): what the rounds write, and the view the substitution
reads. -/

namespace Sys2Proof.Machine

/-! ### Stored bytes -/

theorem Memory.writeAll_append (m : Memory) (a : Nat) (bs cs : List Byte) :
    Memory.writeAll m a (bs ++ cs) =
      Memory.writeAll (Memory.writeAll m a bs) (a + bs.length) cs := by
  induction bs generalizing m a with
  | nil => rfl
  | cons b bs ih =>
    rw [List.cons_append, Memory.writeAll, ih, List.length_cons, Nat.add_right_comm]
    rfl

/-- A stretch of bytes that were just stored reads as that stretch. -/
theorem bytesAt_writeAll (m : Memory) (pre bs post : List Byte) (a : Nat) :
    bytesAt (Memory.writeAll m a (pre ++ bs ++ post)) (a + pre.length) bs.length = bs := by
  refine List.ext_getElem (bytesAt_length ..) fun k _ hk => ?_
  have hread : Memory.read (Memory.writeAll m a (pre ++ bs ++ post)) (a + pre.length + k) =
      some bs[k] := by
    rw [Memory.read_writeAll, if_pos (by simp only [List.length_append]; omega), List.append_assoc,
      List.getElem?_append_right (by omega), List.getElem?_append_left (by omega),
      List.getElem?_eq_some_iff]
    exact ⟨by omega, by congr 1; omega⟩
  simp only [bytesAt, List.getElem_map, List.getElem_range, byteAt, hread, Option.getD_some]

/-! ### The rounds -/

/-- The key bytes of `n` rounds that step the generator from the state `w` on; `exfDerived` is four
rounds from the seed. -/
def exfRoundBytes (o : ByteOrder) (e : LcgEntry) (seed w : Word) (n : Nat) : List Byte :=
  (List.range n).flatMap fun r => split32 o ((lcgStep e)^[r + 1] w ^^^ seed)

theorem exfRoundBytes_succ (o : ByteOrder) (e : LcgEntry) (seed w : Word) (n : Nat) :
    exfRoundBytes o e seed w (n + 1) =
      split32 o (lcgStep e w ^^^ seed) ++ exfRoundBytes o e seed (lcgStep e w) n := by
  simp [exfRoundBytes, List.range_succ_eq_map, List.flatMap_map]

theorem exfDerived_length (o : ByteOrder) (e : LcgEntry) (seed : Word) :
    (exfDerived o e seed).length = 16 := by
  simp [exfDerived, split32_length]

/-- The rounds step the keystream and store their bytes, and that is all they do. -/
theorem exfRounds_eq {e : LcgEntry} {n a : Nat} {s : State} (seed : Word) (h : Selected e s) :
    exfRounds seed n a s = .ok () ((s.withKey ((lcgStep e)^[n] s.lcg.s)).withKb
      (Memory.writeAll s.exf.kb a (exfRoundBytes s.cfg.keyByteOrder e seed s.lcg.s n))) := by
  induction n generalizing a s with
  | zero => rfl
  | succ n ih =>
    let bs := split32 s.cfg.keyByteOrder (lcgStep e s.lcg.s ^^^ seed)
    have hpass : exfRounds seed (n + 1) a s = exfRounds seed n (a + 4)
        ((s.withKey (lcgStep e s.lcg.s)).withKb (Memory.writeAll s.exf.kb a bs)) := by
      rw [exfRounds, Engine.bind_ok h.keyWord_ok]
      rfl
    rw [hpass, ih ((h.withKey _).withKb _), exfRoundBytes_succ, Memory.writeAll_append,
      split32_length]
    rfl

/-- The 32 bytes of the KeyBuffer (46_exf.md R260). -/
def exfKeyBytes (o : ByteOrder) (e : LcgEntry) (seed : Word) : List Byte :=
  List.replicate 16 0 ++ exfDerived o e seed

theorem exfKeyBytes_length (o : ByteOrder) (e : LcgEntry) (seed : Word) :
    (exfKeyBytes o e seed).length = 32 := by
  rw [exfKeyBytes, List.length_append, List.length_replicate, exfDerived_length]

/-- The key derivation leaves the generator four steps behind the seed and the KeyBuffer filled. -/
theorem exfKey_eq {e : LcgEntry} {s : State} {seed : Word} (h : Selected e s)
    (hseed : HasBytes s.inBuf 12 4) (heq : seed = h32At s.cfg.hdrOrder s.inBuf 12) :
    exfKey s = .ok () ((s.withKey ((lcgStep e)^[4] seed)).withKb
      (Memory.writeAll s.exf.kb 0 (exfKeyBytes s.cfg.keyByteOrder e seed))) := by
  have hstart : exfKey s = exfRounds seed 4 16
      ((s.withKb (Memory.writeAll s.exf.kb 0 (List.replicate 16 0))).withKey seed) := by
    rw [exfKey, Engine.bind_ok (inH32_ok hseed), heq]
    rfl
  rw [hstart, exfRounds_eq seed ((h.withKb _).withKey _), exfKeyBytes, Memory.writeAll_append,
    List.length_replicate]
  generalize Memory.writeAll s.exf.kb 0 (List.replicate 16 0) = zeroed
  rfl

/-! ### The key view -/

/-- The substitution in `s` reads the key view `kv` (46_exf.md R261). -/
def HoldsView (kv : List Byte) (s : State) : Prop :=
  HasBytes s.exf.kb (keyBase s.cfg.keyIndexBase) 16 ∧
    bytesAt s.exf.kb (keyBase s.cfg.keyIndexBase) 16 = kv

theorem HoldsView.keyView_ok {kv : List Byte} {s : State} (h : HoldsView kv s) :
    keyView s = .ok kv s := by
  obtain ⟨hhas, hkv⟩ := h
  rw [← hkv]
  exact keyBytes_ok hhas

theorem HoldsView.of_eq {kv : List Byte} {s t : State} (h : HoldsView kv s) (hcfg : t.cfg = s.cfg)
    (hkb : t.exf.kb = s.exf.kb) : HoldsView kv t := by
  unfold HoldsView
  rwa [hcfg, hkb]

/-- A filled KeyBuffer holds the reference view, for either base. -/
theorem bytesAt_exfKeyBytes (cfg : Config) (e : LcgEntry) (seed : Word) (kb : Memory) :
    bytesAt (Memory.writeAll kb 0 (exfKeyBytes cfg.keyByteOrder e seed))
      (keyBase cfg.keyIndexBase) 16 = exfView cfg e seed := by
  have hderived := exfDerived_length cfg.keyByteOrder e seed
  unfold exfView
  cases cfg.keyIndexBase with
  | zero => exact bytesAt_writeAll kb [] (List.replicate 16 0) (exfDerived ..) 0
  | sixteen =>
    have hbehind := bytesAt_writeAll kb (List.replicate 16 0)
      (exfDerived cfg.keyByteOrder e seed) [] 0
    rw [List.append_nil, hderived] at hbehind
    exact hbehind

theorem holdsView_of_kb {e : LcgEntry} {seed : Word} {kb : Memory} {s : State}
    (h : s.exf.kb = Memory.writeAll kb 0 (exfKeyBytes s.cfg.keyByteOrder e seed)) :
    HoldsView (exfView s.cfg e seed) s := by
  have hfilled : HasBytes s.exf.kb 0 32 := by
    have hall := HasBytes.writeAll (nofun : HasBytes kb 0 0) (exfKeyBytes s.cfg.keyByteOrder e seed)
    rwa [exfKeyBytes_length, ← h] at hall
  refine ⟨hfilled.sub (Nat.zero_le _) ?_, ?_⟩
  · cases s.cfg.keyIndexBase <;> decide
  · rw [h, bytesAt_exfKeyBytes]

end Sys2Proof.Machine
end

section
/-! EXF_DECRYPT (46_exf.md R263, R266, 47_commands.md R292): its payload loop, the state the loop
starts in, and what the command leaves. -/

namespace Sys2Proof.Machine

/-! ### The payload loop -/

/-- Payload byte `i` of the output: substituted below the count, else as it was. -/
def exfByte (cfg : Config) (kv : List Byte) (count i : Nat) (c : Byte) : Byte :=
  if i < count then exfSubst cfg c (BitVec.ofNat 4 i) kv else c

/-- The payload bytes of the output from byte `i` on. -/
def exfBytes (cfg : Config) (kv : List Byte) (count i : Nat) (cs : List Byte) : List Byte :=
  cs.mapIdx fun k c => exfByte cfg kv count (i + k) c

theorem exfBytes_cons (cfg : Config) (kv : List Byte) (count i : Nat) (c : Byte)
    (cs : List Byte) :
    exfBytes cfg kv count i (c :: cs) =
      exfByte cfg kv count i c :: exfBytes cfg kv count (i + 1) cs := by
  simp [exfBytes, List.mapIdx_cons, Nat.add_assoc, Nat.add_comm 1]

theorem exfBytes_length (cfg : Config) (kv : List Byte) (count i : Nat) (cs : List Byte) :
    (exfBytes cfg kv count i cs).length = cs.length := List.length_mapIdx

/-- The count as the model takes it and as the reference spells it out (46_exf.md R262). -/
theorem exfPayload_eq (cfg : Config) (e : LcgEntry) (seed : Word) (inLen : Nat) (cs : List Byte) :
    exfPayload cfg e seed inLen cs =
      exfBytes cfg (exfView cfg e seed) (exfCount cfg.countMode inLen) 0 cs := by
  simp only [exfPayload, exfBytes, exfByte, Nat.zero_add]
  refine congrArg (List.mapIdx · cs) (funext₂ fun i c => ?_)
  generalize cfg.countMode = mode
  cases mode with
  | minusHeader =>
    have hcount : (if inLen - 16 ≤ 16 then 0 else inLen - 16 - 16) =
        exfCount .minusHeader inLen := by
      rw [exfCount]
      split <;> omega
    rw [← hcount]
  | full => rfl

theorem exfPayload_length (cfg : Config) (e : LcgEntry) (seed : Word) (inLen : Nat)
    (cs : List Byte) : (exfPayload cfg e seed inLen cs).length = cs.length := by
  rw [exfPayload_eq, exfBytes_length]

section
variable {kv : List Byte} {s : State} {c : Byte} {n : Nat}

/-- A pass appends the payload byte of its position, with both branches of the test. -/
theorem exfLoop_append (hin : inByte s = .ok c s.advanceIn) (hview : HoldsView kv s) :
    exfLoop (n + 1) s =
      (append (exfByte s.cfg kv s.exf.count.toNat s.exf.i.toNat c) >>= fun _ =>
        modify State.countExf >>= fun _ => exfLoop n) s.advanceIn := by
  have hview' : HoldsView kv s.advanceIn := hview
  rw [exfLoop, Engine.bind_ok hin, Engine.get_bind, exfByte, BitVec.ofNat_toNat,
    State.advanceIn_exf]
  by_cases hlt : s.exf.i < s.exf.count
  · rw [if_pos hlt, if_pos (BitVec.lt_def.1 hlt)]
    exact Engine.bind_ok (Engine.bind_ok hview'.keyView_ok)
  · rw [if_neg hlt, if_neg (fun hnat => hlt (BitVec.lt_def.2 hnat))]
    rfl

/-- The state after one pass: a byte read, the byte `v` appended, and the position counted. -/
def State.exfPass (v : Byte) (s : State) : State := (s.advanceIn.pushOut v).countExf

/-- The state with input cursor and payload position `n` bytes further on. -/
def State.exfAhead (n : Nat) (s : State) : State :=
  { s with inPos := s.inPos + BitVec.ofNat 32 n
           exf := { s.exf with i := s.exf.i + BitVec.ofNat 32 n } }

theorem State.exfAhead_zero (s : State) : s.exfAhead 0 = s := by
  simp [State.exfAhead]

theorem State.exfAhead_exfPass (v : Byte) (s : State) :
    (s.exfPass v).exfAhead n = (s.exfAhead (n + 1)).pushOut v := by
  have hin := add_one_add_ofNat s.inPos n
  have hi := add_one_add_ofNat s.exf.i n
  simp only [State.exfPass, State.exfAhead, State.countExf, State.pushOut, State.advanceIn, hin, hi]

/-- One pass, where IN holds a byte and OUT has the room. -/
theorem exfLoop_pass_ok (hview : HoldsView kv s) (hroom : Room (n + 1) s)
    (hin : s.inPos.toNat + (n + 1) ≤ s.inLen.toNat)
    (hb : HasBytes s.inBuf s.inPos.toNat (n + 1)) :
    let t := s.exfPass (exfByte s.cfg kv s.exf.count.toNat s.exf.i.toNat
      (byteAt s.inBuf s.inPos.toNat))
    exfLoop (n + 1) s = exfLoop n t ∧ HoldsView kv t ∧ Room n t := by
  obtain ⟨happ, hroom'⟩ := (hroom.of_same (.advanceIn s)).append
    (exfByte s.cfg kv s.exf.count.toNat s.exf.i.toNat (byteAt s.inBuf s.inPos.toNat))
  refine ⟨?_, hview, hroom'⟩
  exact (exfLoop_append (inByte_has hin hb) hview).trans (Engine.bind_ok happ)

/-- The loop appends the payload bytes of the output, and moves on by as many. -/
theorem exfLoop_ok (hview : HoldsView kv s) (hroom : Room n s)
    (hin : s.inPos.toNat + n ≤ s.inLen.toNat) (hb : HasBytes s.inBuf s.inPos.toNat n)
    (hi : s.exf.i.toNat + n < 2 ^ 32) :
    ∃ t, exfLoop n s = .ok () t ∧ AppendResult (s.exfAhead n) t
      (exfBytes s.cfg kv s.exf.count.toNat s.exf.i.toNat (bytesAt s.inBuf s.inPos.toNat n)) := by
  induction n generalizing s with
  | zero => exact ⟨s, rfl, by rw [State.exfAhead_zero]; exact .nil s⟩
  | succ n ih =>
    obtain ⟨hpass, hview', hroom'⟩ := exfLoop_pass_ok hview hroom hin hb
    rw [bytesAt_succ, exfBytes_cons]
    generalize exfByte s.cfg kv s.exf.count.toNat s.exf.i.toNat _ = v at hpass hview' hroom' ⊢
    have hpos : (s.exfPass v).inPos.toNat = s.inPos.toNat + 1 := inPos_succ (by omega)
    have hcounted : (s.exfPass v).exf.i.toNat = s.exf.i.toNat + 1 :=
      toNat_add_ofNat (w := s.exf.i) (n := 1) (by omega)
    obtain ⟨t, hrun, hout⟩ := ih hview' hroom'
      (by rw [hpos]; show _ ≤ s.inLen.toNat; omega)
      (by rw [hpos]; exact hb.tail) (by rw [hcounted]; omega)
    rw [hpos, hcounted, State.exfAhead_exfPass] at hout
    obtain ⟨-, hfit⟩ := hroom
    refine ⟨t, hpass.trans hrun,
      (AppendResult.push ?_).trans (cs := exfBytes s.cfg kv _ _ _) hout ?_⟩
    · show s.outPos.toNat + 1 < 2 ^ 32
      omega
    · rw [exfBytes_length, bytesAt_length]
      show s.outPos.toNat + 1 + n < 2 ^ 32
      omega

end

/-! ### The command -/

section
variable {s t : State} {e : LcgEntry} {bs : List Byte} {seed : Word} {n : Nat}

/-- The state with the input cursor, the keystream and the EXF registers replaced. -/
def State.exfAt (p : Word) (l : LcgState) (x : ExfState) (s : State) : State :=
  { s with inPos := p, lcg := l, exf := x }

theorem SameInput.exfAt (p : Word) (l : LcgState) (x : ExfState) (s : State) :
    SameInput s (s.exfAt p l x) := ⟨rfl, rfl, rfl, rfl⟩

theorem AppendResult.exfAt (h : AppendResult s t bs) (p : Word) (l : LcgState) (x : ExfState) :
    AppendResult (s.exfAt p l x) (t.exfAt p l x) bs := by
  obtain ⟨hstate, hnew, hold⟩ := h
  exact ⟨congrArg (State.exfAt p l x) hstate, hnew, hold⟩

/-- A header that passes every check leads to the copy of the header and the payload loop, with the
key derived and the count taken. -/
theorem exfDecryptCommand_starts (h : CipherReady s 0x1A667865 s.cfg.exfLcgTable e)
    (hout : s.inLen.toNat ≤ s.cfg.outCap) :
    ∃ l x, HoldsView (exfView s.cfg e (h32At s.cfg.hdrOrder s.inBuf 12)) (s.exfAt 0 l x) ∧
      x.count.toNat = exfCount s.cfg.countMode s.inLen.toNat ∧
      exfDecryptCommand s = (copyIn 16 >>= fun _ => modify State.startExf >>= fun _ =>
        exfLoop (s.inLen.toNat - 16)) (s.exfAt 0 l x) := by
  obtain ⟨hin, hlen, hhead, hmagic, hentry⟩ := h
  have hindex : (h16At s.cfg.hdrOrder s.inBuf 4).toNat < lcgCount s.cfg .exf :=
    (List.getElem?_eq_some_iff.1 hentry).1
  let u : State := { s with lcg := { s.lcg with
    tab := .exf, idx := h16At s.cfg.hdrOrder s.inBuf 4 } }
  have hselect : selectLcg .exf (h16At s.cfg.hdrOrder s.inBuf 4) s = .ok ⟨⟩ u := rfl
  have hsel : Selected e u := hentry
  have hkey := exfKey_eq hsel (hhead.sub (by omega) (by omega)) rfl
  generalize hkb : Memory.writeAll u.exf.kb 0 _ = kb at hkey
  let count := exfCount s.cfg.countMode s.inLen.toNat
  have hcount : count < 2 ^ 32 := by
    have hfit := s.inLen.isLt
    show exfCount _ _ < _
    unfold exfCount
    split <;> omega
  refine ⟨(u.withKey ((lcgStep e)^[4] (h32At s.cfg.hdrOrder s.inBuf 12))).lcg,
    ⟨kb, s.exf.i, BitVec.ofNat 32 count⟩, holdsView_of_kb hkb.symm,
    (BitVec.toNat_ofNat ..).trans (Nat.mod_eq_of_lt hcount), ?_⟩
  rw [exfDecryptCommand, Engine.bind_ok (checkInCap_ok hin),
    Engine.bind_ok (checkHeaderLen_ok hlen),
    Engine.bind_ok (inH32_ok (hhead.sub (by omega) (by omega))),
    raiseIf_bind_false (by simp [hmagic, exfMagic]),
    Engine.bind_ok (inH16_ok (hhead.sub (by omega) (by omega))),
    Engine.bind_ok (checkIndex_ok hindex), Engine.get_bind, Engine.bind_ok (checkOutCap_ok hout)]
  refine (Engine.bind_ok hselect).trans ?_
  rw [exfDecryptBody, Engine.bind_ok hkey]
  rfl

/-- The header is copied as it is, and OUT keeps the room for the payload. -/
theorem exfHeader_copied (hs : Started s) (hlen : s.inLen.toNat = 16 + n)
    (hcap : s.inLen.toNat ≤ s.cfg.outCap) (hhead : HasBytes s.inBuf 0 16) (l : LcgState)
    (x : ExfState) :
    ∃ u, copyIn 16 (s.exfAt 0 l x) = .ok () u ∧
      AppendResult (s.exfAt 16 l x) u (bytesAt s.inBuf 0 16) ∧ Room n u := by
  have hfit := s.inLen.isLt
  have hroom {k : Nat} (hk : k ≤ s.inLen.toNat) : Room k (s.exfAt 0 l x) :=
    (hs.room (by omega) (by omega)).of_same (.exfAt 0 l x s)
  obtain ⟨hcap16, hfit16⟩ := hroom (k := 16) (by omega)
  obtain ⟨u, hcopy, hheader⟩ := copyIn_ok (s := s.exfAt 0 l x) (n := 16)
    (by show 0 + 16 ≤ s.inLen.toNat; omega) (hcap16 (by omega)) hfit16 hhead
  refine ⟨u, hcopy, hheader, Room.appended (s := s.exfAt 16 l x) ?_ hheader⟩
  rw [bytesAt_length]
  exact hroom (by omega)

/-- Behind the header the loop appends the reference payload and ends at the end of IN. -/
theorem exfLoop_payload (hview : HoldsView (exfView s.cfg e seed) s)
    (hcount : s.exf.count.toNat = exfCount s.cfg.countMode s.inLen.toNat)
    (hpos : s.inPos.toNat = 16) (hlen : s.inLen.toNat = 16 + n) (hroom : Room n s)
    (hb : HasBytes s.inBuf 16 n) :
    ∃ t x, exfLoop n s.startExf = .ok () t ∧ AppendResult (s.exfAt s.inLen s.lcg x) t
      (exfPayload s.cfg e seed s.inLen.toNat (bytesAt s.inBuf 16 n)) := by
  have hfit := s.inLen.isLt
  obtain ⟨t, hrun, hout⟩ := exfLoop_ok (s := s.startExf) (n := n) hview
    (hroom.of_same ⟨rfl, rfl, rfl, rfl⟩)
    (by show s.inPos.toNat + n ≤ s.inLen.toNat; omega)
    (by show HasBytes s.inBuf s.inPos.toNat n; rwa [hpos])
    (by show 0 + n < 2 ^ 32; omega)
  have hend : s.inPos + BitVec.ofNat 32 n = s.inLen := by
    refine BitVec.eq_of_toNat_eq ((toNat_add_ofNat ?_).trans ?_) <;> omega
  refine ⟨t, (s.startExf.exfAhead n).exf, hrun, ?_⟩
  rw [exfPayload_eq, ← hcount, ← hend, ← hpos]
  exact hout

/-- The body appends the header as it is and the payload with the bytes below the count
substituted. -/
theorem exfDecryptCommand_ok (hs : Started s) (h : CipherReady s 0x1A667865 s.cfg.exfLcgTable e)
    (hlen : s.inLen.toNat = 16 + n) (hcap : s.inLen.toNat ≤ s.cfg.outCap)
    (hb : HasBytes s.inBuf 0 s.inLen.toNat) :
    ∃ v l x, exfDecryptCommand s = .ok () v ∧ AppendResult (s.exfAt s.inLen l x) v
      (bytesAt s.inBuf 0 16 ++ exfPayload s.cfg e (h32At s.cfg.hdrOrder s.inBuf 12) s.inLen.toNat
        (bytesAt s.inBuf 16 n)) := by
  obtain ⟨l, x, hview, hcount, hstart⟩ := exfDecryptCommand_starts h hcap
  obtain ⟨-, -, hhead, -⟩ := h
  obtain ⟨u, hcopy, hheader, hroom⟩ := exfHeader_copied hs hlen hcap hhead l x
  have hcfg : u.cfg = s.cfg := hheader.cfg
  have hbuf : u.inBuf = s.inBuf := hheader.inBuf
  have hinLen : u.inLen = s.inLen := hheader.inLen
  have hexf : u.exf = x := hheader.exf
  have hkb : u.exf.kb = x.kb := congrArg ExfState.kb hexf
  obtain ⟨v, x', hloop, hpayload⟩ := exfLoop_payload (s := u) (e := e) (n := n)
    (seed := h32At s.cfg.hdrOrder s.inBuf 12) (by rw [hcfg]; exact hview.of_eq hcfg hkb)
    (by rw [hexf, hcfg, hinLen, hcount]) (by rw [hheader.inPos]; rfl) (by rw [hinLen, hlen])
    hroom (by rw [hbuf]; exact hb.sub (by omega) (by omega))
  rw [hcfg, hbuf, hinLen] at hpayload
  refine ⟨v, u.lcg, x', ?_, (hheader.exfAt s.inLen u.lcg x').trans hpayload ?_⟩
  · rw [hstart, hlen, Nat.add_sub_cancel_left, Engine.bind_ok hcopy, Engine.modify_bind, hloop]
  · obtain ⟨-, hzero, -⟩ := hs
    show s.outPos.toNat + _ + _ < _
    rw [hzero, exfPayload_length, bytesAt_length, bytesAt_length]
    have hfit := s.inLen.isLt
    show 0 + 16 + n < _
    omega

end

/-! ### The obligation -/

/-- Settles O43: header and payload are appended one behind the other, and the state that is
published differs from the one before only where the body worked. -/
theorem exfDecryptWritesFile : Obligations.ExfDecryptWritesFile := by
  intro s e hs h hcap hb
  have hlen : s.inLen.toNat = 16 + (s.inLen.toNat - 16) := by
    obtain ⟨-, hlen, -⟩ := h
    omega
  obtain ⟨v, l, x, hrun, hout⟩ := exfDecryptCommand_ok hs h hlen hcap hb
  have hkept : Kept s v := kept_closed.exfDecrypt.ok hrun
  obtain ⟨-, hzero, hc, -⟩ := hs
  have hconflict : v.hc.isSet = false := by
    obtain ⟨-, -, -, -, hhc, -⟩ := hkept
    rw [hhc, hc]
  refine ⟨complete v, runBody_ok hrun, complete_result hkept hc hout hzero ?_, ?_⟩
  · rw [List.length_append, exfPayload_length, bytesAt_length, bytesAt_length, ← hlen]
    exact s.inLen.isLt
  · rw [complete_of_no_conflict hconflict, publish, hout.1]
    rfl

end Sys2Proof.Machine
end

section
/-! How the first step of a command ends: the fault of a start check, and the completion of a body
that has appended its whole output. -/

namespace Sys2Proof.Machine

section
variable {s u v : State} {k : FaultKind} {n : Nat}

theorem Started.outPos_eq_zero (hs : Started s) : s.outPos = 0 := by
  obtain ⟨-, hzero, -⟩ := hs
  exact hzero

theorem Started.no_conflict (hs : Started s) : s.hc.isSet = false := by
  obtain ⟨-, -, hc, -⟩ := hs
  exact hc

/-- Before a decode runs, a fault records both positions as its body left them. -/
theorem Started.faultResult (hs : Started s) (h : Kept s u) (hn : n < 2 ^ 32) :
    FaultResult s (endWithFault k n u) k.code n u.inPos u.outPos := by
  obtain ⟨-, -, hc, -, cmd, hphase⟩ := hs
  have hidle : u.phase ≠ .lzDecode := by
    obtain ⟨-, hsame, -⟩ := h
    rw [hsame, hphase]
    nofun
  simpa only [if_neg hidle] using endWithFault_result (k := k) h hc hn

/-- A start check that fails leaves both positions at 0. -/
theorem Started.check_faults {body : Engine Unit} (hs : Started s)
    (h : body s = .error (.raise k n) s) (hn : n < 2 ^ 32) :
    ∃ t, runCommand body s = .next t ∧ FaultResult s t k.code n 0 0 := by
  have hfault := hs.faultResult (k := k) (kept_closed.refl s) hn
  obtain ⟨hin, hout, -⟩ := hs
  rw [hin, hout] at hfault
  exact ⟨_, runBody_raise h, hfault⟩

theorem Started.jpkDecode_faults (hs : Started s)
    (h : jpkDecodeCommand s = .error (.raise k n) u) (hn : n < 2 ^ 32) :
    ∃ t, exec .jpkDecode s = .next t ∧ FaultResult s t k.code n u.inPos u.outPos :=
  ⟨_, execJpkDecode_raise h, hs.faultResult (kept_closed.jpkDecode.error h) hn⟩

/-- A start check of JPK_DECODE that fails leaves both positions at 0, before `size` is set (it is
that of `s` then) and after (47_commands.md R284). -/
theorem Started.jpkDecode_check_faults {size : Word} (hs : Started s)
    (h : jpkDecodeCommand s = .error (.raise k n) { s with size := size }) (hn : n < 2 ^ 32) :
    ∃ t, exec .jpkDecode s = .next t ∧ FaultResult s t k.code n 0 0 := by
  have hfault := hs.jpkDecode_faults h hn
  obtain ⟨hin, hout, -⟩ := hs
  simpa only [hin, hout] using hfault

/-- A body that has appended its output completes, and only that output, STATUS and the phase tell
the result from the state `u` that the appends are counted from. -/
theorem Started.completes {out : List Byte} (hs : Started s) (hkept : Kept s v)
    (hout : AppendResult u v out) (hzero : u.outPos = 0) (hfit : out.length < 2 ^ 32) :
    CompleteResult s (complete v) out ∧ complete v = { u with
      outPos := BitVec.ofNat 32 out.length, outLen := BitVec.ofNat 32 out.length
      outBuf := (complete v).outBuf, status := (complete v).status, phase := .idle } := by
  have hconflict : v.hc.isSet = false := by
    obtain ⟨-, -, -, -, hhc, -⟩ := hkept
    rw [hhc, hs.no_conflict]
  refine ⟨complete_result hkept hs.no_conflict hout hzero hfit, ?_⟩
  have hstate : v = { u with outBuf := v.outBuf, outPos := BitVec.ofNat 32 out.length } := by
    simpa only [hzero, zero_add] using hout.1
  rw [complete_of_no_conflict hconflict, publish, hstate]

end

end Sys2Proof.Machine
end

section
/-! JPK_DECODE: its start checks in their order, and its raw body. -/

namespace Sys2Proof.Machine

/-! ### JPK types (30_encoding.md R103) -/

theorem jpkType_eq_reserved_iff {ty : Half} : jpkType ty = .reserved ↔ ty ∉ [0, 2, 3, 4] := by
  unfold jpkType
  split_ifs <;> simp_all

theorem jpkType_eq_huffRw_iff {ty : Half} : jpkType ty = .huffRw ↔ ty = 2 := by
  unfold jpkType
  split_ifs <;> simp_all

section
variable {s : State} {off size : Word}

/-! ### The start checks (47_commands.md R284) -/

/-- The checks of a header that can be read, each with the fault it raises; what passes them all
goes on to the body. -/
theorem jpkDecodeCommand_header (hin : s.inLen.toNat ≤ s.cfg.inCap) (hlen : 16 ≤ s.inLen.toNat)
    (hhead : HasBytes s.inBuf 0 16) :
    jpkDecodeCommand s =
      let magic := le32At s.inBuf 0
      let ty := le16At s.inBuf 6
      let off := le32At s.inBuf 8
      let size := le32At s.inBuf 12
      let sized : State := { s with size := size }
      if magic ≠ 0x1A524B4A then .error (.raise .malformedHeader magic.toNat) s
      else if ty ∉ [0, 2, 3, 4] then .error (.raise .invalidFormat ty.toNat) sized
      else if ty = 2 ∧ s.cfg.type2Mode = .refuse then
        .error (.raise .unsupportedOperation 2) sized
      else if off.toNat < 16 ∨ s.inLen.toNat < off.toNat then
        .error (.raise .malformedHeader off.toNat) sized
      else if s.cfg.outCap < size.toNat then .error (.raise .bufferCapacity size.toNat) sized
      else jpkBody (jpkType ty) off size sized := by
  rw [jpkDecodeCommand, Engine.bind_ok (checkInCap_ok hin), Engine.bind_ok (checkHeaderLen_ok hlen),
    Engine.bind_ok (inLE32_ok (hhead.sub (by omega) (by omega))), raiseIf_bind]
  simp only [bne_iff_ne, jpkMagic]
  refine if_congr Iff.rfl rfl ?_
  rw [Engine.bind_ok (inLE16_ok (hhead.sub (by omega) (by omega))),
    Engine.bind_ok (inLE32_ok (hhead.sub (by omega) (by omega))),
    Engine.bind_ok (inLE32_ok (hhead.sub (by omega) (by omega))), Engine.modify_bind,
    raiseIf_bind]
  simp only [beq_iff_eq, jpkType_eq_reserved_iff]
  refine if_congr Iff.rfl rfl ?_
  rw [Engine.get_bind, raiseIf_bind, raiseIf_bind, checkOutCap_bind]
  simp only [Bool.and_eq_true, beq_iff_eq, jpkType_eq_huffRw_iff, decide_eq_true_eq]

/-- Settles O27: the first check that fails in the chain of `jpkDecodeCommand_header` is the one
whose fault is taken. -/
theorem jpkDecodeStartChecks : Obligations.JpkDecodeStartChecks := by
  intro s hs
  refine ⟨fun hover => ?_, fun hin hshort => ?_, fun hin hlen hhead => ?_⟩
  · refine hs.jpkDecode_check_faults (k := .bufferCapacity) (size := s.size) ?_ s.inLen.isLt
    rw [jpkDecodeCommand, checkInCap_bind, if_pos hover]
  · refine hs.jpkDecode_check_faults (k := .malformedHeader) (size := s.size) ?_ s.inLen.isLt
    rw [jpkDecodeCommand, Engine.bind_ok (checkInCap_ok hin), checkHeaderLen_bind, if_pos hshort]
  have hchecks := jpkDecodeCommand_header hin hlen hhead
  refine ⟨fun hmagic => ?_, fun hmagic => ?_⟩
  · rw [if_pos hmagic] at hchecks
    exact hs.jpkDecode_check_faults (k := .malformedHeader) (size := s.size) hchecks
      (BitVec.isLt _)
  rw [if_neg (not_not.2 hmagic)] at hchecks
  refine ⟨fun hty => ?_, fun hty hmode => ?_,
    fun hty hmode => ⟨fun hoff => ?_, fun hoff hsize => ?_⟩⟩
  · rw [if_pos hty] at hchecks
    exact hs.jpkDecode_check_faults (k := .invalidFormat) hchecks (by omega)
  · rw [if_neg (by simp [hty]), if_pos ⟨hty, hmode⟩] at hchecks
    exact hs.jpkDecode_check_faults (k := .unsupportedOperation) hchecks (by decide)
  all_goals rw [if_neg (not_not.2 hty), if_neg hmode] at hchecks
  · rw [if_pos hoff] at hchecks
    exact hs.jpkDecode_check_faults (k := .malformedHeader) hchecks (BitVec.isLt _)
  · rw [if_neg hoff, if_pos hsize] at hchecks
    exact hs.jpkDecode_check_faults (k := .bufferCapacity) hchecks (BitVec.isLt _)

/-! ### The bodies (47_commands.md R285, R286) -/

/-- Settles O25: with every check passed, only the working state that the body sets is new. -/
theorem jpkDecodeStartsLzDecode : Obligations.JpkDecodeStartsLzDecode :=
  fun _ _ _ _ h => jpkDecode_lz_starts h

/-- A raw file that passes the checks is copied from its body on. -/
theorem jpkDecodeCommand_raw (h : JpkReady s 0 off size) :
    jpkDecodeCommand s = (copyIn size.toNat >>= fun _ => pure false)
      (State.withInPos off { s with size := size }) := by
  rw [jpkDecodeCommand_ready h (by decide) (fun he => absurd he (by decide))]
  rfl

/-- An accepted output fits OUT, and `out_pos` can count it. -/
theorem JpkReady.room {ty : Half} (h : JpkReady s ty off size) (hs : Started s) :
    s.outPos.toNat + size.toNat ≤ s.cfg.outCap ∧ s.outPos.toNat + size.toNat < 2 ^ 32 := by
  obtain ⟨-, -, -, -, -, -, -, -, -, hcap⟩ := h
  have hfit := size.isLt
  rw [hs.outPos_eq_zero, show (0 : Word).toNat = 0 from rfl, Nat.zero_add]
  exact ⟨hcap, hfit⟩

/-- A body that IN holds in full is the output. -/
theorem jpkDecode_raw_copies (hs : Started s) (h : JpkReady s 0 off size)
    (hend : off.toNat + size.toNat ≤ s.inLen.toNat)
    (hbytes : HasBytes s.inBuf off.toNat size.toNat) :
    ∃ t, exec .jpkDecode s = .next t ∧
      CompleteResult s t (bytesAt s.inBuf off.toNat size.toNat) ∧
      t = { s with
        size := size, inPos := off + size, outPos := size, outLen := size,
        outBuf := t.outBuf, status := t.status, phase := .idle } := by
  obtain ⟨hroom, hfit⟩ := h.room hs
  obtain ⟨v, hcopy, hout⟩ := copyIn_ok (s := State.withInPos off { s with size := size })
    hend hroom hfit hbytes
  have hrun : jpkDecodeCommand s = .ok false v :=
    (jpkDecodeCommand_raw h).trans (Engine.bind_ok hcopy)
  obtain ⟨hresult, hframe⟩ := hs.completes (kept_closed.jpkDecode.ok hrun) hout hs.outPos_eq_zero
    (by rw [bytesAt_length]; exact size.isLt)
  rw [bytesAt_length, BitVec.ofNat_toNat, BitVec.setWidth_eq] at hframe
  refine ⟨complete v, ?_, hresult, hframe⟩
  show execJpkDecode s = _
  simp only [execJpkDecode, hrun]

/-- A body that IN holds only in part is copied up to the end of IN, where the next read faults. -/
theorem jpkDecode_raw_truncated (hs : Started s) (h : JpkReady s 0 off size)
    (hend : s.inLen.toNat < off.toNat + size.toNat)
    (hbytes : HasBytes s.inBuf off.toNat (s.inLen.toNat - off.toNat)) :
    ∃ t, exec .jpkDecode s = .next t ∧
      FaultResult s t 0x02 s.inLen.toNat s.inLen (s.inLen - off) := by
  obtain ⟨hroom, hfit⟩ := h.room hs
  have hoff : off.toNat ≤ s.inLen.toNat := by
    obtain ⟨-, -, -, -, -, -, -, -, hoff, -⟩ := h
    exact hoff
  obtain ⟨v, hcopy, hout⟩ := copyIn_truncated (s := State.withInPos off { s with size := size })
    hoff hend hroom hfit hbytes
  have hrun := (jpkDecodeCommand_raw h).trans (Engine.bind_error hcopy)
  have hfault := hs.jpkDecode_faults hrun s.inLen.isLt
  have hin : v.inPos = s.inLen := hout.inPos
  have hpos : v.outPos = s.inLen - off := by
    rw [hout.1, bytesAt_length]
    show s.outPos + BitVec.ofNat 32 (s.inLen.toNat - off.toNat) = _
    rw [hs.outPos_eq_zero]
    bv_omega
  rwa [hin, hpos] at hfault

end

/-- Settles O26: the copy loop runs to `size` bytes, or to the end of IN. -/
theorem jpkDecodeCopiesRawBody : Obligations.JpkDecodeCopiesRawBody :=
  fun _ _ _ hs h => ⟨jpkDecode_raw_copies hs h, jpkDecode_raw_truncated hs h⟩

end Sys2Proof.Machine
end

section
/-! JPK_ENCODE: its start checks in their order, and the raw file. -/

namespace Sys2Proof.Machine

/-! ### The start checks (47_commands.md R287) -/

section
variable {s : State}

theorem jpkEncodeCommand_over (h : s.cfg.inCap < s.inLen.toNat) :
    jpkEncodeCommand s = .error (.raise .bufferCapacity s.inLen.toNat) s := by
  rw [jpkEncodeCommand, checkInCap_bind, if_pos h]

theorem jpkEncodeCommand_huff (hin : s.inLen.toNat ≤ s.cfg.inCap)
    (hty : s.paramType = 2 ∨ s.paramType = 4) :
    jpkEncodeCommand s = .error (.raise .unsupportedOperation s.paramType.toNat) s := by
  rw [jpkEncodeCommand, Engine.bind_ok (checkInCap_ok hin), Engine.get_bind]
  exact raiseIf_bind_true (by rcases hty with h | h <;> rw [h] <;> rfl) ..

theorem jpkEncodeCommand_reserved (hin : s.inLen.toNat ≤ s.cfg.inCap)
    (hty : s.paramType ∉ [0, 2, 3, 4]) :
    jpkEncodeCommand s = .error (.raise .invalidFormat s.paramType.toNat) s := by
  rw [jpkEncodeCommand, Engine.bind_ok (checkInCap_ok hin), Engine.get_bind]
  simp only [jpkType_eq_reserved_iff.2 hty]
  rw [raiseIf_bind_false (by rfl)]
  exact raiseIf_bind_true rfl ..

end

/-- Settles O32: the type decides which checks apply, and each leaves the state as it is. -/
theorem jpkEncodeStartChecks : Obligations.JpkEncodeStartChecks := by
  intro s hs
  refine ⟨fun hover => hs.check_faults (k := .bufferCapacity) (jpkEncodeCommand_over hover)
    s.inLen.isLt, fun hin => ⟨fun hty => ?_, fun hty => ?_, fun hty hlevel => ?_,
    fun hty hroom hfit => ?_⟩⟩
  · exact hs.check_faults (k := .unsupportedOperation) (jpkEncodeCommand_huff hin hty) (by omega)
  · exact hs.check_faults (k := .invalidFormat) (jpkEncodeCommand_reserved hin hty) (by omega)
  · refine hs.check_faults (k := .paramRange) ?_ (by omega)
    rw [jpkEncodeCommand_lz hty, if_neg (Nat.not_lt.2 hin), if_pos hlevel]
  · refine hs.check_faults (k := .bufferCapacity) ?_ hfit
    rw [jpkEncodeCommand_raw hty, if_neg (Nat.not_lt.2 hin), if_pos hroom]

/-! ### The raw file (47_commands.md R287, R288) -/

/-- With room in OUT the header is appended and then the plaintext, which uses up IN. -/
theorem jpkEncodeCommand_raw_ok {s : State} (hs : Started s) (hty : s.paramType = 0)
    (hin : s.inLen.toNat ≤ s.cfg.inCap) (hroom : 16 + s.inLen.toNat ≤ s.cfg.outCap)
    (hfit : 16 + s.inLen.toNat < 2 ^ 32) (hbytes : HasBytes s.inBuf 0 s.inLen.toNat) :
    ∃ v, jpkEncodeCommand s = .ok () v ∧ AppendResult (s.withInPos s.inLen) v
      (jpkFileHeader s.paramUnk 0 s.inLen ++ bytesAt s.inBuf 0 s.inLen.toNat) := by
  obtain ⟨u, hhead, -, htext, -, hpos, hheader⟩ := jpkHeader_written hs
  obtain ⟨v, hcopy, hcopied⟩ := copyIn_ok (s := u.withInPos 0) (n := s.inLen.toNat)
    (by show 0 + _ ≤ u.inLen.toNat; rw [htext.inLen, Nat.zero_add])
    (by show u.outPos.toNat + _ ≤ u.cfg.outCap; rw [hpos, htext.cfg]; exact hroom)
    (by show u.outPos.toNat + _ < 2 ^ 32; rw [hpos]; exact hfit)
    (by show HasBytes u.inBuf 0 _; rw [htext.inBuf]; exact hbytes)
  refine ⟨v, ?_, ?_⟩
  · rw [jpkEncodeCommand_raw hty, if_neg (Nat.not_lt.2 hin), if_neg (Nat.not_lt.2 hroom),
      Engine.bind_ok hhead, Engine.modify_bind, hcopy]
  · have hend : (0 : Word) + BitVec.ofNat 32 s.inLen.toNat = s.inLen := by
      rw [zero_add, BitVec.ofNat_toNat, BitVec.setWidth_eq]
    have hbody : AppendResult (u.withInPos (0 + BitVec.ofNat 32 s.inLen.toNat)) v
        (bytesAt u.inBuf 0 s.inLen.toNat) := hcopied
    rw [hend, htext.inBuf] at hbody
    rw [← hty]
    refine (hheader.withInPos s.inLen).trans hbody ?_
    rw [State.withInPos_outPos, hs.outPos_eq_zero, bytesAt_length]
    exact hfit

/-- Settles O28: what the body has appended is the file that completion publishes. -/
theorem jpkEncodeWritesRawFile : Obligations.JpkEncodeWritesRawFile := by
  intro s hs hty hin hroom hfit hbytes
  obtain ⟨v, hrun, hout⟩ := jpkEncodeCommand_raw_ok hs hty hin hroom hfit hbytes
  obtain ⟨hresult, hframe⟩ := hs.completes (kept_closed.jpkEncode.ok hrun) hout hs.outPos_eq_zero
    (by rw [List.length_append, bytesAt_length]; exact hfit)
  refine ⟨complete v, runBody_ok hrun, hresult, ?_⟩
  rw [hframe]
  rfl

end Sys2Proof.Machine
end

section
/-! LCG_NEXT: one step of the selected entry, or the fault of an index outside the table. -/

namespace Sys2Proof.Machine

section
variable {s : State} {tsel : Bool} {e : LcgEntry}

theorem lcgNextBody_inside
    (h : (lcgTable s.cfg (tableOf tsel)).entries[s.paramIndex.toNat]? = some e)
    (hc : s.hc.isSet = false) :
    lcgNextBody tsel s = .ok () { s with
      lcgState := lcgStep e s.lcgState, lcgWord := lcgStep e s.lcgState } := by
  have hindex : s.paramIndex.toNat < lcgCount s.cfg (tableOf tsel) :=
    (List.getElem?_eq_some_iff.1 h).1
  have hstep : lcgNext (tableOf tsel) s.paramIndex s.lcgState s =
      .ok (lcgStep e s.lcgState) s := by
    rw [lcgNext, Engine.get_bind, h]
    rfl
  rw [lcgNextBody, Engine.get_bind, Engine.bind_ok (checkIndex_ok hindex), Engine.bind_ok hstep,
    Engine.modify_apply, if_neg (by simp [hc])]

theorem lcgNextBody_outside (h : lcgCount s.cfg (tableOf tsel) ≤ s.paramIndex.toNat) :
    lcgNextBody tsel s = .error (.raise .malformedHeader s.paramIndex.toNat) s := by
  rw [lcgNextBody, Engine.get_bind, checkIndex_bind, if_pos h]

theorem Memory.below_zero (m : Memory) : Memory.below m 0 = [] := by simp [Memory.below]

/-- Completing with nothing appended publishes an empty OUT. -/
theorem Started.completes_empty {u : State} (hs : Started u) :
    CompleteResult u (complete u) [] ∧ complete u = { u with
      outLen := 0, outBuf := [], status := (complete u).status, phase := .idle } := by
  have hzero := hs.outPos_eq_zero
  have hpos : u.outPos.toNat = 0 := by rw [hzero]; rfl
  refine ⟨complete_result (kept_closed.refl u) hs.no_conflict (.nil u) hzero (by decide), ?_⟩
  rw [complete_of_no_conflict hs.no_conflict, publish, hpos, Memory.below_zero, hzero]

end

/-- Settles O34: the two registers are written before the command completes, and no fault of it
reaches that write. -/
theorem lcgNextStepsOrFaults : Obligations.LcgNextStepsOrFaults := by
  intro tsel s hs
  have htable : lcgTable s.cfg (tableOf tsel) =
      if tsel then s.cfg.exfLcgTable else s.cfg.ecdLcgTable := by cases tsel <;> rfl
  rw [← htable]
  refine ⟨fun e he => ?_, fun hout => ?_⟩
  · let u : State := { s with
      lcgState := lcgStep e s.lcgState, lcgWord := lcgStep e s.lcgState }
    have hrun : lcgNextBody tsel s = .ok () u := lcgNextBody_inside he hs.no_conflict
    obtain ⟨hresult, hframe⟩ := Started.completes_empty (u := u) hs
    refine ⟨complete u, runBody_ok hrun, hresult, ?_, ?_, ?_⟩
    all_goals rw [hframe]
    · exact lcgStep_toNat e s.lcgState
  · exact hs.check_faults (k := .malformedHeader) (lcgNextBody_outside hout) (by omega)

end Sys2Proof.Machine
end

section
/-! The start checks of the cipher commands. Both decrypting commands begin with the same checks,
which are stated once. -/

namespace Sys2Proof.Machine

/-- The checks of IN_LEN, magic and index that both decrypting commands begin with (47_commands.md
R290, R292), and what follows them. -/
def cipherStart (magic : Word) (t : LcgTab) (rest : Half → Engine Unit) : Engine Unit := do
  checkInCap
  checkHeaderLen
  let m ← h32 .inBuf 0
  raiseIf (m != magic) .malformedHeader m.toNat
  let index ← h16 .inBuf 4
  checkIndex t index
  rest index

theorem ecdDecryptCommand_eq_cipherStart :
    ecdDecryptCommand = cipherStart 0x1A646365 .ecd (fun index => do
      let n ← h32 .inBuf 8
      checkOutCap n.toNat
      selectLcg .ecd index
      ecdDecryptBody n.toNat) := rfl

theorem exfDecryptCommand_eq_cipherStart :
    exfDecryptCommand = cipherStart 0x1A667865 .exf (fun index => do
      let s ← get
      checkOutCap s.inLen.toNat
      selectLcg .exf index
      exfDecryptBody) := rfl

section
variable {s : State} {magic : Word} {t : LcgTab} {rest : Half → Engine Unit}

theorem cipherStart_over (h : s.cfg.inCap < s.inLen.toNat) :
    cipherStart magic t rest s = .error (.raise .bufferCapacity s.inLen.toNat) s := by
  rw [cipherStart, checkInCap_bind, if_pos h]

theorem cipherStart_short (hin : s.inLen.toNat ≤ s.cfg.inCap) (h : s.inLen.toNat < 16) :
    cipherStart magic t rest s = .error (.raise .malformedHeader s.inLen.toNat) s := by
  rw [cipherStart, Engine.bind_ok (checkInCap_ok hin), checkHeaderLen_bind, if_pos h]

/-- The checks of a header that can be read. -/
theorem cipherStart_header (hin : s.inLen.toNat ≤ s.cfg.inCap) (hlen : 16 ≤ s.inLen.toNat)
    (hhead : HasBytes s.inBuf 0 16) :
    cipherStart magic t rest s =
      let m := h32At s.cfg.hdrOrder s.inBuf 0
      let index := h16At s.cfg.hdrOrder s.inBuf 4
      if m ≠ magic then .error (.raise .malformedHeader m.toNat) s
      else if (lcgTable s.cfg t).entries.length ≤ index.toNat then
        .error (.raise .malformedHeader index.toNat) s
      else rest index s := by
  rw [cipherStart, Engine.bind_ok (checkInCap_ok hin), Engine.bind_ok (checkHeaderLen_ok hlen),
    Engine.bind_ok (inH32_ok (hhead.sub (by omega) (by omega))), raiseIf_bind]
  simp only [bne_iff_ne]
  refine if_congr Iff.rfl rfl ?_
  rw [Engine.bind_ok (inH16_ok (hhead.sub (by omega) (by omega))), checkIndex_bind, lcgCount]

end

/-- A command that begins with the shared checks, and checks its output length next, has the start
checks of a decrypting command. -/
theorem cipherChecks_of_cipherStart {i : Instr} {body : Engine Unit} {magic : Word} {t : LcgTab}
    {rest : Half → Engine Unit} {len : State → Word} (hexec : ∀ s, exec i s = runCommand body s)
    (hbody : body = cipherStart magic t rest)
    (hrest : ∀ (s : State) (index : Half), HasBytes s.inBuf 0 16 → s.cfg.outCap < (len s).toNat →
      rest index s = .error (.raise .bufferCapacity (len s).toNat) s) :
    CipherChecks i magic (fun c => lcgTable c t) len := by
  intro s hs
  simp only [hexec, hbody]
  refine ⟨fun hover => hs.check_faults (k := .bufferCapacity) (cipherStart_over hover) s.inLen.isLt,
    fun hin hshort => hs.check_faults (k := .malformedHeader) (cipherStart_short hin hshort)
      s.inLen.isLt, fun hin hlen hhead => ?_⟩
  have hchecks := cipherStart_header (magic := magic) (t := t) (rest := rest) hin hlen hhead
  refine ⟨fun hmagic => ?_, fun hmagic => ⟨fun hindex => ?_, fun hindex hsize => ?_⟩⟩
  · rw [if_pos hmagic] at hchecks
    exact hs.check_faults (k := .malformedHeader) hchecks (BitVec.isLt _)
  all_goals rw [if_neg (not_not.2 hmagic)] at hchecks
  · rw [if_pos hindex] at hchecks
    exact hs.check_faults (k := .malformedHeader) hchecks (by omega)
  · rw [if_neg (Nat.not_le.2 hindex), hrest s _ hhead hsize] at hchecks
    exact hs.check_faults (k := .bufferCapacity) hchecks (BitVec.isLt _)

/-- Settles O41: after the shared checks ECD_DECRYPT checks the length in its header, and
EXF_DECRYPT checks IN_LEN. -/
theorem cipherDecryptStartChecks : Obligations.CipherDecryptStartChecks := by
  refine ⟨cipherChecks_of_cipherStart (fun _ => rfl) ecdDecryptCommand_eq_cipherStart
      fun s index hhead hsize => ?_,
    cipherChecks_of_cipherStart (fun _ => rfl) exfDecryptCommand_eq_cipherStart
      fun s index hhead hsize => ?_⟩
  · rw [Engine.bind_ok (inH32_ok (hhead.sub (by omega) (by omega))), checkOutCap_bind,
      if_pos hsize]
  · rw [Engine.get_bind, checkOutCap_bind, if_pos hsize]

/-! ### ECD_ENCRYPT (47_commands.md R291) -/

section
variable {s : State}

theorem ecdEncryptCommand_over (h : s.cfg.inCap < s.inLen.toNat) :
    ecdEncryptCommand s = .error (.raise .bufferCapacity s.inLen.toNat) s := by
  rw [ecdEncryptCommand, checkInCap_bind, if_pos h]

theorem ecdEncryptCommand_index (hin : s.inLen.toNat ≤ s.cfg.inCap)
    (hmeta : HasBytes s.metaBuf 4 2)
    (h : lcgCount s.cfg .ecd ≤ (h16At s.cfg.hdrOrder s.metaBuf 4).toNat) :
    ecdEncryptCommand s =
      .error (.raise .malformedHeader (h16At s.cfg.hdrOrder s.metaBuf 4).toNat) s := by
  rw [ecdEncryptCommand, Engine.bind_ok (checkInCap_ok hin), Engine.bind_ok (metaH16_ok hmeta),
    checkIndex_bind, if_pos h]

theorem ecdEncryptCommand_full (hin : s.inLen.toNat ≤ s.cfg.inCap)
    (hmeta : HasBytes s.metaBuf 4 2)
    (hindex : (h16At s.cfg.hdrOrder s.metaBuf 4).toNat < lcgCount s.cfg .ecd)
    (h : s.cfg.outCap < 16 + s.inLen.toNat) :
    ecdEncryptCommand s = .error (.raise .bufferCapacity (16 + s.inLen.toNat)) s := by
  rw [ecdEncryptCommand, Engine.bind_ok (checkInCap_ok hin), Engine.bind_ok (metaH16_ok hmeta),
    Engine.bind_ok (checkIndex_ok hindex), Engine.get_bind, checkOutCap_bind, if_pos h]

end

/-- Settles O42: each check runs where those before it have passed, and leaves the state alone. -/
theorem ecdEncryptStartChecks : Obligations.EcdEncryptStartChecks := by
  intro s hs
  exact ⟨fun hover => hs.check_faults (k := .bufferCapacity) (ecdEncryptCommand_over hover)
      s.inLen.isLt,
    fun hin hmeta => ⟨fun hindex => hs.check_faults (k := .malformedHeader)
        (ecdEncryptCommand_index hin hmeta hindex) (by omega),
      fun hindex hfull hfit => hs.check_faults (k := .bufferCapacity)
        (ecdEncryptCommand_full hin hmeta hindex hfull) hfit⟩⟩

/-! ### EXF_ENCRYPT (47_commands.md R293) -/

/-- Settles O44: the body is nothing but the fault. -/
theorem exfEncryptAlwaysFaults : Obligations.ExfEncryptAlwaysFaults :=
  ⟨rfl, fun _ hs => hs.check_faults (k := .unsupportedOperation) (raise_apply ..) (by decide)⟩

end Sys2Proof.Machine
end

section
/-! Which agent a step belongs to, and what it runs: a move of the HOST, a command, or a token of
the decode. -/

namespace Sys2Proof.Machine

section
variable {s : State}

theorem step_of_no_host (hhost : s.host = []) : step s = engineStep s := by
  simp only [step, hhost]

theorem step_of_wait {rest : List HostEvent} (hhost : s.host = .wait :: rest) :
    step s = engineStep { s with host := rest } := by
  simp only [step, hhost]

theorem step_of_move {m : HostMove} {rest : List HostEvent} (hhost : s.host = .move m :: rest) :
    step s = hostMove m { s with host := rest } := by
  simp only [step, hhost]

theorem engineStep_of_dispatch {v : Word} {i : Instr} (hphase : s.phase = .dispatch v)
    (hdecode : decodeCommand v = .ok i) : engineStep s = exec i s := by
  simp only [engineStep, hphase, dispatch, hdecode]

/-- A fault raised while a token's head is read ends the decode at the token's start. -/
theorem decodeStep_fetch_faults {f : FaultKind} {info : Nat} {u : State}
    (hphase : s.phase = .lzDecode) (hroom : s.outPos.toNat < s.size.toNat)
    (hc : s.hc.isSet = false) (hinfo : info < 2 ^ 32)
    (hfetch : fetchToken s.markToken = .error (.raise f info) u) :
    ∃ t, decodeStep s = .next t ∧ FaultResult s t f.code info u.inPos s.outPos :=
  ⟨_, decodeStep_fetch_raised hroom hfetch,
    (tokenKept_closed.fetchToken.error hfetch).faultResult (s := s.markToken) hphase hc hinfo⟩

end

/-- Settles O17, along the two agents and the phases of the engine. -/
theorem stepRunsTheFetchedInstruction : Obligations.StepRunsTheFetchedInstruction := by
  refine ⟨fun s v i hhost hphase hdecode => ?_, fun s i t hhost hphase hroom hfetch => ?_,
    fun s f info t hhost hphase hroom hc hinfo hfetch => ?_, fun s => step_of_no_host,
    fun s rest => step_of_wait, fun s m rest => step_of_move⟩
  · rw [step_of_no_host hhost, engineStep_of_dispatch hphase hdecode]
  · rw [step_of_decode hhost hphase]
    exact decodeStep_fetched hroom hfetch
  · rw [step_of_decode hhost hphase]
    exact decodeStep_fetch_faults hphase hroom hc hinfo hfetch

/-- Settles O45: the move is a register write while idle, and that of CMD is `commandStart`. -/
theorem cmdWriteStartsCommand : Obligations.CmdWriteStartsCommand := by
  intro s v rest hhost hidle
  let u : State := { s with host := rest }
  have hmove : step s = .next { commandStart v u with hostData := none } := by
    rw [step_of_move hhost, hostMove_idle (s := u) hidle]
    rfl
  exact ⟨_, hmove, statusReads_statusWord .., rfl⟩

end Sys2Proof.Machine
end

section
/-! How a running command ends: one lemma for an instruction and one for a step of the ENGINE say that
it completes, takes a fault, or ends with the latched conflict; the statements on faults and on the
conflict are read off them. -/

namespace Sys2Proof.Machine

/-! ### What taking a fault leaves -/

theorem infoWord_of_lt {n : Nat} (h : n < 2 ^ 32) : infoWord n = BitVec.ofNat 32 n := if_pos h

@[simp] theorem infoWord_toNat (w : Word) : infoWord w.toNat = w := by
  rw [infoWord_of_lt w.isLt, BitVec.ofNat_toNat, BitVec.setWidth_eq]

/-- A command that began in `s` has ended in `t` with the fault `k`, with no output
(60_exceptions.md R324): `FaultResult` without the recorded positions, for every value. -/
def EndsWithFault (s t : State) (k : FaultKind) (info : Nat) : Prop :=
  StatusReads t.status false false true k.code (s.status.extractLsb' 16 8) ∧
  t.faultInfo = infoWord info ∧ t.outLen = 0 ∧ t.outBuf = [] ∧ InputsAndLcgKept s t

section
variable {s s' t : State}

theorem takeFault_endsWithFault (hkept : InputsAndLcgKept s s') (hstatus : s'.status = s.status)
    (k : FaultKind) (info : Nat) : EndsWithFault s (takeFault k info s') k info := by
  refine ⟨?_, rfl, rfl, rfl, hkept⟩
  rw [State.takeFault_status, statusFaulted, hstatus]
  exact statusReads_statusWord ..

/-! ### The three ends of a command -/

/-- The command that ran in `s` is over in `t`. A latched conflict leaves it one end only
(60_exceptions.md R326, R331). -/
inductive CommandEnds (s t : State) : Prop where
  | completed (hc : s.hc.isSet = false) (u : State) (h : t = publish u)
  | faulted (hc : s.hc.isSet = false) (k : FaultKind) (info : Nat) (h : EndsWithFault s t k info)
  | conflicted (hc : s.hc.isSet = true) (h : EndsWithFault s t .hostConflict s.hc.info.toNat)

theorem Kept.endWithFault_ends (h : Kept s s') (k : FaultKind) (info : Nat) :
    CommandEnds s (endWithFault k info s') := by
  have hkept := h.inputsAndLcg
  obtain ⟨-, -, hstatus, -, hlatch, -⟩ := h
  rcases endWithFault_cases k info s' with ⟨hc, e⟩ | ⟨hc, e⟩ <;> rw [e] <;> rw [hlatch] at hc
  · exact .faulted hc k info (takeFault_endsWithFault hkept hstatus k info)
  · rw [hlatch]
    exact .conflicted hc (takeFault_endsWithFault hkept hstatus ..)

theorem Kept.complete_ends (h : Kept s s') : CommandEnds s (complete s') := by
  have hkept := h.inputsAndLcg
  obtain ⟨-, -, hstatus, -, hlatch, -⟩ := h
  rcases complete_cases s' with ⟨hc, e⟩ | ⟨hc, e⟩ <;> rw [e] <;> rw [hlatch] at hc
  · exact .completed hc s' rfl
  · rw [hlatch]
    exact .conflicted hc (takeFault_endsWithFault (s' := { s' with phase := .idle }) hkept hstatus ..)

/-- Where the engine is idle after a body, the body did not leave a decode running. -/
theorem Kept.commandEnds (h : Kept s s') (hrun : s.phase ≠ .idle) (hidle : t.phase = .idle)
    (hend : t = s' ∨ t = s'.startDecode ∨ t = complete s' ∨ ∃ k n, t = endWithFault k n s') :
    CommandEnds s t := by
  rcases hend with rfl | rfl | rfl | ⟨k, n, rfl⟩
  · obtain ⟨-, hphase, -⟩ := h
    exact absurd (hphase.symm.trans hidle) hrun
  · cases hidle
  · exact h.complete_ends
  · exact h.endWithFault_ends k n

theorem ExecEnds.body {i : Instr} (h : ExecEnds i s' t) :
    t = s' ∨ t = s'.startDecode ∨ t = complete s' ∨ ∃ k n, t = endWithFault k n s' :=
  h.imp And.right (.imp And.right (.imp_left And.right))

theorem exec_commandEnds {i : Instr} (hrun : s.phase ≠ .idle) (e : exec i s = .next t)
    (hidle : t.phase = .idle) : CommandEnds s t := by
  rcases exec_next kept_closed e with ⟨s', hk, hend⟩ | ⟨b, w, -, hc, ht⟩
  · exact hk.commandEnds hrun hidle hend.body
  · exact .completed hc _ ht

theorem engineStep_commandEnds (hrun : s.phase ≠ .idle) (e : engineStep s = .next t)
    (hidle : t.phase = .idle) : CommandEnds s t := by
  rcases engineStep_next kept_closed kept_markToken e with
    ⟨hphase, -⟩ | ⟨-, s', hk, hend⟩ | ⟨v, b, w, -, -, hc, ht⟩
  · exact absurd hphase hrun
  · exact hk.commandEnds hrun hidle (hend.imp_left And.right)
  · exact .completed hc _ ht

/-- A completed command has ERR clear, so one that ends with ERR set took some fault. -/
theorem CommandEnds.endsWithFault (h : CommandEnds s t) (herr : statusErr t.status = true) :
    ∃ k info, EndsWithFault s t k info := by
  cases h with
  | completed hc u ht => simp [ht, statusCompleted] at herr
  | faulted hc k info h => exact ⟨k, info, h⟩
  | conflicted hc h => exact ⟨_, _, h⟩

theorem CommandEnds.noOutput (h : CommandEnds s t) (herr : statusErr t.status = true) :
    t.outLen = 0 ∧ t.outBuf = [] ∧ t.lcgState = s.lcgState ∧ t.lcgWord = s.lcgWord ∧
      InputsKept s t := by
  obtain ⟨_, _, -, -, hlen, hout, hin, hstate, hword⟩ := h.endsWithFault herr
  exact ⟨hlen, hout, hstate, hword, hin⟩

/-- Of the three ends a latched conflict leaves the last. -/
theorem CommandEnds.withConflict (h : CommandEnds s t) (hset : s.hc.isSet = true) :
    StatusReads t.status false false true 0x15 (s.status.extractLsb' 16 8) ∧
      t.faultInfo = s.hc.info ∧ t.outLen = 0 ∧ t.outBuf = [] ∧
      t.lcgState = s.lcgState ∧ t.lcgWord = s.lcgWord ∧ InputsKept s t := by
  cases h with
  | completed hc | faulted hc => simp [hset] at hc
  | conflicted hc h =>
    obtain ⟨hstatus, hinfo, hlen, hout, hin, hstate, hword⟩ := h
    exact ⟨hstatus, hinfo.trans (infoWord_toNat _), hlen, hout, hstate, hword, hin⟩

end

/-! ### The obligations -/

/-- Settles O47: the effects are those of `takeFault_endsWithFault`, and the recorded value fits. -/
theorem faultHasItsEffects : Obligations.FaultHasItsEffects := by
  refine ⟨fun k info s hfits => ?_, rfl⟩
  obtain ⟨hstatus, hinfo, hlen, hout, hin, hstate, hword⟩ :=
    takeFault_endsWithFault (s := s) (kept_closed.refl s).inputsAndLcg rfl k info
  exact ⟨rfl, rfl, hinfo.trans (infoWord_of_lt hfits), hlen, hout, hstatus, hstate, hword, rfl, hin⟩

/-- Settles O48: a running command that is idle afterwards has ended, and with ERR set it ended with
a fault. -/
theorem faultsPublishNoOutput : Obligations.FaultsPublishNoOutput :=
  ⟨fun _ _ hrun e hidle herr => (engineStep_commandEnds hrun e hidle).noOutput herr,
    fun _ _ _ hrun e hidle herr => (exec_commandEnds hrun e hidle).noOutput herr⟩

/-- Settles O49: a latched conflict leaves a command one end, and a decode that has made its output
ends by `complete`. -/
theorem hostConflictOverridesEveryOutcome : Obligations.HostConflictOverridesEveryOutcome := by
  refine ⟨fun s t hrun hset e hidle => (engineStep_commandEnds hrun e hidle).withConflict hset,
    fun i s t hrun hset e hidle => (exec_commandEnds hrun e hidle).withConflict hset,
    fun s hphase _ hdone => ⟨complete s, ?_, complete_phase s⟩⟩
  simp only [engineStep, hphase]
  exact decodeStep_finished hdone

end Sys2Proof.Machine
end

section
/-! The host port while a command runs: the descriptor of an access, the moves that BUSY turns into a
conflict, and reset. -/

namespace Sys2Proof.Machine

/-! ### The descriptor of an access (60_exceptions.md R331) -/

section
variable (space : BitVec 2) (write : Bool) (a : Word)

theorem descriptor_space : (descriptor space write a).extractLsb' 30 2 = space := by
  rw [descriptor, BitVec.extractLsb'_append_eq_of_le (by decide)]
  exact BitVec.extractLsb'_append_eq_left

theorem descriptor_write : (descriptor space write a).getLsbD 29 = write := by
  rw [descriptor, BitVec.getLsbD_append, BitVec.getLsbD_append]
  simp

theorem descriptor_offset (h : a.toNat < 2 ^ 29) :
    ((descriptor space write a).extractLsb' 0 29).toNat = a.toNat := by
  rw [descriptor, BitVec.extractLsb'_append_eq_right, offsetField, if_pos h, BitVec.toNat_setWidth,
    Nat.mod_eq_of_lt h]

end

theorem registerOffset_eq (r : BitVec 4) : registerOffset r = BitVec.ofNat 32 (4 * r.toNat) := by
  rw [registerOffset]
  bv_omega

/-- The descriptor of a move is that of the access the statements name for it. -/
theorem moveDescriptor_of_access {m : HostMove} {space : BitVec 2} {write : Bool} {a : Word}
    (h : accessOf m = some (space, write, a)) :
    moveDescriptor m = some (descriptor space write a, !write) := by
  cases m with
  | writeReg r _ | readReg r => cases h; rw [moveDescriptor, registerOffset_eq]; rfl
  | reset => cases h
  | _ => cases h; rfl

/-! ### Moves while BUSY = 1 -/

section
variable {s : State} {m : HostMove}

theorem hostMove_busy (h : statusBusy s.status = true) (m : HostMove) :
    hostMove m s = .next (busyMove m s) := if_pos h

theorem busyMove_access {space : BitVec 2} {write : Bool} {a : Word} (hm : m ≠ .readReg 1)
    (h : accessOf m = some (space, write, a)) :
    busyMove m s = conflict (descriptor space write a) (!write) s := by
  have hreset : m ≠ .reset := by rintro rfl; cases h
  rw [busyMove, if_neg hreset, if_neg hm, moveDescriptor_of_access h]

/-- A STATUS read answers alike whether a command runs or not. -/
theorem hostMove_readStatus (s : State) :
    hostMove (.readReg 1) s = .next { s with hostData := some s.status } := by
  unfold hostMove
  split <;> rfl

/-- A reset is taken alike whether a command runs or not. -/
theorem hostMove_reset (s : State) : hostMove .reset s = .next (resetBlock s) := by
  unfold hostMove
  split <;> rfl

end

/-! ### The obligations -/

/-- Settles O50: every access but a STATUS read is a conflict with the descriptor of that access. -/
theorem busyAccessOnlyLatchesConflict : Obligations.BusyAccessOnlyLatchesConflict := by
  refine ⟨fun m s space write a hbusy hm haccess => ?_, hostMove_readStatus⟩
  refine ⟨_, descriptor space write a, hostMove_busy hbusy m, ?_, descriptor_space ..,
    descriptor_write .., descriptor_offset space write a⟩
  rw [busyMove_access hm haccess]
  cases write <;> rfl

/-- Settles O51: the move is `resetBlock`, which takes from the state its parameters and what the
HOST does next. -/
theorem resetRestoresResetState : Obligations.ResetRestoresResetState := by
  intro s rest hhost
  rw [step_of_move hhost, hostMove_reset]
  rfl

end Sys2Proof.Machine
end
